-- ==== Sys2Proof/Word.lean ====
section
/-! DEFINITION. The word types of the block: bytes of the buffer memories, 32-bit host words and 64-bit
positions (spec 10_state.md R29 to R31, 20_memory.md R95). -/

namespace Sys2Proof

/-- One byte of a buffer memory (R90). -/
abbrev Byte := BitVec 8

/-- One 32-bit host word (R95), also a register of the register file (R32). -/
abbrev Word := BitVec 32

/-- One 64-bit value: a sample position, a byte offset of a seek point, the MD5 byte count (R29 to R31). -/
abbrev DWord := BitVec 64

end Sys2Proof
end

