-- ==== Sys2Proof/Config.lean ====
section
/-! DEFINITION. What is fixed for one block: the parameters of 00_scope.md R8 and the one free value of the model, the
power-on contents of the buffer memories. The limits are ARGUMENTS of the model (R8, 92_eei_decisions.md P1, item U10 of
93_implementation_defined.md): State carries them in its field `params`, every rule reads them there, and a statement
about every state holds for every value of them. The three widths are the widths of types. -/

namespace Sys2Proof

namespace Config

/-- The parameters of a block (R8). No step changes them. -/
structure Params where
  /-- `MAX_BLOCK_SIZE`: samples per channel (R250) -/
  maxBlockSize         : Nat
  /-- `MAX_CHANNELS` (R253) -/
  maxChannels          : Nat
  /-- `MAX_UNARY_VALUE` (R203) -/
  maxUnaryValue        : Nat
  /-- `MAX_SYNC_SEARCH_BYTES` (R422) -/
  maxSyncSearchBytes   : Nat
  /-- `MAX_CONSECUTIVE_ERRORS` (R507) -/
  maxConsecutiveErrors : Nat
  /-- `MAX_SAMPLE_RATE` in Hz (R251) -/
  maxSampleRate        : Nat
  /-- `MAX_METADATA_LEN` in bytes (R262) -/
  maxMetadataLen       : Nat
  /-- `IN_CAP`: bytes of INBUF (R90) -/
  inCap                : Nat
  /-- `SEEK_CAP`: seek points (R460) -/
  seekCap              : Nat
  /-- the reset value of `CRC16_REJECT` (R33) -/
  crc16RejectReset     : Bool
  deriving DecidableEq, Repr

/-- The values of R8. -/
def Params.defaults : Params :=
  { maxBlockSize := 65535
    maxChannels := 8
    maxUnaryValue := 1000000
    maxSyncSearchBytes := 1048576
    maxConsecutiveErrors := 10
    maxSampleRate := 1048575
    maxMetadataLen := 16777215
    inCap := 16777216
    seekCap := 932067
    crc16RejectReset := false }

/-- `SAMPLE_W`: bits of a channel-buffer sample, two's complement (R8, R26). -/
abbrev sampleW : Nat := 32

/-- `ACC_W`: bits of the LPC accumulator, two's complement (R8, R337). -/
abbrev accW : Nat := 64

/-- `OUT_W`: bits of an output PCM sample, two's complement (R8, R380). -/
abbrev outW : Nat := 16

/-- The power-on contents of the buffer memories, by host byte address: unspecified (R93, R610, item U1 of
93_implementation_defined.md: "a model draws every byte"). A FREE VALUE: it has no body, so no proof can see which
byte it is, and a claim that holds, holds for every power-on contents. Assumption log entry 1. -/
opaque powerOnByte : Nat → Byte

end Config

/-- One entry of a channel buffer: an int32 in two's complement (R26). -/
abbrev Sample := BitVec Config.sampleW

end Sys2Proof
end

