-- ==== Sys2Proof/Syntax.lean ====
section
/-! DEFINITION. The instruction syntax: one constructor for each row of spec/opcode_table.json. A command is a word
the host writes to CMD (30_encoding.md R170, R171); every other row is an element of the FLAC bitstream (R120 to R145),
which the block meets while it runs DECODE. -/

namespace Sys2Proof

/-- One instruction of the opcode table. An operand is a bit field of the row that its encoding leaves free; `wasted`
is the wasted-bits flag of a subframe header byte (R130). -/
inductive Instr where
  -- the command words (R171, R175)
  | init
  | decode
  | flush
  | reset
  | seek
  | setStreaminfo
  | setSeektable
  | checkMd5
  /-- Any command word that is none of the eight: its bits [7:0] and its bits [31:8] (R49, R175). -/
  | illegalCommand (opcode : BitVec 8) (zero : BitVec 24)
  -- the first 16 bits of a frame header (R127)
  | frameFixed
  | frameVariable
  /-- The sync code with the reserved bit set; `blocking` is the bit after it (R127). -/
  | frameReservedBit (blocking : Bool)
  -- the subframe header byte (R130, R131)
  | sfConstant (wasted : Bool)
  | sfVerbatim (wasted : Bool)
  | sfFixed0 (wasted : Bool)
  | sfFixed1 (wasted : Bool)
  | sfFixed2 (wasted : Bool)
  | sfFixed3 (wasted : Bool)
  | sfFixed4 (wasted : Bool)
  /-- LPC of order `p + 1` (R131: order = ppppp + 1). -/
  | sfLpc (p : BitVec 5) (wasted : Bool)
  | sfReservedType23 (x : BitVec 1) (wasted : Bool)
  | sfReservedType47 (x : BitVec 2) (wasted : Bool)
  | sfReservedType13 (wasted : Bool)
  | sfReservedType1415 (x : BitVec 1) (wasted : Bool)
  | sfReservedType1631 (x : BitVec 4) (wasted : Bool)
  | sfPadBitSet (x : BitVec 7)
  -- the residual coding method (R141)
  | resRice4
  | resRice5
  | resReserved (x : BitVec 1)
  -- the parameter of a residual partition (R142)
  | rice4Escape
  | rice5Escape
  | rice4Partition (k : BitVec 4)
  | rice5Partition (k : BitVec 5)
  -- the channel assignment of a frame header (R124)
  | chIndependent (c : BitVec 3)
  | chLeftSide
  | chRightSide
  | chMidSide
  | chReserved11
  | chReserved1215 (x : BitVec 2)
  deriving DecidableEq, Repr

end Sys2Proof
end

