-- ==== Sys2Proof/WellFormed.lean ====
section
/-! DEFINITION. Which terms of the syntax are instructions: a row whose encoding leaves a field free but for some
values (opcode_table.json: ILLEGAL_COMMAND, RICE4_PARTITION, RICE5_PARTITION) excludes those values. Every other row
admits every value of its fields. -/

namespace Sys2Proof

/-- `true` when a word with these fields is no command word (R175: "opcode 0x00 or 0x09–0xFF, or bits [31:8] ≠ 0"). -/
def illegalCommandWord (opcode : BitVec 8) (zero : BitVec 24) : Bool :=
  zero != 0 || opcode == 0 || decide (8 < opcode.toNat)

/-- The well-formedness of an instruction. -/
def Instr.wellFormed : Instr → Bool
  | .init => true
  | .decode => true
  | .flush => true
  | .reset => true
  | .seek => true
  | .setStreaminfo => true
  | .setSeektable => true
  | .checkMd5 => true
  | .illegalCommand opcode zero => illegalCommandWord opcode zero
  | .frameFixed => true
  | .frameVariable => true
  | .frameReservedBit _ => true
  | .sfConstant _ => true
  | .sfVerbatim _ => true
  | .sfFixed0 _ => true
  | .sfFixed1 _ => true
  | .sfFixed2 _ => true
  | .sfFixed3 _ => true
  | .sfFixed4 _ => true
  | .sfLpc _ _ => true
  | .sfReservedType23 _ _ => true
  | .sfReservedType47 _ _ => true
  | .sfReservedType13 _ => true
  | .sfReservedType1415 _ _ => true
  | .sfReservedType1631 _ _ => true
  | .sfPadBitSet _ => true
  | .resRice4 => true
  | .resRice5 => true
  | .resReserved _ => true
  | .rice4Escape => true
  | .rice5Escape => true
  | .rice4Partition k => k != 15
  | .rice5Partition k => k != 31
  | .chIndependent _ => true
  | .chLeftSide => true
  | .chRightSide => true
  | .chMidSide => true
  | .chReserved11 => true
  | .chReserved1215 _ => true

end Sys2Proof
end

