-- ==== Sys2Proof/Decode.lean ====
section
/-! DEFINITION. Decoding and encoding. A bitstream element announces no length and no kind of its own (30_encoding.md
R178): where it stands says which field it is. So decoding is a function of the SLOT (which field is read there) and
the field's value, read most significant bit first (R10). It is total and rejects by name. The encoder follows the
decoder. -/

namespace Sys2Proof

/-- The field an instruction is read from. -/
inductive Slot where
  /-- a word written to CMD (R170) -/
  | command
  /-- the first 16 bits of a frame header (R127) -/
  | frame
  /-- the subframe header byte (R130) -/
  | subframe
  /-- the 2-bit residual coding method (R141) -/
  | method
  /-- the 4-bit parameter of a RICE4 partition (R142) -/
  | param4
  /-- the 5-bit parameter of a RICE5 partition (R142) -/
  | param5
  /-- the 4-bit channel assignment (R124) -/
  | assignment
  deriving DecidableEq, Repr

/-- The width of a slot in bits. -/
def Slot.bits : Slot → Nat
  | .command => 32
  | .frame => 16
  | .subframe => 8
  | .method => 2
  | .param4 => 4
  | .param5 => 5
  | .assignment => 4

/-- Why a field's value is no instruction. -/
inductive Reject where
  /-- the 14 bits are not the sync code 0x3FFE (R127): no frame header starts here -/
  | noSync
  /-- the value does not fit the slot's bits: no such field can be read -/
  | tooWide
  deriving DecidableEq, Repr

/-- A word written to CMD (R171). Every word decodes: one that is no command is ILLEGAL_COMMAND (R175). -/
def decodeCommand (w : BitVec 32) : Instr :=
  match w.toNat with
  | 1 => .init
  | 2 => .decode
  | 3 => .flush
  | 4 => .reset
  | 5 => .seek
  | 6 => .setStreaminfo
  | 7 => .setSeektable
  | 8 => .checkMd5
  | _ => .illegalCommand (w.extractLsb' 0 8) (w.extractLsb' 8 24)

/-- The first 16 bits of a frame header, as a big-endian value (R127). -/
def decodeFrame (w : Nat) : Except Reject Instr :=
  if w = 0xFFF8 then .ok .frameFixed
  else if w = 0xFFF9 then .ok .frameVariable
  else if w / 2 = 0x7FFD then .ok (.frameReservedBit (w % 2 == 1))
  else .error .noSync

/-- The subframe header byte `pad ‖ type ‖ wasted flag` (R130, R131). -/
def decodeSubframe (b : Nat) : Instr :=
  let wasted := b % 2 == 1
  let t := b / 2 % 64
  if 128 ≤ b then .sfPadBitSet (BitVec.ofNat 7 b)
  else if t = 0 then .sfConstant wasted
  else if t = 1 then .sfVerbatim wasted
  else if t ≤ 3 then .sfReservedType23 (BitVec.ofNat 1 t) wasted
  else if t ≤ 7 then .sfReservedType47 (BitVec.ofNat 2 t) wasted
  else if t = 8 then .sfFixed0 wasted
  else if t = 9 then .sfFixed1 wasted
  else if t = 10 then .sfFixed2 wasted
  else if t = 11 then .sfFixed3 wasted
  else if t = 12 then .sfFixed4 wasted
  else if t = 13 then .sfReservedType13 wasted
  else if t ≤ 15 then .sfReservedType1415 (BitVec.ofNat 1 t) wasted
  else if t ≤ 31 then .sfReservedType1631 (BitVec.ofNat 4 t) wasted
  else .sfLpc (BitVec.ofNat 5 t) wasted

/-- The residual coding method (R141). -/
def decodeMethod (m : Nat) : Instr :=
  if m = 0 then .resRice4 else if m = 1 then .resRice5 else .resReserved (BitVec.ofNat 1 m)

/-- The parameter of a RICE4 partition: all ones is the escape (R141, R142). -/
def decodeParam4 (r : Nat) : Instr :=
  if r = 15 then .rice4Escape else .rice4Partition (BitVec.ofNat 4 r)

/-- The parameter of a RICE5 partition: all ones is the escape (R141, R142). -/
def decodeParam5 (r : Nat) : Instr :=
  if r = 31 then .rice5Escape else .rice5Partition (BitVec.ofNat 5 r)

/-- The channel assignment (R124). -/
def decodeAssignment (a : Nat) : Instr :=
  if a ≤ 7 then .chIndependent (BitVec.ofNat 3 a)
  else if a = 8 then .chLeftSide
  else if a = 9 then .chRightSide
  else if a = 10 then .chMidSide
  else if a = 11 then .chReserved11
  else .chReserved1215 (BitVec.ofNat 2 a)

/-- The instruction whose field in slot `slot` has the value `w`. -/
def decode (slot : Slot) (w : Nat) : Except Reject Instr :=
  if 2 ^ slot.bits ≤ w then .error .tooWide
  else
    match slot with
    | .command => .ok (decodeCommand (BitVec.ofNat 32 w))
    | .frame => decodeFrame w
    | .subframe => .ok (decodeSubframe w)
    | .method => .ok (decodeMethod w)
    | .param4 => .ok (decodeParam4 w)
    | .param5 => .ok (decodeParam5 w)
    | .assignment => .ok (decodeAssignment w)

/-- The slot an instruction is read from. -/
def Instr.slot : Instr → Slot
  | .init => .command
  | .decode => .command
  | .flush => .command
  | .reset => .command
  | .seek => .command
  | .setStreaminfo => .command
  | .setSeektable => .command
  | .checkMd5 => .command
  | .illegalCommand _ _ => .command
  | .frameFixed => .frame
  | .frameVariable => .frame
  | .frameReservedBit _ => .frame
  | .sfConstant _ => .subframe
  | .sfVerbatim _ => .subframe
  | .sfFixed0 _ => .subframe
  | .sfFixed1 _ => .subframe
  | .sfFixed2 _ => .subframe
  | .sfFixed3 _ => .subframe
  | .sfFixed4 _ => .subframe
  | .sfLpc _ _ => .subframe
  | .sfReservedType23 _ _ => .subframe
  | .sfReservedType47 _ _ => .subframe
  | .sfReservedType13 _ => .subframe
  | .sfReservedType1415 _ _ => .subframe
  | .sfReservedType1631 _ _ => .subframe
  | .sfPadBitSet _ => .subframe
  | .resRice4 => .method
  | .resRice5 => .method
  | .resReserved _ => .method
  | .rice4Escape => .param4
  | .rice5Escape => .param5
  | .rice4Partition _ => .param4
  | .rice5Partition _ => .param5
  | .chIndependent _ => .assignment
  | .chLeftSide => .assignment
  | .chRightSide => .assignment
  | .chMidSide => .assignment
  | .chReserved11 => .assignment
  | .chReserved1215 _ => .assignment

/-- The header byte of a subframe with pad bit 0, type `t` and wasted-bits flag `wasted` (R130). -/
def subframeByte (t : Nat) (wasted : Bool) : Nat := 2 * t + wasted.toNat

/-- The field value of an instruction, in the slot `i.slot`: R171 for the commands, R127, R131, R141, R142 and R124
for the bitstream elements. -/
def encode : Instr → Nat
  | .init => 1
  | .decode => 2
  | .flush => 3
  | .reset => 4
  | .seek => 5
  | .setStreaminfo => 6
  | .setSeektable => 7
  | .checkMd5 => 8
  | .illegalCommand opcode zero => zero.toNat * 256 + opcode.toNat
  | .frameFixed => 0xFFF8
  | .frameVariable => 0xFFF9
  | .frameReservedBit blocking => 0xFFFA + blocking.toNat
  | .sfConstant wasted => subframeByte 0 wasted
  | .sfVerbatim wasted => subframeByte 1 wasted
  | .sfFixed0 wasted => subframeByte 8 wasted
  | .sfFixed1 wasted => subframeByte 9 wasted
  | .sfFixed2 wasted => subframeByte 10 wasted
  | .sfFixed3 wasted => subframeByte 11 wasted
  | .sfFixed4 wasted => subframeByte 12 wasted
  | .sfLpc p wasted => subframeByte (32 + p.toNat) wasted
  | .sfReservedType23 x wasted => subframeByte (2 + x.toNat) wasted
  | .sfReservedType47 x wasted => subframeByte (4 + x.toNat) wasted
  | .sfReservedType13 wasted => subframeByte 13 wasted
  | .sfReservedType1415 x wasted => subframeByte (14 + x.toNat) wasted
  | .sfReservedType1631 x wasted => subframeByte (16 + x.toNat) wasted
  | .sfPadBitSet x => 128 + x.toNat
  | .resRice4 => 0
  | .resRice5 => 1
  | .resReserved x => 2 + x.toNat
  | .rice4Escape => 15
  | .rice5Escape => 31
  | .rice4Partition k => k.toNat
  | .rice5Partition k => k.toNat
  | .chIndependent c => c.toNat
  | .chLeftSide => 8
  | .chRightSide => 9
  | .chMidSide => 10
  | .chReserved11 => 11
  | .chReserved1215 x => 12 + x.toNat

/-- The slot that a number of bits names when nothing else is known. The table's fields of fewer than 8 bits are no
whole bytes: a value of 8 bits is a subframe header byte, and of the two 4-bit fields the channel assignment is taken
(assumption log entry 6). -/
def slotOfBits (nbits : Nat) : Option Slot :=
  match nbits with
  | 32 => some .command
  | 16 => some .frame
  | 8 => some .subframe
  | 5 => some .param5
  | 4 => some .assignment
  | 2 => some .method
  | _ => none

/-- The instruction the decoder reads from a word of spec/opcode_table.json of `nbits` bits. -/
def decodeTableWord (nbits w : Nat) : Option Instr :=
  match slotOfBits nbits with
  | some slot => (decode slot w).toOption
  | none => none

end Sys2Proof
end

