-- ==== Sys2Proof/Machine/State.lean ====
section
/-! DEFINITION. The state of one block and of the host accesses it still has to perform (10_state.md R20, 20_memory.md
R90), the reasons a step can stop, and the state after power-on (70_reset_and_hazards.md R610). Plain data. -/

namespace Sys2Proof.Machine

/-- Why the machine would stop with a fault. The type has NO constructor: the block has no traps (60_exceptions.md
R575), a failure is recorded in ERROR and STATUS and the machine goes on, and every host address can be accessed
(R97, R108). Raised by nobody. -/
inductive Fault where
  deriving DecidableEq, Repr

/-- Why a step has no meaning. -/
inductive Refusal where
  /-- Raised by an arm of `exec` for an instruction that has no meaning yet, under its mnemonic in
  spec/opcode_table.json; no arm raises it now. Safe: the machine stops where the hardware goes on. -/
  | notModelled (mnemonic : String)
  deriving DecidableEq, Repr

/-- `DSTATE` (R21). -/
inductive DState where
  | uninitialized
  | initialized
  | decoding
  | decoderError
  | endOfStream
  deriving DecidableEq, Repr

/-- `STATUS.MD5_RESULT` (R34). -/
inductive Md5Result where
  | noResult
  | matched
  | mismatch
  | notChecked
  deriving DecidableEq, Repr

/-- `ERROR.CODE` (R560). -/
inductive ErrorCode where
  | noError
  | illegalCommand
  | illegalState
  | noStreaminfo
  | streaminfoInvalid
  | seektableInvalid
  | badLength
  | syncLost
  | headerInvalid
  | subframeError
  | crc16Mismatch
  deriving DecidableEq, Repr

/-- A failure cause: the names of R562, and the internal header cause NO_SYNC (R401). -/
inductive Cause where
  -- header causes (R401)
  | noSync
  | reservedBit
  | reservedBlockSize
  | blockSize
  | reservedRate
  | rate
  | reservedChannels
  | channelMismatch
  | reservedSampleSize
  | bps
  | bpsMismatch
  | codedNumber
  | truncated
  | crc8
  -- subframe causes
  | padBit
  | reservedType
  | order
  | wastedBits
  | lpcPrecision
  | lpcShift
  | reservedMethod
  | partitionOrder
  | riceOverflow
  | residualInt32Min
  | sampleRange
  | underrun
  | unaryCap
  -- INIT and SET_SEEKTABLE causes (R520, R460)
  | siRate
  | siChannels
  | siBps
  | siMinBlock
  | siBlockOrder
  | stTooLarge
  -- footer causes (R430)
  | footerMismatch
  | missingFooter
  deriving DecidableEq, Repr

/-- The bits of STATUS that a command stores (R34). STATE, SI_VALID and MD5_TAINTED show other state and have no
storage of their own. -/
structure StatusBits where
  cmdOk         : Bool
  crc16Mismatch : Bool
  silenced      : Bool
  recovered     : Bool
  md5Result     : Md5Result
  deriving DecidableEq, Repr

/-- ERROR (R35). -/
structure ErrorReg where
  code         : ErrorCode
  cause        : BitVec 8
  channel      : BitVec 3
  channelValid : Bool
  deriving DecidableEq, Repr

/-- CONFIG (R33). -/
structure ConfigReg where
  md5En       : Bool
  crc16Reject : Bool
  deriving DecidableEq, Repr

/-- Sixteen bytes as four words: byte j stands in byte lane j mod 4 of word j div 4, as the MD5_DIGEST and SI_MD5
registers show it (R46, R48). -/
structure Digest where
  w0 : Word
  w1 : Word
  w2 : Word
  w3 : Word
  deriving DecidableEq, Repr

/-- The STREAMINFO registers (R28, R48). -/
structure StreamInfo where
  minBlock : BitVec 16
  maxBlock : BitVec 16
  minFrame : BitVec 24
  maxFrame : BitVec 24
  rate     : BitVec 20
  channels : BitVec 4
  bps      : BitVec 6
  total    : BitVec 36
  md5      : Digest
  deriving DecidableEq, Repr

/-- A seek point (R29, R151). -/
structure SeekPoint where
  sample       : DWord
  offset       : DWord
  frameSamples : BitVec 16
  deriving DecidableEq, Repr

/-- The MD5 engine (R30). -/
structure Md5State where
  a       : Word
  b       : Word
  c       : Word
  d       : Word
  buf     : List Byte
  len     : DWord
  tainted : Bool
  deriving DecidableEq, Repr

/-- The AudioFrame registers OUT_SAMPLES, OUT_CHANNELS, OUT_RATE, OUT_BPS (R41). OUT_TS has a field of its own. -/
structure AudioFrame where
  samples  : BitVec 16
  channels : BitVec 4
  rate     : BitVec 20
  bps      : BitVec 6
  deriving DecidableEq, Repr

/-- The event counters (R45). -/
structure Counters where
  framesOk      : Word
  decodeFail    : Word
  syncRecovered : Word
  crc8Err       : Word
  crc16Err      : Word
  subframeErr   : Word
  deriving DecidableEq, Repr

/-- The last-header registers (R47). -/
structure HeaderRegs where
  blockSize     : BitVec 16
  rate          : BitVec 20
  assign        : BitVec 4
  count         : BitVec 4
  bps           : BitVec 6
  number        : BitVec 36
  blocking      : Bool
  crc8          : BitVec 8
  crc16Read     : BitVec 16
  crc16Computed : BitVec 16
  deriving DecidableEq, Repr

/-- Which element of the bitstream the block reads next while it runs a DECODE; `idle` outside a DECODE. -/
inductive Phase where
  | idle
  /-- the first 16 bits of a frame header at the candidate offset `frameStart` (R400, R420) -/
  | header
  /-- the channel assignment inside a frame header (R121, field 6) -/
  | assignment
  /-- the header byte of the subframe of channel `chan` (R130) -/
  | subframe
  /-- the coding method of the residual of channel `chan` (R140) -/
  | residual
  /-- the parameter of partition `part` of that residual (R142) -/
  | partition
  /-- every subframe is decoded or silenced: the channel assignment is carried out and the frame delivered (R360) -/
  | decorrelate
  deriving DecidableEq, Repr

/-- The subframe types (R131). -/
inductive SubKind where
  | constant
  | verbatim
  | fixed
  | lpc
  deriving DecidableEq, Repr

/-- The frame header being decoded (R121, R400): its codes as read and the values resolved from them. -/
structure FrameHeader where
  blocking  : Bool
  bsCode    : Nat
  srCode    : Nat
  assign    : BitVec 4
  blockSize : Nat
  rate      : Nat
  channels  : Nat
  bps       : Nat
  number    : Nat
  crc8      : Nat
  deriving DecidableEq, Repr

/-- What a FIXED or LPC subframe has read before its residual (R324, R335): predictor, wasted bits w, effective depth
E, the warm-up samples in order, and for LPC the coefficients and the shift. -/
structure Predictor where
  kind   : SubKind
  order  : Nat
  wasted : Nat
  depth  : Nat
  warmup : List Int
  coefs  : List Int
  shift  : Nat
  deriving DecidableEq, Repr

/-- The state inside a DECODE: the bit cursor and the frame start (R24, R25), where in the frame the block stands, and
the values the pseudocode of R280 to R430 and R500 carries from one element to the next. Outside a DECODE it is
`DecodeCtx.unset`. -/
structure DecodeCtx where
  phase      : Phase
  /-- the stream bit index 8·byte_pos + bit_pos (R10, R24) -/
  cursor     : Nat
  /-- the candidate offset, then the frame start (R25, R420) -/
  frameStart : Nat
  /-- e0, the failure of the header at offset 0 (R420) -/
  firstErr   : Cause
  header     : FrameHeader
  /-- the channel c whose subframe is being decoded (R500) -/
  chan       : Nat
  pred       : Predictor
  /-- coding method of the residual: false RICE4, true RICE5 (R141) -/
  rice5      : Bool
  partOrder  : Nat
  part       : Nat
  /-- the residuals decoded so far (R280) -/
  res        : List Int
  /-- the first failing channel and its cause (R500) -/
  failed     : Option (Nat × Cause)
  /-- the CRC-16 warning (R430) -/
  warn       : Option Cause
  deriving DecidableEq, Repr

/-- The widths a host access can have, in bytes 1, 2, 4, 8 (R96: only 4 is defined, the others have no effect). -/
inductive AccessSize where
  | byte
  | half
  | word
  | double
  deriving DecidableEq, Repr

/-- One access of the host to the block's address space (R94 to R97). -/
inductive HostAccess where
  | read  (size : AccessSize) (addr : Word)
  | write (size : AccessSize) (addr : Word) (data : Word)
  deriving DecidableEq, Repr

/-- The whole state. -/
structure State where
  /-- the parameters of the block (R8): an argument of the model, no step changes it -/
  params       : Config.Params
  /-- `DSTATE` (R21) -/
  dstate       : DState
  /-- `CONSEC` (R23) -/
  consec       : Nat
  /-- the bit cursor, `frame_start` and the rest of the state inside a DECODE (R24, R25) -/
  dec          : DecodeCtx
  /-- the channel buffers `CH[0..7]` (R26): eight rows, each without its trailing zeros -/
  ch           : List (List Sample)
  /-- the STREAMINFO registers and `SI_VALID` (R28) -/
  si           : StreamInfo
  siValid      : Bool
  /-- the seek table `ST[0..ST_LOADED−1]`; ST_LOADED is its length (R29, R38) -/
  st           : List SeekPoint
  /-- the MD5 engine (R30) -/
  md5          : Md5State
  /-- `POS` and `pos_hi_latch` (R31) -/
  pos          : DWord
  posHiLatch   : Word
  /-- STATUS, ERROR, CONFIG (R33 to R35) -/
  status       : StatusBits
  err          : ErrorReg
  cfg          : ConfigReg
  /-- `IN_LEN`, `ST_COUNT`, `SEEK_TARGET_LO`, `SEEK_TARGET_HI` (R37 to R39) -/
  inLen        : Word
  stCount      : Word
  seekTargetLo : Word
  seekTargetHi : Word
  /-- the AudioFrame registers and `OUT_TS` (R41, R42) -/
  out          : AudioFrame
  outTs        : DWord
  /-- `SEEK_SAMPLE`, `SEEK_OFFSET` (R43) -/
  seekSample   : DWord
  seekOffset   : DWord
  /-- `FRAME_OFFSET`, `FRAME_BYTES` (R44) -/
  frameOffset  : Word
  frameBytes   : Word
  /-- the event counters (R45) -/
  cnt          : Counters
  /-- `MD5_DIGEST0–3` (R46) -/
  md5Digest    : Digest
  /-- `HDR_*` (R47) -/
  hdr          : HeaderRegs
  /-- the buffer memories SI_BUF, INBUF, ST_BUF, OUTBUF by host byte address (R90, R94): the bytes written since
  power-on, addresses strictly rising -/
  mem          : List Host.Cell
  /-- the accesses the host has still to perform, in its program order (R101) -/
  host         : List HostAccess
  /-- the word the last host read returned (the model's own field) -/
  readData     : Word
  deriving DecidableEq, Repr

/-- A digest of sixteen zero bytes. -/
def Digest.zero : Digest := { w0 := 0, w1 := 0, w2 := 0, w3 := 0 }

/-- The frame header before one is read. -/
def FrameHeader.unset : FrameHeader :=
  { blocking := false, bsCode := 0, srCode := 0, assign := 0, blockSize := 0, rate := 0, channels := 0, bps := 0,
    number := 0, crc8 := 0 }

/-- The predictor before one is read. -/
def Predictor.unset : Predictor :=
  { kind := .constant, order := 0, wasted := 0, depth := 0, warmup := [], coefs := [], shift := 0 }

/-- The state inside a DECODE while none runs (R24, R610: "unset"). -/
def DecodeCtx.unset : DecodeCtx :=
  { phase := .idle, cursor := 0, frameStart := 0, firstErr := .noSync, header := .unset, chan := 0, pred := .unset,
    rice5 := false, partOrder := 0, part := 0, res := [], failed := none, warn := none }

/-- The MD5 engine after a clear (R550, the chaining values of RFC 1321). -/
def Md5State.cleared : Md5State :=
  { a := 0x67452301, b := 0xEFCDAB89, c := 0x98BADCFE, d := 0x10325476, buf := [], len := 0, tainted := false }

/-- The eight channel buffers, every sample 0 (R26). -/
def clearedChannels : List (List Sample) := [[], [], [], [], [], [], [], []]

/-- Power-on of a block with the parameters `p` (R610). The buffer memories list nothing: every byte of them is
unspecified (R93). The host has no access under way. -/
def State.resetWith (p : Config.Params) : State :=
  { params := p
    dstate := .uninitialized
    consec := 0
    dec := .unset
    ch := clearedChannels
    si :=
      { minBlock := 0, maxBlock := 0, minFrame := 0, maxFrame := 0, rate := 0, channels := 0, bps := 0, total := 0,
        md5 := .zero }
    siValid := false
    st := []
    md5 := .cleared
    pos := 0
    posHiLatch := 0
    status :=
      { cmdOk := false, crc16Mismatch := false, silenced := false, recovered := false, md5Result := .noResult }
    err := { code := .noError, cause := 0, channel := 0, channelValid := false }
    cfg := { md5En := false, crc16Reject := p.crc16RejectReset }
    inLen := 0
    stCount := 0
    seekTargetLo := 0
    seekTargetHi := 0
    out := { samples := 0, channels := 0, rate := 0, bps := 0 }
    outTs := 0
    seekSample := 0
    seekOffset := 0
    frameOffset := 0
    frameBytes := 0
    cnt :=
      { framesOk := 0, decodeFail := 0, syncRecovered := 0, crc8Err := 0, crc16Err := 0, subframeErr := 0 }
    md5Digest := .zero
    hdr :=
      { blockSize := 0, rate := 0, assign := 0, count := 0, bps := 0, number := 0, blocking := false, crc8 := 0,
        crc16Read := 0, crc16Computed := 0 }
    mem := []
    host := []
    readData := 0 }

/-- Power-on with the parameter values of R8. -/
def State.reset : State := State.resetWith .defaults

end Sys2Proof.Machine
end

