-- ==== Sys2Proof/Machine/Flags.lean ====
section
/-! DEFINITION. The code numbers and the words of STATUS and ERROR (10_state.md R34, R35, 60_exceptions.md R560, R562),
and the validation gates and overflow-safe helpers of 42_validation.md (R250 to R268). All are pure functions of exact
integers. -/

namespace Sys2Proof.Machine

/-- STATUS.STATE (R21). -/
def DState.number : DState → BitVec 3
  | .uninitialized => 0
  | .initialized => 1
  | .decoding => 2
  | .decoderError => 3
  | .endOfStream => 4

/-- STATUS.MD5_RESULT (R34). -/
def Md5Result.number : Md5Result → BitVec 2
  | .noResult => 0
  | .matched => 1
  | .mismatch => 2
  | .notChecked => 3

/-- ERROR.CODE (R560). -/
def ErrorCode.number : ErrorCode → BitVec 8
  | .noError => 0
  | .illegalCommand => 1
  | .illegalState => 2
  | .noStreaminfo => 3
  | .streaminfoInvalid => 4
  | .seektableInvalid => 5
  | .badLength => 6
  | .syncLost => 7
  | .headerInvalid => 8
  | .subframeError => 9
  | .crc16Mismatch => 10

/-- ERROR.CAUSE (R562). NO_SYNC is internal and has no number of its own: it is reported as SYNC_LOST with cause 0. -/
def Cause.number : Cause → BitVec 8
  | .noSync => 0
  | .reservedBit => 1
  | .reservedBlockSize => 2
  | .blockSize => 3
  | .reservedRate => 4
  | .rate => 5
  | .reservedChannels => 6
  | .channelMismatch => 7
  | .reservedSampleSize => 8
  | .bps => 9
  | .bpsMismatch => 10
  | .codedNumber => 11
  | .truncated => 12
  | .crc8 => 13
  | .padBit => 32
  | .reservedType => 33
  | .order => 34
  | .wastedBits => 35
  | .lpcPrecision => 36
  | .lpcShift => 37
  | .reservedMethod => 38
  | .partitionOrder => 39
  | .riceOverflow => 40
  | .residualInt32Min => 41
  | .sampleRange => 42
  | .underrun => 43
  | .unaryCap => 44
  | .siRate => 64
  | .siChannels => 65
  | .siBps => 66
  | .siMinBlock => 67
  | .siBlockOrder => 68
  | .stTooLarge => 80
  | .footerMismatch => 96
  | .missingFooter => 97

/-- The word of STATUS (R32, R34): reserved bits, MD5_TAINTED, MD5_RESULT, SI_VALID, RECOVERED, SILENCED,
CRC16_MISMATCH, CMD_OK, STATE. -/
def State.statusWord (s : State) : Word :=
  0#21 ++ BitVec.ofBool s.md5.tainted ++ s.status.md5Result.number ++ BitVec.ofBool s.siValid
    ++ BitVec.ofBool s.status.recovered ++ BitVec.ofBool s.status.silenced
    ++ BitVec.ofBool s.status.crc16Mismatch ++ BitVec.ofBool s.status.cmdOk ++ s.dstate.number

/-- The word of ERROR (R32, R35): reserved bits, CHANNEL_VALID, CHANNEL, CAUSE, CODE. -/
def State.errorWord (s : State) : Word :=
  0#12 ++ BitVec.ofBool s.err.channelValid ++ s.err.channel ++ s.err.cause ++ s.err.code.number

/-- The word of CONFIG (R32, R33): bits [31:2] read zero. -/
def State.configWord (s : State) : Word :=
  0#30 ++ BitVec.ofBool s.cfg.crc16Reject ++ BitVec.ofBool s.cfg.md5En

/-! The gates (R250 to R263). -/

/-- R250. -/
def validBlockSize (p : Config.Params) (b : Nat) (allowSmall : Bool) : Bool :=
  decide ((if allowSmall then 1 else 16) ≤ b) && decide (b ≤ p.maxBlockSize)

/-- R251. -/
def validSampleRate (p : Config.Params) (r : Nat) : Bool :=
  r == 0 || (decide (1 ≤ r) && decide (r ≤ p.maxSampleRate))

/-- R252. -/
def validBitDepth (n : Nat) : Bool :=
  n == 0 || (decide (4 ≤ n) && decide (n ≤ 32))

/-- R253. -/
def validChannelCount (p : Config.Params) (c : Nat) : Bool :=
  decide (1 ≤ c) && decide (c ≤ p.maxChannels)

/-- R254: partition order `o`, block size `b`, predictor order `k`. -/
def validPartitionOrder (o b k : Nat) : Bool :=
  decide (o ≤ 15) && b % 2 ^ o == 0 && decide (k < b / 2 ^ o)

/-- R255. -/
def validLpcOrder (p b : Nat) : Bool :=
  decide (1 ≤ p) && decide (p ≤ 32) && decide (p < b)

/-- R256. -/
def validFixedOrder (k b : Nat) : Bool :=
  decide (k ≤ 4) && decide (k < b)

/-- R257. -/
def fitsSigned (v : Int) (n : Nat) : Bool :=
  decide (-((2 ^ (n - 1) : Nat) : Int) ≤ v) && decide (v ≤ ((2 ^ (n - 1) : Nat) : Int) - 1)

/-- R258: a residual is never −2^31. -/
def validResidual (v : Int) : Bool := v != -2147483648

/-- R259. -/
def validShift (sh : Int) : Bool :=
  decide (0 ≤ sh) && decide (sh ≤ 31)

/-- R260. -/
def validWasted (w n : Nat) : Bool := decide (w < n)

/-- R261. -/
def validEffectiveDepth (e : Nat) : Bool :=
  decide (1 ≤ e) && decide (e ≤ 33)

/-- R262. -/
def validMetadataLength (p : Config.Params) (len : Nat) : Bool := decide (len ≤ p.maxMetadataLen)

/-- R263. -/
def validPrecision (p : Nat) : Bool := p != 15

/-! The overflow-safe helpers (R264 to R268): `none` is the pair (false, ⊥) whose second part nobody reads. -/

/-- R264. No rule of the block applies it (R270). -/
def checkMul (a b : Nat) : Option Nat :=
  if a * b ≤ 4294967295 then some (a * b) else none

/-- R265. No rule of the block applies it (R270). -/
def checkAdd (a b : Nat) : Option Nat :=
  if a + b ≤ 4294967295 then some (a + b) else none

/-- R266. -/
def checkShift (a k : Nat) : Option Nat :=
  if a * 2 ^ k ≤ 4294967295 then some (a * 2 ^ k) else none

/-- R267. -/
def checkSignedShift (v : Int) (k : Nat) : Option Int :=
  if fitsSigned (v * (2 ^ k : Nat)) Config.sampleW then some (v * (2 ^ k : Nat)) else none

/-- R268. -/
def toInt32 (v : Int) : Option Int :=
  if fitsSigned v Config.sampleW then some v else none

/-- The range gate on a predicted sample (44_subframe.md R331). -/
def narrow (v : Int) (e : Nat) : Option Int :=
  if fitsSigned v (min e Config.sampleW) then some v else none

end Sys2Proof.Machine
end

