-- ==== Sys2Proof/Machine/Ops.lean ====
section
/-! DEFINITION. The shared operations: integer primitives (00_scope.md R11), the buffer memories (20_memory.md R90 to
R97), the channel buffers (10_state.md R26), how a command completes or is refused (49_codec.md R490), the three
outcomes of a decode (R507, R513) and the clearing of the stream (R532). The block has no traps: what an exception is
to a processor, a recorded failure is here (60_exceptions.md R575), and `State.refuse`, `State.decodeFailed` and
`State.partialOutcome` are the places where one is recorded. -/

namespace Sys2Proof.Machine

/-! Integer primitives. -/

/-- `sext_N` (R11): the value of an n-bit two's complement field. -/
def sext (n v : Nat) : Int :=
  if v / 2 ^ (n - 1) % 2 = 1 then (v : Int) - (2 ^ n : Nat) else v

/-- `v asr k` (R11): the quotient by 2^k, rounded toward minus infinity. -/
def asr (v : Int) (k : Nat) : Int := v / (2 ^ k : Nat)

/-- `clamp` (R11). -/
def clamp (v lo hi : Int) : Int := min (max v lo) hi

/-- `wrap_32` (R11), as the int32 that is stored. -/
def wrap32 (v : Int) : Sample := BitVec.ofInt Config.sampleW v

/-! The buffer memories. -/

/-- The bytes written since power-on, by host byte address. -/
abbrev Memory := List Host.Cell

/-- What a byte that nothing has written reads as: its unspecified power-on contents (R93). -/
def Memory.unlisted (a : Nat) : Byte := Config.powerOnByte a

/-- The byte written last at `a`, if one was written since power-on. -/
def Memory.find (m : Memory) (a : Nat) : Option Byte :=
  match m with
  | [] => none
  | (b, v) :: rest => if a = b then some v else Memory.find rest a

/-- The byte at `a` (R12 MemRead). -/
def Memory.read (m : Memory) (a : Nat) : Byte := (m.find a).getD (Memory.unlisted a)

/-- Writing the byte `v` at `a` keeps the addresses rising. -/
def Memory.write (m : Memory) (a : Nat) (v : Byte) : Memory :=
  match m with
  | [] => [(a, v)]
  | (b, u) :: rest =>
    if a < b then (a, v) :: (b, u) :: rest
    else if a = b then (a, v) :: rest
    else (b, u) :: Memory.write rest a v

/-- Writing a byte sequence from `a` up (R12 MemWrite). -/
def Memory.writeBytes (m : Memory) (a : Nat) (bytes : List Byte) : Memory :=
  match bytes with
  | [] => m
  | v :: rest => Memory.writeBytes (m.write a v) (a + 1) rest

/-- The canonical form: addresses strictly rising. An entry says that its byte was written since power-on, which no
unlisted byte was, so no entry equals what an unlisted address holds; equal memories are equal lists. -/
def Memory.wf (m : Memory) : Bool :=
  match m with
  | [] => true
  | [_] => true
  | (a, _) :: (b, u) :: rest => decide (a < b) && Memory.wf ((b, u) :: rest)

/-- The bases and sizes of the buffer regions in the host address space (R90, R94). -/
def siBufBase : Nat := 0x00000100
def siBufSize : Nat := 34
def inbufBase : Nat := 0x10000000
def stBufBase : Nat := 0x20000000
def stBufSize (p : Config.Params) : Nat := 18 * p.seekCap
def outbufBase : Nat := 0x30000000
def outbufSize (p : Config.Params) : Nat := 2 * p.maxBlockSize * p.maxChannels

/-- `true` when the host address `a` is a byte of a buffer that the host may write: SI_BUF, INBUF, ST_BUF (R94). -/
def hostWritable (p : Config.Params) (a : Nat) : Bool :=
  (decide (siBufBase ≤ a) && decide (a < siBufBase + siBufSize))
    || (decide (inbufBase ≤ a) && decide (a < inbufBase + p.inCap))
    || (decide (stBufBase ≤ a) && decide (a < stBufBase + stBufSize p))

/-- `true` when the host address `a` is a byte of OUTBUF (R94). -/
def inOutbuf (p : Config.Params) (a : Nat) : Bool := decide (outbufBase ≤ a) && decide (a < outbufBase + outbufSize p)

/-- Byte `i` of INBUF (R90). -/
def State.inByte (s : State) (i : Nat) : Byte := Memory.read s.mem (inbufBase + i)

/-- Byte `i` of SI_BUF. -/
def State.siByte (s : State) (i : Nat) : Byte := Memory.read s.mem (siBufBase + i)

/-- Byte `i` of ST_BUF. -/
def State.stByte (s : State) (i : Nat) : Byte := Memory.read s.mem (stBufBase + i)

/-- Byte `i` of OUTBUF. -/
def State.outByte (s : State) (i : Nat) : Byte := Memory.read s.mem (outbufBase + i)

/-- The value of a big-endian byte sequence (R98). -/
def beValue (bytes : List Byte) : Nat := bytes.foldl (fun v b => 256 * v + b.toNat) 0

/-- The word whose byte lanes 0 to 3 hold the four bytes (R95, little-endian lanes). -/
def wordOfLanes (b0 b1 b2 b3 : Byte) : Word := b3 ++ b2 ++ b1 ++ b0

/-- Byte lane `k` of a word (R95). -/
def laneOf (w : Word) (k : Nat) : Byte := w.extractLsb' (8 * k) 8

/-- The `n` low bytes of an integer in two's complement, least significant first (R92, R551). -/
def leBytes (n : Nat) (v : Int) : List Byte :=
  (List.range n).map fun j => BitVec.ofInt 8 (v / (2 ^ (8 * j) : Nat))

/-! The channel buffers. -/

/-- A row of the channel buffers without its trailing zeros: the samples past the end of the list are 0. -/
def trimZeros : List Sample → List Sample
  | [] => []
  | x :: xs =>
    match trimZeros xs with
    | [] => if x = 0 then [] else [x]
    | y :: ys => x :: y :: ys

/-- `CH[c][i]` as an exact integer (R26). -/
def State.sample (s : State) (c i : Nat) : Int := ((s.ch.getD c []).getD i 0).toInt

/-- `CH[c][0 .. b−1]`. -/
def State.samples (s : State) (c b : Nat) : List Int := (List.range b).map fun i => s.sample c i

/-- Writes `CH[c][0 .. n−1]`, n the length of `xs`; the rest of the row stays (R26, R310). -/
def State.writeChannel (s : State) (c : Nat) (xs : List Int) : State :=
  { s with ch := s.ch.set c (trimZeros (xs.map wrap32 ++ (s.ch.getD c []).drop xs.length)) }

/-- Writes 0 to the first `b` samples of the `n` channels from `c` up (R505). -/
def State.silenceChannels (s : State) (c b : Nat) : Nat → State
  | 0 => s
  | n + 1 => (s.writeChannel c (List.replicate b 0)).silenceChannels (c + 1) b n

/-! How a command ends (R490). -/

/-- `complete(ok)`. -/
def State.complete (s : State) : State :=
  { s with
    status := { s.status with cmdOk := true }
    err := { code := .noError, cause := 0, channel := 0, channelValid := false } }

/-- `complete(warn(code, cause))`. -/
def State.completeWarn (s : State) (code : ErrorCode) (cause : BitVec 8) : State :=
  { s with
    status := { s.status with cmdOk := true }
    err := { code := code, cause := cause, channel := 0, channelValid := false } }

/-- `raise CmdFail(code, cause)`: the command is refused; CMD_OK and ERROR are all that changes (R490, R561). -/
def State.refuse (s : State) (code : ErrorCode) (cause : BitVec 8) : State :=
  { s with
    status := { s.status with cmdOk := false }
    err := { code := code, cause := cause, channel := 0, channelValid := false } }

/-- The DECODE is over: nothing of the state inside it persists (R20, R24). -/
def State.endDecode (s : State) : State := { s with dec := .unset }

/-- `CountFailure` (R507). -/
def State.countFailure (s : State) : State :=
  { s with
    cnt := { s.cnt with decodeFail := s.cnt.decodeFail + 1 }
    consec := s.consec + 1
    dstate := if s.params.maxConsecutiveErrors < s.consec + 1 then .decoderError else s.dstate }

/-- Outcome SUCCESS with or without a CRC-16 warning (R507, R513). -/
def State.successOutcome (s : State) (warn : Option Cause) : State :=
  let s1 :=
    { s with
      cnt := { s.cnt with framesOk := s.cnt.framesOk + 1 }
      consec := 0
      dstate := if s.dstate = DState.initialized then .decoding else s.dstate }
  match warn with
  | none => s1.complete.endDecode
  | some c => (s1.completeWarn .crc16Mismatch c.number).endDecode

/-- Outcome PARTIAL: channel `c` failed with `cause` (R513). -/
def State.partialOutcome (s : State) (c : Nat) (cause : Cause) : State :=
  ({ s.countFailure with
    status := { s.status with cmdOk := false }
    err :=
      { code := .subframeError, cause := cause.number, channel := BitVec.ofNat 3 c,
        channelValid := true } }).endDecode

/-- The AudioFrame registers of a call that delivers nothing (R41, R511). -/
def AudioFrame.empty : AudioFrame := { samples := 0, channels := 0, rate := 0, bps := 0 }

/-- Outcome FAIL: no frame is delivered (R511, R513). -/
def State.decodeFailed (s : State) (code : ErrorCode) (cause : BitVec 8) : State :=
  ({ s.countFailure with
    status := { s.status with cmdOk := false }
    err := { code := code, cause := cause, channel := 0, channelValid := false }
    out := .empty }).endDecode

/-! Clearing (R532, R550). -/

/-- `Md5Clear` (R550). -/
def State.md5Clear (s : State) : State :=
  { s with md5 := .cleared, status := { s.status with md5Result := .noResult } }

/-- `ClearStream(p)` (R532). -/
def State.clearStream (s : State) (p : DWord) : State :=
  { s with
    ch := clearedChannels
    pos := p
    outTs := p
    out := .empty
    consec := 0
    status :=
      { s.status with crc16Mismatch := false, silenced := false, recovered := false, md5Result := .noResult }
    md5 := { Md5State.cleared with tainted := p != 0 } }

end Sys2Proof.Machine
end

