-- ==== Sys2Proof/Machine/Crc.lean ====
section
/-! DEFINITION. CRC-8 and CRC-16 (41_crc.md R230, R231), bit by bit as the rules write them. -/

namespace Sys2Proof.Machine

/-- One bit of CRC-8: polynomial 0x07 (R230). -/
def crc8Bit (c : BitVec 8) : BitVec 8 := if c.msb then (c <<< 1) ^^^ 0x07 else c <<< 1

/-- One byte of CRC-8. -/
def crc8Byte (c : BitVec 8) (d : Byte) : BitVec 8 := (List.range 8).foldl (fun c _ => crc8Bit c) (c ^^^ d)

/-- `CRC8(bytes)` (R230). -/
def crc8 (bytes : List Byte) : BitVec 8 := bytes.foldl crc8Byte 0

/-- One bit of CRC-16: polynomial 0x8005 (R231). -/
def crc16Bit (c : BitVec 16) : BitVec 16 := if c.msb then (c <<< 1) ^^^ 0x8005 else c <<< 1

/-- One byte of CRC-16. -/
def crc16Byte (c : BitVec 16) (d : Byte) : BitVec 16 :=
  (List.range 8).foldl (fun c _ => crc16Bit c) (c ^^^ (d.setWidth 16 <<< 8))

/-- `CRC16(bytes)` (R231). -/
def crc16 (bytes : List Byte) : BitVec 16 := bytes.foldl crc16Byte 0

end Sys2Proof.Machine
end

