-- ==== Sys2Proof/Machine/Operands.lean ====
section
/-! DEFINITION. The bit reader (40_bitstream_reader.md R200 to R207) and the assembly of every operand from its field
(30_encoding.md R122 to R126, R160). A reader is a function from the bit cursor to a value and the cursor after it, or
to the cause it fails with; a failed read moves no cursor (R201, R203). -/

namespace Sys2Proof.Machine

/-- What the bit reader reads: the bytes of INBUF and their number IN_LEN (R90, R91), and the block's
MAX_UNARY_VALUE (R8). -/
structure Chunk where
  byte     : Nat → Byte
  len      : Nat
  maxUnary : Nat

/-- The chunk a DECODE reads (R107). -/
def State.chunk (s : State) : Chunk :=
  { byte := s.inByte, len := s.inLen.toNat, maxUnary := s.params.maxUnaryValue }

/-- A read at the bit cursor. -/
abbrev Reader (α : Type) := StateT Nat (Except Cause) α

/-- `raise Fail(cause)` (R12). -/
def failWith {α : Type} (c : Cause) : Reader α := fun _ => .error c

/-- Fails with `c` unless the gate holds (R270). -/
def gate (ok : Bool) (c : Cause) : Reader Unit := if ok then pure () else failWith c

/-- The value of an optional result, or the failure `c`. -/
def orFail {α : Type} (v : Option α) (c : Cause) : Reader α :=
  match v with
  | some x => pure x
  | none => failWith c

/-- Stream bit `p` (R10). -/
def Chunk.bit (ck : Chunk) (p : Nat) : Nat := (ck.byte (p / 8)).toNat / 2 ^ (7 - p % 8) % 2

/-- `bits_left` at the cursor `p` (R200). -/
def Chunk.bitsLeft (ck : Chunk) (p : Nat) : Nat := 8 * ck.len - p

/-- The unsigned value of the `n` stream bits from `p`, most significant first (R10, R200). -/
def Chunk.bits (ck : Chunk) (p : Nat) : Nat → Nat
  | 0 => 0
  | n + 1 => 2 * ck.bits p n + ck.bit (p + n)

/-- The `n` stream bits from `p`, a bit past the end of the chunk taken as 0: what the field at the cursor looks like
before its read is bounds-checked. -/
def Chunk.peek (ck : Chunk) (p : Nat) : Nat → Nat
  | 0 => 0
  | n + 1 => 2 * ck.peek p n + if p + n < 8 * ck.len then ck.bit (p + n) else 0

/-- `MemRead(INBUF, o, n)`. -/
def Chunk.slice (ck : Chunk) (o n : Nat) : List Byte := (List.range n).map fun i => ck.byte (o + i)

/-- `ReadBits(n)` (R200, R201). -/
def readBits (ck : Chunk) (n : Nat) : Reader Nat := fun p =>
  if ck.bitsLeft p < n then .error .underrun else .ok (ck.bits p n, p + n)

/-- `ReadBitsSigned(n)` (R202). -/
def readBitsSigned (ck : Chunk) (n : Nat) : Reader Int := do
  let u ← readBits ck n
  return sext n u

/-- The loop of `ReadUnary`: `left` stream bits remain, `q` zeros have been read. -/
def unaryLoop (ck : Chunk) : Nat → Nat → Reader Nat
  | 0, _ => failWith .underrun
  | left + 1, q => fun p =>
    if ck.bit p = 1 then .ok (q, p + 1)
    else if ck.maxUnary < q + 1 then .error .unaryCap
    else unaryLoop ck left (q + 1) (p + 1)

/-- `ReadUnary()` (R203). -/
def readUnary (ck : Chunk) : Reader Nat := fun p => unaryLoop ck (ck.bitsLeft p) 0 p

/-- `ByteOffset()` (R205), called at byte boundaries only. -/
def byteOffset : Reader Nat := fun p => .ok (p / 8, p)

/-- `AlignToByte()` at the cursor `p` (R206): the number of bits skipped, which it returns, and the cursor after it. It
cannot fail and looks at no bit. -/
def alignToByte (p : Nat) : Nat × Nat :=
  if p % 8 = 0 then (0, p) else (8 - p % 8, (p / 8 + 1) * 8)

/-- Repeats a read `n` times, in order. -/
def readMany {α : Type} (r : Reader α) : Nat → Reader (List α)
  | 0 => pure []
  | n + 1 => do
    let x ← r
    let xs ← readMany r n
    return x :: xs

/-! Frame header operands. -/

/-- `RB(n)` (R400): an UNDERRUN inside the header is TRUNCATED. -/
def readHeaderBits (ck : Chunk) (n : Nat) : Reader Nat := fun p =>
  if ck.bitsLeft p < n then .error .truncated else .ok (ck.bits p n, p + n)

/-- The number of leading 1 bits of a byte (R405). -/
def leadingOnes (b : Nat) : Nat :=
  if b < 0x80 then 0
  else if b < 0xC0 then 1
  else if b < 0xE0 then 2
  else if b < 0xF0 then 3
  else if b < 0xF8 then 4
  else if b < 0xFC then 5
  else if b < 0xFE then 6
  else if b < 0xFF then 7
  else 8

/-- The continuation bytes of a coded number (R126, R405). -/
def readContinuation (ck : Chunk) : Nat → Nat → Reader Nat
  | 0, v => pure v
  | n + 1, v => do
    let b ← readHeaderBits ck 8
    gate (b / 64 == 2) .codedNumber
    readContinuation ck n (64 * v + b % 64)

/-- `ReadCodedNumber(blocking)` (R126, R405). -/
def readCodedNumber (ck : Chunk) (blocking : Bool) : Reader Nat := do
  let b0 ← readHeaderBits ck 8
  if b0 < 0x80 then return b0
  else
    let l := leadingOnes b0
    gate (l != 1 && l != 8) .codedNumber
    gate (l != 7 || blocking) .codedNumber
    readContinuation ck (l - 1) (b0 % 2 ^ (7 - l))

/-- `ResolveBlockSize(bs)` (R122, R406). -/
def resolveBlockSize (ck : Chunk) (bs : Nat) : Reader Nat :=
  if bs = 0 then failWith .reservedBlockSize
  else if bs = 1 then pure 192
  else if bs ≤ 5 then pure (576 * 2 ^ (bs - 2))
  else if bs = 6 then do
    let f ← readHeaderBits ck 8
    return f + 1
  else if bs = 7 then do
    let f ← readHeaderBits ck 16
    gate (f + 1 != 65536) .blockSize
    return f + 1
  else pure (256 * 2 ^ (bs - 8))

/-- The rates of the codes 0b0001 to 0b1011 (R123). -/
def tableRate (sr : Nat) : Nat :=
  match sr with
  | 1 => 88200
  | 2 => 176400
  | 3 => 192000
  | 4 => 8000
  | 5 => 16000
  | 6 => 22050
  | 7 => 24000
  | 8 => 32000
  | 9 => 44100
  | 10 => 48000
  | 11 => 96000
  | _ => 0

/-- `ResolveRateField(sr)` (R123, R407): 0 stands for "defer", which a follow-on of 0 means too. -/
def resolveRateField (ck : Chunk) (sr : Nat) : Reader Nat :=
  if sr = 12 then do
    let f ← readHeaderBits ck 8
    return f * 1000
  else if sr = 13 then readHeaderBits ck 16
  else if sr = 14 then do
    let f ← readHeaderBits ck 16
    return f * 10
  else pure (tableRate sr)

/-- The bits per sample of a sample-size code (R125); `none` defers to STREAMINFO. -/
def tableBitDepth (ss : Nat) : Option Nat :=
  match ss with
  | 1 => some 8
  | 2 => some 12
  | 4 => some 16
  | 5 => some 20
  | 6 => some 24
  | 7 => some 32
  | _ => none

/-- The channel count of a channel assignment (R124, R409). -/
def channelCount (a : BitVec 4) : Nat := if a.toNat ≤ 7 then a.toNat + 1 else 2

/-- `IsSide(a, c)` (R124, R500). -/
def isSide (a : BitVec 4) (c : Nat) : Bool :=
  (a == 8 && c == 1) || (a == 9 && c == 0) || (a == 10 && c == 1)

/-! Subframe operands. -/

/-- `ReadSample(E)` (R313, R314). -/
def readSample (ck : Chunk) (e : Nat) : Reader Int :=
  if e = 33 then do
    let hi ← readBits ck 1
    let lo ← readBits ck 32
    orFail (toInt32 (sext 33 (hi * 2 ^ 32 + lo))) .sampleRange
  else readBitsSigned ck e

/-- `Unzigzag(u)` (R143, R285). -/
def unzigzag (u : Nat) : Int :=
  if u % 2 = 0 then ((u / 2 : Nat) : Int) else -((u / 2 : Nat) : Int) - 1

end Sys2Proof.Machine
end

