-- ==== Sys2Proof/Machine/Frame.lean ====
section
/-! DEFINITION. The frame parser (47_frame_parser.md R400 to R432): the header parse, the frame search, the acceptance
of a header, the footer, and the instructions FRAME_FIXED, FRAME_VARIABLE and FRAME_RESERVED_BIT. -/

namespace Sys2Proof.Machine

/-! The checks against STREAMINFO, made after the CRC-8 (R409 to R412). -/

/-- `CheckChannels(ca)` (R409), with the gate of R270 on the channel count. DESIGN CHOICE: a count above MAX_CHANNELS,
which the spec's value 8 never meets, fails with the cause of the check after it. Assumption log entry 17. -/
def checkChannels (s : State) (ca : BitVec 4) : Reader Nat := do
  gate (validChannelCount s.params (channelCount ca)) .channelMismatch
  gate (channelCount ca == s.si.channels.toNat) .channelMismatch
  return channelCount ca

/-- `CheckRate(Rraw)` (R410). -/
def checkRate (s : State) (raw : Nat) : Reader Nat := do
  let r := if raw = 0 then s.si.rate.toNat else raw
  gate (validSampleRate s.params r) .rate
  return r

/-- `CheckBitDepth(ss)` (R411). -/
def checkBitDepth (s : State) (ss : Nat) : Reader Nat := do
  let n := (tableBitDepth ss).getD s.si.bps.toNat
  gate (validBitDepth n && n != 0) .bps
  gate (n == s.si.bps.toNat) .bpsMismatch
  return n

/-- `allow_small` (R412). -/
def allowSmall (s : State) (b : Nat) : Bool :=
  s.si.total.toNat == 0 || s.pos.toNat + b == s.si.total.toNat

/-- `CheckBlockSize(B)` (R412). -/
def checkBlockSize (s : State) (b : Nat) : Reader Unit := gate (validBlockSize s.params b (allowSmall s b)) .blockSize

/-! The header, split at the two fields that are instructions of their own. -/

/-- The header after its channel assignment `ca` (R400): sample size, second reserved bit, coded number, follow-ons,
CRC-8 over the bytes from the frame start `o`, then the checks against STREAMINFO. -/
def headerAfterAssignment (s : State) (o : Nat) (blocking : Bool) (bs sr : Nat) (ca : BitVec 4) :
    Reader FrameHeader := do
  let ck := s.chunk
  let ss ← readHeaderBits ck 3
  gate (ss != 3) .reservedSampleSize
  let r ← readHeaderBits ck 1
  gate (r == 0) .reservedBit
  let number ← readCodedNumber ck blocking
  let b ← resolveBlockSize ck bs
  let raw ← resolveRateField ck sr
  let h ← byteOffset
  let cRead ← readHeaderBits ck 8
  gate (cRead == (crc8 (ck.slice o (h - o))).toNat) .crc8
  let c ← checkChannels s ca
  let rate ← checkRate s raw
  let n ← checkBitDepth s ss
  checkBlockSize s b
  return { blocking := blocking, bsCode := bs, srCode := sr, assign := ca, blockSize := b, rate := rate,
           channels := c, bps := n, number := number, crc8 := cRead }

/-- The block-size code and the sample-rate code (R400). -/
def headerCodes (ck : Chunk) : Reader (Nat × Nat) := do
  let bs ← readHeaderBits ck 4
  gate (bs != 0) .reservedBlockSize
  let sr ← readHeaderBits ck 4
  gate (sr != 15) .reservedRate
  return (bs, sr)

/-- The header after its first 16 bits (R400). -/
def headerAfterSync (s : State) (o : Nat) (blocking : Bool) : Reader FrameHeader := do
  let codes ← headerCodes s.chunk
  let ca ← readHeaderBits s.chunk 4
  gate (ca < 11) .reservedChannels
  headerAfterAssignment s o blocking codes.1 codes.2 (BitVec.ofNat 4 ca)

/-- `ParseFrameHeader(o)` (R400), with the cursor at byte `o`; the cursor after it is the first subframe's. -/
def parseFrameHeader (s : State) (o : Nat) : Reader FrameHeader := fun p =>
  if s.chunk.bitsLeft p < 16 then .error .noSync
  else (do
    let sync ← readBits s.chunk 14
    gate (sync == 0x3FFE) .noSync
    let r ← readBits s.chunk 1
    gate (r == 0) .reservedBit
    let blocking ← readBits s.chunk 1
    headerAfterSync s o (blocking == 1) : Reader FrameHeader) p

/-! Acceptance and the frame search. -/

/-- A header `hd` is accepted; `p` is the cursor at the first subframe (R416). A frame found past offset 0 is
RECOVERED and counted (R500). -/
def State.acceptHeader (s : State) (hd : FrameHeader) (p : Nat) : State :=
  { s with
    frameOffset := BitVec.ofNat 32 s.dec.frameStart
    hdr :=
      { blockSize := BitVec.ofNat 16 hd.blockSize
        rate := BitVec.ofNat 20 hd.rate
        assign := hd.assign
        count := BitVec.ofNat 4 hd.channels
        bps := BitVec.ofNat 6 hd.bps
        number := BitVec.ofNat 36 hd.number
        blocking := hd.blocking
        crc8 := BitVec.ofNat 8 hd.crc8
        crc16Read := 0
        crc16Computed := 0 }
    status := if s.dec.frameStart = 0 then s.status else { s.status with recovered := true }
    cnt := if s.dec.frameStart = 0 then s.cnt else { s.cnt with syncRecovered := s.cnt.syncRecovered + 1 }
    dec := { s.dec with phase := .subframe, cursor := p, header := hd, chan := 0 } }

/-- The block turns to the candidate header at byte offset `o` (R204, R420). -/
def State.atCandidate (s : State) (o : Nat) : State :=
  { s with dec := { s.dec with phase := .header, cursor := 8 * o, frameStart := o } }

/-- The header at offset 0 failed with `e` (R420): it is the failure that is reported, and a CRC-8 mismatch there is
counted. -/
def State.noteFirstError (s : State) (e : Cause) : State :=
  { s with
    cnt := if e = .crc8 then { s.cnt with crc8Err := s.cnt.crc8Err + 1 } else s.cnt
    dec := { s.dec with firstErr := e } }

/-- No candidate is accepted (R420): SYNC_LOST, or HEADER_INVALID with the cause of offset 0. -/
def State.noFrame (s : State) : State :=
  if s.dec.firstErr = .noSync then s.decodeFailed .syncLost 0
  else s.decodeFailed .headerInvalid s.dec.firstErr.number

/-- `true` when the two bytes at `o` hold a 14-bit sync code (R420). -/
def Chunk.isSync (ck : Chunk) (o : Nat) : Bool := ck.byte o == 0xFF && (ck.byte (o + 1) &&& 0xFC) == 0xF8

/-- The last candidate offset (R420, R422). -/
def State.lastCandidate (s : State) : Nat := min s.params.maxSyncSearchBytes (s.inLen.toNat - 2)

/-- The first offset with a sync code among the `n` offsets from `o` up. -/
def Chunk.findSync (ck : Chunk) : Nat → Nat → Option Nat
  | 0, _ => none
  | n + 1, o => if ck.isSync o then some o else ck.findSync n (o + 1)

/-- The candidate header at hand failed with `e` (R420): at offset 0 the failure is noted; then the block turns to the
next candidate, or the search ends without a frame. -/
def State.headerFailed (s : State) (e : Cause) : State :=
  let s1 := if s.dec.frameStart = 0 then s.noteFirstError e else s
  match s.chunk.findSync (s.lastCandidate - s.dec.frameStart) (s.dec.frameStart + 1) with
  | some o => s1.atCandidate o
  | none => s1.noFrame

/-- A header read from the cursor `p` on: accepted or failed. -/
def State.runHeader (s : State) (r : Reader FrameHeader) (p : Nat) : State :=
  match r p with
  | .ok (hd, p') => s.acceptHeader hd p'
  | .error e => s.headerFailed e

/-- The scan of R420 over the `n` offsets from `o` up. -/
def State.scanFrom (s : State) : Nat → Nat → State
  | 0, _ => s.noFrame
  | n + 1, o =>
    if s.chunk.isSync o then
      match parseFrameHeader s o (8 * o) with
      | .ok (hd, p) => (s.atCandidate o).acceptHeader hd p
      | .error _ => s.scanFrom n (o + 1)
    else s.scanFrom n (o + 1)

/-- `FindFrame()` (R420): the parse at offset 0, then the scan. It leaves the block at the first subframe of the frame
found, or the DECODE ended with outcome FAIL. -/
def State.findFrame (s : State) : State :=
  match parseFrameHeader s 0 0 with
  | .ok (hd, p) => (s.atCandidate 0).acceptHeader hd p
  | .error e => ((s.atCandidate 0).noteFirstError e).scanFrom s.lastCandidate 1

/-! The footer (R430). -/

/-- The registers the footer check writes, and the cursor after it. -/
def State.footerRead (s : State) (cRead : Nat) (cCalc : BitVec 16) (bytes cursor : Nat) : State :=
  { s with
    frameBytes := BitVec.ofNat 32 bytes
    hdr := { s.hdr with crc16Read := BitVec.ofNat 16 cRead, crc16Computed := cCalc }
    dec := { s.dec with cursor := cursor } }

/-- A CRC-16 mismatch or a missing footer under the policy of CONFIG.CRC16_REJECT (R33, R430): outcome FAIL, or a
warning and the frame is delivered. -/
def State.footerMismatch (s : State) (cause : Cause) : State :=
  let s1 :=
    { s with
      status := { s.status with crc16Mismatch := true }
      cnt := { s.cnt with crc16Err := s.cnt.crc16Err + 1 } }
  if s.cfg.crc16Reject then s1.decodeFailed .crc16Mismatch cause.number
  else { s1 with dec := { s1.dec with phase := .decorrelate, warn := some cause } }

/-- `CheckFooter()` (R430). -/
def State.checkFooter (s : State) : State :=
  let p := (alignToByte s.dec.cursor).2
  let f := p / 8
  let cCalc := crc16 (s.chunk.slice s.dec.frameStart (f - s.dec.frameStart))
  match readBits s.chunk 16 p with
  | .error _ => (s.footerRead 0 cCalc 0 p).footerMismatch .missingFooter
  | .ok (cRead, p') =>
    let s1 := s.footerRead cRead cCalc (f + 2 - s.dec.frameStart) p'
    if cRead = cCalc.toNat then { s1 with dec := { s1.dec with phase := .decorrelate } }
    else s1.footerMismatch .footerMismatch

/-! The instructions. The cursor stands at the frame header; its first 16 bits are the instruction. -/

/-- The header whose first 16 bits are a legal form with this blocking bit (R127, R400). -/
def State.frameHeader (s : State) (blocking : Bool) : State :=
  if s.chunk.bitsLeft s.dec.cursor < 16 then s.headerFailed .noSync
  else s.runHeader (headerAfterSync s s.dec.frameStart blocking) (s.dec.cursor + 16)

/-- FRAME_FIXED: a frame header of a stream with fixed block size (R400; blocking 0). -/
def execFrameFixed (s : State) : Host.Outcome State Fault Refusal := .next (s.frameHeader false)

/-- FRAME_VARIABLE: a frame header of a stream with variable block size (R400; blocking 1). -/
def execFrameVariable (s : State) : Host.Outcome State Fault Refusal := .next (s.frameHeader true)

/-- FRAME_RESERVED_BIT: the sync code with the reserved bit set fails the header (R400, R401), whatever the bit after
it. -/
def execFrameReservedBit (_blocking : Bool) (s : State) : Host.Outcome State Fault Refusal :=
  .next (if s.chunk.bitsLeft s.dec.cursor < 16 then s.headerFailed .noSync else s.headerFailed .reservedBit)

end Sys2Proof.Machine
end

