-- ==== Sys2Proof/Machine/Md5.lean ====
section
/-! DEFINITION. The MD5 engine (49_codec.md R550 to R554). -/

namespace Sys2Proof.Machine

/-- The sine table `T` (R554). -/
def md5Sine : List Word :=
  [0xD76AA478, 0xE8C7B756, 0x242070DB, 0xC1BDCEEE, 0xF57C0FAF, 0x4787C62A, 0xA8304613, 0xFD469501] ++
  [0x698098D8, 0x8B44F7AF, 0xFFFF5BB1, 0x895CD7BE, 0x6B901122, 0xFD987193, 0xA679438E, 0x49B40821] ++
  [0xF61E2562, 0xC040B340, 0x265E5A51, 0xE9B6C7AA, 0xD62F105D, 0x02441453, 0xD8A1E681, 0xE7D3FBC8] ++
  [0x21E1CDE6, 0xC33707D6, 0xF4D50D87, 0x455A14ED, 0xA9E3E905, 0xFCEFA3F8, 0x676F02D9, 0x8D2A4C8A] ++
  [0xFFFA3942, 0x8771F681, 0x6D9D6122, 0xFDE5380C, 0xA4BEEA44, 0x4BDECFA9, 0xF6BB4B60, 0xBEBFBC70] ++
  [0x289B7EC6, 0xEAA127FA, 0xD4EF3085, 0x04881D05, 0xD9D4D039, 0xE6DB99E5, 0x1FA27CF8, 0xC4AC5665] ++
  [0xF4292244, 0x432AFF97, 0xAB9423A7, 0xFC93A039, 0x655B59C3, 0x8F0CCC92, 0xFFEFF47D, 0x85845DD1] ++
  [0x6FA87E4F, 0xFE2CE6E0, 0xA3014314, 0x4E0811A1, 0xF7537E82, 0xBD3AF235, 0x2AD7D2BB, 0xEB86D391]

/-- The rotation `S[i]` (R554). -/
def md5Rotation (i : Nat) : Nat :=
  if i < 16 then [7, 12, 17, 22].getD (i % 4) 0
  else if i < 32 then [5, 9, 14, 20].getD (i % 4) 0
  else if i < 48 then [4, 11, 16, 23].getD (i % 4) 0
  else [6, 10, 15, 21].getD (i % 4) 0

/-- The round function `f` of step `i` (R552). -/
def md5Mix (i : Nat) (b c d : Word) : Word :=
  if i < 16 then (b &&& c) ||| (~~~b &&& d)
  else if i < 32 then (b &&& d) ||| (c &&& ~~~d)
  else if i < 48 then b ^^^ c ^^^ d
  else c ^^^ (b ||| ~~~d)

/-- The message word index `g` of step `i` (R552). -/
def md5Index (i : Nat) : Nat :=
  if i < 16 then i
  else if i < 32 then (5 * i + 1) % 16
  else if i < 48 then (3 * i + 5) % 16
  else 7 * i % 16

/-- One step of the compression (R552). -/
def md5Round (msg : List Word) (v : Word × Word × Word × Word) (i : Nat) : Word × Word × Word × Word :=
  match v with
  | (a, b, c, d) =>
    (d, b + (a + md5Mix i b c d + md5Sine.getD i 0 + msg.getD (md5Index i) 0).rotateLeft (md5Rotation i), b, c)

/-- The sixteen message words of a block of 64 bytes (R552). -/
def md5Message (x : List Byte) : List Word :=
  (List.range 16).map fun j =>
    wordOfLanes (x.getD (4 * j) 0) (x.getD (4 * j + 1) 0) (x.getD (4 * j + 2) 0) (x.getD (4 * j + 3) 0)

/-- `Md5Compress(X)` on the chaining words (R552). -/
def md5Compress (m : Md5State) (x : List Byte) : Md5State :=
  match (List.range 64).foldl (md5Round (md5Message x)) (m.a, m.b, m.c, m.d) with
  | (a, b, c, d) => { m with a := m.a + a, b := m.b + b, c := m.c + c, d := m.d + d }

/-- One byte of `Md5Absorb` (R551). -/
def md5AbsorbByte (m : Md5State) (x : Byte) : Md5State :=
  let m1 := { m with buf := m.buf ++ [x], len := m.len + 1 }
  if m1.buf.length = 64 then { md5Compress m1 m1.buf with buf := [] } else m1

/-- `Md5Absorb(d)` (R551). -/
def md5Absorb (m : Md5State) (bytes : List Byte) : Md5State := bytes.foldl md5AbsorbByte m

/-- The number of zero bytes of the padding: as many as bring the pending bytes to 56 (R553). -/
def md5PadZeros (pending : Nat) : Nat := if pending ≤ 56 then 56 - pending else 120 - pending

/-- `Md5Finalize()` (R553): the digest; the engine's state is not changed. -/
def md5Finalize (m : Md5State) : Digest :=
  let m1 := md5AbsorbByte m 0x80
  let m2 := md5Absorb m1 (List.replicate (md5PadZeros m1.buf.length) 0)
  let m3 := md5Absorb m2 (leBytes 8 ((8 * m.len).toNat : Int))
  { w0 := m3.a, w1 := m3.b, w2 := m3.c, w3 := m3.d }

/-- The bytes `Md5AbsorbFrame(B, C, N)` absorbs (R551): samples at the stream's depth, interleaved. -/
def md5FrameBytes (s : State) (b c n : Nat) : List Byte :=
  (List.range b).flatMap fun i => (List.range c).flatMap fun ch => leBytes ((n + 7) / 8) (s.sample ch i)

end Sys2Proof.Machine
end

