-- ==== Sys2Proof/Machine/Pipeline.lean ====
section
/-! DEFINITION. What a DECODE does between and after its elements (49_codec.md R500 to R513): a subframe that decoded,
a subframe that failed, and the delivery of the frame. -/

namespace Sys2Proof.Machine

/-- `Silence(c0, C, B)` (R505). -/
def State.silence (s : State) (c0 : Nat) : State :=
  let hd := s.dec.header
  let s1 := s.silenceChannels c0 hd.blockSize (hd.channels - c0)
  { s1 with
    status := { s.status with silenced := true }
    cnt := { s.cnt with subframeErr := s.cnt.subframeErr + 1 }
    frameBytes := 0
    hdr := { s.hdr with crc16Read := 0, crc16Computed := 0 } }

/-- The subframe of the channel at hand failed with `cause` (R500, R505): it and the later channels are silenced and
the footer is not read. -/
def State.subframeFailed (s : State) (cause : Cause) : State :=
  let s1 := s.silence s.dec.chan
  { s1 with dec := { s1.dec with phase := .decorrelate, failed := some (s.dec.chan, cause) } }

/-- The subframe of the channel at hand decoded to `xs` and ends at the cursor `p` (R310): its samples are stored, and
the next subframe follows, or after the last one the footer (R500). -/
def State.subframeDecoded (s : State) (xs : List Int) (p : Nat) : State :=
  let s1 := s.writeChannel s.dec.chan xs
  if s.dec.chan + 1 < s.dec.header.channels then
    { s1 with dec := { s1.dec with phase := .subframe, cursor := p, chan := s.dec.chan + 1 } }
  else ({ s1 with dec := { s1.dec with cursor := p } }).checkFooter

/-- The read of what is left of the subframe at hand, from the cursor `p` on (R310: every failure is the subframe's). -/
def State.runSubframe (s : State) (r : Reader (List Int)) (p : Nat) : State :=
  match r p with
  | .ok (xs, p') => s.subframeDecoded xs p'
  | .error c => s.subframeFailed c

/-- `ToPcm16(x, N)` (46_sample_reconstructor.md R380). -/
def toPcm16 (x : Int) (n : Nat) : Int :=
  clamp
    (if n = Config.outW then x
      else if n < Config.outW then x * (2 ^ (Config.outW - n) : Nat) else asr x (n - Config.outW))
    (-(2 ^ (Config.outW - 1) : Nat)) ((2 ^ (Config.outW - 1) : Nat) - 1)

/-- The bytes of a delivered frame in OUTBUF (R92, R381). -/
def pcmBytes (s : State) (b c n : Nat) : List Byte :=
  (List.range b).flatMap fun i => (List.range c).flatMap fun ch => leBytes 2 (toPcm16 (s.sample ch i) n)

/-- `Interleave(B, C, N)` (R381). -/
def State.interleave (s : State) (b c n : Nat) : State :=
  { s with mem := Memory.writeBytes s.mem outbufBase (pcmBytes s b c n) }

/-- `Deliver(hd)` (R508, R509, R511). -/
def State.deliver (s : State) (hd : FrameHeader) : State :=
  { s with
    outTs := s.pos
    pos := s.pos + BitVec.ofNat 64 hd.blockSize
    md5 := if s.cfg.md5En then md5Absorb s.md5 (md5FrameBytes s hd.blockSize hd.channels hd.bps) else s.md5
    out :=
      { samples := BitVec.ofNat 16 hd.blockSize
        channels := BitVec.ofNat 4 hd.channels
        rate := BitVec.ofNat 20 hd.rate
        bps := BitVec.ofNat 6 hd.bps } }

/-- The end of a DECODE whose frame is delivered (R500, R513): interleave, deliver, outcome. The channel buffers are
decorrelated already. -/
def State.finishFrame (s : State) : State :=
  let hd := s.dec.header
  let s1 := (s.interleave hd.blockSize hd.channels hd.bps).deliver hd
  match s.dec.failed with
  | none => s1.successOutcome s.dec.warn
  | some (c, cause) => s1.partialOutcome c cause

end Sys2Proof.Machine
end

