-- ==== Sys2Proof/Machine/Decorrelate.lean ====
section
/-! DEFINITION. The channel decorrelator (45_decorrelator.md R360 to R368) and the instructions of the channel
assignment. The field is read once, in the frame header, and carried out once, after the last subframe: an instruction
CH_* met in the header selects the channel count and the side subframe (R124, R400, R409); met in phase `decorrelate`
it transforms the channel buffers and the frame is delivered (R360, R500). -/

namespace Sys2Proof.Machine

/-- `LeftSide(left, side)` (R362). -/
def leftSide (left side : Int) : Int × Int := (left, left - side)

/-- `RightSide(side, right)` (R363). -/
def rightSide (side right : Int) : Int × Int := (right + side, right)

/-- `MidSide(mid, side)` (R364). -/
def midSide (mid side : Int) : Int × Int :=
  let m2 := 2 * mid + side % 2
  (asr (m2 + side) 1, asr (m2 - side) 1)

/-- The stereo transformation `f` of the first `b` samples of channels 0 and 1 (R360); each result is stored with
`wrap_32` (R366). -/
def State.stereo (s : State) (f : Int → Int → Int × Int) (b : Nat) : State :=
  let lr := List.zipWith f (s.samples 0 b) (s.samples 1 b)
  (s.writeChannel 0 (lr.map Prod.fst)).writeChannel 1 (lr.map Prod.snd)

/-- `Decorrelate(a, B)` (R360). Codes 11 to 15 never reach it. -/
def State.decorrelate (s : State) (a : BitVec 4) (b : Nat) : State :=
  if a.toNat ≤ 7 then s
  else if a = 8 then s.stereo leftSide b
  else if a = 9 then s.stereo rightSide b
  else if a = 10 then s.stereo midSide b
  else s

/-- The channel assignment `ca` read in a frame header: the rest of the header (R400). -/
def State.headerAssignment (s : State) (ca : BitVec 4) : State :=
  if s.chunk.bitsLeft s.dec.cursor < 4 then s.headerFailed .truncated
  else
    s.runHeader
      (headerAfterAssignment s s.dec.frameStart s.dec.header.blocking s.dec.header.bsCode s.dec.header.srCode ca)
      (s.dec.cursor + 4)

/-- The reserved channel assignments fail the header (R400, R401). -/
def State.reservedAssignment (s : State) : State :=
  if s.chunk.bitsLeft s.dec.cursor < 4 then s.headerFailed .truncated else s.headerFailed .reservedChannels

/-- CH_INDEPENDENT: `c + 1` channels, no buffer is changed (R361). -/
def execChIndependent (c : BitVec 3) (s : State) : Host.Outcome State Fault Refusal :=
  .next (if s.dec.phase = .decorrelate then s.finishFrame else s.headerAssignment (c.setWidth 4))

/-- CH_LEFT_SIDE (R362). -/
def execChLeftSide (s : State) : Host.Outcome State Fault Refusal :=
  .next (if s.dec.phase = .decorrelate then (s.stereo leftSide s.dec.header.blockSize).finishFrame
    else s.headerAssignment 8)

/-- CH_RIGHT_SIDE (R363). -/
def execChRightSide (s : State) : Host.Outcome State Fault Refusal :=
  .next (if s.dec.phase = .decorrelate then (s.stereo rightSide s.dec.header.blockSize).finishFrame
    else s.headerAssignment 9)

/-- CH_MID_SIDE (R364). -/
def execChMidSide (s : State) : Host.Outcome State Fault Refusal :=
  .next (if s.dec.phase = .decorrelate then (s.stereo midSide s.dec.header.blockSize).finishFrame
    else s.headerAssignment 10)

/-- CH_RESERVED_11 (R401). -/
def execChReserved11 (s : State) : Host.Outcome State Fault Refusal := .next s.reservedAssignment

/-- CH_RESERVED_12_15 (R401). -/
def execChReserved1215 (_x : BitVec 2) (s : State) : Host.Outcome State Fault Refusal := .next s.reservedAssignment

end Sys2Proof.Machine
end

