-- ==== Sys2Proof/Machine/Metadata.lean ====
section
/-! DEFINITION. The metadata parser and the seek lookup (48_metadata.md R450 to R476), and the commands SET_STREAMINFO
and SET_SEEKTABLE. -/

namespace Sys2Proof.Machine

/-- Bytes `i .. i+n−1` of SI_BUF. -/
def State.siBytes (s : State) (i n : Nat) : List Byte := (List.range n).map fun j => s.siByte (i + j)

/-- `F(off, n)` (R450): the n-bit big-endian value at stream bit offset `off` of SI_BUF. -/
def State.siField (s : State) (off n : Nat) : Nat := beValue (s.siBytes 0 34) / 2 ^ (272 - off - n) % 2 ^ n

/-- Bytes 18+4k to 21+4k of SI_BUF in the byte lanes of a word (R450, R48). -/
def State.siMd5Word (s : State) (k : Nat) : Word :=
  wordOfLanes (s.siByte (18 + 4 * k)) (s.siByte (19 + 4 * k)) (s.siByte (20 + 4 * k)) (s.siByte (21 + 4 * k))

/-- `ParseStreamInfo()` (R150, R450). -/
def parseStreamInfo (s : State) : StreamInfo :=
  { minBlock := BitVec.ofNat 16 (s.siField 0 16)
    maxBlock := BitVec.ofNat 16 (s.siField 16 16)
    minFrame := BitVec.ofNat 24 (s.siField 32 24)
    maxFrame := BitVec.ofNat 24 (s.siField 56 24)
    rate := BitVec.ofNat 20 (s.siField 80 20)
    channels := BitVec.ofNat 4 (s.siField 100 3 + 1)
    bps := BitVec.ofNat 6 (s.siField 103 5 + 1)
    total := BitVec.ofNat 36 (s.siField 108 36)
    md5 := { w0 := s.siMd5Word 0, w1 := s.siMd5Word 1, w2 := s.siMd5Word 2, w3 := s.siMd5Word 3 } }

/-- SET_STREAMINFO (R452). -/
def execSetStreaminfo (s : State) : Host.Outcome State Fault Refusal :=
  .next (if s.dstate = .uninitialized then ({ s with si := parseStreamInfo s, siValid := true }).complete
    else s.refuse .illegalState 0x06)

/-- Bytes `i .. i+n−1` of ST_BUF. -/
def State.stBytes (s : State) (i n : Nat) : List Byte := (List.range n).map fun j => s.stByte (i + j)

/-- `ParseSeekPoint` of record `i` (R151, R461). -/
def parseSeekPoint (s : State) (i : Nat) : SeekPoint :=
  { sample := BitVec.ofNat 64 (beValue (s.stBytes (18 * i) 8))
    offset := BitVec.ofNat 64 (beValue (s.stBytes (18 * i + 8) 8))
    frameSamples := BitVec.ofNat 16 (beValue (s.stBytes (18 * i + 16) 2)) }

/-- SET_SEEKTABLE (R460). -/
def execSetSeektable (s : State) : Host.Outcome State Fault Refusal :=
  let n := s.stCount.toNat
  .next (if s.dstate = .uninitialized ∨ s.dstate = .initialized then
      if s.params.seekCap < n || !validMetadataLength s.params (18 * n) then
        s.refuse .seektableInvalid (Cause.stTooLarge).number
      else ({ s with st := (List.range n).map (parseSeekPoint s) }).complete
    else s.refuse .illegalState 0x07)

/-- A placeholder point (R151, R462). -/
def SeekPoint.placeholder (p : SeekPoint) : Bool := p.sample == 0xFFFFFFFFFFFFFFFF

/-- The scan of R470: the best point so far, then the points still to look at. -/
def seekScan (target : DWord) : Option SeekPoint → List SeekPoint → Option SeekPoint
  | best, [] => best
  | best, p :: rest =>
    let better := match best with
      | none => true
      | some b => decide (b.sample.toNat < p.sample.toNat)
    if !p.placeholder && decide (p.sample.toNat ≤ target.toNat) && better then seekScan target (some p) rest
    else seekScan target best rest

/-- `SeekLookup(T)` (R470): sample and byte offset. -/
def seekLookup (st : List SeekPoint) (target : DWord) : DWord × DWord :=
  match seekScan target none st with
  | none => (0, 0)
  | some p => (p.sample, p.offset)

end Sys2Proof.Machine
end

