-- ==== Sys2Proof/Machine/Residual.lean ====
section
/-! DEFINITION. The residual decoder and the predictors (43_residual.md R280 to R287, 44_subframe.md R324 to R340), and
the instructions of the residual: RES_RICE4, RES_RICE5, RES_RESERVED, RICE4_PARTITION, RICE5_PARTITION, RICE4_ESCAPE,
RICE5_ESCAPE. -/

namespace Sys2Proof.Machine

/-- The remainder of a Rice code with parameter `k`: no bits for k = 0 (R143, R283). -/
def readRemainder (ck : Chunk) (k : Nat) : Reader Nat := if 0 < k then readBits ck k else pure 0

/-- One Rice code with parameter `k` (R143, R283). -/
def readRice (ck : Chunk) (k : Nat) : Reader Int := do
  let q ← readUnary ck
  let m ← readRemainder ck k
  let t ← orFail (checkShift q k) .riceOverflow
  let v := unzigzag (t + m)
  gate (validResidual v) .residualInt32Min
  return v

/-- `DecodeRicePartition(n, k)` (R283). -/
def ricePartition (ck : Chunk) (n k : Nat) : Reader (List Int) := readMany (readRice ck k) n

/-- The field of a raw residual of width `w`: no bits for w = 0 (R284). -/
def readRawField (ck : Chunk) (w : Nat) : Reader Int := if w = 0 then pure 0 else readBitsSigned ck w

/-- One raw residual of width `w` (R284). -/
def readRaw (ck : Chunk) (w : Nat) : Reader Int := do
  let v ← readRawField ck w
  gate (validResidual v) .residualInt32Min
  return v

/-- `DecodeEscapePartition(n)` (R284). -/
def escapePartition (ck : Chunk) (n : Nat) : Reader (List Int) := do
  let w ← readBits ck 5
  readMany (readRaw ck w) n

/-- The number of values of partition `j` (R140, R282): block size `b`, partition order `o`, predictor order `k`. -/
def partitionSize (b o k j : Nat) : Nat := if j = 0 then b / 2 ^ o - k else b / 2 ^ o

/-- One partition of `n` values whose parameter has `w` bits, all ones being the escape (R142, R280). -/
def readPartition (ck : Chunk) (w n : Nat) : Reader (List Int) := do
  let r ← readBits ck w
  if r = 2 ^ w - 1 then escapePartition ck n else ricePartition ck n r

/-- The `m` partitions from partition `j` on (R280). -/
def readPartitions (ck : Chunk) (w b o k : Nat) : Nat → Nat → Reader (List Int)
  | 0, _ => pure []
  | m + 1, j => do
    let xs ← readPartition ck w (partitionSize b o k j)
    let ys ← readPartitions ck w b o k m (j + 1)
    return xs ++ ys

/-- The partition order of a residual (R280, R281). -/
def readPartitionOrder (ck : Chunk) (b k : Nat) : Reader Nat := do
  let o ← readBits ck 4
  gate (validPartitionOrder o b k) .partitionOrder
  return o

/-- The residual after its coding method, whose Rice parameters have `w` bits (R280). -/
def residualAfterMethod (ck : Chunk) (w b k : Nat) : Reader (List Int) := do
  let o ← readPartitionOrder ck b k
  readPartitions ck w b o k (2 ^ o) 0

/-- `DecodeResidual(B, k)` (R280). -/
def decodeResidual (ck : Chunk) (b k : Nat) : Reader (List Int) := do
  let method ← readBits ck 2
  if method = 0 then residualAfterMethod ck 4 b k
  else if method = 1 then residualAfterMethod ck 5 b k
  else failWith .reservedMethod

/-! Prediction. `hist` holds the samples so far, the most recent first. -/

/-- `FixedPredict(k, s, n)` (R325 to R329). -/
def fixedPredict (k : Nat) (hist : List Int) : Int :=
  match k with
  | 0 => 0
  | 1 => hist.getD 0 0
  | 2 => 2 * hist.getD 0 0 - hist.getD 1 0
  | 3 => 3 * hist.getD 0 0 - 3 * hist.getD 1 0 + hist.getD 2 0
  | _ => 4 * hist.getD 0 0 - 6 * hist.getD 1 0 + 4 * hist.getD 2 0 - hist.getD 3 0

/-- The LPC prediction: the coefficients against the samples, the first with the most recent, shifted right (R337). The
sum is exact: it always fits the ACC_W = 64 bits of the accumulator (R8). -/
def lpcPredict (coefs : List Int) (shift : Nat) (hist : List Int) : Int :=
  asr ((List.zipWith (· * ·) coefs hist).sum) shift

/-- The prediction of a subframe. -/
def Predictor.predict (pr : Predictor) (hist : List Int) : Int :=
  match pr.kind with
  | .lpc => lpcPredict pr.coefs pr.shift hist
  | .fixed => fixedPredict pr.order hist
  | .constant => 0
  | .verbatim => 0

/-- The samples of a predicted subframe, strictly in sequence (R324, R331, R337): `hist` is reversed at the end. -/
def predictFrom (pr : Predictor) : List Int → List Int → Option (List Int)
  | hist, [] => some hist.reverse
  | hist, r :: rs =>
    match narrow (pr.predict hist + r) pr.depth with
    | none => none
    | some v => predictFrom pr (v :: hist) rs

/-- `RestoreWasted(s, B, w)` (R340). -/
def restoreWasted (w : Nat) (xs : List Int) : Option (List Int) :=
  if w = 0 then some xs else xs.mapM fun v => checkSignedShift v w

/-- What follows the residual `res` of a predicted subframe: prediction and wasted-bits restoration (R310). -/
def finishPredicted (pr : Predictor) (res : List Int) : Reader (List Int) := do
  let xs ← orFail (predictFrom pr pr.warmup.reverse res) .sampleRange
  orFail (restoreWasted pr.wasted xs) .sampleRange

/-! The instructions. The cursor stands at the instruction's own bits, in the residual of the subframe of the channel
at hand, whose predictor has been read. -/

/-- The residual with Rice parameters of `w` bits (R280) and the rest of its subframe. -/
def State.residual (s : State) (w : Nat) : State :=
  let r : Reader (List Int) := do
    let _ ← readBits s.chunk 2
    let res ← residualAfterMethod s.chunk w s.dec.header.blockSize s.dec.pred.order
    finishPredicted s.dec.pred res
  s.runSubframe r s.dec.cursor

/-- RES_RICE4: a residual with 4-bit Rice parameters (R281). -/
def execResRice4 (s : State) : Host.Outcome State Fault Refusal := .next (s.residual 4)

/-- RES_RICE5: a residual with 5-bit Rice parameters (R281). -/
def execResRice5 (s : State) : Host.Outcome State Fault Refusal := .next (s.residual 5)

/-- RES_RESERVED: the reserved coding methods fail the subframe (R281). -/
def execResReserved (_x : BitVec 1) (s : State) : Host.Outcome State Fault Refusal :=
  .next (s.runSubframe (do
    let _ ← readBits s.chunk 2
    failWith .reservedMethod) s.dec.cursor)

/-- The partition at hand decoded to `xs` and ends at the cursor `p` (R280): the next partition follows, or after the
last one the rest of the subframe. -/
def State.partitionDecoded (s : State) (xs : List Int) (p : Nat) : State :=
  if s.dec.part + 1 < 2 ^ s.dec.partOrder then
    { s with dec := { s.dec with cursor := p, part := s.dec.part + 1, res := s.dec.res ++ xs } }
  else s.runSubframe (finishPredicted s.dec.pred (s.dec.res ++ xs)) p

/-- The partition at hand, read by `body` after a parameter of `w` bits. -/
def State.partition (s : State) (w : Nat) (body : Nat → Reader (List Int)) : State :=
  let n := partitionSize s.dec.header.blockSize s.dec.partOrder s.dec.pred.order s.dec.part
  let r : Reader (List Int) := do
    let _ ← readBits s.chunk w
    body n
  match r s.dec.cursor with
  | .ok (xs, p) => s.partitionDecoded xs p
  | .error c => s.subframeFailed c

/-- RICE4_PARTITION: `n` Rice codes with the parameter `k` (R283). -/
def execRice4Partition (k : BitVec 4) (s : State) : Host.Outcome State Fault Refusal :=
  .next (s.partition 4 fun n => ricePartition s.chunk n k.toNat)

/-- RICE5_PARTITION: `n` Rice codes with the parameter `k` (R283). -/
def execRice5Partition (k : BitVec 5) (s : State) : Host.Outcome State Fault Refusal :=
  .next (s.partition 5 fun n => ricePartition s.chunk n k.toNat)

/-- RICE4_ESCAPE: raw values after a 5-bit width (R284). -/
def execRice4Escape (s : State) : Host.Outcome State Fault Refusal :=
  .next (s.partition 4 fun n => escapePartition s.chunk n)

/-- RICE5_ESCAPE: raw values after a 5-bit width (R284). -/
def execRice5Escape (s : State) : Host.Outcome State Fault Refusal :=
  .next (s.partition 5 fun n => escapePartition s.chunk n)

end Sys2Proof.Machine
end

