-- ==== Sys2Proof/Machine/Subframe.lean ====
section
/-! DEFINITION. The subframe decoder (44_subframe.md R310 to R344) and the instructions of the subframe header byte. -/

namespace Sys2Proof.Machine

/-- The wasted-bits count of a flag (R130, R312). -/
def readWastedCount (ck : Chunk) (flag : Bool) : Reader Nat :=
  if flag then do
    let u ← readUnary ck
    return u + 1
  else pure 0

/-- `ReadWasted(N, side)` after its flag (R312): the wasted-bits count w and the effective depth E. -/
def readWasted (ck : Chunk) (flag : Bool) (n : Nat) (side : Bool) : Reader (Nat × Nat) := do
  let w ← readWastedCount ck flag
  gate (validWasted w n) .wastedBits
  let e := n - w + side.toNat
  gate (validEffectiveDepth e) .wastedBits
  return (w, e)

/-- The order gate of a subframe type, made as soon as the type is read (R311). -/
def validSubframeOrder (kind : SubKind) (order b : Nat) : Bool :=
  match kind with
  | .constant => true
  | .verbatim => true
  | .fixed => validFixedOrder order b
  | .lpc => validLpcOrder order b

/-- The subframe type of a 6-bit type field: its kind and order; `none` is reserved (R131, R311). -/
def subframeType (t : Nat) : Option (SubKind × Nat) :=
  if t = 0 then some (.constant, 0)
  else if t = 1 then some (.verbatim, 0)
  else if 8 ≤ t ∧ t ≤ 12 then some (.fixed, t - 8)
  else if 32 ≤ t then some (.lpc, t - 31)
  else none

/-- CONSTANT (R320). -/
def decodeConstant (ck : Chunk) (b e : Nat) : Reader (List Int) := do
  let v ← readSample ck e
  return List.replicate b v

/-- VERBATIM (R322). -/
def decodeVerbatim (ck : Chunk) (b e : Nat) : Reader (List Int) := readMany (readSample ck e) b

/-- What a FIXED subframe reads before its residual (R324). -/
def fixedPredictor (ck : Chunk) (k w e : Nat) : Reader Predictor := do
  let warm ← readMany (readSample ck e) k
  return { kind := .fixed, order := k, wasted := w, depth := e, warmup := warm, coefs := [], shift := 0 }

/-- What an LPC subframe reads before its residual (R335). -/
def lpcPredictor (ck : Chunk) (p w e : Nat) : Reader Predictor := do
  let warm ← readMany (readSample ck e) p
  let prec ← readBits ck 4
  gate (validPrecision prec) .lpcPrecision
  let f ← readBits ck 5
  gate (validShift (sext 5 f)) .lpcShift
  let coefs ← readMany (readBitsSigned ck (prec + 1)) p
  return { kind := .lpc, order := p, wasted := w, depth := e, warmup := warm, coefs := coefs,
           shift := (sext 5 f).toNat }

/-- The residual of a predicted subframe and the samples it gives (R324, R335, R337, R340). -/
def decodePredicted (ck : Chunk) (b : Nat) (pr : Predictor) : Reader (List Int) := do
  let res ← decodeResidual ck b pr.order
  finishPredicted pr res

/-- The subframe body of a type, at wasted-bits count `w` and effective depth `e` (R310). -/
def subframeBody (ck : Chunk) (kind : SubKind) (order b w e : Nat) : Reader (List Int) :=
  match kind with
  | .constant => do
    let xs ← decodeConstant ck b e
    orFail (restoreWasted w xs) .sampleRange
  | .verbatim => do
    let xs ← decodeVerbatim ck b e
    orFail (restoreWasted w xs) .sampleRange
  | .fixed => do
    let pr ← fixedPredictor ck order w e
    decodePredicted ck b pr
  | .lpc => do
    let pr ← lpcPredictor ck order w e
    decodePredicted ck b pr

/-- `ReadSubframeHeader(B, N, side)` (R311): kind, order, w, E. -/
def readSubframeHeader (ck : Chunk) (b n : Nat) (side : Bool) : Reader (SubKind × Nat × Nat × Nat) := do
  let pad ← readBits ck 1
  gate (pad == 0) .padBit
  let t ← readBits ck 6
  let ko ← orFail (subframeType t) .reservedType
  gate (validSubframeOrder ko.1 ko.2 b) .order
  let flag ← readBits ck 1
  let we ← readWasted ck (flag == 1) n side
  return (ko.1, ko.2, we.1, we.2)

/-- `DecodeSubframe(c, B, N, side)` up to its samples (R310). -/
def decodeSubframeAt (ck : Chunk) (b n : Nat) (side : Bool) : Reader (List Int) := do
  let h ← readSubframeHeader ck b n side
  subframeBody ck h.1 h.2.1 b h.2.2.1 h.2.2.2

/-- The subframe of the channel at hand, at the cursor (R310, R500). -/
def State.decodeSubframe (s : State) : State :=
  let hd := s.dec.header
  s.runSubframe (decodeSubframeAt s.chunk hd.blockSize hd.bps (isSide hd.assign s.dec.chan)) s.dec.cursor

/-! The instructions. The cursor stands at the subframe header byte, which is the instruction: its pad and type bits
(7 bits, R311) are consumed first, then its flag, whose value is the instruction's operand. -/

/-- The subframe whose header byte has this kind and order and this wasted-bits flag (R310, R311). -/
def subframeOf (ck : Chunk) (kind : SubKind) (order : Nat) (flag : Bool) (b n : Nat) (side : Bool) :
    Reader (List Int) := do
  let _ ← readBits ck 7
  gate (validSubframeOrder kind order b) .order
  let _ ← readBits ck 1
  let we ← readWasted ck flag n side
  subframeBody ck kind order b we.1 we.2

/-- The subframe of the channel at hand, of a kind, order and wasted-bits flag. -/
def State.subframe (s : State) (kind : SubKind) (order : Nat) (flag : Bool) : State :=
  let hd := s.dec.header
  s.runSubframe (subframeOf s.chunk kind order flag hd.blockSize hd.bps (isSide hd.assign s.dec.chan)) s.dec.cursor

/-- The subframe of the channel at hand has a reserved type (R311). -/
def State.reservedSubframe (s : State) : State :=
  s.runSubframe (do
    let _ ← readBits s.chunk 7
    failWith .reservedType) s.dec.cursor

/-- SF_CONSTANT (R320). -/
def execSfConstant (wasted : Bool) (s : State) : Host.Outcome State Fault Refusal :=
  .next (s.subframe .constant 0 wasted)

/-- SF_VERBATIM (R322). -/
def execSfVerbatim (wasted : Bool) (s : State) : Host.Outcome State Fault Refusal :=
  .next (s.subframe .verbatim 0 wasted)

/-- SF_FIXED0 (R324, R325). -/
def execSfFixed0 (wasted : Bool) (s : State) : Host.Outcome State Fault Refusal :=
  .next (s.subframe .fixed 0 wasted)

/-- SF_FIXED1 (R324, R326). -/
def execSfFixed1 (wasted : Bool) (s : State) : Host.Outcome State Fault Refusal :=
  .next (s.subframe .fixed 1 wasted)

/-- SF_FIXED2 (R324, R327). -/
def execSfFixed2 (wasted : Bool) (s : State) : Host.Outcome State Fault Refusal :=
  .next (s.subframe .fixed 2 wasted)

/-- SF_FIXED3 (R324, R328). -/
def execSfFixed3 (wasted : Bool) (s : State) : Host.Outcome State Fault Refusal :=
  .next (s.subframe .fixed 3 wasted)

/-- SF_FIXED4 (R324, R329). -/
def execSfFixed4 (wasted : Bool) (s : State) : Host.Outcome State Fault Refusal :=
  .next (s.subframe .fixed 4 wasted)

/-- SF_LPC of order `p + 1` (R335, R337). -/
def execSfLpc (p : BitVec 5) (wasted : Bool) (s : State) : Host.Outcome State Fault Refusal :=
  .next (s.subframe .lpc (p.toNat + 1) wasted)

/-- SF_RESERVED_TYPE_2_3 (R311). -/
def execSfReservedType23 (_x : BitVec 1) (_wasted : Bool) (s : State) : Host.Outcome State Fault Refusal :=
  .next s.reservedSubframe

/-- SF_RESERVED_TYPE_4_7 (R311). -/
def execSfReservedType47 (_x : BitVec 2) (_wasted : Bool) (s : State) : Host.Outcome State Fault Refusal :=
  .next s.reservedSubframe

/-- SF_RESERVED_TYPE_13 (R311). -/
def execSfReservedType13 (_wasted : Bool) (s : State) : Host.Outcome State Fault Refusal :=
  .next s.reservedSubframe

/-- SF_RESERVED_TYPE_14_15 (R311). -/
def execSfReservedType1415 (_x : BitVec 1) (_wasted : Bool) (s : State) : Host.Outcome State Fault Refusal :=
  .next s.reservedSubframe

/-- SF_RESERVED_TYPE_16_31 (R311). -/
def execSfReservedType1631 (_x : BitVec 4) (_wasted : Bool) (s : State) : Host.Outcome State Fault Refusal :=
  .next s.reservedSubframe

/-- SF_PAD_BIT_SET: a pad bit of 1 fails the subframe (R311). -/
def execSfPadBitSet (_x : BitVec 7) (s : State) : Host.Outcome State Fault Refusal :=
  .next (s.runSubframe (do
    let _ ← readBits s.chunk 1
    failWith .padBit) s.dec.cursor)

end Sys2Proof.Machine
end

