-- ==== Sys2Proof/Machine/Codec.lean ====
section
/-! DEFINITION. The command unit (49_codec.md R490 to R545): INIT, DECODE, FLUSH, RESET, SEEK, CHECK_MD5 and
ILLEGAL_COMMAND. A command is one step (20_memory.md R100). -/

namespace Sys2Proof.Machine

/-- INIT's check of the STREAMINFO registers: the first failing cause in the order of R520. -/
def checkStreamInfo (p : Config.Params) (si : StreamInfo) : Option Cause :=
  if si.rate.toNat = 0 || !validSampleRate p si.rate.toNat then some .siRate
  else if !validChannelCount p si.channels.toNat then some .siChannels
  else if si.bps.toNat = 0 || !validBitDepth si.bps.toNat then some .siBps
  else if !validBlockSize p si.minBlock.toNat false then some .siMinBlock
  else if si.maxBlock.toNat < si.minBlock.toNat then some .siBlockOrder
  else none

/-- INIT (R520). -/
def execInit (s : State) : Host.Outcome State Fault Refusal :=
  .next (if s.dstate = .uninitialized then
      if s.siValid then
        match checkStreamInfo s.params s.si with
        | some c => s.refuse .streaminfoInvalid c.number
        | none => ({ s.clearStream 0 with dstate := .initialized }).complete
      else s.refuse .noStreaminfo 0
    else s.refuse .illegalState 0x01)

/-- A DECODE begins (R500): the three status bits it writes are cleared and the block turns to offset 0. -/
def State.beginDecode (s : State) : State :=
  { s with
    status := { s.status with crc16Mismatch := false, silenced := false, recovered := false }
    dec := { DecodeCtx.unset with phase := .header } }

/-- The subframes in channel order (R500): at most `n` of them, and none after one that failed. -/
def State.decodeChannels (s : State) : Nat → State
  | 0 => s
  | n + 1 => if s.dec.phase = .subframe then s.decodeSubframe.decodeChannels n else s

/-- The decorrelation and the delivery (R500), unless the DECODE has ended without a frame. -/
def State.deliverDecoded (s : State) : State :=
  if s.dec.phase = .decorrelate then (s.decorrelate s.dec.header.assign s.dec.header.blockSize).finishFrame else s

/-- The DECODE of a chunk, after the pre-checks (R500): the header, the subframes and the footer, the decorrelation
and the delivery. -/
def State.decodeChunk (s : State) : State :=
  let s1 := s.beginDecode.findFrame
  (s1.decodeChannels s1.dec.header.channels).deliverDecoded

/-- DECODE (R500). -/
def execDecode (s : State) : Host.Outcome State Fault Refusal :=
  .next (if s.dstate = .initialized ∨ s.dstate = .decoding then
      if s.params.inCap < s.inLen.toNat then s.refuse .badLength 0 else s.decodeChunk
    else s.refuse .illegalState 0x02)

/-- FLUSH (R525). -/
def execFlush (s : State) : Host.Outcome State Fault Refusal :=
  .next (if s.dstate = .initialized ∨ s.dstate = .decoding then
      ({ s with
        out := .empty
        outTs := s.pos
        dstate := if s.dstate = DState.decoding then .endOfStream else s.dstate }).complete
    else s.refuse .illegalState 0x03)

/-- RESET (R530). -/
def execReset (s : State) : Host.Outcome State Fault Refusal :=
  .next ({ s.clearStream 0 with
    dstate :=
      if s.dstate = DState.decoderError ∨ s.dstate = DState.uninitialized then .uninitialized
      else .initialized }).complete

/-- `SEEK_TARGET` (R39). -/
def State.seekTarget (s : State) : DWord := s.seekTargetHi ++ s.seekTargetLo

/-- SEEK (R540). -/
def execSeek (s : State) : Host.Outcome State Fault Refusal :=
  .next (if s.dstate = .initialized ∨ s.dstate = .decoding ∨ s.dstate = .endOfStream then
      let found := seekLookup s.st s.seekTarget
      ({ ({ s with seekSample := found.1, seekOffset := found.2 }).clearStream found.1 with
        dstate := .initialized }).complete
    else s.refuse .illegalState 0x05)

/-- The MD5 result is `r` (R545). -/
def State.setMd5Result (s : State) (r : Md5Result) : State :=
  { s with status := { s.status with md5Result := r } }

/-- CHECK_MD5 (R545). -/
def execCheckMd5 (s : State) : Host.Outcome State Fault Refusal :=
  .next (if s.dstate = .endOfStream ∧ s.cfg.md5En = true ∧ s.md5.tainted = false ∧ s.si.md5 ≠ .zero then
      let d := md5Finalize s.md5
      (({ s with md5Digest := d }).setMd5Result (if d = s.si.md5 then .matched else .mismatch)).complete
    else (s.setMd5Result .notChecked).complete)

/-- ILLEGAL_COMMAND (R49, R561): the cause is the word's bits [7:0]. -/
def execIllegalCommand (opcode : BitVec 8) (_zero : BitVec 24) (s : State) : Host.Outcome State Fault Refusal :=
  .next (s.refuse .illegalCommand opcode)

end Sys2Proof.Machine
end

