-- ==== Sys2Proof/Machine/HostBus.lean ====
section
/-! DEFINITION. The host's accesses (20_memory.md R94 to R97, R101 to R103): the register file of 10_state.md R32 and
the buffer windows. The write to CMD that starts a command is taken by `step`. -/

namespace Sys2Proof.Machine

/-- A register of the register file as the host reads it (R32). Reserved offsets and CMD read 0. -/
def State.readRegister (s : State) (off : Nat) : Word :=
  match off with
  | 0x004 => s.statusWord
  | 0x008 => s.errorWord
  | 0x00C => s.configWord
  | 0x010 => BitVec.ofNat 8 s.consec |>.setWidth 32
  | 0x014 => s.inLen
  | 0x018 => s.stCount
  | 0x01C => BitVec.ofNat 32 s.st.length
  | 0x020 => s.seekTargetLo
  | 0x024 => s.seekTargetHi
  | 0x028 => s.pos.setWidth 32
  | 0x02C => s.posHiLatch
  | 0x030 => s.out.samples.setWidth 32
  | 0x034 => s.out.channels.setWidth 32
  | 0x038 => s.out.rate.setWidth 32
  | 0x03C => s.out.bps.setWidth 32
  | 0x040 => s.outTs.setWidth 32
  | 0x044 => s.outTs.extractLsb' 32 32
  | 0x048 => s.seekSample.setWidth 32
  | 0x04C => s.seekSample.extractLsb' 32 32
  | 0x050 => s.seekOffset.setWidth 32
  | 0x054 => s.seekOffset.extractLsb' 32 32
  | 0x058 => s.frameOffset
  | 0x05C => s.frameBytes
  | 0x060 => s.cnt.framesOk
  | 0x064 => s.cnt.decodeFail
  | 0x068 => s.cnt.syncRecovered
  | 0x06C => s.cnt.crc8Err
  | 0x070 => s.cnt.crc16Err
  | 0x074 => s.cnt.subframeErr
  | 0x080 => s.md5Digest.w0
  | 0x084 => s.md5Digest.w1
  | 0x088 => s.md5Digest.w2
  | 0x08C => s.md5Digest.w3
  | 0x090 => s.hdr.blockSize.setWidth 32
  | 0x094 => s.hdr.rate.setWidth 32
  | 0x098 => (s.hdr.count ++ s.hdr.assign).setWidth 32
  | 0x09C => s.hdr.bps.setWidth 32
  | 0x0A0 => s.hdr.number.setWidth 32
  | 0x0A4 => (s.hdr.number.extractLsb' 32 4).setWidth 32
  | 0x0A8 => (s.hdr.crc8 ++ 0#7 ++ BitVec.ofBool s.hdr.blocking).setWidth 32
  | 0x0AC => s.hdr.crc16Computed ++ s.hdr.crc16Read
  | 0x0C0 => s.si.minBlock.setWidth 32
  | 0x0C4 => s.si.maxBlock.setWidth 32
  | 0x0C8 => s.si.minFrame.setWidth 32
  | 0x0CC => s.si.maxFrame.setWidth 32
  | 0x0D0 => s.si.rate.setWidth 32
  | 0x0D4 => s.si.channels.setWidth 32
  | 0x0D8 => s.si.bps.setWidth 32
  | 0x0DC => s.si.total.setWidth 32
  | 0x0E0 => (s.si.total.extractLsb' 32 4).setWidth 32
  | 0x0E4 => s.si.md5.w0
  | 0x0E8 => s.si.md5.w1
  | 0x0EC => s.si.md5.w2
  | 0x0F0 => s.si.md5.w3
  | _ => 0

/-- A host write of CONFIG (R33): MD5_EN going from 0 to 1 while POS ≠ 0 taints the digest. -/
def State.writeConfig (s : State) (data : Word) : State :=
  let en := data.getLsbD 0
  { s with
    cfg := { md5En := en, crc16Reject := data.getLsbD 1 }
    md5 := { s.md5 with tainted := s.md5.tainted || (en && !s.cfg.md5En && s.pos != 0) } }

/-- A host write of a register other than CMD (R32): a write of an RO register or a reserved offset is ignored. -/
def State.writeRegister (s : State) (off : Nat) (data : Word) : State :=
  match off with
  | 0x00C => s.writeConfig data
  | 0x014 => { s with inLen := data }
  | 0x018 => { s with stCount := data }
  | 0x020 => { s with seekTargetLo := data }
  | 0x024 => { s with seekTargetHi := data }
  | _ => s

/-- The byte the host reads at a buffer address; reserved addresses read 0 (R97). -/
def State.hostByte (s : State) (a : Nat) : Byte :=
  if hostWritable s.params a || inOutbuf s.params a then Memory.read s.mem a else 0

/-- A byte the host writes at a buffer address; a write to OUTBUF or to a reserved address is ignored (R94, R97). -/
def State.writeHostByte (s : State) (a : Nat) (v : Byte) : State :=
  if hostWritable s.params a then { s with mem := Memory.write s.mem a v } else s

/-- `true` for the one access the host interface defines: a naturally aligned 32-bit word (R96). -/
def wordAccess (size : AccessSize) (addr : Word) : Bool := size == .word && addr.toNat % 4 == 0

/-- The word a host read returns (R95 to R97). -/
def State.hostReadValue (s : State) (size : AccessSize) (addr : Word) : Word :=
  let a := addr.toNat
  if wordAccess size addr then
    if a < 0x100 then s.readRegister a
    else wordOfLanes (s.hostByte a) (s.hostByte (a + 1)) (s.hostByte (a + 2)) (s.hostByte (a + 3))
  else 0

/-- A host read (R101, R103): a read of POSITION_LO loads the latch (R31). -/
def State.hostRead (s : State) (size : AccessSize) (addr : Word) : State :=
  { s with
    readData := s.hostReadValue size addr
    posHiLatch :=
      if wordAccess size addr && addr == 0x028 then s.pos.extractLsb' 32 32 else s.posHiLatch }

/-- A host write that starts no command (R95 to R97). -/
def State.hostWrite (s : State) (size : AccessSize) (addr data : Word) : State :=
  let a := addr.toNat
  if wordAccess size addr then
    if a < 0x100 then s.writeRegister a data
    else
      (((s.writeHostByte a (laneOf data 0)).writeHostByte (a + 1) (laneOf data 1)).writeHostByte (a + 2)
        (laneOf data 2)).writeHostByte (a + 3) (laneOf data 3)
  else s

/-- `true` when a host write starts a command (R49, R96). -/
def startsCommand (size : AccessSize) (addr : Word) : Bool := wordAccess size addr && addr == 0x000

end Sys2Proof.Machine
end

