-- ==== Sys2Proof/Machine/Fetch.lean ====
section
/-! DEFINITION. Where the next instruction comes from. Outside a DECODE it is the word of the host's next write to
CMD (10_state.md R49). Inside a DECODE it is the field at the bit cursor that the phase names (30_encoding.md R120 to
R142); in phase `decorrelate` it is the channel assignment of the accepted header (R360, R400). -/

namespace Sys2Proof.Machine

/-- The slot the phase reads from. -/
def DecodeCtx.slot (d : DecodeCtx) : Slot :=
  match d.phase with
  | .idle => .command
  | .header => .frame
  | .assignment => .assignment
  | .subframe => .subframe
  | .residual => .method
  | .partition => if d.rice5 then .param5 else .param4
  | .decorrelate => .assignment

/-- The instruction at the cursor inside a DECODE. A field that the end of the chunk cuts is read with zeros in its
place: the instruction's own bounds check then fails (R201). A chunk with fewer than 16 bits left holds no frame
header (R400, NO_SYNC). -/
def State.fetchElement (s : State) : Except Reject Instr :=
  match s.dec.phase with
  | .decorrelate => decode .assignment s.dec.header.assign.toNat
  | .header =>
    if s.chunk.bitsLeft s.dec.cursor < 16 then .error .noSync
    else decode .frame (s.chunk.peek s.dec.cursor 16)
  | _ => decode s.dec.slot (s.chunk.peek s.dec.cursor s.dec.slot.bits)

/-- The header a subframe is placed under when it is stored alone: one channel of 16 samples of 16 bits. -/
def FrameHeader.alone : FrameHeader :=
  { FrameHeader.unset with bsCode := 1, srCode := 1, blockSize := 16, rate := 44100, channels := 1, bps := 16 }

/-- The predictor a residual is placed under when it is stored alone: FIXED order 0 at depth 16. -/
def Predictor.alone : Predictor := { Predictor.unset with kind := .fixed, depth := 16 }

/-- The state inside a DECODE in which the field `slot` at offset 0 of the chunk is read next. -/
def DecodeCtx.standing (slot : Slot) : DecodeCtx :=
  match slot with
  | .command => .unset
  | .frame => { DecodeCtx.unset with phase := .header }
  | .subframe => { DecodeCtx.unset with phase := .subframe, header := .alone }
  | .method => { DecodeCtx.unset with phase := .residual, header := .alone, pred := .alone }
  | .param4 => { DecodeCtx.unset with phase := .partition, header := .alone, pred := .alone }
  | .param5 => { DecodeCtx.unset with phase := .partition, header := .alone, pred := .alone, rice5 := true }
  | .assignment => { DecodeCtx.unset with phase := .assignment, header := .alone }

/-- How many zero bytes follow a field that is stored alone: more than any element of 16 samples of 16 bits reads. -/
def zerosAfter : Nat := 48

/-- The bytes of a field of at most 16 bits with the value `w`, its first bit the most significant bit of the first
byte (R10), and the zeros after it. -/
def fieldBytes (bits w : Nat) : List Byte :=
  [BitVec.ofNat 8 (w * 2 ^ (16 - bits) / 256), BitVec.ofNat 8 (w * 2 ^ (16 - bits))] ++ List.replicate zerosAfter 0

/-- `s` with the field `slot` of value `w` stored where the next step reads it: a command word as the host's next
access, an element at offset 0 of INBUF with the block standing at it. -/
def State.placeField (s : State) (slot : Slot) (w : Nat) : State :=
  match slot with
  | .command => { s with dec := .unset, host := .write .word 0x000 (BitVec.ofNat 32 w) :: s.host }
  | slot =>
    let bytes := fieldBytes slot.bits w
    { s with
      dec := DecodeCtx.standing slot
      inLen := BitVec.ofNat 32 bytes.length
      mem := Memory.writeBytes s.mem inbufBase bytes }

/-- `s` with the word `w` of `nbits` bits of the opcode table stored where the next step reads it; a number of bits
that no slot has stores nothing. -/
def State.placeTableWord (s : State) (nbits w : Nat) : State :=
  match slotOfBits nbits with
  | some slot => s.placeField slot w
  | none => s

end Sys2Proof.Machine
end

