-- ==== Sys2Proof/Machine/Dispatch.lean ====
section
/-! DEFINITION. The dispatch: one arm per constructor of Instr. -/

namespace Sys2Proof.Machine

def exec (i : Instr) (s : State) : Host.Outcome State Fault Refusal :=
  match i with
  | .init => Sys2Proof.Machine.execInit s
  | .decode => Sys2Proof.Machine.execDecode s
  | .flush => Sys2Proof.Machine.execFlush s
  | .reset => Sys2Proof.Machine.execReset s
  | .seek => Sys2Proof.Machine.execSeek s
  | .setStreaminfo => Sys2Proof.Machine.execSetStreaminfo s
  | .setSeektable => Sys2Proof.Machine.execSetSeektable s
  | .checkMd5 => Sys2Proof.Machine.execCheckMd5 s
  | .illegalCommand opcode zero => Sys2Proof.Machine.execIllegalCommand opcode zero s
  | .frameFixed => Sys2Proof.Machine.execFrameFixed s
  | .frameVariable => Sys2Proof.Machine.execFrameVariable s
  | .frameReservedBit blocking => Sys2Proof.Machine.execFrameReservedBit blocking s
  | .sfConstant wasted => Sys2Proof.Machine.execSfConstant wasted s
  | .sfVerbatim wasted => Sys2Proof.Machine.execSfVerbatim wasted s
  | .sfFixed0 wasted => Sys2Proof.Machine.execSfFixed0 wasted s
  | .sfFixed1 wasted => Sys2Proof.Machine.execSfFixed1 wasted s
  | .sfFixed2 wasted => Sys2Proof.Machine.execSfFixed2 wasted s
  | .sfFixed3 wasted => Sys2Proof.Machine.execSfFixed3 wasted s
  | .sfFixed4 wasted => Sys2Proof.Machine.execSfFixed4 wasted s
  | .sfLpc p wasted => Sys2Proof.Machine.execSfLpc p wasted s
  | .sfReservedType23 x wasted => Sys2Proof.Machine.execSfReservedType23 x wasted s
  | .sfReservedType47 x wasted => Sys2Proof.Machine.execSfReservedType47 x wasted s
  | .sfReservedType13 wasted => Sys2Proof.Machine.execSfReservedType13 wasted s
  | .sfReservedType1415 x wasted => Sys2Proof.Machine.execSfReservedType1415 x wasted s
  | .sfReservedType1631 x wasted => Sys2Proof.Machine.execSfReservedType1631 x wasted s
  | .sfPadBitSet x => Sys2Proof.Machine.execSfPadBitSet x s
  | .resRice4 => Sys2Proof.Machine.execResRice4 s
  | .resRice5 => Sys2Proof.Machine.execResRice5 s
  | .resReserved x => Sys2Proof.Machine.execResReserved x s
  | .rice4Escape => Sys2Proof.Machine.execRice4Escape s
  | .rice5Escape => Sys2Proof.Machine.execRice5Escape s
  | .rice4Partition k => Sys2Proof.Machine.execRice4Partition k s
  | .rice5Partition k => Sys2Proof.Machine.execRice5Partition k s
  | .chIndependent c => Sys2Proof.Machine.execChIndependent c s
  | .chLeftSide => Sys2Proof.Machine.execChLeftSide s
  | .chRightSide => Sys2Proof.Machine.execChRightSide s
  | .chMidSide => Sys2Proof.Machine.execChMidSide s
  | .chReserved11 => Sys2Proof.Machine.execChReserved11 s
  | .chReserved1215 x => Sys2Proof.Machine.execChReserved1215 x s

end Sys2Proof.Machine
end

