-- ==== Sys2Proof/Machine/Step.lean ====
section
/-! DEFINITION. One step of the machine. -/

namespace Sys2Proof.Machine

/-- One step. Inside a DECODE: the element at the cursor (R500); where no frame header starts, the candidate fails with
NO_SYNC (R400). Outside: the host's next access, a write to CMD being a command that runs to completion (R100, R101);
with no access waiting the block is idle and changes nothing (R101, R600). -/
def step (s : State) : Host.Outcome State Fault Refusal :=
  if s.dec.phase = .idle then
    match s.host with
    | [] => .next s
    | .read size addr :: rest => .next (({ s with host := rest }).hostRead size addr)
    | .write size addr data :: rest =>
      if startsCommand size addr then exec (decodeCommand data) { s with host := rest }
      else .next (({ s with host := rest }).hostWrite size addr data)
  else
    match s.fetchElement with
    | .ok i => exec i s
    | .error _ => .next (s.headerFailed .noSync)

/-- `s` with the table word stored where the next step fetches it. -/
def State.withFetchWord (s : State) (nbits w : Nat) : State := s.placeTableWord nbits w

end Sys2Proof.Machine
end

