-- ==== Sys2Proof/Safety.lean ====
section
/-! DEFINITION. What the claims are stated in: the invariant of the block between commands, what a run of elements is,
and the shapes that several claims share. Nothing here is part of the machine. -/

namespace Sys2Proof.Machine

/-! The invariant. -/

/-- The channel buffers as State holds them: eight rows of at most MAX_BLOCK_SIZE samples, each without its trailing
zeros, so that equal buffers are equal data (R26). -/
def channelsCanonical (p : Config.Params) (ch : List (List Sample)) : Prop :=
  ch.length = 8 ∧ ∀ row ∈ ch, row.length ≤ p.maxBlockSize ∧ trimZeros row = row

/-- Only bytes of the buffer regions are listed (R94, R97). -/
def bytesInBuffers (p : Config.Params) (m : Memory) : Prop :=
  ∀ e ∈ m, hostWritable p e.1 = true ∨ inOutbuf p e.1 = true

/-- The STREAMINFO registers hold a parsed body: 1 to 8 channels of 1 to 32 bits (R28). -/
def parsedStreamInfo (si : StreamInfo) : Prop :=
  1 ≤ si.channels.toNat ∧ si.channels.toNat ≤ 8 ∧ 1 ≤ si.bps.toNat ∧ si.bps.toNat ≤ 32

/-- The STREAMINFO registers passed INIT's checks (R520). -/
def acceptedStreamInfo (p : Config.Params) (si : StreamInfo) : Prop :=
  1 ≤ si.rate.toNat ∧ si.rate.toNat ≤ p.maxSampleRate ∧ 1 ≤ si.channels.toNat ∧ si.channels.toNat ≤ p.maxChannels ∧
    4 ≤ si.bps.toNat ∧ si.bps.toNat ≤ 32 ∧ 16 ≤ si.minBlock.toNat ∧ si.minBlock.toNat ≤ p.maxBlockSize ∧
    si.minBlock.toNat ≤ si.maxBlock.toNat

/-- The invariant of the block between two commands. -/
structure State.Inv (s : State) : Prop where
  /-- no DECODE is under way (R20, R100) -/
  idle : s.dec = .unset
  /-- the memory is in its canonical form -/
  memCanonical : Memory.wf s.mem = true
  memBuffers : bytesInBuffers s.params s.mem
  /-- CONSEC is in [0, MAX_CONSECUTIVE_ERRORS + 1], and at the end of it exactly in DECODER_ERROR (R23, R507) -/
  consecBound : s.consec ≤ s.params.maxConsecutiveErrors + 1
  consecError : s.consec = s.params.maxConsecutiveErrors + 1 ↔ s.dstate = .decoderError
  /-- CONSEC counts within a stream: it is 0 before INIT (R532, R610) -/
  consecStart : s.dstate = .uninitialized → s.consec = 0
  /-- outside UNINITIALIZED the STREAMINFO registers are loaded and passed INIT's checks (R492, R520) -/
  started : s.dstate ≠ .uninitialized → s.siValid = true ∧ acceptedStreamInfo s.params s.si
  parsed : s.siValid = true → parsedStreamInfo s.si
  channels : channelsCanonical s.params s.ch
  /-- `md5.buf` holds 0 to 63 bytes, the ones past the last whole block (R30, R551) -/
  md5Pending : s.md5.buf.length = s.md5.len.toNat % 64
  /-- ST_LOADED is at most SEEK_CAP (R29) -/
  seekTable : s.st.length ≤ s.params.seekCap

/-! Runs. -/

/-- DECODE passes its pre-checks (R500). -/
def State.decodeStarts (s : State) : Prop :=
  (s.dstate = .initialized ∨ s.dstate = .decoding) ∧ s.inLen.toNat ≤ s.params.inCap

/-- At most `n` elements, one step each, until the DECODE is over. -/
def runElements : Nat → State → State
  | 0, s => s
  | n + 1, s =>
    if s.dec.phase = .idle then s
    else
      match step s with
      | .next t => runElements n t
      | .fault _ => s
      | .refused _ => s

/-- At most `n` partitions, one step each, until the residual is over. -/
def runPartitions : Nat → State → State
  | 0, s => s
  | n + 1, s =>
    if s.dec.phase = .partition then
      match step s with
      | .next t => runPartitions n t
      | .fault _ => s
      | .refused _ => s
    else s

/-- The state without what nothing reads once a residual is over: what the block carries from one partition to the
next and, once the subframe has failed, the cursor (the footer is not read, R505). -/
def State.withoutPartitions (s : State) : State :=
  { s with
    dec := { s.dec with
      rice5 := false
      partOrder := 0
      part := 0
      res := []
      cursor := if s.dec.failed.isSome then 0 else s.dec.cursor } }

/-- Equal but for what nothing reads once a residual is over. -/
def sameButPartitions (t u : State) : Prop := t.withoutPartitions = u.withoutPartitions

/-! Shapes of claims. -/

/-- What no instruction but its own writer changes: every register the host or a SET_* command writes, the latch, the
host's side of the interface and the parameters (R8, R28, R29, R33, R37 to R39, R91). -/
def sameInputs (s t : State) : Prop :=
  t.si = s.si ∧ t.siValid = s.siValid ∧ t.st = s.st ∧ t.cfg = s.cfg ∧ t.inLen = s.inLen ∧ t.stCount = s.stCount ∧
    t.seekTargetLo = s.seekTargetLo ∧ t.seekTargetHi = s.seekTargetHi ∧ t.posHiLatch = s.posHiLatch ∧
    t.host = s.host ∧ t.readData = s.readData ∧ t.params = s.params

/-- Every byte outside the first `n` bytes of OUTBUF reads as before. -/
def sameBytesBut (n : Nat) (s t : State) : Prop :=
  ∀ a, a < outbufBase ∨ outbufBase + n ≤ a → Memory.read t.mem a = Memory.read s.mem a

/-- The report registers of earlier commands (R43, R46) and the MD5 result, which no DECODE writes. -/
def sameReports (s t : State) : Prop :=
  t.seekSample = s.seekSample ∧ t.seekOffset = s.seekOffset ∧ t.md5Digest = s.md5Digest ∧
    t.status.md5Result = s.status.md5Result

/-- The stream's position and what a delivery writes (R508, R509). -/
def nothingDelivered (s t : State) : Prop := t.pos = s.pos ∧ t.outTs = s.outTs ∧ t.md5 = s.md5 ∧ t.mem = s.mem

/-- A frame of block size B, channel count C, rate R and depth N is delivered: the state goes from `s` to `t`, whose
channel buffers hold the samples (R92, R381, R508, R509, R511). -/
def frameDelivered (b c r n : Nat) (s t : State) : Prop :=
  (∀ i j, i < b → j < c →
      t.outByte (2 * (i * c + j)) = BitVec.ofInt 8 (toPcm16 (t.sample j i) n) ∧
      t.outByte (2 * (i * c + j) + 1) = BitVec.ofInt 8 (toPcm16 (t.sample j i) n / 256)) ∧
    sameBytesBut (2 * b * c) s t ∧
    t.outTs = s.pos ∧ t.pos = s.pos + BitVec.ofNat 64 b ∧
    t.out = ⟨BitVec.ofNat 16 b, BitVec.ofNat 4 c, BitVec.ofNat 20 r, BitVec.ofNat 6 n⟩ ∧
    t.md5 = if s.cfg.md5En then md5Absorb s.md5 (md5FrameBytes t b c n) else s.md5

/-- The decode counters, CONSEC and DSTATE after a decode failure (R507). -/
def failureCounted (s t : State) : Prop :=
  t.cnt.decodeFail = s.cnt.decodeFail + 1 ∧ t.cnt.framesOk = s.cnt.framesOk ∧ t.consec = s.consec + 1 ∧
    (t.dstate = if s.consec + 1 > s.params.maxConsecutiveErrors then .decoderError else s.dstate) ∧
    t.status.cmdOk = false

/-- The counters, CONSEC and DSTATE after a success (R507, R513). -/
def successCounted (s t : State) : Prop :=
  t.cnt.framesOk = s.cnt.framesOk + 1 ∧ t.cnt.decodeFail = s.cnt.decodeFail ∧ t.consec = 0 ∧
    (t.dstate = if s.dstate = .initialized then .decoding else s.dstate) ∧ t.status.cmdOk = true

/-- The end of a DECODE that delivers, by what happened in it (R507, R513): a failed channel, or none and a CRC-16
warning or none. -/
def deliveryReported (failed : Option (Nat × Cause)) (warn : Option Cause) (s t : State) : Prop :=
  match failed, warn with
  | none, none => successCounted s t ∧ t.err = ⟨.noError, 0, 0, false⟩
  | none, some w => successCounted s t ∧ t.err = ⟨.crc16Mismatch, w.number, 0, false⟩
  | some (c, cause), _ => failureCounted s t ∧ t.err = ⟨.subframeError, cause.number, BitVec.ofNat 3 c, true⟩

/-- The cause the header at offset 0 of the chunk fails with, if it fails (R420: e0). -/
def State.firstHeaderCause (s : State) : Option Cause :=
  match parseFrameHeader s 0 0 with
  | .ok _ => none
  | .error e => some e

/-- The events of a DECODE are shown in STATUS and counted (R34, R45). -/
def eventsCounted (s t : State) : Prop :=
  t.cnt.syncRecovered = s.cnt.syncRecovered + (if t.status.recovered then 1 else 0) ∧
    t.cnt.crc8Err = s.cnt.crc8Err + (if s.firstHeaderCause = some .crc8 then 1 else 0) ∧
    t.cnt.crc16Err = s.cnt.crc16Err + (if t.status.crc16Mismatch then 1 else 0) ∧
    t.cnt.subframeErr = s.cnt.subframeErr + (if t.status.silenced then 1 else 0)

/-- The event bits of STATUS and the event counters are as before (R34, R45). -/
def sameEvents (s t : State) : Prop :=
  t.status.crc16Mismatch = s.status.crc16Mismatch ∧ t.status.silenced = s.status.silenced ∧
    t.status.recovered = s.status.recovered ∧ t.cnt.syncRecovered = s.cnt.syncRecovered ∧
    t.cnt.crc8Err = s.cnt.crc8Err ∧ t.cnt.crc16Err = s.cnt.crc16Err ∧ t.cnt.subframeErr = s.cnt.subframeErr

/-- What is written when a header is accepted and its footer read: the last-header registers, FRAME_OFFSET and
FRAME_BYTES (R44, R47). -/
def headerRegisters (s : State) : HeaderRegs × Word × Word := (s.hdr, s.frameOffset, s.frameBytes)

/-- The frame of the header that the last-header registers show is delivered (R47, R409, R411). -/
def headerFrameDelivered (s t : State) : Prop :=
  frameDelivered t.hdr.blockSize.toNat t.hdr.count.toNat t.hdr.rate.toNat t.hdr.bps.toNat s t ∧
    1 ≤ t.hdr.blockSize.toNat ∧ t.hdr.count = s.si.channels ∧ t.hdr.bps = s.si.bps ∧
    t.status.recovered = (t.frameOffset != 0)

/-- A byte offset at which a DECODE looks for a frame header: 0, and every later one in reach that holds a sync code
(R420, R422). -/
def State.candidate (s : State) (o : Nat) : Prop :=
  o = 0 ∨ o ≤ min s.params.maxSyncSearchBytes (s.inLen.toNat - 2) ∧ s.chunk.isSync o = true

/-- The frame header at `o` fails. -/
def State.headerFailsAt (s : State) (o : Nat) : Prop := ∃ e, parseFrameHeader s o (8 * o) = .error e

/-- The first header accepted is `hd` at byte offset `o`, its first subframe at `p` (R420). -/
def State.frameFoundAt (s : State) (o : Nat) (hd : FrameHeader) (p : Nat) : Prop :=
  s.candidate o ∧ parseFrameHeader s o (8 * o) = .ok (hd, p) ∧ ∀ o', o' < o → s.candidate o' → s.headerFailsAt o'

/-- The subframes of the `n` channels from `c` up, the first one at the cursor `p`, in channel order: the cursor after
the last, or the first one that fails with its cause (R500). -/
def readSubframes (ck : Chunk) (hd : FrameHeader) : Nat → Nat → Nat → Except (Nat × Cause) Nat
  | 0, _, p => .ok p
  | n + 1, c, p =>
    match decodeSubframeAt ck hd.blockSize hd.bps (isSide hd.assign c) p with
    | .error e => .error (c, e)
    | .ok (_, q) => readSubframes ck hd n (c + 1) q

/-- What the footer check of a frame that starts at byte `o` and whose last subframe ends at `p` finds wrong (R430). -/
def footerTrouble (ck : Chunk) (o p : Nat) : Option Cause :=
  let f := (p + 7) / 8
  if ck.bitsLeft (8 * f) < 16 then some .missingFooter
  else if ck.bits (8 * f) 16 = (crc16 (ck.slice o (f - o))).toNat then none
  else some .footerMismatch

/-- The registers show the header `hd` found at byte offset `o` (R44, R47, R416). -/
def headerShown (o : Nat) (hd : FrameHeader) (t : State) : Prop :=
  t.frameOffset = BitVec.ofNat 32 o ∧
    t.hdr = ⟨BitVec.ofNat 16 hd.blockSize, BitVec.ofNat 20 hd.rate, hd.assign, BitVec.ofNat 4 hd.channels,
      BitVec.ofNat 6 hd.bps, BitVec.ofNat 36 hd.number, hd.blocking, BitVec.ofNat 8 hd.crc8, t.hdr.crc16Read,
      t.hdr.crc16Computed⟩

/-- Outcome SUCCESS (R513): a header is accepted, every subframe decodes, and the footer matches or its mismatch is
accepted. -/
def decodeSucceeded (s t : State) : Prop :=
  headerFrameDelivered s t ∧ successCounted s t ∧ t.status.silenced = false ∧
    ∃ o hd p q, s.frameFoundAt o hd p ∧ headerShown o hd t ∧ readSubframes s.chunk hd hd.channels 0 p = .ok q ∧
      (footerTrouble s.chunk o q = none ∧ t.status.crc16Mismatch = false ∧ t.err = ⟨.noError, 0, 0, false⟩ ∨
        ∃ w, footerTrouble s.chunk o q = some w ∧ t.status.crc16Mismatch = true ∧ s.cfg.crc16Reject = false ∧
          t.err = ⟨.crc16Mismatch, w.number, 0, false⟩)

/-- Outcome PARTIAL (R505, R513): a header is accepted and a subframe fails, the first one that does being reported;
the causes of a subframe failure are 32 to 44 (R562). -/
def decodePartial (s t : State) : Prop :=
  headerFrameDelivered s t ∧ failureCounted s t ∧ t.status.silenced = true ∧ t.status.crc16Mismatch = false ∧
    t.frameBytes = 0 ∧ t.hdr.crc16Read = 0 ∧ t.hdr.crc16Computed = 0 ∧
    ∃ o hd p c cause, s.frameFoundAt o hd p ∧ headerShown o hd t ∧
      readSubframes s.chunk hd hd.channels 0 p = .error (c, cause) ∧
      c < t.hdr.count.toNat ∧ 32 ≤ cause.number.toNat ∧ cause.number.toNat ≤ 44 ∧
      t.err = ⟨.subframeError, cause.number, BitVec.ofNat 3 c, true⟩

/-- Outcome FAIL (R513): no header is accepted, the causes of a header failure being 1 to 13 (R562), or every subframe
decodes and the CRC-16 mismatch of the frame found is rejected. -/
def decodeFailedWhole (s t : State) : Prop :=
  nothingDelivered s t ∧ t.out = ⟨0, 0, 0, 0⟩ ∧ failureCounted s t ∧ t.status.silenced = false ∧
    ((∀ o, s.candidate o → s.headerFailsAt o) ∧ t.status.crc16Mismatch = false ∧ t.status.recovered = false ∧
        headerRegisters t = headerRegisters s ∧
        (s.firstHeaderCause = some .noSync ∧ t.err = ⟨.syncLost, 0, 0, false⟩ ∨
          ∃ cause : Cause, 1 ≤ cause.number.toNat ∧ cause.number.toNat ≤ 13 ∧ s.firstHeaderCause = some cause ∧
            t.err = ⟨.headerInvalid, cause.number, 0, false⟩) ∨
      t.status.crc16Mismatch = true ∧ s.cfg.crc16Reject = true ∧ t.status.recovered = (t.frameOffset != 0) ∧
        ∃ o hd p q w, s.frameFoundAt o hd p ∧ headerShown o hd t ∧
          readSubframes s.chunk hd hd.channels 0 p = .ok q ∧ footerTrouble s.chunk o q = some w ∧
          t.err = ⟨.crc16Mismatch, w.number, 0, false⟩)

/-- A stereo assignment `i` in phase `decorrelate` (R360 to R366): the transformation `f` of the samples of channels 0
and 1, each result wrapped to int32; the frame is delivered and the DECODE is over. -/
def stereoDelivers (i : Instr) (f : Int → Int → Int × Int) : Prop :=
  ∀ s : State, s.dec.phase = .decorrelate → s.ch.length = 8 →
    ∃ t, exec i s = .next t ∧ t.dec = .unset ∧
      (∀ j, j < s.dec.header.blockSize →
        t.sample 0 j = (BitVec.ofInt 32 (f (s.sample 0 j) (s.sample 1 j)).1).toInt ∧
        t.sample 1 j = (BitVec.ofInt 32 (f (s.sample 0 j) (s.sample 1 j)).2).toInt) ∧
      (∀ c j, 2 ≤ c ∨ s.dec.header.blockSize ≤ j → t.sample c j = s.sample c j) ∧
      frameDelivered s.dec.header.blockSize s.dec.header.channels s.dec.header.rate s.dec.header.bps s t ∧
      deliveryReported s.dec.failed s.dec.warn s t ∧
      sameInputs s t ∧ sameReports s t ∧ t.hdr = s.hdr ∧ t.frameOffset = s.frameOffset ∧
      t.frameBytes = s.frameBytes ∧ sameEvents s t

/-! Frame headers that fail. -/

/-- FRAME_FIXED or FRAME_VARIABLE fails the candidate header at hand with `e`. -/
def headerFailsWith (s : State) (blocking : Bool) (e : Cause) : Prop :=
  exec (if blocking then .frameVariable else .frameFixed) s = .next (s.headerFailed e)

/-- The fields of the header at hand that are checked as soon as they are read, in order (R121, R400): how many bits of
the header end with the field, whether its value is legal, and the cause when it is not. -/
def codedHeaderFields (s : State) : List (Nat × Bool × Cause) :=
  let field := fun n w => s.chunk.bits (s.dec.cursor + n) w
  [(20, field 16 4 != 0, .reservedBlockSize), (24, field 20 4 != 15, .reservedRate),
    (28, decide (field 24 4 ≤ 10), .reservedChannels), (31, field 28 3 != 3, .reservedSampleSize),
    (32, field 31 1 == 0, .reservedBit)]

/-- The coded number at `p` fails with `e` (R126, R405): its first byte or, after `k - 1` good continuation bytes, its
k-th one is cut or illegal. -/
def badCodedNumber (ck : Chunk) (blocking : Bool) (p : Nat) (e : Cause) : Prop :=
  ck.bitsLeft p < 8 ∧ e = .truncated ∨
    8 ≤ ck.bitsLeft p ∧ (ck.bits p 8 / 64 = 2 ∨ ck.bits p 8 = 0xFF ∨ ck.bits p 8 = 0xFE ∧ blocking = false) ∧
      e = .codedNumber ∨
    ∃ n lead k, 2 ≤ n ∧ n ≤ 7 ∧ (n = 7 → blocking = true) ∧ lead < 2 ^ (7 - n) ∧ 1 ≤ k ∧ k < n ∧
      8 * k ≤ ck.bitsLeft p ∧ ck.bits p 8 = 256 - 2 ^ (8 - n) + lead ∧
      (∀ j, 1 ≤ j → j < k → ck.bits (p + 8 * j) 8 / 64 = 2) ∧
      (ck.bitsLeft p < 8 * (k + 1) ∧ e = .truncated ∨
        8 * (k + 1) ≤ ck.bitsLeft p ∧ ck.bits (p + 8 * k) 8 / 64 ≠ 2 ∧ e = .codedNumber)

/-- The follow-on of the block-size code at `p` is cut, or stands for 65536 (R122, R406). -/
def badBlockSizeField (ck : Chunk) (code p : Nat) (e : Cause) : Prop :=
  code = 6 ∧ ck.bitsLeft p < 8 ∧ e = .truncated ∨ code = 7 ∧ ck.bitsLeft p < 16 ∧ e = .truncated ∨
    code = 7 ∧ 16 ≤ ck.bitsLeft p ∧ ck.bits p 16 = 0xFFFF ∧ e = .blockSize

/-- The follow-on of the rate code at `p` is cut (R123, R407). -/
def badRateField (ck : Chunk) (code p : Nat) : Prop :=
  code = 12 ∧ ck.bitsLeft p < 8 ∨ (code = 13 ∨ code = 14) ∧ ck.bitsLeft p < 16

/-- The checks made after the fields, in order, with the CRC-8 byte at `p`, the block size `b` and the rate field `raw`
(R232, R270, R400, R409 to R412), each with its cause. -/
def checksAfterFields (s : State) (b raw p : Nat) : List (Bool × Cause) :=
  let assign := s.chunk.bits (s.dec.cursor + 24) 4
  let channels := if assign ≤ 7 then assign + 1 else 2
  let depth := (tableBitDepth (s.chunk.bits (s.dec.cursor + 28) 3)).getD s.si.bps.toNat
  [(s.chunk.bits p 8 == (crc8 (s.chunk.slice s.dec.frameStart (p / 8 - s.dec.frameStart))).toNat, .crc8),
    (decide (channels ≤ s.params.maxChannels), .channelMismatch),
    (channels == s.si.channels.toNat, .channelMismatch),
    (decide ((if raw = 0 then s.si.rate.toNat else raw) ≤ s.params.maxSampleRate), .rate),
    (decide (4 ≤ depth ∧ depth ≤ 32), .bps), (depth == s.si.bps.toNat, .bpsMismatch),
    (decide (1 ≤ b ∧ b ≤ s.params.maxBlockSize ∧
      (16 ≤ b ∨ s.si.total = 0 ∨ s.pos.toNat + b = s.si.total.toNat)), .blockSize)]

/-! Subframes. -/

/-- `i` is a legal form of subframe at the block size at hand, whose header is followed by `m` samples: CONSTANT one,
VERBATIM all, FIXED and LPC as many as their order (R131, R311, R320, R322, R324, R335). -/
def subframeForm (s : State) (i : Instr) (wasted : Bool) (m : Nat) : Prop :=
  i = .sfConstant wasted ∧ m = 1 ∨ i = .sfVerbatim wasted ∧ m = s.dec.header.blockSize ∨
    m < s.dec.header.blockSize ∧
      ((i, m) ∈ [(Instr.sfFixed0 wasted, 0), (.sfFixed1 wasted, 1), (.sfFixed2 wasted, 2), (.sfFixed3 wasted, 3),
          (.sfFixed4 wasted, 4)] ∨
        ∃ p : BitVec 5, i = .sfLpc p wasted ∧ m = p.toNat + 1)

/-- The effective bit depth of the subframe at hand with `w` wasted bits (R130). -/
def State.effectiveDepth (s : State) (w : Nat) : Nat :=
  s.dec.header.bps - w + (isSide s.dec.header.assign s.dec.chan).toNat

/-- The header byte of the subframe at hand is read, with `w` wasted bits, and its body starts at `p` (R130, R312). -/
def State.subframeStarts (s : State) (wasted : Bool) (w p : Nat) : Prop :=
  8 ≤ s.chunk.bitsLeft s.dec.cursor ∧ readWastedCount s.chunk wasted (s.dec.cursor + 8) = .ok (w, p) ∧
    w < s.dec.header.bps ∧ s.dec.header.bps ≤ 32

/-- The first `n` values of `x`, shifted left by the wasted bits `w` (R340). -/
def restored (w n : Nat) (x : Nat → Int) : List Int := (List.range n).map fun i => x i * 2 ^ w

/-- `x` holds the samples of a predicted subframe of block size `b` and order `k` at the effective depth `e` (R324,
R331, R337, R340): the warm-up samples, then strictly in sequence the prediction plus the residual, within the effective
depth; and shifted by `w` every sample is an int32. -/
def predictedSamples (b k e w : Nat) (warm res : List Int) (predict : (Nat → Int) → Nat → Int) (x : Nat → Int) :
    Prop :=
  (∀ n, n < k → x n = warm.getD n 0) ∧
    (∀ n, k ≤ n → n < b → x n = predict x n + res.getD (n - k) 0 ∧ fitsSigned (x n) (min e 32) = true) ∧
    ∀ n, n < b → fitsSigned (x n * 2 ^ w) 32 = true

/-- `x` holds the samples of such a subframe up to sample `m`, and there it fails (R331, R340): the next prediction plus
residual is outside the effective depth, or all `b` are there and one of them shifted by `w` is no int32. -/
def predictionLeavesRange (b k e w : Nat) (warm res : List Int) (predict : (Nat → Int) → Nat → Int) (x : Nat → Int)
    (m : Nat) : Prop :=
  (∀ n, n < k → x n = warm.getD n 0) ∧
    (∀ n, k ≤ n → n < m → x n = predict x n + res.getD (n - k) 0 ∧ fitsSigned (x n) (min e 32) = true) ∧
    (k ≤ m ∧ m < b ∧ fitsSigned (predict x m + res.getD (m - k) 0) (min e 32) = false ∨
      m = b ∧ ∃ n, n < b ∧ fitsSigned (x n * 2 ^ w) 32 = false)

/-- How a predicted subframe of order `k` ends, with outcome `o`, from its residual at `p` on (R310, R324, R337, R340):
the residual fails it, or it decodes to the samples, or they leave their range. -/
def predictedEnds (o : Host.Outcome State Fault Refusal) (s : State) (k w p : Nat) (warm : List Int)
    (predict : (Nat → Int) → Nat → Int) : Prop :=
  (∀ e, decodeResidual s.chunk s.dec.header.blockSize k p = .error e → o = .next (s.subframeFailed e)) ∧
    ∀ res q, decodeResidual s.chunk s.dec.header.blockSize k p = .ok (res, q) → ∀ x : Nat → Int,
      (predictedSamples s.dec.header.blockSize k (s.effectiveDepth w) w warm res predict x →
        o = .next (s.subframeDecoded (restored w s.dec.header.blockSize x) q)) ∧
      ∀ m, predictionLeavesRange s.dec.header.blockSize k (s.effectiveDepth w) w warm res predict x m →
        o = .next (s.subframeFailed .sampleRange)

/-- A FIXED subframe `i` of order `k` with the predictor `predict` (R324): its warm-up samples fail it, or it ends as
they, its residual and its prediction say. -/
def fixedSubframe (i : Bool → Instr) (k : Nat) (predict : (Nat → Int) → Nat → Int) : Prop :=
  ∀ (s : State) (wasted : Bool) (w p1 : Nat), s.subframeStarts wasted w p1 → k < s.dec.header.blockSize →
    (∀ e, readMany (readSample s.chunk (s.effectiveDepth w)) k p1 = .error e →
      exec (i wasted) s = .next (s.subframeFailed e)) ∧
    ∀ warm p2, readMany (readSample s.chunk (s.effectiveDepth w)) k p1 = .ok (warm, p2) →
      predictedEnds (exec (i wasted) s) s k w p2 warm predict

/-! The MD5 engine. -/

/-- `a`, `b`, `c`, `d` are the working words of the compression of the block `x`, before round `i` and after the last
(R552, with the rotations and the constants T of R554). -/
def md5Rounds (x : List Byte) (a b c d : Nat → Word) : Prop :=
  ∀ i, i < 64 →
    let f :=
      if i < 16 then (b i &&& c i) ||| (~~~b i &&& d i)
      else if i < 32 then (b i &&& d i) ||| (c i &&& ~~~d i)
      else if i < 48 then b i ^^^ c i ^^^ d i
      else c i ^^^ (b i ||| ~~~d i)
    let g := if i < 16 then i else if i < 32 then (5 * i + 1) % 16 else if i < 48 then (3 * i + 5) % 16 else 7 * i % 16
    let lane := fun k => (x.getD (4 * g + k) 0).toNat
    let rotation :=
      (if i < 16 then [7, 12, 17, 22] else if i < 32 then [5, 9, 14, 20] else if i < 48 then [4, 11, 16, 23]
        else [6, 10, 15, 21]).getD (i % 4) 0
    a (i + 1) = d i ∧ d (i + 1) = c i ∧ c (i + 1) = b i ∧
      b (i + 1) =
        b i + (a i + f + md5Sine.getD i 0 +
          BitVec.ofNat 32 (lane 0 + 2 ^ 8 * lane 1 + 2 ^ 16 * lane 2 + 2 ^ 24 * lane 3)).rotateLeft rotation

/-- The digest of these bytes (R553). -/
def md5Of (bytes : List Byte) : Digest := md5Finalize (md5Absorb .cleared bytes)

/-! The host's view of the registers. -/

/-- The codes of ERROR.CODE (R560). -/
def errorCodes : List (ErrorCode × Nat) :=
  [(.noError, 0), (.illegalCommand, 1), (.illegalState, 2), (.noStreaminfo, 3), (.streaminfoInvalid, 4),
    (.seektableInvalid, 5), (.badLength, 6), (.syncLost, 7), (.headerInvalid, 8), (.subframeError, 9),
    (.crc16Mismatch, 10)]

/-- The causes of ERROR.CAUSE (R562). The internal cause NO_SYNC is not among them. -/
def errorCauses : List (Cause × Nat) :=
  [(.reservedBit, 1), (.reservedBlockSize, 2), (.blockSize, 3), (.reservedRate, 4), (.rate, 5), (.reservedChannels, 6),
    (.channelMismatch, 7), (.reservedSampleSize, 8), (.bps, 9), (.bpsMismatch, 10), (.codedNumber, 11),
    (.truncated, 12), (.crc8, 13)] ++
  [(.padBit, 32), (.reservedType, 33), (.order, 34), (.wastedBits, 35), (.lpcPrecision, 36), (.lpcShift, 37),
    (.reservedMethod, 38), (.partitionOrder, 39), (.riceOverflow, 40), (.residualInt32Min, 41), (.sampleRange, 42),
    (.underrun, 43), (.unaryCap, 44)] ++
  [(.siRate, 64), (.siChannels, 65), (.siBps, 66), (.siMinBlock, 67), (.siBlockOrder, 68), (.stTooLarge, 80),
    (.footerMismatch, 96), (.missingFooter, 97)]

/-- What a host reads at each register offset but STATUS and ERROR, as a number (R32, R33, R36 to R49): every field at its
bits, zeros elsewhere. -/
def registerValues (s : State) : List (Nat × Nat) :=
  [(0x000, 0), (0x00C, s.cfg.md5En.toNat + 2 * s.cfg.crc16Reject.toNat), (0x028, s.pos.toNat % 2 ^ 32),
    (0x02C, s.posHiLatch.toNat)] ++
  [(0x010, s.consec % 256), (0x014, s.inLen.toNat), (0x018, s.stCount.toNat), (0x01C, s.st.length % 2 ^ 32),
    (0x020, s.seekTargetLo.toNat), (0x024, s.seekTargetHi.toNat)] ++
  [(0x030, s.out.samples.toNat), (0x034, s.out.channels.toNat), (0x038, s.out.rate.toNat), (0x03C, s.out.bps.toNat),
    (0x040, s.outTs.toNat % 2 ^ 32), (0x044, s.outTs.toNat / 2 ^ 32),
    (0x048, s.seekSample.toNat % 2 ^ 32), (0x04C, s.seekSample.toNat / 2 ^ 32),
    (0x050, s.seekOffset.toNat % 2 ^ 32), (0x054, s.seekOffset.toNat / 2 ^ 32),
    (0x058, s.frameOffset.toNat), (0x05C, s.frameBytes.toNat)] ++
  [(0x060, s.cnt.framesOk.toNat), (0x064, s.cnt.decodeFail.toNat), (0x068, s.cnt.syncRecovered.toNat),
    (0x06C, s.cnt.crc8Err.toNat), (0x070, s.cnt.crc16Err.toNat), (0x074, s.cnt.subframeErr.toNat),
    (0x080, s.md5Digest.w0.toNat), (0x084, s.md5Digest.w1.toNat), (0x088, s.md5Digest.w2.toNat),
    (0x08C, s.md5Digest.w3.toNat)] ++
  [(0x090, s.hdr.blockSize.toNat), (0x094, s.hdr.rate.toNat), (0x098, s.hdr.assign.toNat + 2 ^ 4 * s.hdr.count.toNat),
    (0x09C, s.hdr.bps.toNat), (0x0A0, s.hdr.number.toNat % 2 ^ 32), (0x0A4, s.hdr.number.toNat / 2 ^ 32),
    (0x0A8, s.hdr.blocking.toNat + 2 ^ 8 * s.hdr.crc8.toNat),
    (0x0AC, s.hdr.crc16Read.toNat + 2 ^ 16 * s.hdr.crc16Computed.toNat)] ++
  [(0x0C0, s.si.minBlock.toNat), (0x0C4, s.si.maxBlock.toNat), (0x0C8, s.si.minFrame.toNat),
    (0x0CC, s.si.maxFrame.toNat), (0x0D0, s.si.rate.toNat), (0x0D4, s.si.channels.toNat), (0x0D8, s.si.bps.toNat),
    (0x0DC, s.si.total.toNat % 2 ^ 32), (0x0E0, s.si.total.toNat / 2 ^ 32), (0x0E4, s.si.md5.w0.toNat),
    (0x0E8, s.si.md5.w1.toNat), (0x0EC, s.si.md5.w2.toNat), (0x0F0, s.si.md5.w3.toNat)]

end Sys2Proof.Machine
end

