-- ==== Sys2Proof/Certificates/Slice0/Obligations.lean ====
section
/-! DEFINITION. The statements about the model, for the provers. Each docstring says what its statement says and names
the rules of spec/ it rests on. -/

section

open Sys2Proof Sys2Proof.Machine

/-- For every family of the opcode table, words written bit by bit from R127, R131, R141, R142, R124 and R171 decode
to their instructions; a value whose top 14 bits are not the sync code is rejected by name. (30_encoding.md §2
R127, 30_encoding.md §3 R131, 30_encoding.md §4 R141, 30_encoding.md §8 R171) -/
def Obligations.KnownWordsDecode : Prop :=
  decode .command 0x00000001 = .ok .init ∧ decode .command 0x00000002 = .ok .decode ∧
    decode .command 0x00000008 = .ok .checkMd5 ∧ decode .command 0x00000109 = .ok (.illegalCommand 9 1) ∧
    decode .frame 0b1111111111111000 = .ok .frameFixed ∧ decode .frame 0b1111111111111001 = .ok .frameVariable ∧
    decode .frame 0b1111111111111011 = .ok (.frameReservedBit true) ∧
    decode .frame 0b1111111111110100 = .error .noSync ∧
    decode .subframe 0b00000000 = .ok (.sfConstant false) ∧ decode .subframe 0b00010100 = .ok (.sfFixed2 false) ∧
    decode .subframe 0b01000001 = .ok (.sfLpc 0 true) ∧ decode .subframe 0b00000100 = .ok (.sfReservedType23 0 false) ∧
    decode .subframe 0b10000000 = .ok (.sfPadBitSet 0) ∧
    decode .method 0b01 = .ok .resRice5 ∧ decode .param4 0b1111 = .ok .rice4Escape ∧
    decode .param5 0b01111 = .ok (.rice5Partition 15) ∧ decode .assignment 0b0001 = .ok (.chIndependent 1) ∧
    decode .assignment 0b1001 = .ok .chRightSide ∧ decode .assignment 0b1110 = .ok (.chReserved1215 2)

/-- For every well-formed instruction, its encoding fits its slot's bits and the decoder reads exactly that
instruction, with every operand, from it. (30_encoding.md, spec/opcode_table.json, R171, R131) -/
def Obligations.EncodeThenDecode : Prop :=
  ∀ i : Instr, i.wellFormed = true → encode i < 2 ^ i.slot.bits ∧ decode i.slot (encode i) = .ok i

/-- For every slot and value: a decoded instruction is well-formed, belongs to the slot and encodes back to the
value; the value is rejected as too wide exactly when it does not fit the slot, and as no sync code exactly when
it is a 16-bit frame value whose top 14 bits are not 0x3FFE. (30_encoding.md, R127, R175) -/
def Obligations.DecodeThenEncode : Prop :=
  ∀ (slot : Slot) (w : Nat),
    (∀ i, decode slot w = .ok i → i.wellFormed = true ∧ i.slot = slot ∧ encode i = w) ∧
    (decode slot w = .error .tooWide ↔ 2 ^ slot.bits ≤ w) ∧
    (decode slot w = .error .noSync ↔ slot = .frame ∧ w < 2 ^ 16 ∧ w / 4 ≠ 0x3FFE)

/-- When no DECODE is under way and the host's next access is a 32-bit write of w to CMD, and w decodes to the
command i, one step is exec of i at that state with the access taken off the host's queue. (R49, R100,
10_state.md §3) -/
def Obligations.StepRunsCommand : Prop :=
  ∀ (s : State) (w : Word) (rest : List HostAccess) (i : Instr),
    s.dec.phase = .idle → s.host = .write .word 0x00000000 w :: rest → decode .command w.toNat = .ok i →
      step s = exec i { s with host := rest }

/-- Inside a DECODE, when the field that the phase names lies inside the chunk and its bits at the cursor, most
significant first, decode to i, the step is exec of i at that state; after the last subframe it is the channel
assignment of the accepted header; where no frame header starts the candidate fails with NO_SYNC. The element
view of DECODE is the model's (assumption log entry 3). (30_encoding.md §1 to §4, R98, R400) -/
def Obligations.StepRunsElement : Prop :=
  ∀ s : State,
    (∀ i, s.dec.phase ≠ .idle → s.dec.phase ≠ .decorrelate →
      s.dec.slot.bits ≤ s.chunk.bitsLeft s.dec.cursor →
      decode s.dec.slot (s.chunk.bits s.dec.cursor s.dec.slot.bits) = .ok i → step s = exec i s) ∧
    (∀ i, s.dec.phase = .decorrelate → decode .assignment s.dec.header.assign.toNat = .ok i → step s = exec i s) ∧
    (s.dec.phase = .header →
      s.chunk.bitsLeft s.dec.cursor < 16 ∨ s.chunk.bits s.dec.cursor 14 ≠ 0x3FFE →
      step s = .next (s.headerFailed .noSync))

/-- When no DECODE is under way: with no access waiting a step changes nothing; a waiting read or a waiting write
that is not a word write to CMD is performed as one step and taken off the queue. (R101, R105, R600) -/
def Obligations.StepPerformsHostAccess : Prop :=
  ∀ s : State, s.dec.phase = .idle →
    (s.host = [] → step s = .next s) ∧
    (∀ size addr rest, s.host = .read size addr :: rest →
      step s = .next (({ s with host := rest } : State).hostRead size addr)) ∧
    (∀ size addr data rest, s.host = .write size addr data :: rest → ¬(size = .word ∧ addr = 0x00000000) →
      step s = .next (({ s with host := rest } : State).hostWrite size addr data))

/-- Every instruction of the table at every state, and every step, answers a next state: the block has no traps.
(60_exceptions.md §3 R575, R576, R580, R17) -/
def Obligations.EveryInstructionCompletes : Prop :=
  (∀ (i : Instr) (s : State), ∃ t, exec i s = .next t) ∧ ∀ s : State, ∃ t, step s = .next t

/-- The word a host reads at STATUS holds STATE, CMD_OK, CRC16_MISMATCH, SILENCED, RECOVERED, SI_VALID, MD5_RESULT
and MD5_TAINTED at the bits of R32, with the encodings of R21 and R34, and zeros in its reserved bits. The word
a host reads at ERROR holds CODE, CAUSE, CHANNEL and CHANNEL_VALID at the bits of R32 and zeros in its reserved
bits; each code has the number of R560 and each cause the number of R562. A host reads 0 at CMD and at the
reserved offsets. The words a host reads at CONFIG, CONSEC_ERR, IN_LEN, ST_COUNT, ST_LOADED, SEEK_TARGET,
POSITION_LO, POSITION_HI (the latch), OUT_*, OUT_TS, SEEK_SAMPLE, SEEK_OFFSET, FRAME_OFFSET, FRAME_BYTES, CNT_*,
MD5_DIGEST0 to 3, HDR_* and SI_* hold the fields of R33 and R36 to R48 at the bits of R32 and zeros elsewhere. A
write of IN_LEN, ST_COUNT, SEEK_TARGET_LO or SEEK_TARGET_HI stores the word and changes nothing else.
(10_state.md §3 R32, R33, R21 and R34, R35, R36 to R39, R40 and R41, R42, R43, R44, R45 and R46, R47 to R49,
R560 and R562) -/
def Obligations.StatusAndErrorWords : Prop :=
  (∀ (s : State) (w : Word), s.hostReadValue .word 0x00000004 = w →
    w.extractLsb' 0 3 = s.dstate.number ∧ w.getLsbD 3 = s.status.cmdOk ∧ w.getLsbD 4 = s.status.crc16Mismatch ∧
      w.getLsbD 5 = s.status.silenced ∧ w.getLsbD 6 = s.status.recovered ∧ w.getLsbD 7 = s.siValid ∧
      w.extractLsb' 8 2 = s.status.md5Result.number ∧ w.getLsbD 10 = s.md5.tainted ∧ w.extractLsb' 11 21 = 0 ∧
      DState.number .uninitialized = 0 ∧ DState.number .initialized = 1 ∧ DState.number .decoding = 2 ∧
      DState.number .decoderError = 3 ∧ DState.number .endOfStream = 4 ∧ Md5Result.number .noResult = 0 ∧
      Md5Result.number .matched = 1 ∧ Md5Result.number .mismatch = 2 ∧ Md5Result.number .notChecked = 3) ∧
  (∀ (s : State) (w : Word), s.hostReadValue .word 0x00000008 = w →
    w.extractLsb' 0 8 = s.err.code.number ∧ w.extractLsb' 8 8 = s.err.cause ∧ w.extractLsb' 16 3 = s.err.channel ∧
      w.getLsbD 19 = s.err.channelValid ∧ w.extractLsb' 20 12 = 0) ∧
  (∀ (code : ErrorCode) (n : Nat), (code, n) ∈ errorCodes ↔ code.number.toNat = n) ∧
  (∀ (cause : Cause) (n : Nat), cause ≠ .noSync → ((cause, n) ∈ errorCauses ↔ cause.number.toNat = n)) ∧
  (∀ (s : State) (off v : Nat), (off, v) ∈ registerValues s →
    (s.hostReadValue .word (BitVec.ofNat 32 off)).toNat = v) ∧
  (∀ (s : State) (off : Nat), off < 0x100 → off ∉ [0x004, 0x008] → off ∉ (registerValues s).map Prod.fst →
    s.hostReadValue .word (BitVec.ofNat 32 off) = 0) ∧
  ∀ (s : State) (w : Word),
    s.hostWrite .word 0x00000014 w = { s with inLen := w } ∧
      s.hostWrite .word 0x00000018 w = { s with stCount := w } ∧
      s.hostWrite .word 0x00000020 w = { s with seekTargetLo := w } ∧
      s.hostWrite .word 0x00000024 w = { s with seekTargetHi := w }

/-- A host read changes only the returned word and, when it is a word read of POSITION_LO, the latch, which takes
POS[63:32]; POSITION_LO reads POS[31:0]; POSITION_HI reads the latch, whatever POS has become since; both are 0
after power-on. (R31, R40, R103) -/
def Obligations.PositionReadThroughLatch : Prop :=
  (∀ (s : State) (size : AccessSize) (addr : Word),
    s.hostRead size addr =
      { s with
        readData := s.hostReadValue size addr
        posHiLatch := if size = .word ∧ addr = 0x00000028 then s.pos.extractLsb' 32 32 else s.posHiLatch }) ∧
  (∀ s : State, s.hostReadValue .word 0x00000028 = s.pos.setWidth 32 ∧
    s.hostReadValue .word 0x0000002C = s.posHiLatch) ∧
  (∀ (s : State) (p : DWord),
    State.hostReadValue ({ s.hostRead .word 0x00000028 with pos := p }) .word 0x0000002C = s.pos.extractLsb' 32 32) ∧
  State.reset.pos = 0 ∧ State.reset.posHiLatch = 0

/-- A host write of CONFIG stores MD5_EN and CRC16_REJECT, sets md5.tainted exactly when MD5_EN goes from 0 to 1
while POS is not 0 (it stays set otherwise), changes nothing else, and reads back with bits [31:2] zero; the
power-on value is 0. (R33, R103) -/
def Obligations.ConfigWriteTaints : Prop :=
  (∀ (s : State) (w : Word),
    s.hostWrite .word 0x0000000C w =
      { s with
        cfg := ⟨w.getLsbD 0, w.getLsbD 1⟩
        md5 := { s.md5 with tainted := s.md5.tainted || (w.getLsbD 0 && !s.cfg.md5En && s.pos != 0) } } ∧
    (s.hostWrite .word 0x0000000C w).hostReadValue .word 0x0000000C = w &&& 3) ∧
  State.reset.hostReadValue .word 0x0000000C = 0

/-- A host access that is not a naturally aligned 32-bit word changes nothing if a write, returns 0 if a read,
starts no command and does not load the POSITION latch. (R96) -/
def Obligations.UndefinedAccessesIgnored : Prop :=
  ∀ (s : State) (size : AccessSize) (addr data : Word), ¬(size = .word ∧ addr.toNat % 4 = 0) →
    s.hostWrite size addr data = s ∧ s.hostReadValue size addr = 0 ∧ startsCommand size addr = false ∧
      s.hostRead size addr = { s with readData := 0 }

/-- For aligned word accesses: a write to a register that is neither RW nor CMD, or to a word none of whose bytes
the host may write, changes nothing; a read of CMD, of a reserved register offset, or of a word that lies in no
buffer region returns 0; the writable bytes are exactly the 34 of SI_BUF, the IN_CAP of INBUF and the
18*SEEK_CAP of ST_BUF, and OUTBUF is 2*MAX_BLOCK_SIZE*MAX_CHANNELS bytes. (R94, R97, R32) -/
def Obligations.ReservedAddressesIgnored : Prop :=
  ∀ (s : State) (addr data : Word), addr.toNat % 4 = 0 →
    (addr.toNat < 0x100 → addr.toNat ∉ [0x00C, 0x014, 0x018, 0x020, 0x024] → s.hostWrite .word addr data = s) ∧
    (0x100 ≤ addr.toNat → (∀ k, k < 4 → hostWritable s.params (addr.toNat + k) = false) →
        s.hostWrite .word addr data = s) ∧
    (addr.toNat = 0 ∨ 0x078 ≤ addr.toNat ∧ addr.toNat < 0x080 ∨ 0x0B0 ≤ addr.toNat ∧ addr.toNat < 0x0C0 ∨
      0x0F4 ≤ addr.toNat ∧ addr.toNat < 0x100 → s.hostReadValue .word addr = 0) ∧
    (0x100 ≤ addr.toNat →
      (∀ k, k < 4 → hostWritable s.params (addr.toNat + k) = false ∧ inOutbuf s.params (addr.toNat + k) = false) →
      s.hostReadValue .word addr = 0) ∧
    (∀ a, hostWritable s.params a = true ↔ 0x100 ≤ a ∧ a < 0x122 ∨ 0x10000000 ≤ a ∧ a < 0x10000000 + s.params.inCap ∨
      0x20000000 ≤ a ∧ a < 0x20000000 + 18 * s.params.seekCap) ∧
    (∀ a, inOutbuf s.params a = true ↔
        0x30000000 ≤ a ∧ a < 0x30000000 + 2 * s.params.maxBlockSize * s.params.maxChannels)

/-- For a word access at or above the register file: a write stores byte lane k at address a+k wherever the host may
write, leaves every other byte and every register unchanged and keeps the memory canonical; a read returns the
four bytes in the same lanes. (R95, R94, R90) -/
def Obligations.BufferWordsInLanes : Prop :=
  ∀ (s : State) (addr data : Word), addr.toNat % 4 = 0 → 0x100 ≤ addr.toNat →
    (∀ k, k < 4 → hostWritable s.params (addr.toNat + k) = true →
      (s.hostWrite .word addr data).hostByte (addr.toNat + k) = data.extractLsb' (8 * k) 8) ∧
    (∀ a, a < addr.toNat ∨ addr.toNat + 4 ≤ a ∨ hostWritable s.params a = false →
      (s.hostWrite .word addr data).hostByte a = s.hostByte a) ∧
    (∀ k, k < 4 → (s.hostReadValue .word addr).extractLsb' (8 * k) 8 = s.hostByte (addr.toNat + k)) ∧
    s.hostWrite .word addr data = { s with mem := (s.hostWrite .word addr data).mem } ∧
    (Memory.wf s.mem = true → Memory.wf (s.hostWrite .word addr data).mem = true)

/-- After power-on DSTATE is UNINITIALIZED, the MD5 engine is cleared, every other register of R610 is 0, the seek
table is empty, with the parameter values of R8, of which CRC16_REJECT's reset value is 0. That every byte of
the buffer memories, whose contents R93 leaves unspecified, is the free value of the configuration is the
model's form (assumption log entry 1); that a block with any other parameters starts likewise, its CONFIG
showing the reset value of CRC16_REJECT it is given, is the model's form for R8's parameters (assumption log
entry 9). (R610, R8, R93, 70_reset_and_hazards.md §1) -/
def Obligations.PowerOnValues : Prop :=
  State.reset = State.resetWith ⟨65535, 8, 1000000, 1048576, 10, 1048575, 16777215, 16777216, 932067, false⟩ ∧
  State.reset.configWord = 0 ∧
  ∀ p : Config.Params, (State.resetWith p).params = p ∧
    (State.resetWith p).dstate = .uninitialized ∧ (State.resetWith p).consec = 0 ∧
      (∀ c i, (State.resetWith p).sample c i = 0) ∧
      (State.resetWith p).si = ⟨0, 0, 0, 0, 0, 0, 0, 0, ⟨0, 0, 0, 0⟩⟩ ∧ (State.resetWith p).siValid = false ∧
      (State.resetWith p).st = [] ∧
      (State.resetWith p).md5 = ⟨0x67452301, 0xEFCDAB89, 0x98BADCFE, 0x10325476, [], 0, false⟩ ∧
      (State.resetWith p).pos = 0 ∧ (State.resetWith p).posHiLatch = 0 ∧
      (State.resetWith p).statusWord = 0 ∧ (State.resetWith p).errorWord = 0 ∧
      (State.resetWith p).configWord = (if p.crc16RejectReset then 2 else 0) ∧
      (State.resetWith p).inLen = 0 ∧ (State.resetWith p).stCount = 0 ∧ (State.resetWith p).seekTargetLo = 0 ∧
      (State.resetWith p).seekTargetHi = 0 ∧
      (State.resetWith p).out = ⟨0, 0, 0, 0⟩ ∧ (State.resetWith p).outTs = 0 ∧
      (State.resetWith p).seekSample = 0 ∧ (State.resetWith p).seekOffset = 0 ∧ (State.resetWith p).frameOffset = 0 ∧
      (State.resetWith p).frameBytes = 0 ∧ (State.resetWith p).cnt = ⟨0, 0, 0, 0, 0, 0⟩ ∧
      (State.resetWith p).md5Digest = ⟨0, 0, 0, 0⟩ ∧
      (State.resetWith p).hdr = ⟨0, 0, 0, 0, 0, 0, false, 0, 0, 0⟩ ∧
      ∀ a, hostWritable p a = true ∨ inOutbuf p a = true → (State.resetWith p).hostByte a = Config.powerOnByte a

/-- Power-on, with any parameters, satisfies State.Inv: no DECODE under way, the memory canonical and inside the
buffer regions, CONSEC in range and past MAX_CONSECUTIVE_ERRORS exactly in DECODER_ERROR, STREAMINFO checked
outside UNINITIALIZED, the channel buffers canonical, the MD5 buffer consistent with its length, the seek table
within SEEK_CAP. (70_reset_and_hazards.md §1, R610, R23) -/
def Obligations.PowerOnInvariant : Prop :=
  ∀ p : Config.Params, (State.resetWith p).Inv

/-- From any state that satisfies State.Inv, one step (a host access or a whole command, DECODE with every frame
included) leads to a state that satisfies it: the memory stays canonical and inside the buffers, CONSEC stays in
[0, MAX_CONSECUTIVE_ERRORS + 1] and is at its end exactly in DECODER_ERROR, a started block keeps checked
STREAMINFO registers, no channel row grows past MAX_BLOCK_SIZE, md5.buf holds md5.len mod 64 bytes, ST_LOADED
stays within SEEK_CAP. No step changes a parameter of the block. (R23, R26, R28, R29, R30, R492, R551) -/
def Obligations.StepKeepsInvariant : Prop :=
  ∀ s t : State, s.Inv → step s = .next t → t.Inv ∧ t.params = s.params

/-- INIT is refused outside UNINITIALIZED, then without STREAMINFO, then with the first failing cause of SI_RATE,
SI_CHANNELS, SI_BPS, SI_MIN_BLOCK, SI_BLOCK_ORDER; otherwise it clears the per-stream state, enters INITIALIZED
and completes, and changes nothing else. (R520, R532) -/
def Obligations.InitCommand : Prop :=
  ∀ s : State,
    (s.dstate ≠ .uninitialized → exec .init s = .next (s.refuse .illegalState 0x01)) ∧
    (s.dstate = .uninitialized → s.siValid = false → exec .init s = .next (s.refuse .noStreaminfo 0)) ∧
    (s.dstate = .uninitialized → s.siValid = true →
      (s.si.rate = 0 ∨ s.params.maxSampleRate < s.si.rate.toNat →
        exec .init s = .next (s.refuse .streaminfoInvalid 64)) ∧
      (s.si.rate ≠ 0 → s.si.rate.toNat ≤ s.params.maxSampleRate →
        s.si.channels.toNat < 1 ∨ s.params.maxChannels < s.si.channels.toNat →
        exec .init s = .next (s.refuse .streaminfoInvalid 65)) ∧
      (s.si.rate ≠ 0 → s.si.rate.toNat ≤ s.params.maxSampleRate → 1 ≤ s.si.channels.toNat →
        s.si.channels.toNat ≤ s.params.maxChannels →
        s.si.bps.toNat < 4 ∨ 32 < s.si.bps.toNat → exec .init s = .next (s.refuse .streaminfoInvalid 66)) ∧
      (s.si.rate ≠ 0 → s.si.rate.toNat ≤ s.params.maxSampleRate → 1 ≤ s.si.channels.toNat →
        s.si.channels.toNat ≤ s.params.maxChannels → 4 ≤ s.si.bps.toNat →
        s.si.bps.toNat ≤ 32 →
        (s.si.minBlock.toNat < 16 ∨ s.params.maxBlockSize < s.si.minBlock.toNat →
          exec .init s = .next (s.refuse .streaminfoInvalid 67)) ∧
        (16 ≤ s.si.minBlock.toNat → s.si.minBlock.toNat ≤ s.params.maxBlockSize →
          s.si.maxBlock.toNat < s.si.minBlock.toNat →
          exec .init s = .next (s.refuse .streaminfoInvalid 68)) ∧
        (16 ≤ s.si.minBlock.toNat → s.si.minBlock.toNat ≤ s.params.maxBlockSize →
          s.si.minBlock.toNat ≤ s.si.maxBlock.toNat →
          exec .init s = .next
            { s with
              dstate := .initialized
              ch := clearedChannels
              pos := 0
              outTs := 0
              out := ⟨0, 0, 0, 0⟩
              consec := 0
              md5 := ⟨0x67452301, 0xEFCDAB89, 0x98BADCFE, 0x10325476, [], 0, false⟩
              status := ⟨true, false, false, false, .noResult⟩
              err := ⟨.noError, 0, 0, false⟩ })))

/-- In INITIALIZED and DECODING, FLUSH sets the AudioFrame registers to 0 and OUT_TS to POS, enters END_OF_STREAM
from DECODING, completes and changes nothing else; in every other state it is refused with ILLEGAL_STATE. (R525) -/
def Obligations.FlushCommand : Prop :=
  ∀ s : State,
    (s.dstate = .initialized ∨ s.dstate = .decoding →
      exec .flush s = .next
        { s with
          out := ⟨0, 0, 0, 0⟩
          outTs := s.pos
          dstate := if s.dstate = .decoding then .endOfStream else s.dstate
          status := { s.status with cmdOk := true }
          err := ⟨.noError, 0, 0, false⟩ }) ∧
    (s.dstate ≠ .initialized → s.dstate ≠ .decoding → exec .flush s = .next (s.refuse .illegalState 0x03))

/-- RESET is accepted in every state: it zeroes the channel buffers, POS, OUT_TS, the AudioFrame registers, CONSEC,
the three DECODE status bits and the MD5 engine with its result and taint, goes to UNINITIALIZED from
DECODER_ERROR or UNINITIALIZED and to INITIALIZED from every other state, and changes nothing else. (R530, R532) -/
def Obligations.ResetCommand : Prop :=
  ∀ s : State,
    exec .reset s = .next
      { s with
        dstate := if s.dstate = .decoderError ∨ s.dstate = .uninitialized then .uninitialized else .initialized
        ch := clearedChannels
        pos := 0
        outTs := 0
        out := ⟨0, 0, 0, 0⟩
        consec := 0
        md5 := ⟨0x67452301, 0xEFCDAB89, 0x98BADCFE, 0x10325476, [], 0, false⟩
        status := ⟨true, false, false, false, .noResult⟩
        err := ⟨.noError, 0, 0, false⟩ } ∧
    ∀ c i, (State.sample { s with ch := clearedChannels } c i) = 0

/-- In INITIALIZED, DECODING and END_OF_STREAM, SEEK writes the sample and byte offset of the point that the lookup
finds for SEEK_TARGET, clears the per-stream state with POS and OUT_TS at that sample, taints the MD5 exactly
when it is not 0, enters INITIALIZED and changes nothing else; it is refused in UNINITIALIZED and DECODER_ERROR.
(R540, R532) -/
def Obligations.SeekCommand : Prop :=
  ∀ s : State,
    (s.dstate = .initialized ∨ s.dstate = .decoding ∨ s.dstate = .endOfStream →
      exec .seek s = .next
        { s with
          seekSample := (seekLookup s.st (s.seekTargetHi ++ s.seekTargetLo)).1
          seekOffset := (seekLookup s.st (s.seekTargetHi ++ s.seekTargetLo)).2
          dstate := .initialized
          ch := clearedChannels
          pos := (seekLookup s.st (s.seekTargetHi ++ s.seekTargetLo)).1
          outTs := (seekLookup s.st (s.seekTargetHi ++ s.seekTargetLo)).1
          out := ⟨0, 0, 0, 0⟩
          consec := 0
          md5 := ⟨0x67452301, 0xEFCDAB89, 0x98BADCFE, 0x10325476, [], 0,
            (seekLookup s.st (s.seekTargetHi ++ s.seekTargetLo)).1 != 0⟩
          status := ⟨true, false, false, false, .noResult⟩
          err := ⟨.noError, 0, 0, false⟩ }) ∧
    (s.dstate = .uninitialized ∨ s.dstate = .decoderError → exec .seek s = .next (s.refuse .illegalState 0x05))

/-- For every table, in any order: with no usable point (every point a placeholder or past the target) the result is
sample 0, offset 0; otherwise it is the usable point whose sample is greatest, and among several with that
sample the one of lowest index. (R470) -/
def Obligations.SeekLookupFindsNearest : Prop :=
  ∀ (st : List SeekPoint) (T : DWord),
    ((∀ p ∈ st, p.sample = 0xFFFFFFFFFFFFFFFF ∨ T.toNat < p.sample.toNat) → seekLookup st T = (0, 0)) ∧
    (∀ l1 p l2, st = l1 ++ p :: l2 → p.sample ≠ 0xFFFFFFFFFFFFFFFF → p.sample.toNat ≤ T.toNat →
      (∀ q ∈ l1, q.sample ≠ 0xFFFFFFFFFFFFFFFF → q.sample.toNat ≤ T.toNat → q.sample.toNat < p.sample.toNat) →
      (∀ q ∈ l2, q.sample ≠ 0xFFFFFFFFFFFFFFFF → q.sample.toNat ≤ T.toNat → q.sample.toNat ≤ p.sample.toNat) →
      seekLookup st T = (p.sample, p.offset))

/-- In UNINITIALIZED, SET_STREAMINFO sets the STREAMINFO registers to the fields of SI_BUF (block sizes, frame
sizes, rate, channels + 1, bits + 1, total, MD5 bytes in their lanes), sets SI_VALID, completes and changes
nothing else; in every other state it is refused. (R450, R452) -/
def Obligations.SetStreaminfoCommand : Prop :=
  ∀ s : State,
    (s.dstate = .uninitialized → ∃ si : StreamInfo,
      exec .setStreaminfo s = .next
        { s with
          si := si
          siValid := true
          status := { s.status with cmdOk := true }
          err := ⟨.noError, 0, 0, false⟩ } ∧
      si.minBlock.toNat = (s.siByte 0).toNat * 2 ^ 8 + (s.siByte 1).toNat ∧
      si.maxBlock.toNat = (s.siByte 2).toNat * 2 ^ 8 + (s.siByte 3).toNat ∧
      si.minFrame.toNat = (s.siByte 4).toNat * 2 ^ 16 + (s.siByte 5).toNat * 2 ^ 8 + (s.siByte 6).toNat ∧
      si.maxFrame.toNat = (s.siByte 7).toNat * 2 ^ 16 + (s.siByte 8).toNat * 2 ^ 8 + (s.siByte 9).toNat ∧
      si.rate.toNat = (s.siByte 10).toNat * 2 ^ 12 + (s.siByte 11).toNat * 2 ^ 4 + (s.siByte 12).toNat / 16 ∧
      si.channels.toNat = (s.siByte 12).toNat / 2 % 8 + 1 ∧
      si.bps.toNat = (s.siByte 12).toNat % 2 * 16 + (s.siByte 13).toNat / 16 + 1 ∧
      si.total.toNat = (s.siByte 13).toNat % 16 * 2 ^ 32 + (s.siByte 14).toNat * 2 ^ 24 +
        (s.siByte 15).toNat * 2 ^ 16 + (s.siByte 16).toNat * 2 ^ 8 + (s.siByte 17).toNat ∧
      si.md5 = ⟨s.siByte 21 ++ s.siByte 20 ++ s.siByte 19 ++ s.siByte 18,
        s.siByte 25 ++ s.siByte 24 ++ s.siByte 23 ++ s.siByte 22,
        s.siByte 29 ++ s.siByte 28 ++ s.siByte 27 ++ s.siByte 26,
        s.siByte 33 ++ s.siByte 32 ++ s.siByte 31 ++ s.siByte 30⟩) ∧
    (s.dstate ≠ .uninitialized → exec .setStreaminfo s = .next (s.refuse .illegalState 0x06))

/-- In UNINITIALIZED and INITIALIZED, SET_SEEKTABLE with at most SEEK_CAP records, in a body of at most
MAX_METADATA_LEN bytes, replaces the table by the ST_COUNT records of ST_BUF (sample, offset, frame samples as
big-endian values of bytes 0 to 7, 8 to 15, 16 to 17), completes and changes nothing else; with more records it
is refused with ST_TOO_LARGE; in every other state it is refused with ILLEGAL_STATE. (R460, R461) -/
def Obligations.SetSeektableCommand : Prop :=
  ∀ s : State,
    (s.dstate = .uninitialized ∨ s.dstate = .initialized →
      (s.stCount.toNat ≤ s.params.seekCap → 18 * s.stCount.toNat ≤ s.params.maxMetadataLen → ∃ st : List SeekPoint,
        exec .setSeektable s = .next
          { s with
            st := st
            status := { s.status with cmdOk := true }
            err := ⟨.noError, 0, 0, false⟩ } ∧
        st.length = s.stCount.toNat ∧
        ∀ i p, st[i]? = some p →
          p.sample.toNat = beValue [s.stByte (18 * i), s.stByte (18 * i + 1), s.stByte (18 * i + 2),
            s.stByte (18 * i + 3), s.stByte (18 * i + 4), s.stByte (18 * i + 5), s.stByte (18 * i + 6),
            s.stByte (18 * i + 7)] ∧
          p.offset.toNat = beValue [s.stByte (18 * i + 8), s.stByte (18 * i + 9), s.stByte (18 * i + 10),
            s.stByte (18 * i + 11), s.stByte (18 * i + 12), s.stByte (18 * i + 13), s.stByte (18 * i + 14),
            s.stByte (18 * i + 15)] ∧
          p.frameSamples.toNat = beValue [s.stByte (18 * i + 16), s.stByte (18 * i + 17)]) ∧
      (s.params.seekCap < s.stCount.toNat ∨ s.params.maxMetadataLen < 18 * s.stCount.toNat →
        exec .setSeektable s = .next (s.refuse .seektableInvalid 80))) ∧
    (s.dstate ≠ .uninitialized → s.dstate ≠ .initialized →
      exec .setSeektable s = .next (s.refuse .illegalState 0x07))

/-- CHECK_MD5 is accepted in every state and completes: outside END_OF_STREAM, with MD5 disabled, tainted, or an
all-zero signature it reports NOT_CHECKED and computes nothing; otherwise it writes the digest and MATCH or
MISMATCH. The MD5 engine and everything else is unchanged. (R545) -/
def Obligations.CheckMd5Command : Prop :=
  ∀ s : State,
    (s.dstate ≠ .endOfStream ∨ s.cfg.md5En = false ∨ s.md5.tainted = true ∨ s.si.md5 = ⟨0, 0, 0, 0⟩ →
      exec .checkMd5 s = .next
        { s with
          status := { s.status with md5Result := .notChecked, cmdOk := true }
          err := ⟨.noError, 0, 0, false⟩ }) ∧
    (s.dstate = .endOfStream → s.cfg.md5En = true → s.md5.tainted = false → s.si.md5 ≠ ⟨0, 0, 0, 0⟩ →
      exec .checkMd5 s = .next
        { s with
          md5Digest := md5Finalize s.md5
          status :=
            { s.status with
              md5Result := if md5Finalize s.md5 = s.si.md5 then .matched else .mismatch
              cmdOk := true }
          err := ⟨.noError, 0, 0, false⟩ })

/-- ILLEGAL_COMMAND clears CMD_OK, sets ERROR to ILLEGAL_COMMAND with the word's bits [7:0] as cause and changes
nothing else; a step that takes a CMD write of any word with opcode 0x00 or 0x09 to 0xFF, or with a bit of
[31:8] set, does exactly this. (R49, R175, R560, R561) -/
def Obligations.IllegalCommandRefused : Prop :=
  ∀ (opcode : BitVec 8) (zero : BitVec 24) (s : State),
    exec (.illegalCommand opcode zero) s = .next
      { s with status := { s.status with cmdOk := false }, err := ⟨.illegalCommand, opcode, 0, false⟩ } ∧
    (s.dec.phase = .idle → ∀ rest, s.host = .write .word 0x00000000 (zero ++ opcode) :: rest →
      zero ≠ 0 ∨ opcode = 0 ∨ 8 < opcode.toNat →
      step s = .next
        { s with
          host := rest
          status := { s.status with cmdOk := false }
          err := ⟨.illegalCommand, opcode, 0, false⟩ })

/-- For every command and every state: INIT leaves UNINITIALIZED for INITIALIZED or stays; DECODE goes from
INITIALIZED to DECODING, or from INITIALIZED or DECODING to DECODER_ERROR when more failures than
MAX_CONSECUTIVE_ERRORS stand in a row, or stays; FLUSH goes from DECODING to END_OF_STREAM; RESET goes from
UNINITIALIZED and DECODER_ERROR to UNINITIALIZED and from every other state to INITIALIZED; SEEK leaves
UNINITIALIZED and DECODER_ERROR as they are and goes to INITIALIZED from every other state; the rest keep the
state. So END_OF_STREAM is reached only from DECODING, and only RESET leaves DECODER_ERROR. (R22, R492, R507) -/
def Obligations.CommandStateTable : Prop :=
  ∀ s : State,
    (∀ t, exec .init s = .next t → t.dstate = s.dstate ∨ s.dstate = .uninitialized ∧ t.dstate = .initialized) ∧
    (∀ t, exec .decode s = .next t →
      t.dstate = s.dstate ∨ s.dstate = .initialized ∧ t.dstate = .decoding ∨
        (s.dstate = .initialized ∨ s.dstate = .decoding) ∧ t.dstate = .decoderError ∧
          s.consec + 1 > s.params.maxConsecutiveErrors) ∧
    (∀ t, exec .flush s = .next t → t.dstate = if s.dstate = .decoding then .endOfStream else s.dstate) ∧
    (∀ t, exec .reset s = .next t →
      t.dstate = if s.dstate = .uninitialized ∨ s.dstate = .decoderError then .uninitialized else .initialized) ∧
    (∀ t, exec .seek s = .next t →
      t.dstate = if s.dstate = .uninitialized ∨ s.dstate = .decoderError then s.dstate else .initialized) ∧
    (∀ i t, i = .setStreaminfo ∨ i = .setSeektable ∨ i = .checkMd5 → exec i s = .next t → t.dstate = s.dstate) ∧
    (∀ opcode zero t, exec (.illegalCommand opcode zero) s = .next t → t.dstate = s.dstate)

/-- DECODE outside INITIALIZED and DECODING is refused with ILLEGAL_STATE, then with IN_LEN above IN_CAP with
BAD_LENGTH; a refusal writes CMD_OK and ERROR only; in every other case the chunk is decoded. complete(ok) sets
CMD_OK and clears ERROR; complete(warn) sets CMD_OK and ERROR to code and cause; a refused command clears
CMD_OK, sets ERROR to code and cause and writes no other state. (R490, R492, R500, R561) -/
def Obligations.RefusalsAndPreChecks : Prop :=
  (∀ s : State,
    (s.dstate ≠ .initialized → s.dstate ≠ .decoding → exec .decode s = .next (s.refuse .illegalState 0x02)) ∧
    (s.dstate = .initialized ∨ s.dstate = .decoding → s.params.inCap < s.inLen.toNat →
      exec .decode s = .next (s.refuse .badLength 0)) ∧
    (s.decodeStarts → exec .decode s = .next s.decodeChunk)) ∧
  (∀ (s : State) (code : ErrorCode) (cause : BitVec 8),
    s.complete = { s with status := { s.status with cmdOk := true }, err := ⟨.noError, 0, 0, false⟩ } ∧
    s.completeWarn code cause = { s with status := { s.status with cmdOk := true }, err := ⟨code, cause, 0, false⟩ } ∧
    s.refuse code cause = { s with status := { s.status with cmdOk := false }, err := ⟨code, cause, 0, false⟩ })

/-- From INITIALIZED or DECODING with IN_LEN within IN_CAP, DECODE completes with no state left inside it. The
header accepted is the one of the first candidate offset (0, or a later sync code in reach) that parses, and
FRAME_OFFSET and HDR_* show it. Either every subframe of it decodes (SUCCESS: CMD_OK 1, ERROR 0, or the CRC-16
warning with the cause of the footer check when CRC16_REJECT is 0, CONSEC 0, CNT_FRAMES_OK + 1, INITIALIZED
becomes DECODING, the frame of the accepted header delivered), or a subframe fails (PARTIAL: CMD_OK 0,
SUBFRAME_ERROR with the cause and the channel of the first one that does, the failure counted, the frame
delivered), or no frame is delivered (FAIL: CMD_OK 0; no candidate parses, SYNC_LOST when offset 0 holds no sync
code, else HEADER_INVALID with the cause of the header at offset 0; or every subframe decodes and the footer
check fails under CRC16_REJECT 1, CRC16_MISMATCH with its cause; the failure counted, OUT_* 0, nothing else of
the stream changed). In every outcome RECOVERED, CRC16_MISMATCH and SILENCED show what happened and their
counters count it, and CNT_CRC8_ERR counts a CRC-8 mismatch of the header at offset 0. (49_codec.md §2 R513,
R507, R508, R511, R45, R420, R430, R500, R505) -/
def Obligations.DecodeOutcomes : Prop :=
  ∀ s : State, s.decodeStarts → s.ch.length = 8 →
    ∃ t, exec .decode s = .next t ∧ t.dec = .unset ∧ eventsCounted s t ∧
      (decodeSucceeded s t ∨ decodePartial s t ∨ decodeFailedWhole s t)

/-- Two states that agree on INBUF bytes below IN_LEN, IN_LEN, the STREAMINFO registers, POS, CONFIG, the
parameters, DSTATE, CONSEC and the MD5 engine, and differ in anything else (older samples in the channel
buffers, bytes of INBUF past IN_LEN, other registers), give a DECODE the same ERROR, status bits, CONSEC,
DSTATE, AudioFrame registers, POS and MD5 state and the same count in each of the six counters. When a header is
accepted (also when its CRC-16 then fails the DECODE) the last-header registers, FRAME_OFFSET, FRAME_BYTES and
the samples written to the channel buffers are the same; when none is, neither DECODE writes them. When a frame
is delivered the timestamp and the bytes of OUTBUF are the same; when none is, neither is written. (R515, R91,
R26) -/
def Obligations.DecodeDependsOnlyOnItsInputs : Prop :=
  ∀ s u s' u' : State, s.decodeStarts → s.ch.length = 8 → u.ch.length = 8 →
    (∀ i, i < s.inLen.toNat → u.inByte i = s.inByte i) → u.inLen = s.inLen → u.si = s.si → u.pos = s.pos →
    u.cfg = s.cfg → u.params = s.params → u.dstate = s.dstate → u.consec = s.consec → u.md5 = s.md5 →
    exec .decode s = .next s' → exec .decode u = .next u' →
      u'.err = s'.err ∧ u'.status.cmdOk = s'.status.cmdOk ∧ u'.status.crc16Mismatch = s'.status.crc16Mismatch ∧
      u'.status.silenced = s'.status.silenced ∧ u'.status.recovered = s'.status.recovered ∧
      u'.consec = s'.consec ∧ u'.dstate = s'.dstate ∧ u'.out = s'.out ∧ u'.pos = s'.pos ∧ u'.md5 = s'.md5 ∧
      u'.cnt.framesOk - u.cnt.framesOk = s'.cnt.framesOk - s.cnt.framesOk ∧
      u'.cnt.decodeFail - u.cnt.decodeFail = s'.cnt.decodeFail - s.cnt.decodeFail ∧
      u'.cnt.syncRecovered - u.cnt.syncRecovered = s'.cnt.syncRecovered - s.cnt.syncRecovered ∧
      u'.cnt.crc8Err - u.cnt.crc8Err = s'.cnt.crc8Err - s.cnt.crc8Err ∧
      u'.cnt.crc16Err - u.cnt.crc16Err = s'.cnt.crc16Err - s.cnt.crc16Err ∧
      u'.cnt.subframeErr - u.cnt.subframeErr = s'.cnt.subframeErr - s.cnt.subframeErr ∧
      (s'.err.code = .syncLost ∨ s'.err.code = .headerInvalid →
        headerRegisters s' = headerRegisters s ∧ headerRegisters u' = headerRegisters u ∧ s'.ch = s.ch ∧ u'.ch = u.ch) ∧
      (s'.err.code ≠ .syncLost → s'.err.code ≠ .headerInvalid →
        headerRegisters u' = headerRegisters s' ∧
          ∀ c j, c < s'.hdr.count.toNat → j < s'.hdr.blockSize.toNat → u'.sample c j = s'.sample c j) ∧
      (s'.out.samples ≠ 0 → u'.outTs = s'.outTs ∧
        ∀ a, a < 2 * s'.out.samples.toNat * s'.out.channels.toNat → u'.outByte a = s'.outByte a) ∧
      (s'.out.samples = 0 → u'.outTs = u.outTs ∧ s'.outTs = s.outTs ∧ u'.mem = u.mem ∧ s'.mem = s.mem)

/-- The DECODE command, which runs the pseudocode of R420 and R500 as one step, ends in the very state that stepping
its bitstream elements one instruction at a time from the same start ends in. So what the FRAME, SF and CH
instructions do one by one is what DECODE does. (R500, R420, R120) -/
def Obligations.DecodeIsItsElements : Prop :=
  ∀ s : State, s.decodeStarts →
    ∃ n, exec .decode s = .next (runElements n s.beginDecode) ∧ (runElements n s.beginDecode).dec = .unset

/-- Whatever the chunk holds and whether it is refused or not, a DECODE leaves STREAMINFO, the seek table, CONFIG,
IN_LEN, ST_COUNT, SEEK_TARGET, the POSITION latch, SEEK_SAMPLE, SEEK_OFFSET, MD5_DIGEST and MD5_RESULT
unchanged, and every byte of memory but the first 2*OUT_SAMPLES*OUT_CHANNELS of OUTBUF (none when no frame is
delivered, where both are 0); the memory stays canonical. (R91, R92, R511, R28) -/
def Obligations.DecodeChangesOnlyItsState : Prop :=
  ∀ s t : State, exec .decode s = .next t →
    sameInputs s t ∧ sameReports s t ∧
      sameBytesBut (2 * t.out.samples.toNat * t.out.channels.toNat) s t ∧
      (Memory.wf s.mem = true → Memory.wf t.mem = true)

/-- The FRAME instructions, when the header is accepted, end in the state the CH instruction of its channel
assignment ends in from the point where that field is read; and a residual with a legal method and partition
order (the RES_RICE instructions) ends in the state that its RICE partitions, stepped one by one, end in, but
for the values carried from partition to partition and, when the subframe has failed, the cursor, which nothing
reads afterwards. (R121, R140, R280, R400) -/
def Obligations.NestedElementsAgree : Prop :=
  ∀ s : State,
    (∀ blocking codes q hd p, 16 ≤ s.chunk.bitsLeft s.dec.cursor →
      headerCodes s.chunk (s.dec.cursor + 16) = .ok (codes, q) →
      headerAfterSync s s.dec.frameStart blocking (s.dec.cursor + 16) = .ok (hd, p) →
      exec (if blocking then .frameVariable else .frameFixed) s =
        step { s with
          dec := { s.dec with
            phase := .assignment
            cursor := q
            header := { s.dec.header with blocking := blocking, bsCode := codes.1, srCode := codes.2 } } }) ∧
    (s.dec.phase = .residual → 6 ≤ s.chunk.bitsLeft s.dec.cursor → s.chunk.bits s.dec.cursor 2 < 2 →
      validPartitionOrder (s.chunk.bits (s.dec.cursor + 2) 4) s.dec.header.blockSize s.dec.pred.order = true →
      ∃ n t, step s = .next t ∧
        (runPartitions n
          { s with
            dec := { s.dec with
              phase := .partition
              cursor := s.dec.cursor + 6
              rice5 := s.chunk.bits s.dec.cursor 2 == 1
              partOrder := s.chunk.bits (s.dec.cursor + 2) 4
              part := 0
              res := [] } }).dec.phase ≠ .partition ∧
        sameButPartitions t (runPartitions n
          { s with
            dec := { s.dec with
              phase := .partition
              cursor := s.dec.cursor + 6
              rice5 := s.chunk.bits s.dec.cursor 2 == 1
              partOrder := s.chunk.bits (s.dec.cursor + 2) 4
              part := 0
              res := [] } }))

/-- For FRAME_FIXED and FRAME_VARIABLE: when the block-size, rate, assignment and sample-size codes are legal, the
second reserved bit 0, the coded number and follow-ons readable, the CRC-8 byte equal to the CRC-8 of the bytes
from the frame start, the channel count and bit depth those of STREAMINFO (the count at most MAX_CHANNELS) and
the block size and the rate allowed, the instruction completes: FRAME_OFFSET and the HDR registers hold the
decoded values, the cursor stands at the first subframe after the CRC-8 byte, and a frame start past offset 0
sets RECOVERED and is counted. (47_frame_parser.md §1 R400, R409, R410, R411, R412, R416, R232, R270) -/
def Obligations.FrameHeaderAccepted : Prop :=
  ∀ (s : State) (blocking : Bool) (num b raw p1 p2 p3 : Nat),
    32 ≤ s.chunk.bitsLeft s.dec.cursor →
    s.chunk.bits (s.dec.cursor + 16) 4 ≠ 0 → s.chunk.bits (s.dec.cursor + 20) 4 ≠ 15 →
    s.chunk.bits (s.dec.cursor + 24) 4 ≤ 10 → s.chunk.bits (s.dec.cursor + 28) 3 ≠ 3 →
    s.chunk.bits (s.dec.cursor + 31) 1 = 0 →
    readCodedNumber s.chunk blocking (s.dec.cursor + 32) = .ok (num, p1) →
    resolveBlockSize s.chunk (s.chunk.bits (s.dec.cursor + 16) 4) p1 = .ok (b, p2) →
    resolveRateField s.chunk (s.chunk.bits (s.dec.cursor + 20) 4) p2 = .ok (raw, p3) →
    8 ≤ s.chunk.bitsLeft p3 →
    s.chunk.bits p3 8 = (crc8 (s.chunk.slice s.dec.frameStart (p3 / 8 - s.dec.frameStart))).toNat →
    s.si.channels.toNat =
      (if s.chunk.bits (s.dec.cursor + 24) 4 ≤ 7 then s.chunk.bits (s.dec.cursor + 24) 4 + 1 else 2) →
    (s.chunk.bits (s.dec.cursor + 28) 3 = 0 ∨
      tableBitDepth (s.chunk.bits (s.dec.cursor + 28) 3) = some s.si.bps.toNat) →
    s.si.channels.toNat ≤ s.params.maxChannels → 4 ≤ s.si.bps.toNat → s.si.bps.toNat ≤ 32 →
    (if raw = 0 then s.si.rate.toNat else raw) ≤ s.params.maxSampleRate →
    1 ≤ b → b ≤ s.params.maxBlockSize → 16 ≤ b ∨ s.si.total = 0 ∨ s.pos.toNat + b = s.si.total.toNat →
    ∃ t, exec (if blocking then .frameVariable else .frameFixed) s = .next t ∧
      t.frameOffset = BitVec.ofNat 32 s.dec.frameStart ∧
      t.hdr = ⟨BitVec.ofNat 16 b, BitVec.ofNat 20 (if raw = 0 then s.si.rate.toNat else raw),
        BitVec.ofNat 4 (s.chunk.bits (s.dec.cursor + 24) 4), s.si.channels, s.si.bps, BitVec.ofNat 36 num, blocking,
        BitVec.ofNat 8 (s.chunk.bits p3 8), 0, 0⟩ ∧
      t.dec.phase = .subframe ∧ t.dec.cursor = p3 + 8 ∧ t.dec.chan = 0 ∧ t.dec.frameStart = s.dec.frameStart ∧
      t.dec.header.blockSize = b ∧ t.dec.header.channels = s.si.channels.toNat ∧
      t.dec.header.bps = s.si.bps.toNat ∧
      t.dec.header.assign = BitVec.ofNat 4 (s.chunk.bits (s.dec.cursor + 24) 4) ∧
      t.status = (if s.dec.frameStart = 0 then s.status else { s.status with recovered := true }) ∧
      t.cnt.syncRecovered = s.cnt.syncRecovered + (if s.dec.frameStart = 0 then 0 else 1)

/-- Every header the block reads to its end is 6 to 16 bytes, ends on a byte boundary inside the chunk, carries the
CRC-8 of the bytes before it, has a block size of 1 to 65535 (and at most MAX_BLOCK_SIZE) that is under 16 only
for a short last frame, block-size and rate codes that are not reserved, an assignment of 0 to 10, a sample-size
code that is not reserved and a second reserved bit of 0, the channel count (at most MAX_CHANNELS) and the bit
depth of STREAMINFO (two channels for the stereo modes), a rate of at most MAX_SAMPLE_RATE and a coded number
below 2^36. (R178, R232, R400, R405, R409, R411, R412, R368, R401, R270) -/
def Obligations.AcceptedHeaderIsLegal : Prop :=
  ∀ (s : State) (blocking : Bool) (hd : FrameHeader) (p : Nat),
    s.dec.cursor % 8 = 0 →
    headerAfterSync s s.dec.frameStart blocking (s.dec.cursor + 16) = .ok (hd, p) →
      p % 8 = 0 ∧ s.dec.cursor + 48 ≤ p ∧ p ≤ s.dec.cursor + 128 ∧ p ≤ 8 * s.chunk.len ∧ hd.blocking = blocking ∧
        hd.crc8 = (crc8 (s.chunk.slice s.dec.frameStart (p / 8 - 1 - s.dec.frameStart))).toNat ∧
        1 ≤ hd.blockSize ∧ hd.blockSize ≤ 65535 ∧ hd.blockSize ≤ s.params.maxBlockSize ∧
        (16 ≤ hd.blockSize ∨ s.si.total = 0 ∨ s.pos.toNat + hd.blockSize = s.si.total.toNat) ∧
        hd.bsCode = s.chunk.bits (s.dec.cursor + 16) 4 ∧ hd.bsCode ≠ 0 ∧
        hd.srCode = s.chunk.bits (s.dec.cursor + 20) 4 ∧ hd.srCode ≠ 15 ∧
        s.chunk.bits (s.dec.cursor + 28) 3 ≠ 3 ∧ s.chunk.bits (s.dec.cursor + 31) 1 = 0 ∧
        hd.assign.toNat = s.chunk.bits (s.dec.cursor + 24) 4 ∧ hd.assign.toNat ≤ 10 ∧
        hd.channels ≤ s.params.maxChannels ∧ hd.channels = s.si.channels.toNat ∧
        (7 < hd.assign.toNat → hd.channels = 2) ∧ (hd.assign.toNat ≤ 7 → hd.channels = hd.assign.toNat + 1) ∧
        hd.bps = s.si.bps.toNat ∧ 4 ≤ hd.bps ∧ hd.bps ≤ 32 ∧ hd.rate ≤ s.params.maxSampleRate ∧ hd.number < 2 ^ 36

/-- When the header at a candidate fails, the block turns to the next byte offset that holds a 14-bit sync code, up
to the smaller of MAX_SYNC_SEARCH_BYTES and IN_LEN - 2; with none left the DECODE fails: SYNC_LOST if offset 0
held no sync code, else HEADER_INVALID with the cause of offset 0, counted as a failure, with nothing delivered.
A CRC-8 mismatch is counted at offset 0 only. (R420, R422, R513) -/
def Obligations.FailedHeaderTurnsToNextCandidate : Prop :=
  ∀ (s : State) (e : Cause),
    (s.headerFailed e).cnt.crc8Err =
      s.cnt.crc8Err + (if s.dec.frameStart = 0 ∧ e = .crc8 then 1 else 0) ∧
    (∀ o, s.dec.frameStart < o → o ≤ min s.params.maxSyncSearchBytes (s.inLen.toNat - 2) → s.chunk.isSync o = true →
      (∀ o', s.dec.frameStart < o' → o' < o → s.chunk.isSync o' = false) →
      (s.headerFailed e).dec.phase = .header ∧ (s.headerFailed e).dec.cursor = 8 * o ∧
        (s.headerFailed e).dec.frameStart = o ∧ (s.headerFailed e).consec = s.consec ∧
        (s.headerFailed e).err = s.err ∧ (s.headerFailed e).out = s.out ∧ (s.headerFailed e).dstate = s.dstate ∧
        (s.headerFailed e).dec.firstErr = if s.dec.frameStart = 0 then e else s.dec.firstErr) ∧
    ((∀ o, s.dec.frameStart < o → o ≤ min s.params.maxSyncSearchBytes (s.inLen.toNat - 2) → s.chunk.isSync o = false) →
      (s.headerFailed e).dec = .unset ∧ failureCounted s (s.headerFailed e) ∧
        nothingDelivered s (s.headerFailed e) ∧ (s.headerFailed e).out = ⟨0, 0, 0, 0⟩ ∧
        (s.headerFailed e).err =
          (if (if s.dec.frameStart = 0 then e else s.dec.firstErr) = .noSync then ⟨.syncLost, 0, 0, false⟩
           else ⟨.headerInvalid, (if s.dec.frameStart = 0 then e else s.dec.firstErr).number, 0, false⟩)) ∧
    (∀ o, s.chunk.isSync o = true ↔ s.chunk.byte o = 0xFF ∧ (s.chunk.byte (o + 1)).toNat / 4 = 0x3E)

/-- FRAME_RESERVED_BIT fails the candidate with RESERVED_BIT; FRAME_FIXED and FRAME_VARIABLE fail it with the first
failing check of the header, one of the header causes 1 to 13. In bitstream order: a field among block-size
code, rate code, channel assignment, sample-size code and second reserved bit that is cut by the end of the
chunk fails with TRUNCATED, an illegal one with RESERVED_BLOCK_SIZE, RESERVED_RATE, RESERVED_CHANNELS,
RESERVED_SAMPLE_SIZE or RESERVED_BIT, whatever follows it; then a bad first byte or continuation byte of the
coded number with CODED_NUMBER, a block size of 65536 with BLOCK_SIZE, a cut number or follow-on or CRC byte
with TRUNCATED; then the first failing one of CRC-8 (CRC8), channel count (CHANNEL_MISMATCH; above MAX_CHANNELS,
where the spec names no cause, by the model's choice of assumption log entry 17), rate (RATE), bit depth (BPS,
BPS_MISMATCH) and block size (BLOCK_SIZE). (R400, R401, R175, R570, R405, R406, R407, R409, R410, R411, R412,
R270) -/
def Obligations.FrameHeaderRejected : Prop :=
  ∀ (s : State) (blocking : Bool), 16 ≤ s.chunk.bitsLeft s.dec.cursor →
    exec (.frameReservedBit blocking) s = .next (s.headerFailed .reservedBit) ∧
    (∀ e, headerAfterSync s s.dec.frameStart blocking (s.dec.cursor + 16) = .error e →
      headerFailsWith s blocking e ∧ 1 ≤ e.number.toNat ∧ e.number.toNat ≤ 13) ∧
    (∀ passed bits legal e later, codedHeaderFields s = passed ++ (bits, legal, e) :: later →
      (∀ f ∈ passed, f.1 ≤ s.chunk.bitsLeft s.dec.cursor ∧ f.2.1 = true) →
      (s.chunk.bitsLeft s.dec.cursor < bits → headerFailsWith s blocking .truncated) ∧
      (bits ≤ s.chunk.bitsLeft s.dec.cursor → legal = false → headerFailsWith s blocking e)) ∧
    ((∀ f ∈ codedHeaderFields s, f.1 ≤ s.chunk.bitsLeft s.dec.cursor ∧ f.2.1 = true) →
      (∀ e, badCodedNumber s.chunk blocking (s.dec.cursor + 32) e → headerFailsWith s blocking e) ∧
      ∀ num p1, readCodedNumber s.chunk blocking (s.dec.cursor + 32) = .ok (num, p1) →
        (∀ e, badBlockSizeField s.chunk (s.chunk.bits (s.dec.cursor + 16) 4) p1 e → headerFailsWith s blocking e) ∧
        ∀ b p2, resolveBlockSize s.chunk (s.chunk.bits (s.dec.cursor + 16) 4) p1 = .ok (b, p2) →
          (badRateField s.chunk (s.chunk.bits (s.dec.cursor + 20) 4) p2 → headerFailsWith s blocking .truncated) ∧
          ∀ raw p3, resolveRateField s.chunk (s.chunk.bits (s.dec.cursor + 20) 4) p2 = .ok (raw, p3) →
            (s.chunk.bitsLeft p3 < 8 → headerFailsWith s blocking .truncated) ∧
            (8 ≤ s.chunk.bitsLeft p3 → ∀ passed ok e later,
              checksAfterFields s b raw p3 = passed ++ (ok, e) :: later → (∀ c ∈ passed, c.1 = true) → ok = false →
              headerFailsWith s blocking e))

/-- Every block-size code 1 to 15 and every sample-rate code 0 to 14 gives the value of its table, with the 8- or
16-bit follow-on read where the code has one; block size 65536 fails; rate 0, of code 0 or of a follow-on of 0,
stands for the STREAMINFO rate, every other rate for itself, and a rate above MAX_SAMPLE_RATE fails with RATE. A
first byte 0xxxxxxx is the number; a first byte with L = 2 to 7 leading ones carries 7 - L value bits and is
followed by L - 1 bytes 10xxxxxx that contribute six bits each (L = 7 with variable blocking only); over-long
forms are accepted; first bytes 10xxxxxx and 0xFF, and 0xFE with fixed blocking, fail with CODED_NUMBER. The
sample-size codes 1, 2, 4, 5, 6, 7 stand for 8, 12, 16, 20, 24, 32 bits and code 0 for the bit depth of
STREAMINFO; a depth that differs from that of STREAMINFO fails with BPS_MISMATCH. (R122, R123, R125, R126, R405,
R406, R407, R411, R410) -/
def Obligations.HeaderFieldTables : Prop :=
  (∀ (ck : Chunk) (p : Nat),
    (∀ code, 1 ≤ code → code ≤ 5 → resolveBlockSize ck code p =
      .ok (if code = 1 then 192 else 576 * 2 ^ (code - 2), p)) ∧
    (∀ code, 8 ≤ code → code ≤ 15 → resolveBlockSize ck code p = .ok (256 * 2 ^ (code - 8), p)) ∧
    (8 ≤ ck.bitsLeft p → resolveBlockSize ck 6 p = .ok (ck.bits p 8 + 1, p + 8)) ∧
    (16 ≤ ck.bitsLeft p → ck.bits p 16 ≠ 0xFFFF → resolveBlockSize ck 7 p = .ok (ck.bits p 16 + 1, p + 16)) ∧
    (16 ≤ ck.bitsLeft p → ck.bits p 16 = 0xFFFF → resolveBlockSize ck 7 p = .error .blockSize) ∧
    resolveRateField ck 0 p = .ok (0, p) ∧
    (∀ code rate, (code, rate) ∈ [(1, 88200), (2, 176400), (3, 192000), (4, 8000), (5, 16000), (6, 22050), (7, 24000),
      (8, 32000), (9, 44100), (10, 48000), (11, 96000)] → resolveRateField ck code p = .ok (rate, p)) ∧
    (8 ≤ ck.bitsLeft p → resolveRateField ck 12 p = .ok (ck.bits p 8 * 1000, p + 8)) ∧
    (16 ≤ ck.bitsLeft p → resolveRateField ck 13 p = .ok (ck.bits p 16, p + 16)) ∧
    (16 ≤ ck.bitsLeft p → resolveRateField ck 14 p = .ok (ck.bits p 16 * 10, p + 16))) ∧
  (∀ (ck : Chunk) (blocking : Bool) (p : Nat),
    (∀ n lead, n ≤ 7 → n ≠ 1 → (n = 7 → blocking = true) → lead < 2 ^ (if n = 0 then 7 else 7 - n) →
      8 * max n 1 ≤ ck.bitsLeft p →
      ck.bits p 8 = (if n = 0 then lead else 256 - 2 ^ (8 - n) + lead) →
      (∀ j, 1 ≤ j → j < n → ck.bits (p + 8 * j) 8 / 64 = 2) →
      readCodedNumber ck blocking p =
        .ok ((List.range (n - 1)).foldl (fun v j => 64 * v + ck.bits (p + 8 * (j + 1)) 8 % 64) lead,
          p + 8 * max n 1)) ∧
    (8 ≤ ck.bitsLeft p →
      ck.bits p 8 / 64 = 2 ∨ ck.bits p 8 = 0xFF ∨ ck.bits p 8 = 0xFE ∧ blocking = false →
      readCodedNumber ck blocking p = .error .codedNumber)) ∧
  (∀ (s : State) (p : Nat),
    (s.si.rate.toNat ≤ s.params.maxSampleRate → checkRate s 0 p = .ok (s.si.rate.toNat, p)) ∧
    (s.params.maxSampleRate < s.si.rate.toNat → checkRate s 0 p = .error .rate) ∧
    (∀ raw, 1 ≤ raw → checkRate s raw p = if raw ≤ s.params.maxSampleRate then .ok (raw, p) else .error .rate) ∧
    (∀ code width, (code, width) ∈ [(0, 0), (12, 8), (13, 16), (14, 16)] → width ≤ s.chunk.bitsLeft p →
      s.chunk.bits p width = 0 → s.si.rate.toNat ≤ s.params.maxSampleRate →
      (resolveRateField s.chunk code >>= checkRate s) p = .ok (s.si.rate.toNat, p + width))) ∧
  (tableBitDepth 0 = none ∧
    (∀ code bits, (code, bits) ∈ [(1, 8), (2, 12), (4, 16), (5, 20), (6, 24), (7, 32)] →
      tableBitDepth code = some bits) ∧
    ∀ (s : State) (p : Nat), 4 ≤ s.si.bps.toNat → s.si.bps.toNat ≤ 32 →
      checkBitDepth s 0 p = .ok (s.si.bps.toNat, p) ∧
      ∀ code bits, (code, bits) ∈ [(1, 8), (2, 12), (4, 16), (5, 20), (6, 24), (7, 32)] →
        checkBitDepth s code p = if bits = s.si.bps.toNat then .ok (bits, p) else .error .bpsMismatch)

/-- In a frame header, the assignments 0 to 10 lead to the rest of the header with that code, which is accepted or
fails; the reserved codes fail the header with RESERVED_CHANNELS. (R124, R400, R401) -/
def Obligations.AssignmentReadInHeader : Prop :=
  ∀ s : State, 4 ≤ s.chunk.bitsLeft s.dec.cursor →
    (∀ i a, (∃ c : BitVec 3, i = .chIndependent c ∧ a = c.setWidth 4) ∨ i = .chLeftSide ∧ a = 8 ∨
        i = .chRightSide ∧ a = 9 ∨ i = .chMidSide ∧ a = 10 → s.dec.phase ≠ .decorrelate →
      (∀ hd p, headerAfterAssignment s s.dec.frameStart s.dec.header.blocking s.dec.header.bsCode s.dec.header.srCode a
          (s.dec.cursor + 4) = .ok (hd, p) → exec i s = .next (s.acceptHeader hd p) ∧ hd.assign = a) ∧
      (∀ e, headerAfterAssignment s s.dec.frameStart s.dec.header.blocking s.dec.header.bsCode s.dec.header.srCode a
          (s.dec.cursor + 4) = .error e → exec i s = .next (s.headerFailed e))) ∧
    (∀ i, i = .chReserved11 ∨ (∃ x, i = .chReserved1215 x) → exec i s = .next (s.headerFailed .reservedChannels))

/-- When the header byte can be read, a sample of the effective depth that cannot be read, or that is one of 33 bits
and no int32, fails the subframe with its cause. When the sample is read, SF_CONSTANT decodes its channel to B
copies of that sample shifted left by the wasted bits, with the cursor after the sample; if the shifted sample
is no int32 the subframe fails with SAMPLE_RANGE. (R320, R132, R340, R310, R314) -/
def Obligations.ConstantSubframe : Prop :=
  ∀ (s : State) (wasted : Bool) (w p1 : Nat), s.subframeStarts wasted w p1 →
    (∀ e, readSample s.chunk (s.effectiveDepth w) p1 = .error e →
      exec (.sfConstant wasted) s = .next (s.subframeFailed e)) ∧
    ∀ v p2, readSample s.chunk (s.effectiveDepth w) p1 = .ok (v, p2) →
      (fitsSigned (v * 2 ^ w) 32 = true →
        exec (.sfConstant wasted) s =
          .next (s.subframeDecoded (List.replicate s.dec.header.blockSize (v * 2 ^ w)) p2)) ∧
      (fitsSigned (v * 2 ^ w) 32 = false → 1 ≤ s.dec.header.blockSize →
        exec (.sfConstant wasted) s = .next (s.subframeFailed .sampleRange))

/-- When the B samples can be read, SF_VERBATIM decodes its channel to them, each shifted left by the wasted bits,
sample i being the signed field at E times i bits past the first one, with the cursor after the last. A 33-bit
field is read the same way. A sample that cannot be read, or that is one of 33 bits and no int32, fails the
subframe with its cause. If a shifted sample is no int32 the subframe fails with SAMPLE_RANGE. (R322, R133,
R313, R340, R314) -/
def Obligations.VerbatimSubframe : Prop :=
  ∀ (s : State) (wasted : Bool) (w p1 : Nat), s.subframeStarts wasted w p1 →
    (∀ e, readMany (readSample s.chunk (s.effectiveDepth w)) s.dec.header.blockSize p1 = .error e →
      exec (.sfVerbatim wasted) s = .next (s.subframeFailed e)) ∧
    ∀ xs p2, readMany (readSample s.chunk (s.effectiveDepth w)) s.dec.header.blockSize p1 = .ok (xs, p2) →
      ((∃ v ∈ xs, fitsSigned (v * 2 ^ w) 32 = false) →
        exec (.sfVerbatim wasted) s = .next (s.subframeFailed .sampleRange)) ∧
      ((∀ v ∈ xs, fitsSigned (v * 2 ^ w) 32 = true) →
        xs.length = s.dec.header.blockSize ∧ p2 = p1 + s.effectiveDepth w * s.dec.header.blockSize ∧
        (∀ i, i < s.dec.header.blockSize →
          xs.getD i 0 = sext (s.effectiveDepth w)
            (s.chunk.bits (p1 + s.effectiveDepth w * i) (s.effectiveDepth w))) ∧
        exec (.sfVerbatim wasted) s = .next (s.subframeDecoded (xs.map (· * 2 ^ w)) p2))

/-- For each order k from 0 to 4 below the block size: when the warm-up samples and the residual can be read, the
subframe decodes to the samples whose first k are the warm-up samples and whose n-th is the order's polynomial
of the k samples before it plus residual n - k, each within the effective depth, all shifted left by the wasted
bits, with the cursor after the residual. A warm-up sample that cannot be read, or that is one of 33 bits and no
int32, fails the subframe with its cause. When the residual fails the subframe fails with its cause; when a
predicted sample is not within the effective depth, or a shifted one is no int32, it fails with SAMPLE_RANGE.
(R324, R325, R326, R327, R328, R329, R331, R340, R314) -/
def Obligations.FixedSubframes : Prop :=
  fixedSubframe .sfFixed0 0 (fun _ _ => 0) ∧
    fixedSubframe .sfFixed1 1 (fun x n => x (n - 1)) ∧
    fixedSubframe .sfFixed2 2 (fun x n => 2 * x (n - 1) - x (n - 2)) ∧
    fixedSubframe .sfFixed3 3 (fun x n => 3 * x (n - 1) - 3 * x (n - 2) + x (n - 3)) ∧
    fixedSubframe .sfFixed4 4 (fun x n => 4 * x (n - 1) - 6 * x (n - 2) + 4 * x (n - 3) - x (n - 4))

/-- For every order from 1 to 32 below the block size: a warm-up sample that cannot be read, or that is one of 33
bits and no int32, fails the subframe with its cause; when the warm-up samples, a legal precision, a
non-negative shift, the coefficients and the residual can be read, the subframe decodes to the samples whose
first ones are the warm-up samples and whose n-th is the sum of coefficient j times sample n - 1 - j, shifted
right arithmetically, plus its residual, each within the effective depth, all shifted left by the wasted bits.
When the residual fails the subframe fails with its cause; when a predicted sample is not within the effective
depth, or a shifted one is no int32, it fails with SAMPLE_RANGE. (R335, R337, R331, R340, R135, R314) -/
def Obligations.LpcSubframe : Prop :=
  ∀ (s : State) (p : BitVec 5) (wasted : Bool) (w p1 : Nat),
    s.subframeStarts wasted w p1 → p.toNat + 1 < s.dec.header.blockSize →
    (∀ e, readMany (readSample s.chunk (s.effectiveDepth w)) (p.toNat + 1) p1 = .error e →
      exec (.sfLpc p wasted) s = .next (s.subframeFailed e)) ∧
    ∀ (p2 p3 : Nat) (warm coefs : List Int),
    readMany (readSample s.chunk (s.effectiveDepth w)) (p.toNat + 1) p1 = .ok (warm, p2) →
    9 ≤ s.chunk.bitsLeft p2 → s.chunk.bits p2 4 ≠ 15 → s.chunk.bits (p2 + 4) 5 < 16 →
    readMany (readBitsSigned s.chunk (s.chunk.bits p2 4 + 1)) (p.toNat + 1) (p2 + 9) = .ok (coefs, p3) →
    predictedEnds (exec (.sfLpc p wasted) s) s (p.toNat + 1) w p3 warm
      (fun x n =>
        ((List.range (p.toNat + 1)).map fun j => coefs.getD j 0 * x (n - 1 - j)).sum /
          2 ^ s.chunk.bits (p2 + 4) 5)

/-- The reserved subframe types fail with RESERVED_TYPE, a header byte with the pad bit with PAD_BIT, a FIXED or LPC
order not below the block size with ORDER (before the wasted-bits field is looked at). For every form of
subframe, CONSTANT, VERBATIM, each FIXED and each LPC order: a header byte that is cut fails with UNDERRUN, a
wasted-bits field that cannot be read with its cause, a wasted-bits count not below the bit depth with
WASTED_BITS, and a chunk that ends inside the sample, the samples or the warm-up samples with UNDERRUN; where
the samples have 33 bits each, the first that is cut fails it with UNDERRUN and the first that is no int32 with
SAMPLE_RANGE. With the warm-up samples read, precision field 0b1111 fails SF_LPC with LPC_PRECISION before the
shift is read, a shift field with its top bit set (a negative shift) with LPC_SHIFT, and cut precision, shift or
coefficients with UNDERRUN. (A sample outside its range fails with SAMPLE_RANGE: ConstantSubframe,
VerbatimSubframe, FixedSubframes, LpcSubframe.) (R311, R312, R131, R175, R335, R313, R201, R314) -/
def Obligations.IllegalSubframesRejected : Prop :=
  (∀ s : State,
    (∀ i x x2 x4 wasted, i = .sfReservedType23 x wasted ∨ i = .sfReservedType47 x2 wasted ∨
        i = .sfReservedType13 wasted ∨ i = .sfReservedType1415 x wasted ∨ i = .sfReservedType1631 x4 wasted →
      7 ≤ s.chunk.bitsLeft s.dec.cursor → exec i s = .next (s.subframeFailed .reservedType)) ∧
    (∀ x, 1 ≤ s.chunk.bitsLeft s.dec.cursor → exec (.sfPadBitSet x) s = .next (s.subframeFailed .padBit)) ∧
    (∀ i k wasted, (i, k) ∈ [(Instr.sfFixed0 wasted, 0), (.sfFixed1 wasted, 1), (.sfFixed2 wasted, 2),
        (.sfFixed3 wasted, 3), (.sfFixed4 wasted, 4)] → s.dec.header.blockSize ≤ k →
      7 ≤ s.chunk.bitsLeft s.dec.cursor → exec i s = .next (s.subframeFailed .order)) ∧
    (∀ p wasted, s.dec.header.blockSize ≤ p.toNat + 1 → 7 ≤ s.chunk.bitsLeft s.dec.cursor →
      exec (.sfLpc p wasted) s = .next (s.subframeFailed .order)) ∧
    (∀ i wasted m, subframeForm s i wasted m →
      (s.chunk.bitsLeft s.dec.cursor < 8 → exec i s = .next (s.subframeFailed .underrun)) ∧
      (8 ≤ s.chunk.bitsLeft s.dec.cursor →
        (∀ e, readWastedCount s.chunk wasted (s.dec.cursor + 8) = .error e → exec i s = .next (s.subframeFailed e)) ∧
        ∀ w p, readWastedCount s.chunk wasted (s.dec.cursor + 8) = .ok (w, p) →
          (s.dec.header.bps ≤ w → exec i s = .next (s.subframeFailed .wastedBits)) ∧
          (w < s.dec.header.bps → s.effectiveDepth w ≤ 32 → s.chunk.bitsLeft p < s.effectiveDepth w * m →
            exec i s = .next (s.subframeFailed .underrun)) ∧
          (w < s.dec.header.bps → s.effectiveDepth w = 33 → ∀ j, j < m → 33 * j ≤ s.chunk.bitsLeft p →
            (∀ l, l < j → fitsSigned (sext 33 (s.chunk.bits (p + 33 * l) 33)) 32 = true) →
            (s.chunk.bitsLeft p < 33 * (j + 1) → exec i s = .next (s.subframeFailed .underrun)) ∧
            (33 * (j + 1) ≤ s.chunk.bitsLeft p → fitsSigned (sext 33 (s.chunk.bits (p + 33 * j) 33)) 32 = false →
              exec i s = .next (s.subframeFailed .sampleRange))))) ∧
    (∀ i x x2 x4 wasted, i = .sfReservedType23 x wasted ∨ i = .sfReservedType47 x2 wasted ∨
        i = .sfReservedType13 wasted ∨ i = .sfReservedType1415 x wasted ∨ i = .sfReservedType1631 x4 wasted →
      s.chunk.bitsLeft s.dec.cursor < 7 → exec i s = .next (s.subframeFailed .underrun))) ∧
  (∀ (s : State) (p : BitVec 5) (wasted : Bool) (w p1 p2 : Nat) (warm : List Int),
    s.subframeStarts wasted w p1 → p.toNat + 1 < s.dec.header.blockSize →
    readMany (readSample s.chunk (s.effectiveDepth w)) (p.toNat + 1) p1 = .ok (warm, p2) →
    (4 ≤ s.chunk.bitsLeft p2 → s.chunk.bits p2 4 = 15 →
      exec (.sfLpc p wasted) s = .next (s.subframeFailed .lpcPrecision)) ∧
    (9 ≤ s.chunk.bitsLeft p2 → s.chunk.bits p2 4 ≠ 15 → 16 ≤ s.chunk.bits (p2 + 4) 5 →
      exec (.sfLpc p wasted) s = .next (s.subframeFailed .lpcShift)) ∧
    (s.chunk.bitsLeft p2 < 4 ∨ 4 ≤ s.chunk.bitsLeft p2 ∧ s.chunk.bits p2 4 ≠ 15 ∧ s.chunk.bitsLeft p2 < 9 →
      exec (.sfLpc p wasted) s = .next (s.subframeFailed .underrun)) ∧
    (9 ≤ s.chunk.bitsLeft p2 → s.chunk.bits p2 4 ≠ 15 → s.chunk.bits (p2 + 4) 5 < 16 →
      s.chunk.bitsLeft (p2 + 9) < (s.chunk.bits p2 4 + 1) * (p.toNat + 1) →
      exec (.sfLpc p wasted) s = .next (s.subframeFailed .underrun)))

/-- A run of u zeros (at most MAX_UNARY_VALUE) and a one reads as u and consumes u + 1 bits; one zero more than
MAX_UNARY_VALUE fails with UNARY_CAP; a shorter run of zeros to the end of the chunk fails with UNDERRUN. The
wasted-bits count is 0 without the flag and the unary value plus 1 with it. (R203, R130, R312) -/
def Obligations.WastedBitsCount : Prop :=
  (∀ s : State, s.chunk.maxUnary = s.params.maxUnaryValue) ∧
  ∀ (ck : Chunk) (p u : Nat),
    readWastedCount ck false p = .ok (0, p) ∧
    (u ≤ ck.maxUnary → p + u + 1 ≤ 8 * ck.len → (∀ j, j < u → ck.bit (p + j) = 0) → ck.bit (p + u) = 1 →
      readUnary ck p = .ok (u, p + u + 1) ∧ readWastedCount ck true p = .ok (u + 1, p + u + 1)) ∧
    (ck.maxUnary + 1 ≤ ck.bitsLeft p → (∀ j, j < ck.maxUnary + 1 → ck.bit (p + j) = 0) →
      readUnary ck p = .error .unaryCap ∧ readWastedCount ck true p = .error .unaryCap) ∧
    (ck.bitsLeft p ≤ ck.maxUnary → (∀ j, j < ck.bitsLeft p → ck.bit (p + j) = 0) →
      readUnary ck p = .error .underrun ∧ readWastedCount ck true p = .error .underrun)

/-- After a subframe decoded, its channel's buffer holds exactly the decoded samples in its first B entries and what
it held elsewhere, every other channel is unchanged, and the block stands at the next channel's subframe, or
after the last channel runs the footer check; nothing else changes. (R310, R500, R26, R342) -/
def Obligations.SubframeSamplesStored : Prop :=
  ∀ (s : State) (xs : List Int) (p : Nat), s.ch.length = 8 → s.dec.chan < 8 →
    (∀ v ∈ xs, fitsSigned v 32 = true) →
    (∀ i, i < xs.length → (s.subframeDecoded xs p).sample s.dec.chan i = xs.getD i 0) ∧
    (∀ i, xs.length ≤ i → (s.subframeDecoded xs p).sample s.dec.chan i = s.sample s.dec.chan i) ∧
    (∀ c i, c ≠ s.dec.chan → (s.subframeDecoded xs p).sample c i = s.sample c i) ∧
    (s.dec.chan + 1 < s.dec.header.channels →
      s.subframeDecoded xs p =
        { s with
          ch := (s.subframeDecoded xs p).ch
          dec := { s.dec with phase := .subframe, cursor := p, chan := s.dec.chan + 1 } }) ∧
    (s.dec.header.channels ≤ s.dec.chan + 1 →
      s.subframeDecoded xs p =
        State.checkFooter
          { s with ch := (s.subframeDecoded xs p).ch, dec := { s.dec with cursor := p } })

/-- When the subframe of channel c0 fails, the first B samples of the channels from c0 up to the frame's channel
count are 0, every other sample is unchanged, SILENCED is set, CNT_SUBFRAME_ERR counts it, FRAME_BYTES and
HDR_CRC16 are 0, the block goes on to decorrelation and delivery with the failure noted, and nothing else
changes. (R505) -/
def Obligations.FailedSubframeSilenced : Prop :=
  ∀ (s : State) (cause : Cause), s.ch.length = 8 → s.dec.header.channels ≤ 8 →
    (∀ c i, s.dec.chan ≤ c → c < s.dec.header.channels → i < s.dec.header.blockSize →
      (s.subframeFailed cause).sample c i = 0) ∧
    (∀ c i, c < s.dec.chan ∨ s.dec.header.channels ≤ c ∨ s.dec.header.blockSize ≤ i →
      (s.subframeFailed cause).sample c i = s.sample c i) ∧
    s.subframeFailed cause =
      { s with
        ch := (s.subframeFailed cause).ch
        status := { s.status with silenced := true }
        cnt := { s.cnt with subframeErr := s.cnt.subframeErr + 1 }
        frameBytes := 0
        hdr := { s.hdr with crc16Read := 0, crc16Computed := 0 }
        dec := { s.dec with phase := .decorrelate, failed := some (s.dec.chan, cause) } }

/-- After the last subframe the cursor is aligned to byte f without looking at the padding. If the 16 bits there
equal the CRC-16 of the bytes from the frame start to f, FRAME_BYTES and HDR_CRC16 are written and the frame
goes on. If they differ, or the chunk ends before them, CRC16_MISMATCH is set and counted, and with CRC16_REJECT
the DECODE fails with nothing delivered, without it the frame goes on with a warning. (R430, R234, R206, R33) -/
def Obligations.FooterChecked : Prop :=
  ∀ (s : State) (f : Nat) (sum : BitVec 16), f = (s.dec.cursor + 7) / 8 →
    sum = crc16 (s.chunk.slice s.dec.frameStart (f - s.dec.frameStart)) →
    (16 ≤ s.chunk.bitsLeft (8 * f) → s.chunk.bits (8 * f) 16 = sum.toNat →
      s.checkFooter =
        { s with
          frameBytes := BitVec.ofNat 32 (f + 2 - s.dec.frameStart)
          hdr := { s.hdr with crc16Read := sum, crc16Computed := sum }
          dec := { s.dec with phase := .decorrelate, cursor := 8 * f + 16 } }) ∧
    (∀ cause, (16 ≤ s.chunk.bitsLeft (8 * f) ∧ s.chunk.bits (8 * f) 16 ≠ sum.toNat ∧ cause = .footerMismatch ∨
        s.chunk.bitsLeft (8 * f) < 16 ∧ cause = .missingFooter) →
      s.checkFooter.frameBytes =
        (if cause = .missingFooter then 0 else BitVec.ofNat 32 (f + 2 - s.dec.frameStart)) ∧
      s.checkFooter.hdr =
        { s.hdr with
          crc16Read := if cause = .missingFooter then 0 else BitVec.ofNat 16 (s.chunk.bits (8 * f) 16)
          crc16Computed := sum } ∧
      s.checkFooter.status.crc16Mismatch = true ∧ s.checkFooter.cnt.crc16Err = s.cnt.crc16Err + 1 ∧
      nothingDelivered s s.checkFooter ∧ s.checkFooter.ch = s.ch ∧ sameInputs s s.checkFooter ∧
      (s.cfg.crc16Reject = true →
        s.checkFooter.dec = .unset ∧ failureCounted s s.checkFooter ∧ s.checkFooter.out = ⟨0, 0, 0, 0⟩ ∧
          s.checkFooter.err = ⟨.crc16Mismatch, cause.number, 0, false⟩) ∧
      (s.cfg.crc16Reject = false →
        s.checkFooter.dec.phase = .decorrelate ∧ s.checkFooter.dec.warn = some cause ∧
          s.checkFooter.dec.failed = s.dec.failed ∧ s.checkFooter.consec = s.consec ∧
          s.checkFooter.dstate = s.dstate ∧ s.checkFooter.out = s.out))

/-- With a partition order o that divides the block size and leaves partition 0 at least one value, the method's
residual is its 2^o partitions read in order with its parameter width, and the subframe is finished with them;
any other order fails with PARTITION_ORDER before a partition is read; the reserved methods fail with
RESERVED_METHOD. A partition that fails, fails the subframe with its cause; a chunk that ends in the partition
order fails it with UNDERRUN; a prediction that leaves its range fails it with SAMPLE_RANGE. (R280, R281, R140,
R141) -/
def Obligations.ResidualMethodsRead : Prop :=
  ∀ s : State, 2 ≤ s.chunk.bitsLeft s.dec.cursor →
    (∀ i w, (i, w) ∈ [(Instr.resRice4, 4), (.resRice5, 5)] →
      (s.chunk.bitsLeft s.dec.cursor < 6 → exec i s = .next (s.subframeFailed .underrun)) ∧
      (6 ≤ s.chunk.bitsLeft s.dec.cursor →
        s.dec.header.blockSize % 2 ^ s.chunk.bits (s.dec.cursor + 2) 4 = 0 →
        s.dec.pred.order < s.dec.header.blockSize / 2 ^ s.chunk.bits (s.dec.cursor + 2) 4 →
        (∀ e, readPartitions s.chunk w s.dec.header.blockSize (s.chunk.bits (s.dec.cursor + 2) 4) s.dec.pred.order
            (2 ^ s.chunk.bits (s.dec.cursor + 2) 4) 0 (s.dec.cursor + 6) = .error e →
          exec i s = .next (s.subframeFailed e)) ∧
        ∀ res p, readPartitions s.chunk w s.dec.header.blockSize (s.chunk.bits (s.dec.cursor + 2) 4) s.dec.pred.order
            (2 ^ s.chunk.bits (s.dec.cursor + 2) 4) 0 (s.dec.cursor + 6) = .ok (res, p) →
          (∀ xs, finishPredicted s.dec.pred res p = .ok (xs, p) → exec i s = .next (s.subframeDecoded xs p)) ∧
          (∀ e, finishPredicted s.dec.pred res p = .error e → exec i s = .next (s.subframeFailed .sampleRange))) ∧
      (6 ≤ s.chunk.bitsLeft s.dec.cursor →
        s.dec.header.blockSize % 2 ^ s.chunk.bits (s.dec.cursor + 2) 4 ≠ 0 ∨
          s.dec.header.blockSize / 2 ^ s.chunk.bits (s.dec.cursor + 2) 4 ≤ s.dec.pred.order →
        exec i s = .next (s.subframeFailed .partitionOrder))) ∧
    (∀ x, exec (.resReserved x) s = .next (s.subframeFailed .reservedMethod))

/-- Every residual that is read to its end, whatever its method, partition order and partitions, holds block size
minus predictor order values, each above -2^31 and at most 2^31 - 1, and the cursor has moved forward inside the
chunk. (R280, R282, R258, R283, R284) -/
def Obligations.ResidualCountAndRange : Prop :=
  ∀ (ck : Chunk) (b k p p' : Nat) (res : List Int), k < b → decodeResidual ck b k p = .ok (res, p') →
    res.length = b - k ∧ p < p' ∧ p' ≤ 8 * ck.len ∧ ∀ v ∈ res, -2147483648 < v ∧ v ≤ 2147483647

/-- For RICE4_PARTITION, RICE5_PARTITION and the two escapes: when the partition's values can be read after its
parameter, there are as many as R282 says, they are appended to the residual and the cursor stands at the next
partition, or after the last partition the subframe is finished, or fails with SAMPLE_RANGE when its prediction
leaves its range; a value that cannot be read or is illegal fails the subframe with its cause. (R280, R282,
R283, R284) -/
def Obligations.PartitionsAppended : Prop :=
  ∀ (s : State) (n : Nat), n = partitionSize s.dec.header.blockSize s.dec.partOrder s.dec.pred.order s.dec.part →
    (∀ i w body, ((∃ k : BitVec 4, i = .rice4Partition k ∧ w = 4 ∧ body = ricePartition s.chunk n k.toNat) ∨
        (∃ k : BitVec 5, i = .rice5Partition k ∧ w = 5 ∧ body = ricePartition s.chunk n k.toNat) ∨
        (i = .rice4Escape ∧ w = 4 ∧ body = escapePartition s.chunk n) ∨
        (i = .rice5Escape ∧ w = 5 ∧ body = escapePartition s.chunk n)) →
      w ≤ s.chunk.bitsLeft s.dec.cursor →
      (∀ xs p, body (s.dec.cursor + w) = .ok (xs, p) → xs.length = n ∧
        (s.dec.part + 1 < 2 ^ s.dec.partOrder →
          exec i s = .next
            { s with dec := { s.dec with cursor := p, part := s.dec.part + 1, res := s.dec.res ++ xs } }) ∧
        (2 ^ s.dec.partOrder ≤ s.dec.part + 1 →
          (∀ ys, finishPredicted s.dec.pred (s.dec.res ++ xs) p = .ok (ys, p) →
            exec i s = .next (s.subframeDecoded ys p)) ∧
          (∀ e, finishPredicted s.dec.pred (s.dec.res ++ xs) p = .error e →
            exec i s = .next (s.subframeFailed .sampleRange)))) ∧
      (∀ e, body (s.dec.cursor + w) = .error e → exec i s = .next (s.subframeFailed e)))

/-- With parameter k, q zeros, a one and the k-bit remainder m read as u = q*2^k + m and give u/2 for even u and
-(u/2) - 1 for odd u; u = 2^32 - 1 fails with RESIDUAL_INT32_MIN and a quotient part of 2^32 or more with
RICE_OVERFLOW. After the escape parameter, a 5-bit width w and n values of w bits, two's complement, in order;
with w = 0 the values are 0 and no bit is read. (R143, R283, R284, R285, R142) -/
def Obligations.ResidualValues : Prop :=
  (∀ (ck : Chunk) (p k q m : Nat), k ≤ 30 → q ≤ ck.maxUnary → (∀ j, j < q → ck.bit (p + j) = 0) → ck.bit (p + q) = 1 →
    p + q + 1 + k ≤ 8 * ck.len → ck.bits (p + q + 1) k = m →
    (q * 2 ^ k + m < 4294967295 →
      readRice ck k p =
        .ok (if (q * 2 ^ k + m) % 2 = 0 then (((q * 2 ^ k + m) / 2 : Nat) : Int)
          else -(((q * 2 ^ k + m) / 2 : Nat) : Int) - 1, p + q + 1 + k)) ∧
    (q * 2 ^ k + m = 4294967295 → readRice ck k p = .error .residualInt32Min) ∧
    (4294967296 ≤ q * 2 ^ k → readRice ck k p = .error .riceOverflow)) ∧
  (∀ (ck : Chunk) (n p w : Nat), 5 ≤ ck.bitsLeft p → ck.bits p 5 = w → 5 + w * n ≤ ck.bitsLeft p →
    escapePartition ck n p =
      .ok ((List.range n).map fun i => if w = 0 then 0 else sext w (ck.bits (p + 5 + w * i) w), p + 5 + w * n))

/-- After the last subframe: each of the B samples of channels 0 and 1 becomes the left and right sample of its
mode, computed exactly and wrapped to int32; no other sample changes; OUTBUF holds the converted samples
interleaved, low byte first, and no other byte changes; OUT_TS takes POS, POS advances by B, the AudioFrame
registers and the MD5 engine take the frame; the outcome is SUCCESS, with or without the CRC-16 warning, or
PARTIAL; the DECODE is over and the header, frame and seek registers, the event bits of STATUS and the event
counters are unchanged. After the last subframe an independent assignment leaves the channel buffers as they
are; the frame is delivered to OUTBUF, POS, OUT_TS, the AudioFrame registers and the MD5 engine, the outcome is
reported, and nothing else changes. (R360, R361, R362, R363, R364, R366, R381, R508, R509, R513) -/
def Obligations.AssignmentsDeliver : Prop :=
  (stereoDelivers .chLeftSide (fun left side => (left, left - side)) ∧
    stereoDelivers .chRightSide (fun side right => (right + side, right)) ∧
    stereoDelivers .chMidSide
      (fun mid side => ((2 * mid + side % 2 + side) / 2, (2 * mid + side % 2 - side) / 2))) ∧
  (∀ (s : State) (c : BitVec 3), s.dec.phase = .decorrelate →
    ∃ t, exec (.chIndependent c) s = .next t ∧ t.dec = .unset ∧ t.ch = s.ch ∧
      frameDelivered s.dec.header.blockSize s.dec.header.channels s.dec.header.rate s.dec.header.bps s t ∧
      deliveryReported s.dec.failed s.dec.warn s t ∧ sameInputs s t ∧ sameReports s t ∧ t.hdr = s.hdr ∧
      t.frameOffset = s.frameOffset ∧ t.frameBytes = s.frameBytes ∧ sameEvents s t)

/-- For every depth from 4 to 32 the output is an int16; a sample of the depth is shifted left below 16 bits,
unchanged at 16, shifted right toward minus infinity above 16; a value past the range after the shift is
clamped, at every depth. (R380, R383) -/
def Obligations.PcmConversion : Prop :=
  (∀ x n, 4 ≤ n → n ≤ 32 → -32768 ≤ toPcm16 x n ∧ toPcm16 x n ≤ 32767) ∧
    (∀ x n, 4 ≤ n → n ≤ 16 → fitsSigned x n = true → toPcm16 x n = x * 2 ^ (16 - n)) ∧
    (∀ x n, 16 < n → n ≤ 32 → fitsSigned x n = true → toPcm16 x n = x / 2 ^ (n - 16)) ∧
    (∀ x n, 4 ≤ n → n < 16 → 32768 ≤ x * 2 ^ (16 - n) → toPcm16 x n = 32767) ∧
    (∀ x n, 4 ≤ n → n < 16 → x * 2 ^ (16 - n) ≤ -32768 → toPcm16 x n = -32768) ∧
    (∀ x n, 16 ≤ n → n ≤ 32 → 32768 ≤ x / 2 ^ (n - 16) → toPcm16 x n = 32767) ∧
    (∀ x n, 16 ≤ n → n ≤ 32 → x / 2 ^ (n - 16) ≤ -32768 → toPcm16 x n = -32768)

/-- For all integers l and r, MidSide of mid = (l + r) asr 1 and side = l - r gives (l, r); and right is always left
minus side. (R364) -/
def Obligations.MidSideInverts : Prop :=
  (∀ l r : Int, midSide ((l + r) / 2) (l - r) = (l, r)) ∧
    ∀ mid side : Int, (midSide mid side).2 = (midSide mid side).1 - side

/-- For every byte sequence, CRC-8 over the data and its CRC byte is 0, and CRC-16 over the data and its two CRC
bytes, high byte first, is 0; the ASCII digits 1 to 9 give 0xF4 and 0xFEE8. (R230, R231, R235) -/
def Obligations.CrcResidueZero : Prop :=
  (∀ d : List Byte, crc8 (d ++ [crc8 d]) = 0) ∧
    (∀ d : List Byte, crc16 (d ++ [(crc16 d).extractLsb' 8 8, (crc16 d).extractLsb' 0 8]) = 0) ∧
    crc8 [0x31, 0x32, 0x33, 0x34, 0x35, 0x36, 0x37, 0x38, 0x39] = 0xF4 ∧
    crc16 [0x31, 0x32, 0x33, 0x34, 0x35, 0x36, 0x37, 0x38, 0x39] = 0xFEE8

/-- A frame feeds each sample in ceil(N/8) bytes of its two's complement, least significant first, the samples
sample-major: byte k of sample i of channel c stands at ceil(N/8)*(i*C + c) + k, and there are no other bytes.
Absorbing m bytes adds m to md5.len modulo 2^64, leaves md5.len mod 64 bytes pending and does not touch the
taint; bytes absorbed one after the other are absorbed together; short of a block the bytes are only appended
and no block is compressed; the byte that fills the 64-byte block compresses it into A to D, by the 64 rounds of
R552, and leaves nothing pending. A digest is the words A to D after the padding, a byte 0x80, the least number
of zeros and the message's length in bits as 8 bytes, low byte first, which ends a block. The digests of the
empty input, of abc, of message digest and of the PCM of P1 (32 bytes), P2 (64 bytes) and P3 (120 bytes) are
those of R555 and of the test vectors. (R551, R552, R553, R554, R555, 95_test_vectors.md §2.11) -/
def Obligations.Md5PendingBytes : Prop :=
  (∀ (s : State) (b c n : Nat),
    (md5FrameBytes s b c n).length = (n + 7) / 8 * (b * c) ∧
      ∀ i ch k, i < b → ch < c → k < (n + 7) / 8 →
        (md5FrameBytes s b c n).getD ((n + 7) / 8 * (i * c + ch) + k) 0 =
          BitVec.ofInt 8 (s.sample ch i / 2 ^ (8 * k))) ∧
  (∀ (m : Md5State) (d : List Byte), m.buf.length = m.len.toNat % 64 →
    (md5Absorb m d).len = m.len + BitVec.ofNat 64 d.length ∧
      (md5Absorb m d).buf.length = (md5Absorb m d).len.toNat % 64 ∧ (md5Absorb m d).tainted = m.tainted) ∧
    (∀ (m : Md5State) (d e : List Byte), md5Absorb m (d ++ e) = md5Absorb (md5Absorb m d) e) ∧
    (∀ (m : Md5State) (d : List Byte), m.buf.length < 64 → m.buf.length + d.length = 64 →
      md5Absorb m d =
        { md5Compress m (m.buf ++ d) with buf := [], len := m.len + BitVec.ofNat 64 d.length }) ∧
    (∀ (m : Md5State) (x : List Byte), ∃ a b c d : Nat → Word,
      a 0 = m.a ∧ b 0 = m.b ∧ c 0 = m.c ∧ d 0 = m.d ∧ md5Rounds x a b c d ∧
        md5Compress m x = { m with a := m.a + a 64, b := m.b + b 64, c := m.c + c 64, d := m.d + d 64 }) ∧
    (∀ m : Md5State, m.buf.length = m.len.toNat % 64 → ∃ (zeros : Nat) (t : Md5State),
      zeros < 64 ∧ (m.buf.length + 1 + zeros) % 64 = 56 ∧
        t = md5Absorb m ([0x80] ++ List.replicate zeros 0 ++
          (List.range 8).map fun j => BitVec.ofNat 8 (8 * m.len.toNat % 2 ^ 64 / 2 ^ (8 * j))) ∧
        t.buf = [] ∧ md5Finalize m = ⟨t.a, t.b, t.c, t.d⟩) ∧
    (∀ (m : Md5State) (d : List Byte), m.buf.length < 64 → m.buf.length + d.length < 64 →
      md5Absorb m d = { m with buf := m.buf ++ d, len := m.len + BitVec.ofNat 64 d.length }) ∧
    md5Finalize .cleared = ⟨0xD98C1DD4, 0x04B2008F, 0x980980E9, 0x7E42F8EC⟩ ∧
    md5Of [0x61, 0x62, 0x63] = ⟨0x98500190, 0xB04FD23C, 0x7D3F96D6, 0x727FE128⟩ ∧
    md5Of [0x6D, 0x65, 0x73, 0x73, 0x61, 0x67, 0x65, 0x20, 0x64, 0x69, 0x67, 0x65, 0x73, 0x74] =
      ⟨0x7D696BF9, 0x8D93B77C, 0x312F5A52, 0xD061F1AA⟩ ∧
    md5Of ((List.replicate 16 [0xE8, 0x03]).flatten) = ⟨0xB86CEEFC, 0x70C1BCA9, 0x8D12676A, 0xB4594F1C⟩ ∧
    md5Of (([100, 90, 120, 115, 150, 140, 170, 165, 160, 158, 140, 130, 100, 95, 60, 58] ++
        [20, 25, -10, -5, -40, -38, -50, -52, -45, -40, -30, -31, -10, -12, 5, 3]).flatMap (leBytes 2)) =
      ⟨0x3E041F06, 0x40216033, 0xCBDA4B1D, 0x0E82379B⟩ ∧
    md5Of ((([1004000, 1007200, 1009200, 1009600, 1008000, 1005200, 1001600, 998000, 995200, 993600, 993400, 994800,
          997200, 1000000, 1002400, 1003800].flatMap fun left => [left, 1000000]) ++
        [8000000, -8388608, -8000000, 8388607, 123456, 0, -1, 256]).flatMap (leBytes 3)) =
      ⟨0x5B64A516, 0x1180375D, 0xD094B14F, 0x512A3A77⟩

/-- A byte-aligned read of whole bytes is the big-endian value of those bytes; a read of n bits is below 2^n,
consumes n bits or fails with UNDERRUN and consumes nothing; a signed read is the int_n congruent to it modulo
2^n; a sample of up to 32 bits is a signed read, one of 33 bits is its low 32 bits less 2^32 times its top bit,
fails with SAMPLE_RANGE when that is no int32, and with UNDERRUN when it is cut; alignment moves to the next
byte boundary and returns the number of bits it skipped, 0 to 7. (R98, R200, R201, R202, R206, R313, R314) -/
def Obligations.StreamBitsAreBigEndian : Prop :=
  ∀ (ck : Chunk),
    (∀ o n, ck.bits (8 * o) (8 * n) = beValue (ck.slice o n)) ∧
    (∀ p n, ck.bits p n < 2 ^ n) ∧
    (∀ p n, readBits ck n p = if ck.bitsLeft p < n then .error .underrun else .ok (ck.bits p n, p + n)) ∧
    (∀ p n, 1 ≤ n → n ≤ ck.bitsLeft p → ∃ v : Int, readBitsSigned ck n p = .ok (v, p + n) ∧
      -2 ^ (n - 1) ≤ v ∧ v < 2 ^ (n - 1) ∧ (v - ck.bits p n) % 2 ^ n = 0) ∧
    (∀ p e, e ≤ 32 → readSample ck e p = readBitsSigned ck e p) ∧
    (∀ p, ck.bitsLeft p < 33 → readSample ck 33 p = .error .underrun) ∧
    (∀ p (v : Int), 33 ≤ ck.bitsLeft p → v = ck.bits (p + 1) 32 - 2 ^ 32 * (ck.bits p 1 : Int) →
      readSample ck 33 p =
        if -2147483648 ≤ v ∧ v ≤ 2147483647 then .ok (v, p + 33) else .error .sampleRange) ∧
    (∀ p, (alignToByte p).2 = p + (alignToByte p).1 ∧ (alignToByte p).1 ≤ 7 ∧ (alignToByte p).2 % 8 = 0) ∧
    alignToByte (8 * 3 + 5) = (3, 8 * 4)

/-- For every instruction at every state: the STREAMINFO registers change only by SET_STREAMINFO, the seek table
only by SET_SEEKTABLE, MD5_DIGEST only by CHECK_MD5, the SEEK report only by SEEK; CONFIG, IN_LEN, ST_COUNT,
SEEK_TARGET and the POSITION latch are the host's alone, the parameters nobody's; no byte of SI_BUF, INBUF or
ST_BUF ever changes; the memory stays canonical. (R28, R29, R31, R33, R37, R43, R46, R91) -/
def Obligations.OnlyTheirWritersWrite : Prop :=
  ∀ (i : Instr) (s t : State), exec i s = .next t →
    (i ≠ .setStreaminfo → t.si = s.si ∧ t.siValid = s.siValid) ∧
    (i ≠ .setSeektable → t.st = s.st) ∧
    (i ≠ .checkMd5 → t.md5Digest = s.md5Digest) ∧
    (i ≠ .seek → t.seekSample = s.seekSample ∧ t.seekOffset = s.seekOffset) ∧
    t.cfg = s.cfg ∧ t.inLen = s.inLen ∧ t.stCount = s.stCount ∧ t.seekTargetLo = s.seekTargetLo ∧
    t.seekTargetHi = s.seekTargetHi ∧ t.posHiLatch = s.posHiLatch ∧ t.host = s.host ∧ t.readData = s.readData ∧
    t.params = s.params ∧
    (∀ a, a < 0x30000000 → Memory.read t.mem a = Memory.read s.mem a) ∧
    (Memory.wf s.mem = true → Memory.wf t.mem = true)

/-- FRAME_FIXED, FRAME_VARIABLE, FRAME_RESERVED_BIT and a channel assignment met in a header leave the channel
buffers, memory, POS, OUT_TS, the MD5 engine, FRAME_BYTES and every input and report register unchanged; the
last-header registers change only when the header is accepted, and the outcome registers only when the DECODE
ends. (R400, R416, R420, R47) -/
def Obligations.HeaderElementsFrame : Prop :=
  ∀ (i : Instr) (s t : State), exec i s = .next t →
    i.slot = .frame ∨ i.slot = .assignment ∧ s.dec.phase ≠ .decorrelate ∨ i = .chReserved11 ∨
      (∃ x, i = .chReserved1215 x) →
    nothingDelivered s t ∧ t.ch = s.ch ∧ t.frameBytes = s.frameBytes ∧ sameInputs s t ∧ sameReports s t ∧
      t.status.silenced = s.status.silenced ∧ t.status.crc16Mismatch = s.status.crc16Mismatch ∧
      t.cnt.framesOk = s.cnt.framesOk ∧ t.cnt.crc16Err = s.cnt.crc16Err ∧ t.cnt.subframeErr = s.cnt.subframeErr ∧
      (t.dec.phase ≠ .subframe → t.hdr = s.hdr ∧ t.frameOffset = s.frameOffset) ∧
      (t.dec.phase ≠ .idle → t.consec = s.consec ∧ t.dstate = s.dstate ∧ t.err = s.err ∧ t.out = s.out ∧
        t.status.cmdOk = s.status.cmdOk)

/-- Every subframe, residual and partition instruction leaves memory, POS, OUT_TS, the MD5 engine, the samples of
the channels before its own, the last-header registers but for HDR_CRC16, and every input and report register
unchanged; the outcome registers change only when the DECODE ends (a footer rejected under CRC16_REJECT). (R310,
R342, R430, R505) -/
def Obligations.SubframeElementsFrame : Prop :=
  ∀ (i : Instr) (s t : State), exec i s = .next t →
    i.slot = .subframe ∨ i.slot = .method ∨ i.slot = .param4 ∨ i.slot = .param5 →
    nothingDelivered s t ∧ sameInputs s t ∧ sameReports s t ∧ t.frameOffset = s.frameOffset ∧
      (∀ c j, c < s.dec.chan → t.sample c j = s.sample c j) ∧
      { t.hdr with crc16Read := s.hdr.crc16Read, crc16Computed := s.hdr.crc16Computed } = s.hdr ∧
      t.status.recovered = s.status.recovered ∧ t.cnt.framesOk = s.cnt.framesOk ∧
      t.cnt.crc8Err = s.cnt.crc8Err ∧ t.cnt.syncRecovered = s.cnt.syncRecovered ∧
      (t.dec.phase ≠ .idle → t.consec = s.consec ∧ t.dstate = s.dstate ∧ t.err = s.err ∧ t.out = s.out ∧
        t.status.cmdOk = s.status.cmdOk ∧ t.cnt.decodeFail = s.cnt.decodeFail)

end
end

