-- ==== Sys2Proof/Laws/Bits.lean ====
section
/-! SUPPORT. The laws of the stream bits (Machine/Operands.lean): fields split and join, a field is below its power of
two, and looking at a field inside the chunk sees its bits. -/

namespace Sys2Proof.Machine

theorem Chunk.bits_zero (ck : Chunk) (p : Nat) : ck.bits p 0 = 0 := rfl

theorem Chunk.bits_succ (ck : Chunk) (p n : Nat) : ck.bits p (n + 1) = 2 * ck.bits p n + ck.bit (p + n) := rfl

theorem Chunk.bit_lt (ck : Chunk) (p : Nat) : ck.bit p < 2 := Nat.mod_lt _ (by decide)

theorem Chunk.bits_lt (ck : Chunk) (p n : Nat) : ck.bits p n < 2 ^ n := by
  induction n with
  | zero => simp [Chunk.bits_zero]
  | succ n ih =>
    have := ck.bit_lt (p + n)
    rw [Chunk.bits_succ, pow_succ]
    omega

/-- A field of m + n bits is its first m bits followed by the next n. -/
theorem Chunk.bits_add (ck : Chunk) (p m n : Nat) :
    ck.bits p (m + n) = ck.bits p m * 2 ^ n + ck.bits (p + m) n := by
  induction n with
  | zero => simp [Chunk.bits_zero]
  | succ n ih =>
    rw [← Nat.add_assoc, Chunk.bits_succ, Chunk.bits_succ, ih, pow_succ, Nat.add_assoc p m n]
    ring

/-- A field that lies inside the chunk looks as it reads. -/
theorem Chunk.peek_eq_bits (ck : Chunk) (p n : Nat) (h : n ≤ ck.bitsLeft p) : ck.peek p n = ck.bits p n := by
  induction n with
  | zero => rfl
  | succ n ih =>
    unfold Chunk.bitsLeft at *
    rw [Chunk.peek, Chunk.bits_succ, ih (by omega), if_pos (by omega)]

theorem Chunk.peek_lt (ck : Chunk) (p n : Nat) : ck.peek p n < 2 ^ n := by
  induction n with
  | zero => simp [Chunk.peek]
  | succ n ih =>
    have := ck.bit_lt (p + n)
    rw [Chunk.peek, pow_succ]
    split <;> omega

/-- A byte-aligned field of 8 bits is a byte (R98). -/
theorem Chunk.bits_byte (ck : Chunk) (o : Nat) : ck.bits (8 * o) 8 = (ck.byte o).toNat := by
  have h := (ck.byte o).isLt
  simp only [Chunk.bits, Chunk.bit]
  have e : ∀ j, j < 8 → (8 * o + j) / 8 = o ∧ (8 * o + j) % 8 = j := fun j hj => by omega
  rw [(e 1 (by decide)).1, (e 1 (by decide)).2, (e 2 (by decide)).1, (e 2 (by decide)).2, (e 3 (by decide)).1,
    (e 3 (by decide)).2, (e 4 (by decide)).1, (e 4 (by decide)).2, (e 5 (by decide)).1, (e 5 (by decide)).2,
    (e 6 (by decide)).1, (e 6 (by decide)).2, (e 7 (by decide)).1, (e 7 (by decide)).2]
  have e0 : 8 * o / 8 = o ∧ 8 * o % 8 = 0 := by omega
  rw [show 8 * o + 0 = 8 * o from rfl, e0.1, e0.2]
  norm_num
  omega

/-- Alignment skips the bits up to the next byte boundary, at most seven of them (R206). -/
theorem alignToByte_eq (p : Nat) : alignToByte p = ((8 - p % 8) % 8, 8 * ((p + 7) / 8)) := by
  unfold alignToByte
  split_ifs with h
  · ext <;> dsimp only <;> omega
  · ext <;> dsimp only <;> omega

end Sys2Proof.Machine
end

