-- ==== Sys2Proof/Laws/Bytes.lean ====
section
/-! SUPPORT. The laws of big-endian byte sequences (Machine/Ops.lean) and of the fields of SI_BUF
(Machine/Metadata.lean). -/

namespace Sys2Proof.Machine

theorem beValue_foldl (l : List Byte) (v : Nat) :
    l.foldl (fun v b => 256 * v + b.toNat) v = v * 256 ^ l.length + beValue l := by
  induction l generalizing v with
  | nil => simp [beValue]
  | cons b l ih =>
    unfold beValue
    rw [List.foldl_cons, List.foldl_cons, ih, ih (256 * 0 + b.toNat), List.length_cons, pow_succ]
    ring

theorem beValue_nil : beValue [] = 0 := rfl

theorem beValue_cons (b : Byte) (l : List Byte) : beValue (b :: l) = b.toNat * 256 ^ l.length + beValue l := by
  unfold beValue
  rw [List.foldl_cons, beValue_foldl]
  simp [beValue]

theorem beValue_append (l m : List Byte) : beValue (l ++ m) = beValue l * 256 ^ m.length + beValue m := by
  unfold beValue
  rw [List.foldl_append, beValue_foldl]
  rfl

theorem beValue_lt (l : List Byte) : beValue l < 256 ^ l.length := by
  induction l with
  | nil => simp [beValue_nil]
  | cons b l ih =>
    have := b.isLt
    rw [beValue_cons, List.length_cons, pow_succ]
    nlinarith

/-- Part of a big-endian value: the bytes that stand before the last `m.length` ones, modulo what stands before them. -/
theorem beValue_middle (k l m : List Byte) :
    beValue (k ++ l ++ m) / 256 ^ m.length % 256 ^ l.length = beValue l := by
  rw [beValue_append, beValue_append, Nat.add_comm, Nat.add_mul_div_right _ _ (by positivity),
    Nat.div_eq_of_lt (beValue_lt m), Nat.zero_add, Nat.add_comm, Nat.add_mul_mod_self_right,
    Nat.mod_eq_of_lt (beValue_lt l)]

theorem State.siBytes_length (s : State) (i n : Nat) : (s.siBytes i n).length = n := by simp [State.siBytes]

theorem State.stBytes_length (s : State) (i n : Nat) : (s.stBytes i n).length = n := by simp [State.stBytes]

theorem State.siBytes_append (s : State) (i m n : Nat) :
    s.siBytes i m ++ s.siBytes (i + m) n = s.siBytes i (m + n) := by
  unfold State.siBytes
  rw [List.range_add, List.map_append, List.map_map]
  congr 1
  apply List.map_congr_left
  intro j _
  show _ = s.siByte (i + (m + j))
  rw [Nat.add_assoc]

/-- A byte-aligned field of whole bytes is the big-endian value of its bytes (R98, R150). -/
theorem State.siField_bytes (s : State) (o n : Nat) (h : o + n ≤ 34) :
    s.siField (8 * o) (8 * n) = beValue (s.siBytes o n) := by
  have e : s.siBytes 0 34 = s.siBytes 0 o ++ s.siBytes o n ++ s.siBytes (o + n) (34 - (o + n)) := by
    have e1 := s.siBytes_append 0 o n
    have e2 := s.siBytes_append 0 (o + n) (34 - (o + n))
    rw [Nat.zero_add] at e1 e2
    rw [e1, e2, Nat.add_sub_cancel' h]
  have := beValue_middle (s.siBytes 0 o) (s.siBytes o n) (s.siBytes (o + n) (34 - (o + n)))
  rw [← e, State.siBytes_length, State.siBytes_length] at this
  unfold State.siField
  rw [← this, show 272 - 8 * o - 8 * n = 8 * (34 - (o + n)) by omega, pow_mul, pow_mul]
  rfl

/-- A field inside a wider one (R150: the packed field of rate, channels, bits and total). -/
theorem State.siField_inside (s : State) (o w r n : Nat) (h : o + w ≤ 272) (hr : r + n ≤ w) :
    s.siField (o + r) n = s.siField o w / 2 ^ (w - r - n) % 2 ^ n := by
  unfold State.siField
  generalize beValue (s.siBytes 0 34) = v
  have e1 : 272 - (o + r) - n = (272 - o - w) + (w - r - n) := by omega
  have e2 : w = (w - r - n) + (r + n) := by omega
  rw [e1, pow_add, ← Nat.div_div_eq_div_mul]
  generalize v / 2 ^ (272 - o - w) = q
  conv_rhs => rw [show q % 2 ^ w = q % 2 ^ ((w - r - n) + (r + n)) by rw [← e2]]
  rw [pow_add, Nat.mod_mul_right_div_self, pow_add, Nat.mod_mul_left_mod]

end Sys2Proof.Machine
end

