-- ==== Sys2Proof/Laws/Gates.lean ====
section
/-! SUPPORT. The validation gates of Machine/Flags.lean as propositions over numerals (R250 to R268). -/

namespace Sys2Proof.Machine

theorem validBlockSize_iff (p : Config.Params) (b : Nat) (small : Bool) :
    validBlockSize p b small = true ↔ (if small then 1 else 16) ≤ b ∧ b ≤ p.maxBlockSize := by
  simp only [validBlockSize, Bool.and_eq_true, decide_eq_true_eq]

theorem validSampleRate_iff (p : Config.Params) (r : Nat) : validSampleRate p r = true ↔ r ≤ p.maxSampleRate := by
  simp only [validSampleRate, Bool.or_eq_true, beq_iff_eq, Bool.and_eq_true, decide_eq_true_eq]
  omega

theorem validBitDepth_iff (n : Nat) : validBitDepth n = true ↔ n = 0 ∨ 4 ≤ n ∧ n ≤ 32 := by
  simp only [validBitDepth, Bool.or_eq_true, beq_iff_eq, Bool.and_eq_true, decide_eq_true_eq]

theorem validChannelCount_iff (p : Config.Params) (c : Nat) :
    validChannelCount p c = true ↔ 1 ≤ c ∧ c ≤ p.maxChannels := by
  simp only [validChannelCount, Bool.and_eq_true, decide_eq_true_eq]

theorem validPartitionOrder_iff (o b k : Nat) :
    validPartitionOrder o b k = true ↔ (o ≤ 15 ∧ b % 2 ^ o = 0) ∧ k < b / 2 ^ o := by
  simp only [validPartitionOrder, Bool.and_eq_true, decide_eq_true_eq, beq_iff_eq]

theorem validLpcOrder_iff (p b : Nat) : validLpcOrder p b = true ↔ (1 ≤ p ∧ p ≤ 32) ∧ p < b := by
  simp only [validLpcOrder, Bool.and_eq_true, decide_eq_true_eq]

theorem validFixedOrder_iff (k b : Nat) : validFixedOrder k b = true ↔ k ≤ 4 ∧ k < b := by
  simp only [validFixedOrder, Bool.and_eq_true, decide_eq_true_eq]

theorem fitsSigned_iff (v : Int) (n : Nat) :
    fitsSigned v n = true ↔ -((2 ^ (n - 1) : Nat) : Int) ≤ v ∧ v ≤ ((2 ^ (n - 1) : Nat) : Int) - 1 := by
  simp only [fitsSigned, Bool.and_eq_true, decide_eq_true_eq]

theorem fitsSigned_32 (v : Int) : fitsSigned v 32 = true ↔ -2147483648 ≤ v ∧ v ≤ 2147483647 := by
  rw [fitsSigned_iff]
  norm_num

theorem validResidual_iff (v : Int) : validResidual v = true ↔ v ≠ -2147483648 := by
  simp only [validResidual, bne_iff_ne]

theorem validShift_iff (sh : Int) : validShift sh = true ↔ 0 ≤ sh ∧ sh ≤ 31 := by
  simp only [validShift, Bool.and_eq_true, decide_eq_true_eq]

theorem validWasted_iff (w n : Nat) : validWasted w n = true ↔ w < n := by
  simp only [validWasted, decide_eq_true_eq]

theorem validEffectiveDepth_iff (e : Nat) : validEffectiveDepth e = true ↔ 1 ≤ e ∧ e ≤ 33 := by
  simp only [validEffectiveDepth, Bool.and_eq_true, decide_eq_true_eq]

theorem validMetadataLength_iff (p : Config.Params) (len : Nat) :
    validMetadataLength p len = true ↔ len ≤ p.maxMetadataLen := by
  simp only [validMetadataLength, decide_eq_true_eq]

theorem hostWritable_iff (p : Config.Params) (a : Nat) :
    hostWritable p a = true ↔
      256 ≤ a ∧ a < 290 ∨ 268435456 ≤ a ∧ a < 268435456 + p.inCap ∨
        536870912 ≤ a ∧ a < 536870912 + 18 * p.seekCap := by
  simp only [hostWritable, Bool.or_eq_true, Bool.and_eq_true, decide_eq_true_eq]
  simp only [siBufBase, siBufSize, inbufBase, stBufBase, stBufSize]
  omega

theorem inOutbuf_iff (p : Config.Params) (a : Nat) :
    inOutbuf p a = true ↔ 805306368 ≤ a ∧ a < 805306368 + 2 * p.maxBlockSize * p.maxChannels := by
  simp only [inOutbuf, Bool.and_eq_true, decide_eq_true_eq]
  simp only [outbufBase, outbufSize]

/-- A gated int32 is stored unchanged: wrapping is exact on int32 (R11, R366). -/
theorem wrap32_toInt (v : Int) (h : fitsSigned v 32 = true) : (wrap32 v).toInt = v := by
  rw [fitsSigned_32] at h
  unfold wrap32
  rw [BitVec.toInt_ofInt]
  exact Int.bmod_eq_of_le (by norm_num; omega) (by norm_num; omega)

/-- `narrow` answers its argument, when it fits (R331). -/
theorem narrow_eq_some (v : Int) (e : Nat) (x : Int) :
    narrow v e = some x ↔ fitsSigned v (min e 32) = true ∧ x = v := by
  unfold narrow
  by_cases h : fitsSigned v (min e 32) = true
  · rw [if_pos h, Option.some.injEq]
    exact ⟨fun hx => ⟨h, hx.symm⟩, fun hx => hx.2.symm⟩
  · rw [if_neg h]
    exact ⟨fun hx => absurd hx (by simp), fun hx => absurd hx.1 h⟩

theorem checkSignedShift_eq_some (v : Int) (k : Nat) (x : Int) :
    checkSignedShift v k = some x ↔ fitsSigned (v * 2 ^ k) 32 = true ∧ x = v * 2 ^ k := by
  unfold checkSignedShift
  push_cast
  by_cases h : fitsSigned (v * 2 ^ k) 32 = true
  · rw [if_pos h, Option.some.injEq]
    exact ⟨fun hx => ⟨h, hx.symm⟩, fun hx => hx.2.symm⟩
  · rw [if_neg h]
    exact ⟨fun hx => absurd hx (by simp), fun hx => absurd hx.1 h⟩

theorem toInt32_eq_some (v : Int) (x : Int) : toInt32 v = some x ↔ fitsSigned v 32 = true ∧ x = v := by
  unfold toInt32
  by_cases h : fitsSigned v 32 = true
  · rw [if_pos h, Option.some.injEq]
    exact ⟨fun hx => ⟨h, hx.symm⟩, fun hx => hx.2.symm⟩
  · rw [if_neg h]
    exact ⟨fun hx => absurd hx (by simp), fun hx => absurd hx.1 h⟩

end Sys2Proof.Machine
end

