-- ==== Sys2Proof/Laws/State.lean ====
section
/-! SUPPORT. The fields of the state after each named update: one lemma per field, true by rfl, so that no later proof
unfolds a record update. -/

namespace Sys2Proof.Machine

/-! `State.writeChannel` -/

@[simp] theorem State.writeChannel_params (s : State) (c : Nat) (xs : List Int) :
    (s.writeChannel c xs).params = s.params := rfl
@[simp] theorem State.writeChannel_dstate (s : State) (c : Nat) (xs : List Int) :
    (s.writeChannel c xs).dstate = s.dstate := rfl
@[simp] theorem State.writeChannel_consec (s : State) (c : Nat) (xs : List Int) :
    (s.writeChannel c xs).consec = s.consec := rfl
@[simp] theorem State.writeChannel_dec (s : State) (c : Nat) (xs : List Int) :
    (s.writeChannel c xs).dec = s.dec := rfl
@[simp] theorem State.writeChannel_ch (s : State) (c : Nat) (xs : List Int) :
    (s.writeChannel c xs).ch = s.ch.set c (trimZeros (xs.map wrap32 ++ (s.ch.getD c []).drop xs.length)) := rfl
@[simp] theorem State.writeChannel_si (s : State) (c : Nat) (xs : List Int) : (s.writeChannel c xs).si = s.si := rfl
@[simp] theorem State.writeChannel_siValid (s : State) (c : Nat) (xs : List Int) :
    (s.writeChannel c xs).siValid = s.siValid := rfl
@[simp] theorem State.writeChannel_st (s : State) (c : Nat) (xs : List Int) : (s.writeChannel c xs).st = s.st := rfl
@[simp] theorem State.writeChannel_md5 (s : State) (c : Nat) (xs : List Int) :
    (s.writeChannel c xs).md5 = s.md5 := rfl
@[simp] theorem State.writeChannel_pos (s : State) (c : Nat) (xs : List Int) :
    (s.writeChannel c xs).pos = s.pos := rfl
@[simp] theorem State.writeChannel_posHiLatch (s : State) (c : Nat) (xs : List Int) :
    (s.writeChannel c xs).posHiLatch = s.posHiLatch := rfl
@[simp] theorem State.writeChannel_status (s : State) (c : Nat) (xs : List Int) :
    (s.writeChannel c xs).status = s.status := rfl
@[simp] theorem State.writeChannel_err (s : State) (c : Nat) (xs : List Int) :
    (s.writeChannel c xs).err = s.err := rfl
@[simp] theorem State.writeChannel_cfg (s : State) (c : Nat) (xs : List Int) :
    (s.writeChannel c xs).cfg = s.cfg := rfl
@[simp] theorem State.writeChannel_inLen (s : State) (c : Nat) (xs : List Int) :
    (s.writeChannel c xs).inLen = s.inLen := rfl
@[simp] theorem State.writeChannel_stCount (s : State) (c : Nat) (xs : List Int) :
    (s.writeChannel c xs).stCount = s.stCount := rfl
@[simp] theorem State.writeChannel_seekTargetLo (s : State) (c : Nat) (xs : List Int) :
    (s.writeChannel c xs).seekTargetLo = s.seekTargetLo := rfl
@[simp] theorem State.writeChannel_seekTargetHi (s : State) (c : Nat) (xs : List Int) :
    (s.writeChannel c xs).seekTargetHi = s.seekTargetHi := rfl
@[simp] theorem State.writeChannel_out (s : State) (c : Nat) (xs : List Int) :
    (s.writeChannel c xs).out = s.out := rfl
@[simp] theorem State.writeChannel_outTs (s : State) (c : Nat) (xs : List Int) :
    (s.writeChannel c xs).outTs = s.outTs := rfl
@[simp] theorem State.writeChannel_seekSample (s : State) (c : Nat) (xs : List Int) :
    (s.writeChannel c xs).seekSample = s.seekSample := rfl
@[simp] theorem State.writeChannel_seekOffset (s : State) (c : Nat) (xs : List Int) :
    (s.writeChannel c xs).seekOffset = s.seekOffset := rfl
@[simp] theorem State.writeChannel_frameOffset (s : State) (c : Nat) (xs : List Int) :
    (s.writeChannel c xs).frameOffset = s.frameOffset := rfl
@[simp] theorem State.writeChannel_frameBytes (s : State) (c : Nat) (xs : List Int) :
    (s.writeChannel c xs).frameBytes = s.frameBytes := rfl
@[simp] theorem State.writeChannel_cnt (s : State) (c : Nat) (xs : List Int) :
    (s.writeChannel c xs).cnt = s.cnt := rfl
@[simp] theorem State.writeChannel_md5Digest (s : State) (c : Nat) (xs : List Int) :
    (s.writeChannel c xs).md5Digest = s.md5Digest := rfl
@[simp] theorem State.writeChannel_hdr (s : State) (c : Nat) (xs : List Int) :
    (s.writeChannel c xs).hdr = s.hdr := rfl
@[simp] theorem State.writeChannel_mem (s : State) (c : Nat) (xs : List Int) :
    (s.writeChannel c xs).mem = s.mem := rfl
@[simp] theorem State.writeChannel_host (s : State) (c : Nat) (xs : List Int) :
    (s.writeChannel c xs).host = s.host := rfl
@[simp] theorem State.writeChannel_readData (s : State) (c : Nat) (xs : List Int) :
    (s.writeChannel c xs).readData = s.readData := rfl

/-! `State.complete` -/

@[simp] theorem State.complete_params (s : State) : s.complete.params = s.params := rfl
@[simp] theorem State.complete_dstate (s : State) : s.complete.dstate = s.dstate := rfl
@[simp] theorem State.complete_consec (s : State) : s.complete.consec = s.consec := rfl
@[simp] theorem State.complete_dec (s : State) : s.complete.dec = s.dec := rfl
@[simp] theorem State.complete_ch (s : State) : s.complete.ch = s.ch := rfl
@[simp] theorem State.complete_si (s : State) : s.complete.si = s.si := rfl
@[simp] theorem State.complete_siValid (s : State) : s.complete.siValid = s.siValid := rfl
@[simp] theorem State.complete_st (s : State) : s.complete.st = s.st := rfl
@[simp] theorem State.complete_md5 (s : State) : s.complete.md5 = s.md5 := rfl
@[simp] theorem State.complete_pos (s : State) : s.complete.pos = s.pos := rfl
@[simp] theorem State.complete_posHiLatch (s : State) : s.complete.posHiLatch = s.posHiLatch := rfl
@[simp] theorem State.complete_status (s : State) : s.complete.status = { s.status with cmdOk := true } := rfl
@[simp] theorem State.complete_err (s : State) :
    s.complete.err = { code := .noError, cause := 0, channel := 0, channelValid := false } := rfl
@[simp] theorem State.complete_cfg (s : State) : s.complete.cfg = s.cfg := rfl
@[simp] theorem State.complete_inLen (s : State) : s.complete.inLen = s.inLen := rfl
@[simp] theorem State.complete_stCount (s : State) : s.complete.stCount = s.stCount := rfl
@[simp] theorem State.complete_seekTargetLo (s : State) : s.complete.seekTargetLo = s.seekTargetLo := rfl
@[simp] theorem State.complete_seekTargetHi (s : State) : s.complete.seekTargetHi = s.seekTargetHi := rfl
@[simp] theorem State.complete_out (s : State) : s.complete.out = s.out := rfl
@[simp] theorem State.complete_outTs (s : State) : s.complete.outTs = s.outTs := rfl
@[simp] theorem State.complete_seekSample (s : State) : s.complete.seekSample = s.seekSample := rfl
@[simp] theorem State.complete_seekOffset (s : State) : s.complete.seekOffset = s.seekOffset := rfl
@[simp] theorem State.complete_frameOffset (s : State) : s.complete.frameOffset = s.frameOffset := rfl
@[simp] theorem State.complete_frameBytes (s : State) : s.complete.frameBytes = s.frameBytes := rfl
@[simp] theorem State.complete_cnt (s : State) : s.complete.cnt = s.cnt := rfl
@[simp] theorem State.complete_md5Digest (s : State) : s.complete.md5Digest = s.md5Digest := rfl
@[simp] theorem State.complete_hdr (s : State) : s.complete.hdr = s.hdr := rfl
@[simp] theorem State.complete_mem (s : State) : s.complete.mem = s.mem := rfl
@[simp] theorem State.complete_host (s : State) : s.complete.host = s.host := rfl
@[simp] theorem State.complete_readData (s : State) : s.complete.readData = s.readData := rfl

/-! `State.completeWarn` -/

@[simp] theorem State.completeWarn_params (s : State) (code : ErrorCode) (cause : BitVec 8) :
    (s.completeWarn code cause).params = s.params := rfl
@[simp] theorem State.completeWarn_dstate (s : State) (code : ErrorCode) (cause : BitVec 8) :
    (s.completeWarn code cause).dstate = s.dstate := rfl
@[simp] theorem State.completeWarn_consec (s : State) (code : ErrorCode) (cause : BitVec 8) :
    (s.completeWarn code cause).consec = s.consec := rfl
@[simp] theorem State.completeWarn_dec (s : State) (code : ErrorCode) (cause : BitVec 8) :
    (s.completeWarn code cause).dec = s.dec := rfl
@[simp] theorem State.completeWarn_ch (s : State) (code : ErrorCode) (cause : BitVec 8) :
    (s.completeWarn code cause).ch = s.ch := rfl
@[simp] theorem State.completeWarn_si (s : State) (code : ErrorCode) (cause : BitVec 8) :
    (s.completeWarn code cause).si = s.si := rfl
@[simp] theorem State.completeWarn_siValid (s : State) (code : ErrorCode) (cause : BitVec 8) :
    (s.completeWarn code cause).siValid = s.siValid := rfl
@[simp] theorem State.completeWarn_st (s : State) (code : ErrorCode) (cause : BitVec 8) :
    (s.completeWarn code cause).st = s.st := rfl
@[simp] theorem State.completeWarn_md5 (s : State) (code : ErrorCode) (cause : BitVec 8) :
    (s.completeWarn code cause).md5 = s.md5 := rfl
@[simp] theorem State.completeWarn_pos (s : State) (code : ErrorCode) (cause : BitVec 8) :
    (s.completeWarn code cause).pos = s.pos := rfl
@[simp] theorem State.completeWarn_posHiLatch (s : State) (code : ErrorCode) (cause : BitVec 8) :
    (s.completeWarn code cause).posHiLatch = s.posHiLatch := rfl
@[simp] theorem State.completeWarn_status (s : State) (code : ErrorCode) (cause : BitVec 8) :
    (s.completeWarn code cause).status = { s.status with cmdOk := true } := rfl
@[simp] theorem State.completeWarn_err (s : State) (code : ErrorCode) (cause : BitVec 8) :
    (s.completeWarn code cause).err = { code := code, cause := cause, channel := 0, channelValid := false } := rfl
@[simp] theorem State.completeWarn_cfg (s : State) (code : ErrorCode) (cause : BitVec 8) :
    (s.completeWarn code cause).cfg = s.cfg := rfl
@[simp] theorem State.completeWarn_inLen (s : State) (code : ErrorCode) (cause : BitVec 8) :
    (s.completeWarn code cause).inLen = s.inLen := rfl
@[simp] theorem State.completeWarn_stCount (s : State) (code : ErrorCode) (cause : BitVec 8) :
    (s.completeWarn code cause).stCount = s.stCount := rfl
@[simp] theorem State.completeWarn_seekTargetLo (s : State) (code : ErrorCode) (cause : BitVec 8) :
    (s.completeWarn code cause).seekTargetLo = s.seekTargetLo := rfl
@[simp] theorem State.completeWarn_seekTargetHi (s : State) (code : ErrorCode) (cause : BitVec 8) :
    (s.completeWarn code cause).seekTargetHi = s.seekTargetHi := rfl
@[simp] theorem State.completeWarn_out (s : State) (code : ErrorCode) (cause : BitVec 8) :
    (s.completeWarn code cause).out = s.out := rfl
@[simp] theorem State.completeWarn_outTs (s : State) (code : ErrorCode) (cause : BitVec 8) :
    (s.completeWarn code cause).outTs = s.outTs := rfl
@[simp] theorem State.completeWarn_seekSample (s : State) (code : ErrorCode) (cause : BitVec 8) :
    (s.completeWarn code cause).seekSample = s.seekSample := rfl
@[simp] theorem State.completeWarn_seekOffset (s : State) (code : ErrorCode) (cause : BitVec 8) :
    (s.completeWarn code cause).seekOffset = s.seekOffset := rfl
@[simp] theorem State.completeWarn_frameOffset (s : State) (code : ErrorCode) (cause : BitVec 8) :
    (s.completeWarn code cause).frameOffset = s.frameOffset := rfl
@[simp] theorem State.completeWarn_frameBytes (s : State) (code : ErrorCode) (cause : BitVec 8) :
    (s.completeWarn code cause).frameBytes = s.frameBytes := rfl
@[simp] theorem State.completeWarn_cnt (s : State) (code : ErrorCode) (cause : BitVec 8) :
    (s.completeWarn code cause).cnt = s.cnt := rfl
@[simp] theorem State.completeWarn_md5Digest (s : State) (code : ErrorCode) (cause : BitVec 8) :
    (s.completeWarn code cause).md5Digest = s.md5Digest := rfl
@[simp] theorem State.completeWarn_hdr (s : State) (code : ErrorCode) (cause : BitVec 8) :
    (s.completeWarn code cause).hdr = s.hdr := rfl
@[simp] theorem State.completeWarn_mem (s : State) (code : ErrorCode) (cause : BitVec 8) :
    (s.completeWarn code cause).mem = s.mem := rfl
@[simp] theorem State.completeWarn_host (s : State) (code : ErrorCode) (cause : BitVec 8) :
    (s.completeWarn code cause).host = s.host := rfl
@[simp] theorem State.completeWarn_readData (s : State) (code : ErrorCode) (cause : BitVec 8) :
    (s.completeWarn code cause).readData = s.readData := rfl

/-! `State.refuse` -/

@[simp] theorem State.refuse_params (s : State) (code : ErrorCode) (cause : BitVec 8) :
    (s.refuse code cause).params = s.params := rfl
@[simp] theorem State.refuse_dstate (s : State) (code : ErrorCode) (cause : BitVec 8) :
    (s.refuse code cause).dstate = s.dstate := rfl
@[simp] theorem State.refuse_consec (s : State) (code : ErrorCode) (cause : BitVec 8) :
    (s.refuse code cause).consec = s.consec := rfl
@[simp] theorem State.refuse_dec (s : State) (code : ErrorCode) (cause : BitVec 8) :
    (s.refuse code cause).dec = s.dec := rfl
@[simp] theorem State.refuse_ch (s : State) (code : ErrorCode) (cause : BitVec 8) :
    (s.refuse code cause).ch = s.ch := rfl
@[simp] theorem State.refuse_si (s : State) (code : ErrorCode) (cause : BitVec 8) :
    (s.refuse code cause).si = s.si := rfl
@[simp] theorem State.refuse_siValid (s : State) (code : ErrorCode) (cause : BitVec 8) :
    (s.refuse code cause).siValid = s.siValid := rfl
@[simp] theorem State.refuse_st (s : State) (code : ErrorCode) (cause : BitVec 8) :
    (s.refuse code cause).st = s.st := rfl
@[simp] theorem State.refuse_md5 (s : State) (code : ErrorCode) (cause : BitVec 8) :
    (s.refuse code cause).md5 = s.md5 := rfl
@[simp] theorem State.refuse_pos (s : State) (code : ErrorCode) (cause : BitVec 8) :
    (s.refuse code cause).pos = s.pos := rfl
@[simp] theorem State.refuse_posHiLatch (s : State) (code : ErrorCode) (cause : BitVec 8) :
    (s.refuse code cause).posHiLatch = s.posHiLatch := rfl
@[simp] theorem State.refuse_status (s : State) (code : ErrorCode) (cause : BitVec 8) :
    (s.refuse code cause).status = { s.status with cmdOk := false } := rfl
@[simp] theorem State.refuse_err (s : State) (code : ErrorCode) (cause : BitVec 8) :
    (s.refuse code cause).err = { code := code, cause := cause, channel := 0, channelValid := false } := rfl
@[simp] theorem State.refuse_cfg (s : State) (code : ErrorCode) (cause : BitVec 8) :
    (s.refuse code cause).cfg = s.cfg := rfl
@[simp] theorem State.refuse_inLen (s : State) (code : ErrorCode) (cause : BitVec 8) :
    (s.refuse code cause).inLen = s.inLen := rfl
@[simp] theorem State.refuse_stCount (s : State) (code : ErrorCode) (cause : BitVec 8) :
    (s.refuse code cause).stCount = s.stCount := rfl
@[simp] theorem State.refuse_seekTargetLo (s : State) (code : ErrorCode) (cause : BitVec 8) :
    (s.refuse code cause).seekTargetLo = s.seekTargetLo := rfl
@[simp] theorem State.refuse_seekTargetHi (s : State) (code : ErrorCode) (cause : BitVec 8) :
    (s.refuse code cause).seekTargetHi = s.seekTargetHi := rfl
@[simp] theorem State.refuse_out (s : State) (code : ErrorCode) (cause : BitVec 8) :
    (s.refuse code cause).out = s.out := rfl
@[simp] theorem State.refuse_outTs (s : State) (code : ErrorCode) (cause : BitVec 8) :
    (s.refuse code cause).outTs = s.outTs := rfl
@[simp] theorem State.refuse_seekSample (s : State) (code : ErrorCode) (cause : BitVec 8) :
    (s.refuse code cause).seekSample = s.seekSample := rfl
@[simp] theorem State.refuse_seekOffset (s : State) (code : ErrorCode) (cause : BitVec 8) :
    (s.refuse code cause).seekOffset = s.seekOffset := rfl
@[simp] theorem State.refuse_frameOffset (s : State) (code : ErrorCode) (cause : BitVec 8) :
    (s.refuse code cause).frameOffset = s.frameOffset := rfl
@[simp] theorem State.refuse_frameBytes (s : State) (code : ErrorCode) (cause : BitVec 8) :
    (s.refuse code cause).frameBytes = s.frameBytes := rfl
@[simp] theorem State.refuse_cnt (s : State) (code : ErrorCode) (cause : BitVec 8) :
    (s.refuse code cause).cnt = s.cnt := rfl
@[simp] theorem State.refuse_md5Digest (s : State) (code : ErrorCode) (cause : BitVec 8) :
    (s.refuse code cause).md5Digest = s.md5Digest := rfl
@[simp] theorem State.refuse_hdr (s : State) (code : ErrorCode) (cause : BitVec 8) :
    (s.refuse code cause).hdr = s.hdr := rfl
@[simp] theorem State.refuse_mem (s : State) (code : ErrorCode) (cause : BitVec 8) :
    (s.refuse code cause).mem = s.mem := rfl
@[simp] theorem State.refuse_host (s : State) (code : ErrorCode) (cause : BitVec 8) :
    (s.refuse code cause).host = s.host := rfl
@[simp] theorem State.refuse_readData (s : State) (code : ErrorCode) (cause : BitVec 8) :
    (s.refuse code cause).readData = s.readData := rfl

/-! `State.endDecode` -/

@[simp] theorem State.endDecode_params (s : State) : s.endDecode.params = s.params := rfl
@[simp] theorem State.endDecode_dstate (s : State) : s.endDecode.dstate = s.dstate := rfl
@[simp] theorem State.endDecode_consec (s : State) : s.endDecode.consec = s.consec := rfl
@[simp] theorem State.endDecode_dec (s : State) : s.endDecode.dec = .unset := rfl
@[simp] theorem State.endDecode_ch (s : State) : s.endDecode.ch = s.ch := rfl
@[simp] theorem State.endDecode_si (s : State) : s.endDecode.si = s.si := rfl
@[simp] theorem State.endDecode_siValid (s : State) : s.endDecode.siValid = s.siValid := rfl
@[simp] theorem State.endDecode_st (s : State) : s.endDecode.st = s.st := rfl
@[simp] theorem State.endDecode_md5 (s : State) : s.endDecode.md5 = s.md5 := rfl
@[simp] theorem State.endDecode_pos (s : State) : s.endDecode.pos = s.pos := rfl
@[simp] theorem State.endDecode_posHiLatch (s : State) : s.endDecode.posHiLatch = s.posHiLatch := rfl
@[simp] theorem State.endDecode_status (s : State) : s.endDecode.status = s.status := rfl
@[simp] theorem State.endDecode_err (s : State) : s.endDecode.err = s.err := rfl
@[simp] theorem State.endDecode_cfg (s : State) : s.endDecode.cfg = s.cfg := rfl
@[simp] theorem State.endDecode_inLen (s : State) : s.endDecode.inLen = s.inLen := rfl
@[simp] theorem State.endDecode_stCount (s : State) : s.endDecode.stCount = s.stCount := rfl
@[simp] theorem State.endDecode_seekTargetLo (s : State) : s.endDecode.seekTargetLo = s.seekTargetLo := rfl
@[simp] theorem State.endDecode_seekTargetHi (s : State) : s.endDecode.seekTargetHi = s.seekTargetHi := rfl
@[simp] theorem State.endDecode_out (s : State) : s.endDecode.out = s.out := rfl
@[simp] theorem State.endDecode_outTs (s : State) : s.endDecode.outTs = s.outTs := rfl
@[simp] theorem State.endDecode_seekSample (s : State) : s.endDecode.seekSample = s.seekSample := rfl
@[simp] theorem State.endDecode_seekOffset (s : State) : s.endDecode.seekOffset = s.seekOffset := rfl
@[simp] theorem State.endDecode_frameOffset (s : State) : s.endDecode.frameOffset = s.frameOffset := rfl
@[simp] theorem State.endDecode_frameBytes (s : State) : s.endDecode.frameBytes = s.frameBytes := rfl
@[simp] theorem State.endDecode_cnt (s : State) : s.endDecode.cnt = s.cnt := rfl
@[simp] theorem State.endDecode_md5Digest (s : State) : s.endDecode.md5Digest = s.md5Digest := rfl
@[simp] theorem State.endDecode_hdr (s : State) : s.endDecode.hdr = s.hdr := rfl
@[simp] theorem State.endDecode_mem (s : State) : s.endDecode.mem = s.mem := rfl
@[simp] theorem State.endDecode_host (s : State) : s.endDecode.host = s.host := rfl
@[simp] theorem State.endDecode_readData (s : State) : s.endDecode.readData = s.readData := rfl

/-! `State.countFailure` -/

@[simp] theorem State.countFailure_params (s : State) : s.countFailure.params = s.params := rfl
@[simp] theorem State.countFailure_dstate (s : State) :
    s.countFailure.dstate = if s.params.maxConsecutiveErrors < s.consec + 1 then .decoderError else s.dstate := rfl
@[simp] theorem State.countFailure_consec (s : State) : s.countFailure.consec = s.consec + 1 := rfl
@[simp] theorem State.countFailure_dec (s : State) : s.countFailure.dec = s.dec := rfl
@[simp] theorem State.countFailure_ch (s : State) : s.countFailure.ch = s.ch := rfl
@[simp] theorem State.countFailure_si (s : State) : s.countFailure.si = s.si := rfl
@[simp] theorem State.countFailure_siValid (s : State) : s.countFailure.siValid = s.siValid := rfl
@[simp] theorem State.countFailure_st (s : State) : s.countFailure.st = s.st := rfl
@[simp] theorem State.countFailure_md5 (s : State) : s.countFailure.md5 = s.md5 := rfl
@[simp] theorem State.countFailure_pos (s : State) : s.countFailure.pos = s.pos := rfl
@[simp] theorem State.countFailure_posHiLatch (s : State) : s.countFailure.posHiLatch = s.posHiLatch := rfl
@[simp] theorem State.countFailure_status (s : State) : s.countFailure.status = s.status := rfl
@[simp] theorem State.countFailure_err (s : State) : s.countFailure.err = s.err := rfl
@[simp] theorem State.countFailure_cfg (s : State) : s.countFailure.cfg = s.cfg := rfl
@[simp] theorem State.countFailure_inLen (s : State) : s.countFailure.inLen = s.inLen := rfl
@[simp] theorem State.countFailure_stCount (s : State) : s.countFailure.stCount = s.stCount := rfl
@[simp] theorem State.countFailure_seekTargetLo (s : State) : s.countFailure.seekTargetLo = s.seekTargetLo := rfl
@[simp] theorem State.countFailure_seekTargetHi (s : State) : s.countFailure.seekTargetHi = s.seekTargetHi := rfl
@[simp] theorem State.countFailure_out (s : State) : s.countFailure.out = s.out := rfl
@[simp] theorem State.countFailure_outTs (s : State) : s.countFailure.outTs = s.outTs := rfl
@[simp] theorem State.countFailure_seekSample (s : State) : s.countFailure.seekSample = s.seekSample := rfl
@[simp] theorem State.countFailure_seekOffset (s : State) : s.countFailure.seekOffset = s.seekOffset := rfl
@[simp] theorem State.countFailure_frameOffset (s : State) : s.countFailure.frameOffset = s.frameOffset := rfl
@[simp] theorem State.countFailure_frameBytes (s : State) : s.countFailure.frameBytes = s.frameBytes := rfl
@[simp] theorem State.countFailure_cnt (s : State) :
    s.countFailure.cnt = { s.cnt with decodeFail := s.cnt.decodeFail + 1 } := rfl
@[simp] theorem State.countFailure_md5Digest (s : State) : s.countFailure.md5Digest = s.md5Digest := rfl
@[simp] theorem State.countFailure_hdr (s : State) : s.countFailure.hdr = s.hdr := rfl
@[simp] theorem State.countFailure_mem (s : State) : s.countFailure.mem = s.mem := rfl
@[simp] theorem State.countFailure_host (s : State) : s.countFailure.host = s.host := rfl
@[simp] theorem State.countFailure_readData (s : State) : s.countFailure.readData = s.readData := rfl

/-! `State.md5Clear` -/

@[simp] theorem State.md5Clear_params (s : State) : s.md5Clear.params = s.params := rfl
@[simp] theorem State.md5Clear_dstate (s : State) : s.md5Clear.dstate = s.dstate := rfl
@[simp] theorem State.md5Clear_consec (s : State) : s.md5Clear.consec = s.consec := rfl
@[simp] theorem State.md5Clear_dec (s : State) : s.md5Clear.dec = s.dec := rfl
@[simp] theorem State.md5Clear_ch (s : State) : s.md5Clear.ch = s.ch := rfl
@[simp] theorem State.md5Clear_si (s : State) : s.md5Clear.si = s.si := rfl
@[simp] theorem State.md5Clear_siValid (s : State) : s.md5Clear.siValid = s.siValid := rfl
@[simp] theorem State.md5Clear_st (s : State) : s.md5Clear.st = s.st := rfl
@[simp] theorem State.md5Clear_md5 (s : State) : s.md5Clear.md5 = .cleared := rfl
@[simp] theorem State.md5Clear_pos (s : State) : s.md5Clear.pos = s.pos := rfl
@[simp] theorem State.md5Clear_posHiLatch (s : State) : s.md5Clear.posHiLatch = s.posHiLatch := rfl
@[simp] theorem State.md5Clear_status (s : State) :
    s.md5Clear.status = { s.status with md5Result := .noResult } := rfl
@[simp] theorem State.md5Clear_err (s : State) : s.md5Clear.err = s.err := rfl
@[simp] theorem State.md5Clear_cfg (s : State) : s.md5Clear.cfg = s.cfg := rfl
@[simp] theorem State.md5Clear_inLen (s : State) : s.md5Clear.inLen = s.inLen := rfl
@[simp] theorem State.md5Clear_stCount (s : State) : s.md5Clear.stCount = s.stCount := rfl
@[simp] theorem State.md5Clear_seekTargetLo (s : State) : s.md5Clear.seekTargetLo = s.seekTargetLo := rfl
@[simp] theorem State.md5Clear_seekTargetHi (s : State) : s.md5Clear.seekTargetHi = s.seekTargetHi := rfl
@[simp] theorem State.md5Clear_out (s : State) : s.md5Clear.out = s.out := rfl
@[simp] theorem State.md5Clear_outTs (s : State) : s.md5Clear.outTs = s.outTs := rfl
@[simp] theorem State.md5Clear_seekSample (s : State) : s.md5Clear.seekSample = s.seekSample := rfl
@[simp] theorem State.md5Clear_seekOffset (s : State) : s.md5Clear.seekOffset = s.seekOffset := rfl
@[simp] theorem State.md5Clear_frameOffset (s : State) : s.md5Clear.frameOffset = s.frameOffset := rfl
@[simp] theorem State.md5Clear_frameBytes (s : State) : s.md5Clear.frameBytes = s.frameBytes := rfl
@[simp] theorem State.md5Clear_cnt (s : State) : s.md5Clear.cnt = s.cnt := rfl
@[simp] theorem State.md5Clear_md5Digest (s : State) : s.md5Clear.md5Digest = s.md5Digest := rfl
@[simp] theorem State.md5Clear_hdr (s : State) : s.md5Clear.hdr = s.hdr := rfl
@[simp] theorem State.md5Clear_mem (s : State) : s.md5Clear.mem = s.mem := rfl
@[simp] theorem State.md5Clear_host (s : State) : s.md5Clear.host = s.host := rfl
@[simp] theorem State.md5Clear_readData (s : State) : s.md5Clear.readData = s.readData := rfl

/-! `State.clearStream` -/

@[simp] theorem State.clearStream_params (s : State) (p : DWord) : (s.clearStream p).params = s.params := rfl
@[simp] theorem State.clearStream_dstate (s : State) (p : DWord) : (s.clearStream p).dstate = s.dstate := rfl
@[simp] theorem State.clearStream_consec (s : State) (p : DWord) : (s.clearStream p).consec = 0 := rfl
@[simp] theorem State.clearStream_dec (s : State) (p : DWord) : (s.clearStream p).dec = s.dec := rfl
@[simp] theorem State.clearStream_ch (s : State) (p : DWord) : (s.clearStream p).ch = clearedChannels := rfl
@[simp] theorem State.clearStream_si (s : State) (p : DWord) : (s.clearStream p).si = s.si := rfl
@[simp] theorem State.clearStream_siValid (s : State) (p : DWord) : (s.clearStream p).siValid = s.siValid := rfl
@[simp] theorem State.clearStream_st (s : State) (p : DWord) : (s.clearStream p).st = s.st := rfl
@[simp] theorem State.clearStream_md5 (s : State) (p : DWord) :
    (s.clearStream p).md5 = { Md5State.cleared with tainted := p != 0 } := rfl
@[simp] theorem State.clearStream_pos (s : State) (p : DWord) : (s.clearStream p).pos = p := rfl
@[simp] theorem State.clearStream_posHiLatch (s : State) (p : DWord) :
    (s.clearStream p).posHiLatch = s.posHiLatch := rfl
@[simp] theorem State.clearStream_status (s : State) (p : DWord) :
    (s.clearStream p).status =
      { s.status with
        crc16Mismatch := false, silenced := false, recovered := false, md5Result := .noResult } := rfl
@[simp] theorem State.clearStream_err (s : State) (p : DWord) : (s.clearStream p).err = s.err := rfl
@[simp] theorem State.clearStream_cfg (s : State) (p : DWord) : (s.clearStream p).cfg = s.cfg := rfl
@[simp] theorem State.clearStream_inLen (s : State) (p : DWord) : (s.clearStream p).inLen = s.inLen := rfl
@[simp] theorem State.clearStream_stCount (s : State) (p : DWord) : (s.clearStream p).stCount = s.stCount := rfl
@[simp] theorem State.clearStream_seekTargetLo (s : State) (p : DWord) :
    (s.clearStream p).seekTargetLo = s.seekTargetLo := rfl
@[simp] theorem State.clearStream_seekTargetHi (s : State) (p : DWord) :
    (s.clearStream p).seekTargetHi = s.seekTargetHi := rfl
@[simp] theorem State.clearStream_out (s : State) (p : DWord) : (s.clearStream p).out = .empty := rfl
@[simp] theorem State.clearStream_outTs (s : State) (p : DWord) : (s.clearStream p).outTs = p := rfl
@[simp] theorem State.clearStream_seekSample (s : State) (p : DWord) :
    (s.clearStream p).seekSample = s.seekSample := rfl
@[simp] theorem State.clearStream_seekOffset (s : State) (p : DWord) :
    (s.clearStream p).seekOffset = s.seekOffset := rfl
@[simp] theorem State.clearStream_frameOffset (s : State) (p : DWord) :
    (s.clearStream p).frameOffset = s.frameOffset := rfl
@[simp] theorem State.clearStream_frameBytes (s : State) (p : DWord) :
    (s.clearStream p).frameBytes = s.frameBytes := rfl
@[simp] theorem State.clearStream_cnt (s : State) (p : DWord) : (s.clearStream p).cnt = s.cnt := rfl
@[simp] theorem State.clearStream_md5Digest (s : State) (p : DWord) : (s.clearStream p).md5Digest = s.md5Digest := rfl
@[simp] theorem State.clearStream_hdr (s : State) (p : DWord) : (s.clearStream p).hdr = s.hdr := rfl
@[simp] theorem State.clearStream_mem (s : State) (p : DWord) : (s.clearStream p).mem = s.mem := rfl
@[simp] theorem State.clearStream_host (s : State) (p : DWord) : (s.clearStream p).host = s.host := rfl
@[simp] theorem State.clearStream_readData (s : State) (p : DWord) : (s.clearStream p).readData = s.readData := rfl

/-! `State.decodeFailed` -/

@[simp] theorem State.decodeFailed_params (s : State) (code : ErrorCode) (cause : BitVec 8) :
    (s.decodeFailed code cause).params = s.params := rfl
@[simp] theorem State.decodeFailed_dstate (s : State) (code : ErrorCode) (cause : BitVec 8) :
    (s.decodeFailed code cause).dstate = if s.params.maxConsecutiveErrors < s.consec + 1 then .decoderError
      else s.dstate := rfl
@[simp] theorem State.decodeFailed_consec (s : State) (code : ErrorCode) (cause : BitVec 8) :
    (s.decodeFailed code cause).consec = s.consec + 1 := rfl
@[simp] theorem State.decodeFailed_dec (s : State) (code : ErrorCode) (cause : BitVec 8) :
    (s.decodeFailed code cause).dec = .unset := rfl
@[simp] theorem State.decodeFailed_ch (s : State) (code : ErrorCode) (cause : BitVec 8) :
    (s.decodeFailed code cause).ch = s.ch := rfl
@[simp] theorem State.decodeFailed_si (s : State) (code : ErrorCode) (cause : BitVec 8) :
    (s.decodeFailed code cause).si = s.si := rfl
@[simp] theorem State.decodeFailed_siValid (s : State) (code : ErrorCode) (cause : BitVec 8) :
    (s.decodeFailed code cause).siValid = s.siValid := rfl
@[simp] theorem State.decodeFailed_st (s : State) (code : ErrorCode) (cause : BitVec 8) :
    (s.decodeFailed code cause).st = s.st := rfl
@[simp] theorem State.decodeFailed_md5 (s : State) (code : ErrorCode) (cause : BitVec 8) :
    (s.decodeFailed code cause).md5 = s.md5 := rfl
@[simp] theorem State.decodeFailed_pos (s : State) (code : ErrorCode) (cause : BitVec 8) :
    (s.decodeFailed code cause).pos = s.pos := rfl
@[simp] theorem State.decodeFailed_posHiLatch (s : State) (code : ErrorCode) (cause : BitVec 8) :
    (s.decodeFailed code cause).posHiLatch = s.posHiLatch := rfl
@[simp] theorem State.decodeFailed_status (s : State) (code : ErrorCode) (cause : BitVec 8) :
    (s.decodeFailed code cause).status = { s.status with cmdOk := false } := rfl
@[simp] theorem State.decodeFailed_err (s : State) (code : ErrorCode) (cause : BitVec 8) :
    (s.decodeFailed code cause).err = { code := code, cause := cause, channel := 0, channelValid := false } := rfl
@[simp] theorem State.decodeFailed_cfg (s : State) (code : ErrorCode) (cause : BitVec 8) :
    (s.decodeFailed code cause).cfg = s.cfg := rfl
@[simp] theorem State.decodeFailed_inLen (s : State) (code : ErrorCode) (cause : BitVec 8) :
    (s.decodeFailed code cause).inLen = s.inLen := rfl
@[simp] theorem State.decodeFailed_stCount (s : State) (code : ErrorCode) (cause : BitVec 8) :
    (s.decodeFailed code cause).stCount = s.stCount := rfl
@[simp] theorem State.decodeFailed_seekTargetLo (s : State) (code : ErrorCode) (cause : BitVec 8) :
    (s.decodeFailed code cause).seekTargetLo = s.seekTargetLo := rfl
@[simp] theorem State.decodeFailed_seekTargetHi (s : State) (code : ErrorCode) (cause : BitVec 8) :
    (s.decodeFailed code cause).seekTargetHi = s.seekTargetHi := rfl
@[simp] theorem State.decodeFailed_out (s : State) (code : ErrorCode) (cause : BitVec 8) :
    (s.decodeFailed code cause).out = .empty := rfl
@[simp] theorem State.decodeFailed_outTs (s : State) (code : ErrorCode) (cause : BitVec 8) :
    (s.decodeFailed code cause).outTs = s.outTs := rfl
@[simp] theorem State.decodeFailed_seekSample (s : State) (code : ErrorCode) (cause : BitVec 8) :
    (s.decodeFailed code cause).seekSample = s.seekSample := rfl
@[simp] theorem State.decodeFailed_seekOffset (s : State) (code : ErrorCode) (cause : BitVec 8) :
    (s.decodeFailed code cause).seekOffset = s.seekOffset := rfl
@[simp] theorem State.decodeFailed_frameOffset (s : State) (code : ErrorCode) (cause : BitVec 8) :
    (s.decodeFailed code cause).frameOffset = s.frameOffset := rfl
@[simp] theorem State.decodeFailed_frameBytes (s : State) (code : ErrorCode) (cause : BitVec 8) :
    (s.decodeFailed code cause).frameBytes = s.frameBytes := rfl
@[simp] theorem State.decodeFailed_cnt (s : State) (code : ErrorCode) (cause : BitVec 8) :
    (s.decodeFailed code cause).cnt = { s.cnt with decodeFail := s.cnt.decodeFail + 1 } := rfl
@[simp] theorem State.decodeFailed_md5Digest (s : State) (code : ErrorCode) (cause : BitVec 8) :
    (s.decodeFailed code cause).md5Digest = s.md5Digest := rfl
@[simp] theorem State.decodeFailed_hdr (s : State) (code : ErrorCode) (cause : BitVec 8) :
    (s.decodeFailed code cause).hdr = s.hdr := rfl
@[simp] theorem State.decodeFailed_mem (s : State) (code : ErrorCode) (cause : BitVec 8) :
    (s.decodeFailed code cause).mem = s.mem := rfl
@[simp] theorem State.decodeFailed_host (s : State) (code : ErrorCode) (cause : BitVec 8) :
    (s.decodeFailed code cause).host = s.host := rfl
@[simp] theorem State.decodeFailed_readData (s : State) (code : ErrorCode) (cause : BitVec 8) :
    (s.decodeFailed code cause).readData = s.readData := rfl

/-! `State.partialOutcome` -/

@[simp] theorem State.partialOutcome_params (s : State) (c : Nat) (cause : Cause) :
    (s.partialOutcome c cause).params = s.params := rfl
@[simp] theorem State.partialOutcome_dstate (s : State) (c : Nat) (cause : Cause) :
    (s.partialOutcome c cause).dstate = if s.params.maxConsecutiveErrors < s.consec + 1 then .decoderError
      else s.dstate := rfl
@[simp] theorem State.partialOutcome_consec (s : State) (c : Nat) (cause : Cause) :
    (s.partialOutcome c cause).consec = s.consec + 1 := rfl
@[simp] theorem State.partialOutcome_dec (s : State) (c : Nat) (cause : Cause) :
    (s.partialOutcome c cause).dec = .unset := rfl
@[simp] theorem State.partialOutcome_ch (s : State) (c : Nat) (cause : Cause) :
    (s.partialOutcome c cause).ch = s.ch := rfl
@[simp] theorem State.partialOutcome_si (s : State) (c : Nat) (cause : Cause) :
    (s.partialOutcome c cause).si = s.si := rfl
@[simp] theorem State.partialOutcome_siValid (s : State) (c : Nat) (cause : Cause) :
    (s.partialOutcome c cause).siValid = s.siValid := rfl
@[simp] theorem State.partialOutcome_st (s : State) (c : Nat) (cause : Cause) :
    (s.partialOutcome c cause).st = s.st := rfl
@[simp] theorem State.partialOutcome_md5 (s : State) (c : Nat) (cause : Cause) :
    (s.partialOutcome c cause).md5 = s.md5 := rfl
@[simp] theorem State.partialOutcome_pos (s : State) (c : Nat) (cause : Cause) :
    (s.partialOutcome c cause).pos = s.pos := rfl
@[simp] theorem State.partialOutcome_posHiLatch (s : State) (c : Nat) (cause : Cause) :
    (s.partialOutcome c cause).posHiLatch = s.posHiLatch := rfl
@[simp] theorem State.partialOutcome_status (s : State) (c : Nat) (cause : Cause) :
    (s.partialOutcome c cause).status = { s.status with cmdOk := false } := rfl
@[simp] theorem State.partialOutcome_err (s : State) (c : Nat) (cause : Cause) :
    (s.partialOutcome c cause).err =
      { code := .subframeError, cause := cause.number, channel := BitVec.ofNat 3 c, channelValid := true } := rfl
@[simp] theorem State.partialOutcome_cfg (s : State) (c : Nat) (cause : Cause) :
    (s.partialOutcome c cause).cfg = s.cfg := rfl
@[simp] theorem State.partialOutcome_inLen (s : State) (c : Nat) (cause : Cause) :
    (s.partialOutcome c cause).inLen = s.inLen := rfl
@[simp] theorem State.partialOutcome_stCount (s : State) (c : Nat) (cause : Cause) :
    (s.partialOutcome c cause).stCount = s.stCount := rfl
@[simp] theorem State.partialOutcome_seekTargetLo (s : State) (c : Nat) (cause : Cause) :
    (s.partialOutcome c cause).seekTargetLo = s.seekTargetLo := rfl
@[simp] theorem State.partialOutcome_seekTargetHi (s : State) (c : Nat) (cause : Cause) :
    (s.partialOutcome c cause).seekTargetHi = s.seekTargetHi := rfl
@[simp] theorem State.partialOutcome_out (s : State) (c : Nat) (cause : Cause) :
    (s.partialOutcome c cause).out = s.out := rfl
@[simp] theorem State.partialOutcome_outTs (s : State) (c : Nat) (cause : Cause) :
    (s.partialOutcome c cause).outTs = s.outTs := rfl
@[simp] theorem State.partialOutcome_seekSample (s : State) (c : Nat) (cause : Cause) :
    (s.partialOutcome c cause).seekSample = s.seekSample := rfl
@[simp] theorem State.partialOutcome_seekOffset (s : State) (c : Nat) (cause : Cause) :
    (s.partialOutcome c cause).seekOffset = s.seekOffset := rfl
@[simp] theorem State.partialOutcome_frameOffset (s : State) (c : Nat) (cause : Cause) :
    (s.partialOutcome c cause).frameOffset = s.frameOffset := rfl
@[simp] theorem State.partialOutcome_frameBytes (s : State) (c : Nat) (cause : Cause) :
    (s.partialOutcome c cause).frameBytes = s.frameBytes := rfl
@[simp] theorem State.partialOutcome_cnt (s : State) (c : Nat) (cause : Cause) :
    (s.partialOutcome c cause).cnt = { s.cnt with decodeFail := s.cnt.decodeFail + 1 } := rfl
@[simp] theorem State.partialOutcome_md5Digest (s : State) (c : Nat) (cause : Cause) :
    (s.partialOutcome c cause).md5Digest = s.md5Digest := rfl
@[simp] theorem State.partialOutcome_hdr (s : State) (c : Nat) (cause : Cause) :
    (s.partialOutcome c cause).hdr = s.hdr := rfl
@[simp] theorem State.partialOutcome_mem (s : State) (c : Nat) (cause : Cause) :
    (s.partialOutcome c cause).mem = s.mem := rfl
@[simp] theorem State.partialOutcome_host (s : State) (c : Nat) (cause : Cause) :
    (s.partialOutcome c cause).host = s.host := rfl
@[simp] theorem State.partialOutcome_readData (s : State) (c : Nat) (cause : Cause) :
    (s.partialOutcome c cause).readData = s.readData := rfl

/-! `State.setMd5Result` -/

@[simp] theorem State.setMd5Result_params (s : State) (r : Md5Result) : (s.setMd5Result r).params = s.params := rfl
@[simp] theorem State.setMd5Result_dstate (s : State) (r : Md5Result) : (s.setMd5Result r).dstate = s.dstate := rfl
@[simp] theorem State.setMd5Result_consec (s : State) (r : Md5Result) : (s.setMd5Result r).consec = s.consec := rfl
@[simp] theorem State.setMd5Result_dec (s : State) (r : Md5Result) : (s.setMd5Result r).dec = s.dec := rfl
@[simp] theorem State.setMd5Result_ch (s : State) (r : Md5Result) : (s.setMd5Result r).ch = s.ch := rfl
@[simp] theorem State.setMd5Result_si (s : State) (r : Md5Result) : (s.setMd5Result r).si = s.si := rfl
@[simp] theorem State.setMd5Result_siValid (s : State) (r : Md5Result) : (s.setMd5Result r).siValid = s.siValid := rfl
@[simp] theorem State.setMd5Result_st (s : State) (r : Md5Result) : (s.setMd5Result r).st = s.st := rfl
@[simp] theorem State.setMd5Result_md5 (s : State) (r : Md5Result) : (s.setMd5Result r).md5 = s.md5 := rfl
@[simp] theorem State.setMd5Result_pos (s : State) (r : Md5Result) : (s.setMd5Result r).pos = s.pos := rfl
@[simp] theorem State.setMd5Result_posHiLatch (s : State) (r : Md5Result) :
    (s.setMd5Result r).posHiLatch = s.posHiLatch := rfl
@[simp] theorem State.setMd5Result_status (s : State) (r : Md5Result) :
    (s.setMd5Result r).status = { s.status with md5Result := r } := rfl
@[simp] theorem State.setMd5Result_err (s : State) (r : Md5Result) : (s.setMd5Result r).err = s.err := rfl
@[simp] theorem State.setMd5Result_cfg (s : State) (r : Md5Result) : (s.setMd5Result r).cfg = s.cfg := rfl
@[simp] theorem State.setMd5Result_inLen (s : State) (r : Md5Result) : (s.setMd5Result r).inLen = s.inLen := rfl
@[simp] theorem State.setMd5Result_stCount (s : State) (r : Md5Result) : (s.setMd5Result r).stCount = s.stCount := rfl
@[simp] theorem State.setMd5Result_seekTargetLo (s : State) (r : Md5Result) :
    (s.setMd5Result r).seekTargetLo = s.seekTargetLo := rfl
@[simp] theorem State.setMd5Result_seekTargetHi (s : State) (r : Md5Result) :
    (s.setMd5Result r).seekTargetHi = s.seekTargetHi := rfl
@[simp] theorem State.setMd5Result_out (s : State) (r : Md5Result) : (s.setMd5Result r).out = s.out := rfl
@[simp] theorem State.setMd5Result_outTs (s : State) (r : Md5Result) : (s.setMd5Result r).outTs = s.outTs := rfl
@[simp] theorem State.setMd5Result_seekSample (s : State) (r : Md5Result) :
    (s.setMd5Result r).seekSample = s.seekSample := rfl
@[simp] theorem State.setMd5Result_seekOffset (s : State) (r : Md5Result) :
    (s.setMd5Result r).seekOffset = s.seekOffset := rfl
@[simp] theorem State.setMd5Result_frameOffset (s : State) (r : Md5Result) :
    (s.setMd5Result r).frameOffset = s.frameOffset := rfl
@[simp] theorem State.setMd5Result_frameBytes (s : State) (r : Md5Result) :
    (s.setMd5Result r).frameBytes = s.frameBytes := rfl
@[simp] theorem State.setMd5Result_cnt (s : State) (r : Md5Result) : (s.setMd5Result r).cnt = s.cnt := rfl
@[simp] theorem State.setMd5Result_md5Digest (s : State) (r : Md5Result) :
    (s.setMd5Result r).md5Digest = s.md5Digest := rfl
@[simp] theorem State.setMd5Result_hdr (s : State) (r : Md5Result) : (s.setMd5Result r).hdr = s.hdr := rfl
@[simp] theorem State.setMd5Result_mem (s : State) (r : Md5Result) : (s.setMd5Result r).mem = s.mem := rfl
@[simp] theorem State.setMd5Result_host (s : State) (r : Md5Result) : (s.setMd5Result r).host = s.host := rfl
@[simp] theorem State.setMd5Result_readData (s : State) (r : Md5Result) :
    (s.setMd5Result r).readData = s.readData := rfl

/-! `State.beginDecode` -/

@[simp] theorem State.beginDecode_params (s : State) : s.beginDecode.params = s.params := rfl
@[simp] theorem State.beginDecode_dstate (s : State) : s.beginDecode.dstate = s.dstate := rfl
@[simp] theorem State.beginDecode_consec (s : State) : s.beginDecode.consec = s.consec := rfl
@[simp] theorem State.beginDecode_dec (s : State) :
    s.beginDecode.dec = { DecodeCtx.unset with phase := .header } := rfl
@[simp] theorem State.beginDecode_ch (s : State) : s.beginDecode.ch = s.ch := rfl
@[simp] theorem State.beginDecode_si (s : State) : s.beginDecode.si = s.si := rfl
@[simp] theorem State.beginDecode_siValid (s : State) : s.beginDecode.siValid = s.siValid := rfl
@[simp] theorem State.beginDecode_st (s : State) : s.beginDecode.st = s.st := rfl
@[simp] theorem State.beginDecode_md5 (s : State) : s.beginDecode.md5 = s.md5 := rfl
@[simp] theorem State.beginDecode_pos (s : State) : s.beginDecode.pos = s.pos := rfl
@[simp] theorem State.beginDecode_posHiLatch (s : State) : s.beginDecode.posHiLatch = s.posHiLatch := rfl
@[simp] theorem State.beginDecode_status (s : State) :
    s.beginDecode.status = { s.status with crc16Mismatch := false, silenced := false, recovered := false } := rfl
@[simp] theorem State.beginDecode_err (s : State) : s.beginDecode.err = s.err := rfl
@[simp] theorem State.beginDecode_cfg (s : State) : s.beginDecode.cfg = s.cfg := rfl
@[simp] theorem State.beginDecode_inLen (s : State) : s.beginDecode.inLen = s.inLen := rfl
@[simp] theorem State.beginDecode_stCount (s : State) : s.beginDecode.stCount = s.stCount := rfl
@[simp] theorem State.beginDecode_seekTargetLo (s : State) : s.beginDecode.seekTargetLo = s.seekTargetLo := rfl
@[simp] theorem State.beginDecode_seekTargetHi (s : State) : s.beginDecode.seekTargetHi = s.seekTargetHi := rfl
@[simp] theorem State.beginDecode_out (s : State) : s.beginDecode.out = s.out := rfl
@[simp] theorem State.beginDecode_outTs (s : State) : s.beginDecode.outTs = s.outTs := rfl
@[simp] theorem State.beginDecode_seekSample (s : State) : s.beginDecode.seekSample = s.seekSample := rfl
@[simp] theorem State.beginDecode_seekOffset (s : State) : s.beginDecode.seekOffset = s.seekOffset := rfl
@[simp] theorem State.beginDecode_frameOffset (s : State) : s.beginDecode.frameOffset = s.frameOffset := rfl
@[simp] theorem State.beginDecode_frameBytes (s : State) : s.beginDecode.frameBytes = s.frameBytes := rfl
@[simp] theorem State.beginDecode_cnt (s : State) : s.beginDecode.cnt = s.cnt := rfl
@[simp] theorem State.beginDecode_md5Digest (s : State) : s.beginDecode.md5Digest = s.md5Digest := rfl
@[simp] theorem State.beginDecode_hdr (s : State) : s.beginDecode.hdr = s.hdr := rfl
@[simp] theorem State.beginDecode_mem (s : State) : s.beginDecode.mem = s.mem := rfl
@[simp] theorem State.beginDecode_host (s : State) : s.beginDecode.host = s.host := rfl
@[simp] theorem State.beginDecode_readData (s : State) : s.beginDecode.readData = s.readData := rfl

/-! `State.atCandidate` -/

@[simp] theorem State.atCandidate_params (s : State) (o : Nat) : (s.atCandidate o).params = s.params := rfl
@[simp] theorem State.atCandidate_dstate (s : State) (o : Nat) : (s.atCandidate o).dstate = s.dstate := rfl
@[simp] theorem State.atCandidate_consec (s : State) (o : Nat) : (s.atCandidate o).consec = s.consec := rfl
@[simp] theorem State.atCandidate_dec (s : State) (o : Nat) :
    (s.atCandidate o).dec = { s.dec with phase := .header, cursor := 8 * o, frameStart := o } := rfl
@[simp] theorem State.atCandidate_ch (s : State) (o : Nat) : (s.atCandidate o).ch = s.ch := rfl
@[simp] theorem State.atCandidate_si (s : State) (o : Nat) : (s.atCandidate o).si = s.si := rfl
@[simp] theorem State.atCandidate_siValid (s : State) (o : Nat) : (s.atCandidate o).siValid = s.siValid := rfl
@[simp] theorem State.atCandidate_st (s : State) (o : Nat) : (s.atCandidate o).st = s.st := rfl
@[simp] theorem State.atCandidate_md5 (s : State) (o : Nat) : (s.atCandidate o).md5 = s.md5 := rfl
@[simp] theorem State.atCandidate_pos (s : State) (o : Nat) : (s.atCandidate o).pos = s.pos := rfl
@[simp] theorem State.atCandidate_posHiLatch (s : State) (o : Nat) :
    (s.atCandidate o).posHiLatch = s.posHiLatch := rfl
@[simp] theorem State.atCandidate_status (s : State) (o : Nat) : (s.atCandidate o).status = s.status := rfl
@[simp] theorem State.atCandidate_err (s : State) (o : Nat) : (s.atCandidate o).err = s.err := rfl
@[simp] theorem State.atCandidate_cfg (s : State) (o : Nat) : (s.atCandidate o).cfg = s.cfg := rfl
@[simp] theorem State.atCandidate_inLen (s : State) (o : Nat) : (s.atCandidate o).inLen = s.inLen := rfl
@[simp] theorem State.atCandidate_stCount (s : State) (o : Nat) : (s.atCandidate o).stCount = s.stCount := rfl
@[simp] theorem State.atCandidate_seekTargetLo (s : State) (o : Nat) :
    (s.atCandidate o).seekTargetLo = s.seekTargetLo := rfl
@[simp] theorem State.atCandidate_seekTargetHi (s : State) (o : Nat) :
    (s.atCandidate o).seekTargetHi = s.seekTargetHi := rfl
@[simp] theorem State.atCandidate_out (s : State) (o : Nat) : (s.atCandidate o).out = s.out := rfl
@[simp] theorem State.atCandidate_outTs (s : State) (o : Nat) : (s.atCandidate o).outTs = s.outTs := rfl
@[simp] theorem State.atCandidate_seekSample (s : State) (o : Nat) :
    (s.atCandidate o).seekSample = s.seekSample := rfl
@[simp] theorem State.atCandidate_seekOffset (s : State) (o : Nat) :
    (s.atCandidate o).seekOffset = s.seekOffset := rfl
@[simp] theorem State.atCandidate_frameOffset (s : State) (o : Nat) :
    (s.atCandidate o).frameOffset = s.frameOffset := rfl
@[simp] theorem State.atCandidate_frameBytes (s : State) (o : Nat) :
    (s.atCandidate o).frameBytes = s.frameBytes := rfl
@[simp] theorem State.atCandidate_cnt (s : State) (o : Nat) : (s.atCandidate o).cnt = s.cnt := rfl
@[simp] theorem State.atCandidate_md5Digest (s : State) (o : Nat) : (s.atCandidate o).md5Digest = s.md5Digest := rfl
@[simp] theorem State.atCandidate_hdr (s : State) (o : Nat) : (s.atCandidate o).hdr = s.hdr := rfl
@[simp] theorem State.atCandidate_mem (s : State) (o : Nat) : (s.atCandidate o).mem = s.mem := rfl
@[simp] theorem State.atCandidate_host (s : State) (o : Nat) : (s.atCandidate o).host = s.host := rfl
@[simp] theorem State.atCandidate_readData (s : State) (o : Nat) : (s.atCandidate o).readData = s.readData := rfl

/-! `State.noteFirstError` -/

@[simp] theorem State.noteFirstError_params (s : State) (e : Cause) : (s.noteFirstError e).params = s.params := rfl
@[simp] theorem State.noteFirstError_dstate (s : State) (e : Cause) : (s.noteFirstError e).dstate = s.dstate := rfl
@[simp] theorem State.noteFirstError_consec (s : State) (e : Cause) : (s.noteFirstError e).consec = s.consec := rfl
@[simp] theorem State.noteFirstError_dec (s : State) (e : Cause) :
    (s.noteFirstError e).dec = { s.dec with firstErr := e } := rfl
@[simp] theorem State.noteFirstError_ch (s : State) (e : Cause) : (s.noteFirstError e).ch = s.ch := rfl
@[simp] theorem State.noteFirstError_si (s : State) (e : Cause) : (s.noteFirstError e).si = s.si := rfl
@[simp] theorem State.noteFirstError_siValid (s : State) (e : Cause) : (s.noteFirstError e).siValid = s.siValid := rfl
@[simp] theorem State.noteFirstError_st (s : State) (e : Cause) : (s.noteFirstError e).st = s.st := rfl
@[simp] theorem State.noteFirstError_md5 (s : State) (e : Cause) : (s.noteFirstError e).md5 = s.md5 := rfl
@[simp] theorem State.noteFirstError_pos (s : State) (e : Cause) : (s.noteFirstError e).pos = s.pos := rfl
@[simp] theorem State.noteFirstError_posHiLatch (s : State) (e : Cause) :
    (s.noteFirstError e).posHiLatch = s.posHiLatch := rfl
@[simp] theorem State.noteFirstError_status (s : State) (e : Cause) : (s.noteFirstError e).status = s.status := rfl
@[simp] theorem State.noteFirstError_err (s : State) (e : Cause) : (s.noteFirstError e).err = s.err := rfl
@[simp] theorem State.noteFirstError_cfg (s : State) (e : Cause) : (s.noteFirstError e).cfg = s.cfg := rfl
@[simp] theorem State.noteFirstError_inLen (s : State) (e : Cause) : (s.noteFirstError e).inLen = s.inLen := rfl
@[simp] theorem State.noteFirstError_stCount (s : State) (e : Cause) : (s.noteFirstError e).stCount = s.stCount := rfl
@[simp] theorem State.noteFirstError_seekTargetLo (s : State) (e : Cause) :
    (s.noteFirstError e).seekTargetLo = s.seekTargetLo := rfl
@[simp] theorem State.noteFirstError_seekTargetHi (s : State) (e : Cause) :
    (s.noteFirstError e).seekTargetHi = s.seekTargetHi := rfl
@[simp] theorem State.noteFirstError_out (s : State) (e : Cause) : (s.noteFirstError e).out = s.out := rfl
@[simp] theorem State.noteFirstError_outTs (s : State) (e : Cause) : (s.noteFirstError e).outTs = s.outTs := rfl
@[simp] theorem State.noteFirstError_seekSample (s : State) (e : Cause) :
    (s.noteFirstError e).seekSample = s.seekSample := rfl
@[simp] theorem State.noteFirstError_seekOffset (s : State) (e : Cause) :
    (s.noteFirstError e).seekOffset = s.seekOffset := rfl
@[simp] theorem State.noteFirstError_frameOffset (s : State) (e : Cause) :
    (s.noteFirstError e).frameOffset = s.frameOffset := rfl
@[simp] theorem State.noteFirstError_frameBytes (s : State) (e : Cause) :
    (s.noteFirstError e).frameBytes = s.frameBytes := rfl
@[simp] theorem State.noteFirstError_cnt (s : State) (e : Cause) :
    (s.noteFirstError e).cnt = if e = .crc8 then { s.cnt with crc8Err := s.cnt.crc8Err + 1 } else s.cnt := rfl
@[simp] theorem State.noteFirstError_md5Digest (s : State) (e : Cause) :
    (s.noteFirstError e).md5Digest = s.md5Digest := rfl
@[simp] theorem State.noteFirstError_hdr (s : State) (e : Cause) : (s.noteFirstError e).hdr = s.hdr := rfl
@[simp] theorem State.noteFirstError_mem (s : State) (e : Cause) : (s.noteFirstError e).mem = s.mem := rfl
@[simp] theorem State.noteFirstError_host (s : State) (e : Cause) : (s.noteFirstError e).host = s.host := rfl
@[simp] theorem State.noteFirstError_readData (s : State) (e : Cause) :
    (s.noteFirstError e).readData = s.readData := rfl

/-! `State.footerRead` -/

@[simp] theorem State.footerRead_params (s : State) (r : Nat) (c : BitVec 16) (b q : Nat) :
    (s.footerRead r c b q).params = s.params := rfl
@[simp] theorem State.footerRead_dstate (s : State) (r : Nat) (c : BitVec 16) (b q : Nat) :
    (s.footerRead r c b q).dstate = s.dstate := rfl
@[simp] theorem State.footerRead_consec (s : State) (r : Nat) (c : BitVec 16) (b q : Nat) :
    (s.footerRead r c b q).consec = s.consec := rfl
@[simp] theorem State.footerRead_dec (s : State) (r : Nat) (c : BitVec 16) (b q : Nat) :
    (s.footerRead r c b q).dec = { s.dec with cursor := q } := rfl
@[simp] theorem State.footerRead_ch (s : State) (r : Nat) (c : BitVec 16) (b q : Nat) :
    (s.footerRead r c b q).ch = s.ch := rfl
@[simp] theorem State.footerRead_si (s : State) (r : Nat) (c : BitVec 16) (b q : Nat) :
    (s.footerRead r c b q).si = s.si := rfl
@[simp] theorem State.footerRead_siValid (s : State) (r : Nat) (c : BitVec 16) (b q : Nat) :
    (s.footerRead r c b q).siValid = s.siValid := rfl
@[simp] theorem State.footerRead_st (s : State) (r : Nat) (c : BitVec 16) (b q : Nat) :
    (s.footerRead r c b q).st = s.st := rfl
@[simp] theorem State.footerRead_md5 (s : State) (r : Nat) (c : BitVec 16) (b q : Nat) :
    (s.footerRead r c b q).md5 = s.md5 := rfl
@[simp] theorem State.footerRead_pos (s : State) (r : Nat) (c : BitVec 16) (b q : Nat) :
    (s.footerRead r c b q).pos = s.pos := rfl
@[simp] theorem State.footerRead_posHiLatch (s : State) (r : Nat) (c : BitVec 16) (b q : Nat) :
    (s.footerRead r c b q).posHiLatch = s.posHiLatch := rfl
@[simp] theorem State.footerRead_status (s : State) (r : Nat) (c : BitVec 16) (b q : Nat) :
    (s.footerRead r c b q).status = s.status := rfl
@[simp] theorem State.footerRead_err (s : State) (r : Nat) (c : BitVec 16) (b q : Nat) :
    (s.footerRead r c b q).err = s.err := rfl
@[simp] theorem State.footerRead_cfg (s : State) (r : Nat) (c : BitVec 16) (b q : Nat) :
    (s.footerRead r c b q).cfg = s.cfg := rfl
@[simp] theorem State.footerRead_inLen (s : State) (r : Nat) (c : BitVec 16) (b q : Nat) :
    (s.footerRead r c b q).inLen = s.inLen := rfl
@[simp] theorem State.footerRead_stCount (s : State) (r : Nat) (c : BitVec 16) (b q : Nat) :
    (s.footerRead r c b q).stCount = s.stCount := rfl
@[simp] theorem State.footerRead_seekTargetLo (s : State) (r : Nat) (c : BitVec 16) (b q : Nat) :
    (s.footerRead r c b q).seekTargetLo = s.seekTargetLo := rfl
@[simp] theorem State.footerRead_seekTargetHi (s : State) (r : Nat) (c : BitVec 16) (b q : Nat) :
    (s.footerRead r c b q).seekTargetHi = s.seekTargetHi := rfl
@[simp] theorem State.footerRead_out (s : State) (r : Nat) (c : BitVec 16) (b q : Nat) :
    (s.footerRead r c b q).out = s.out := rfl
@[simp] theorem State.footerRead_outTs (s : State) (r : Nat) (c : BitVec 16) (b q : Nat) :
    (s.footerRead r c b q).outTs = s.outTs := rfl
@[simp] theorem State.footerRead_seekSample (s : State) (r : Nat) (c : BitVec 16) (b q : Nat) :
    (s.footerRead r c b q).seekSample = s.seekSample := rfl
@[simp] theorem State.footerRead_seekOffset (s : State) (r : Nat) (c : BitVec 16) (b q : Nat) :
    (s.footerRead r c b q).seekOffset = s.seekOffset := rfl
@[simp] theorem State.footerRead_frameOffset (s : State) (r : Nat) (c : BitVec 16) (b q : Nat) :
    (s.footerRead r c b q).frameOffset = s.frameOffset := rfl
@[simp] theorem State.footerRead_frameBytes (s : State) (r : Nat) (c : BitVec 16) (b q : Nat) :
    (s.footerRead r c b q).frameBytes = BitVec.ofNat 32 b := rfl
@[simp] theorem State.footerRead_cnt (s : State) (r : Nat) (c : BitVec 16) (b q : Nat) :
    (s.footerRead r c b q).cnt = s.cnt := rfl
@[simp] theorem State.footerRead_md5Digest (s : State) (r : Nat) (c : BitVec 16) (b q : Nat) :
    (s.footerRead r c b q).md5Digest = s.md5Digest := rfl
@[simp] theorem State.footerRead_hdr (s : State) (r : Nat) (c : BitVec 16) (b q : Nat) :
    (s.footerRead r c b q).hdr = { s.hdr with crc16Read := BitVec.ofNat 16 r, crc16Computed := c } := rfl
@[simp] theorem State.footerRead_mem (s : State) (r : Nat) (c : BitVec 16) (b q : Nat) :
    (s.footerRead r c b q).mem = s.mem := rfl
@[simp] theorem State.footerRead_host (s : State) (r : Nat) (c : BitVec 16) (b q : Nat) :
    (s.footerRead r c b q).host = s.host := rfl
@[simp] theorem State.footerRead_readData (s : State) (r : Nat) (c : BitVec 16) (b q : Nat) :
    (s.footerRead r c b q).readData = s.readData := rfl

/-! `State.interleave` -/

@[simp] theorem State.interleave_params (s : State) (b c n : Nat) : (s.interleave b c n).params = s.params := rfl
@[simp] theorem State.interleave_dstate (s : State) (b c n : Nat) : (s.interleave b c n).dstate = s.dstate := rfl
@[simp] theorem State.interleave_consec (s : State) (b c n : Nat) : (s.interleave b c n).consec = s.consec := rfl
@[simp] theorem State.interleave_dec (s : State) (b c n : Nat) : (s.interleave b c n).dec = s.dec := rfl
@[simp] theorem State.interleave_ch (s : State) (b c n : Nat) : (s.interleave b c n).ch = s.ch := rfl
@[simp] theorem State.interleave_si (s : State) (b c n : Nat) : (s.interleave b c n).si = s.si := rfl
@[simp] theorem State.interleave_siValid (s : State) (b c n : Nat) : (s.interleave b c n).siValid = s.siValid := rfl
@[simp] theorem State.interleave_st (s : State) (b c n : Nat) : (s.interleave b c n).st = s.st := rfl
@[simp] theorem State.interleave_md5 (s : State) (b c n : Nat) : (s.interleave b c n).md5 = s.md5 := rfl
@[simp] theorem State.interleave_pos (s : State) (b c n : Nat) : (s.interleave b c n).pos = s.pos := rfl
@[simp] theorem State.interleave_posHiLatch (s : State) (b c n : Nat) :
    (s.interleave b c n).posHiLatch = s.posHiLatch := rfl
@[simp] theorem State.interleave_status (s : State) (b c n : Nat) : (s.interleave b c n).status = s.status := rfl
@[simp] theorem State.interleave_err (s : State) (b c n : Nat) : (s.interleave b c n).err = s.err := rfl
@[simp] theorem State.interleave_cfg (s : State) (b c n : Nat) : (s.interleave b c n).cfg = s.cfg := rfl
@[simp] theorem State.interleave_inLen (s : State) (b c n : Nat) : (s.interleave b c n).inLen = s.inLen := rfl
@[simp] theorem State.interleave_stCount (s : State) (b c n : Nat) : (s.interleave b c n).stCount = s.stCount := rfl
@[simp] theorem State.interleave_seekTargetLo (s : State) (b c n : Nat) :
    (s.interleave b c n).seekTargetLo = s.seekTargetLo := rfl
@[simp] theorem State.interleave_seekTargetHi (s : State) (b c n : Nat) :
    (s.interleave b c n).seekTargetHi = s.seekTargetHi := rfl
@[simp] theorem State.interleave_out (s : State) (b c n : Nat) : (s.interleave b c n).out = s.out := rfl
@[simp] theorem State.interleave_outTs (s : State) (b c n : Nat) : (s.interleave b c n).outTs = s.outTs := rfl
@[simp] theorem State.interleave_seekSample (s : State) (b c n : Nat) :
    (s.interleave b c n).seekSample = s.seekSample := rfl
@[simp] theorem State.interleave_seekOffset (s : State) (b c n : Nat) :
    (s.interleave b c n).seekOffset = s.seekOffset := rfl
@[simp] theorem State.interleave_frameOffset (s : State) (b c n : Nat) :
    (s.interleave b c n).frameOffset = s.frameOffset := rfl
@[simp] theorem State.interleave_frameBytes (s : State) (b c n : Nat) :
    (s.interleave b c n).frameBytes = s.frameBytes := rfl
@[simp] theorem State.interleave_cnt (s : State) (b c n : Nat) : (s.interleave b c n).cnt = s.cnt := rfl
@[simp] theorem State.interleave_md5Digest (s : State) (b c n : Nat) :
    (s.interleave b c n).md5Digest = s.md5Digest := rfl
@[simp] theorem State.interleave_hdr (s : State) (b c n : Nat) : (s.interleave b c n).hdr = s.hdr := rfl
@[simp] theorem State.interleave_mem (s : State) (b c n : Nat) :
    (s.interleave b c n).mem = Memory.writeBytes s.mem outbufBase (pcmBytes s b c n) := rfl
@[simp] theorem State.interleave_host (s : State) (b c n : Nat) : (s.interleave b c n).host = s.host := rfl
@[simp] theorem State.interleave_readData (s : State) (b c n : Nat) :
    (s.interleave b c n).readData = s.readData := rfl

/-! `State.deliver` -/

@[simp] theorem State.deliver_params (s : State) (hd : FrameHeader) : (s.deliver hd).params = s.params := rfl
@[simp] theorem State.deliver_dstate (s : State) (hd : FrameHeader) : (s.deliver hd).dstate = s.dstate := rfl
@[simp] theorem State.deliver_consec (s : State) (hd : FrameHeader) : (s.deliver hd).consec = s.consec := rfl
@[simp] theorem State.deliver_dec (s : State) (hd : FrameHeader) : (s.deliver hd).dec = s.dec := rfl
@[simp] theorem State.deliver_ch (s : State) (hd : FrameHeader) : (s.deliver hd).ch = s.ch := rfl
@[simp] theorem State.deliver_si (s : State) (hd : FrameHeader) : (s.deliver hd).si = s.si := rfl
@[simp] theorem State.deliver_siValid (s : State) (hd : FrameHeader) : (s.deliver hd).siValid = s.siValid := rfl
@[simp] theorem State.deliver_st (s : State) (hd : FrameHeader) : (s.deliver hd).st = s.st := rfl
@[simp] theorem State.deliver_md5 (s : State) (hd : FrameHeader) :
    (s.deliver hd).md5 = if s.cfg.md5En then md5Absorb s.md5 (md5FrameBytes s hd.blockSize hd.channels hd.bps)
        else s.md5 := rfl
@[simp] theorem State.deliver_pos (s : State) (hd : FrameHeader) :
    (s.deliver hd).pos = s.pos + BitVec.ofNat 64 hd.blockSize := rfl
@[simp] theorem State.deliver_posHiLatch (s : State) (hd : FrameHeader) :
    (s.deliver hd).posHiLatch = s.posHiLatch := rfl
@[simp] theorem State.deliver_status (s : State) (hd : FrameHeader) : (s.deliver hd).status = s.status := rfl
@[simp] theorem State.deliver_err (s : State) (hd : FrameHeader) : (s.deliver hd).err = s.err := rfl
@[simp] theorem State.deliver_cfg (s : State) (hd : FrameHeader) : (s.deliver hd).cfg = s.cfg := rfl
@[simp] theorem State.deliver_inLen (s : State) (hd : FrameHeader) : (s.deliver hd).inLen = s.inLen := rfl
@[simp] theorem State.deliver_stCount (s : State) (hd : FrameHeader) : (s.deliver hd).stCount = s.stCount := rfl
@[simp] theorem State.deliver_seekTargetLo (s : State) (hd : FrameHeader) :
    (s.deliver hd).seekTargetLo = s.seekTargetLo := rfl
@[simp] theorem State.deliver_seekTargetHi (s : State) (hd : FrameHeader) :
    (s.deliver hd).seekTargetHi = s.seekTargetHi := rfl
@[simp] theorem State.deliver_out (s : State) (hd : FrameHeader) :
    (s.deliver hd).out = 
      AudioFrame.mk (BitVec.ofNat 16 hd.blockSize) (BitVec.ofNat 4 hd.channels) (BitVec.ofNat 20 hd.rate)
          (BitVec.ofNat 6 hd.bps) := rfl
@[simp] theorem State.deliver_outTs (s : State) (hd : FrameHeader) : (s.deliver hd).outTs = s.pos := rfl
@[simp] theorem State.deliver_seekSample (s : State) (hd : FrameHeader) :
    (s.deliver hd).seekSample = s.seekSample := rfl
@[simp] theorem State.deliver_seekOffset (s : State) (hd : FrameHeader) :
    (s.deliver hd).seekOffset = s.seekOffset := rfl
@[simp] theorem State.deliver_frameOffset (s : State) (hd : FrameHeader) :
    (s.deliver hd).frameOffset = s.frameOffset := rfl
@[simp] theorem State.deliver_frameBytes (s : State) (hd : FrameHeader) :
    (s.deliver hd).frameBytes = s.frameBytes := rfl
@[simp] theorem State.deliver_cnt (s : State) (hd : FrameHeader) : (s.deliver hd).cnt = s.cnt := rfl
@[simp] theorem State.deliver_md5Digest (s : State) (hd : FrameHeader) : (s.deliver hd).md5Digest = s.md5Digest := rfl
@[simp] theorem State.deliver_hdr (s : State) (hd : FrameHeader) : (s.deliver hd).hdr = s.hdr := rfl
@[simp] theorem State.deliver_mem (s : State) (hd : FrameHeader) : (s.deliver hd).mem = s.mem := rfl
@[simp] theorem State.deliver_host (s : State) (hd : FrameHeader) : (s.deliver hd).host = s.host := rfl
@[simp] theorem State.deliver_readData (s : State) (hd : FrameHeader) : (s.deliver hd).readData = s.readData := rfl

/-! `State.acceptHeader` -/

@[simp] theorem State.acceptHeader_params (s : State) (hd : FrameHeader) (q : Nat) :
    (s.acceptHeader hd q).params = s.params := rfl
@[simp] theorem State.acceptHeader_dstate (s : State) (hd : FrameHeader) (q : Nat) :
    (s.acceptHeader hd q).dstate = s.dstate := rfl
@[simp] theorem State.acceptHeader_consec (s : State) (hd : FrameHeader) (q : Nat) :
    (s.acceptHeader hd q).consec = s.consec := rfl
@[simp] theorem State.acceptHeader_dec (s : State) (hd : FrameHeader) (q : Nat) :
    (s.acceptHeader hd q).dec = { s.dec with phase := .subframe, cursor := q, header := hd, chan := 0 } := rfl
@[simp] theorem State.acceptHeader_ch (s : State) (hd : FrameHeader) (q : Nat) :
    (s.acceptHeader hd q).ch = s.ch := rfl
@[simp] theorem State.acceptHeader_si (s : State) (hd : FrameHeader) (q : Nat) :
    (s.acceptHeader hd q).si = s.si := rfl
@[simp] theorem State.acceptHeader_siValid (s : State) (hd : FrameHeader) (q : Nat) :
    (s.acceptHeader hd q).siValid = s.siValid := rfl
@[simp] theorem State.acceptHeader_st (s : State) (hd : FrameHeader) (q : Nat) :
    (s.acceptHeader hd q).st = s.st := rfl
@[simp] theorem State.acceptHeader_md5 (s : State) (hd : FrameHeader) (q : Nat) :
    (s.acceptHeader hd q).md5 = s.md5 := rfl
@[simp] theorem State.acceptHeader_pos (s : State) (hd : FrameHeader) (q : Nat) :
    (s.acceptHeader hd q).pos = s.pos := rfl
@[simp] theorem State.acceptHeader_posHiLatch (s : State) (hd : FrameHeader) (q : Nat) :
    (s.acceptHeader hd q).posHiLatch = s.posHiLatch := rfl
@[simp] theorem State.acceptHeader_status (s : State) (hd : FrameHeader) (q : Nat) :
    (s.acceptHeader hd q).status = if s.dec.frameStart = 0 then s.status else { s.status with recovered := true } := rfl
@[simp] theorem State.acceptHeader_err (s : State) (hd : FrameHeader) (q : Nat) :
    (s.acceptHeader hd q).err = s.err := rfl
@[simp] theorem State.acceptHeader_cfg (s : State) (hd : FrameHeader) (q : Nat) :
    (s.acceptHeader hd q).cfg = s.cfg := rfl
@[simp] theorem State.acceptHeader_inLen (s : State) (hd : FrameHeader) (q : Nat) :
    (s.acceptHeader hd q).inLen = s.inLen := rfl
@[simp] theorem State.acceptHeader_stCount (s : State) (hd : FrameHeader) (q : Nat) :
    (s.acceptHeader hd q).stCount = s.stCount := rfl
@[simp] theorem State.acceptHeader_seekTargetLo (s : State) (hd : FrameHeader) (q : Nat) :
    (s.acceptHeader hd q).seekTargetLo = s.seekTargetLo := rfl
@[simp] theorem State.acceptHeader_seekTargetHi (s : State) (hd : FrameHeader) (q : Nat) :
    (s.acceptHeader hd q).seekTargetHi = s.seekTargetHi := rfl
@[simp] theorem State.acceptHeader_out (s : State) (hd : FrameHeader) (q : Nat) :
    (s.acceptHeader hd q).out = s.out := rfl
@[simp] theorem State.acceptHeader_outTs (s : State) (hd : FrameHeader) (q : Nat) :
    (s.acceptHeader hd q).outTs = s.outTs := rfl
@[simp] theorem State.acceptHeader_seekSample (s : State) (hd : FrameHeader) (q : Nat) :
    (s.acceptHeader hd q).seekSample = s.seekSample := rfl
@[simp] theorem State.acceptHeader_seekOffset (s : State) (hd : FrameHeader) (q : Nat) :
    (s.acceptHeader hd q).seekOffset = s.seekOffset := rfl
@[simp] theorem State.acceptHeader_frameOffset (s : State) (hd : FrameHeader) (q : Nat) :
    (s.acceptHeader hd q).frameOffset = BitVec.ofNat 32 s.dec.frameStart := rfl
@[simp] theorem State.acceptHeader_frameBytes (s : State) (hd : FrameHeader) (q : Nat) :
    (s.acceptHeader hd q).frameBytes = s.frameBytes := rfl
@[simp] theorem State.acceptHeader_cnt (s : State) (hd : FrameHeader) (q : Nat) :
    (s.acceptHeader hd q).cnt =
      if s.dec.frameStart = 0 then s.cnt else { s.cnt with syncRecovered := s.cnt.syncRecovered + 1 } := rfl
@[simp] theorem State.acceptHeader_md5Digest (s : State) (hd : FrameHeader) (q : Nat) :
    (s.acceptHeader hd q).md5Digest = s.md5Digest := rfl
@[simp] theorem State.acceptHeader_hdr (s : State) (hd : FrameHeader) (q : Nat) :
    (s.acceptHeader hd q).hdr = 
      HeaderRegs.mk (BitVec.ofNat 16 hd.blockSize) (BitVec.ofNat 20 hd.rate) hd.assign
          (BitVec.ofNat 4 hd.channels) (BitVec.ofNat 6 hd.bps) (BitVec.ofNat 36 hd.number) hd.blocking
          (BitVec.ofNat 8 hd.crc8) 0 0 := rfl
@[simp] theorem State.acceptHeader_mem (s : State) (hd : FrameHeader) (q : Nat) :
    (s.acceptHeader hd q).mem = s.mem := rfl
@[simp] theorem State.acceptHeader_host (s : State) (hd : FrameHeader) (q : Nat) :
    (s.acceptHeader hd q).host = s.host := rfl
@[simp] theorem State.acceptHeader_readData (s : State) (hd : FrameHeader) (q : Nat) :
    (s.acceptHeader hd q).readData = s.readData := rfl

/-! `State.hostRead` -/

@[simp] theorem State.hostRead_params (s : State) (size : AccessSize) (addr : Word) :
    (s.hostRead size addr).params = s.params := rfl
@[simp] theorem State.hostRead_dstate (s : State) (size : AccessSize) (addr : Word) :
    (s.hostRead size addr).dstate = s.dstate := rfl
@[simp] theorem State.hostRead_consec (s : State) (size : AccessSize) (addr : Word) :
    (s.hostRead size addr).consec = s.consec := rfl
@[simp] theorem State.hostRead_dec (s : State) (size : AccessSize) (addr : Word) :
    (s.hostRead size addr).dec = s.dec := rfl
@[simp] theorem State.hostRead_ch (s : State) (size : AccessSize) (addr : Word) :
    (s.hostRead size addr).ch = s.ch := rfl
@[simp] theorem State.hostRead_si (s : State) (size : AccessSize) (addr : Word) :
    (s.hostRead size addr).si = s.si := rfl
@[simp] theorem State.hostRead_siValid (s : State) (size : AccessSize) (addr : Word) :
    (s.hostRead size addr).siValid = s.siValid := rfl
@[simp] theorem State.hostRead_st (s : State) (size : AccessSize) (addr : Word) :
    (s.hostRead size addr).st = s.st := rfl
@[simp] theorem State.hostRead_md5 (s : State) (size : AccessSize) (addr : Word) :
    (s.hostRead size addr).md5 = s.md5 := rfl
@[simp] theorem State.hostRead_pos (s : State) (size : AccessSize) (addr : Word) :
    (s.hostRead size addr).pos = s.pos := rfl
@[simp] theorem State.hostRead_posHiLatch (s : State) (size : AccessSize) (addr : Word) :
    (s.hostRead size addr).posHiLatch = if wordAccess size addr && addr == 0x028 then s.pos.extractLsb' 32 32
      else s.posHiLatch := rfl
@[simp] theorem State.hostRead_status (s : State) (size : AccessSize) (addr : Word) :
    (s.hostRead size addr).status = s.status := rfl
@[simp] theorem State.hostRead_err (s : State) (size : AccessSize) (addr : Word) :
    (s.hostRead size addr).err = s.err := rfl
@[simp] theorem State.hostRead_cfg (s : State) (size : AccessSize) (addr : Word) :
    (s.hostRead size addr).cfg = s.cfg := rfl
@[simp] theorem State.hostRead_inLen (s : State) (size : AccessSize) (addr : Word) :
    (s.hostRead size addr).inLen = s.inLen := rfl
@[simp] theorem State.hostRead_stCount (s : State) (size : AccessSize) (addr : Word) :
    (s.hostRead size addr).stCount = s.stCount := rfl
@[simp] theorem State.hostRead_seekTargetLo (s : State) (size : AccessSize) (addr : Word) :
    (s.hostRead size addr).seekTargetLo = s.seekTargetLo := rfl
@[simp] theorem State.hostRead_seekTargetHi (s : State) (size : AccessSize) (addr : Word) :
    (s.hostRead size addr).seekTargetHi = s.seekTargetHi := rfl
@[simp] theorem State.hostRead_out (s : State) (size : AccessSize) (addr : Word) :
    (s.hostRead size addr).out = s.out := rfl
@[simp] theorem State.hostRead_outTs (s : State) (size : AccessSize) (addr : Word) :
    (s.hostRead size addr).outTs = s.outTs := rfl
@[simp] theorem State.hostRead_seekSample (s : State) (size : AccessSize) (addr : Word) :
    (s.hostRead size addr).seekSample = s.seekSample := rfl
@[simp] theorem State.hostRead_seekOffset (s : State) (size : AccessSize) (addr : Word) :
    (s.hostRead size addr).seekOffset = s.seekOffset := rfl
@[simp] theorem State.hostRead_frameOffset (s : State) (size : AccessSize) (addr : Word) :
    (s.hostRead size addr).frameOffset = s.frameOffset := rfl
@[simp] theorem State.hostRead_frameBytes (s : State) (size : AccessSize) (addr : Word) :
    (s.hostRead size addr).frameBytes = s.frameBytes := rfl
@[simp] theorem State.hostRead_cnt (s : State) (size : AccessSize) (addr : Word) :
    (s.hostRead size addr).cnt = s.cnt := rfl
@[simp] theorem State.hostRead_md5Digest (s : State) (size : AccessSize) (addr : Word) :
    (s.hostRead size addr).md5Digest = s.md5Digest := rfl
@[simp] theorem State.hostRead_hdr (s : State) (size : AccessSize) (addr : Word) :
    (s.hostRead size addr).hdr = s.hdr := rfl
@[simp] theorem State.hostRead_mem (s : State) (size : AccessSize) (addr : Word) :
    (s.hostRead size addr).mem = s.mem := rfl
@[simp] theorem State.hostRead_host (s : State) (size : AccessSize) (addr : Word) :
    (s.hostRead size addr).host = s.host := rfl
@[simp] theorem State.hostRead_readData (s : State) (size : AccessSize) (addr : Word) :
    (s.hostRead size addr).readData = s.hostReadValue size addr := rfl

end Sys2Proof.Machine
end

