-- ==== Sys2Proof/Laws/Channels.lean ====
section
/-! SUPPORT. The laws of the channel buffers (Machine/Ops.lean, Machine/Pipeline.lean, Machine/Decorrelate.lean): a
sample after a write, after silencing and after a stereo transformation, the canonical form of the rows, and what
these operations leave alone (R26, R310, R360, R505). -/

namespace Sys2Proof.Machine

theorem trimZeros_getD (xs : List Sample) (i : Nat) : (trimZeros xs).getD i 0 = xs.getD i 0 := by
  induction xs generalizing i with
  | nil => rfl
  | cons x xs ih =>
    unfold trimZeros
    cases ht : trimZeros xs with
    | nil =>
      have h0 : ∀ j, xs.getD j 0 = 0 := fun j => by rw [← ih j, ht]; rfl
      dsimp only
      split_ifs with hx
      · cases i with
        | zero => rw [List.getD_cons_zero, hx]; rfl
        | succ i => rw [List.getD_cons_succ, h0]; rfl
      · cases i with
        | zero => rfl
        | succ i => rw [List.getD_cons_succ, List.getD_cons_succ, h0]; rfl
    | cons y ys =>
      dsimp only
      cases i with
      | zero => rfl
      | succ i => rw [List.getD_cons_succ, List.getD_cons_succ, ← ih i, ht]

theorem trimZeros_length (xs : List Sample) : (trimZeros xs).length ≤ xs.length := by
  induction xs with
  | nil => exact le_refl _
  | cons x xs ih =>
    unfold trimZeros
    cases ht : trimZeros xs with
    | nil => dsimp only; split_ifs <;> simp
    | cons y ys => rw [ht] at ih; simpa using ih

/-- Trimming is done once: a trimmed row is canonical. -/
theorem trimZeros_trimZeros (xs : List Sample) : trimZeros (trimZeros xs) = trimZeros xs := by
  induction xs with
  | nil => rfl
  | cons x xs ih =>
    cases ht : trimZeros xs with
    | nil =>
      by_cases hx : x = 0
      · have e : trimZeros (x :: xs) = [] := by unfold trimZeros; rw [ht]; exact if_pos hx
        rw [e]
        rfl
      · have e : trimZeros (x :: xs) = [x] := by unfold trimZeros; rw [ht]; exact if_neg hx
        rw [e]
        unfold trimZeros
        exact if_neg hx
    | cons y ys =>
      have e : trimZeros (x :: xs) = x :: y :: ys := by conv_lhs => unfold trimZeros; rw [ht]
      rw [ht] at ih
      rw [e]
      conv_lhs => unfold trimZeros
      rw [ih]

theorem State.sample_eq (s : State) (c i : Nat) : s.sample c i = ((s.ch.getD c []).getD i 0).toInt := rfl

/-- A sample after a write of channel `c` (R26, R310). -/
theorem State.sample_writeChannel (s : State) (c : Nat) (xs : List Int) (d i : Nat) (hc : c < s.ch.length) :
    (s.writeChannel c xs).sample d i =
      if d = c ∧ i < xs.length then (wrap32 (xs.getD i 0)).toInt else s.sample d i := by
  rw [State.sample_eq, State.writeChannel_ch]
  by_cases hd : d = c
  · subst hd
    have e : (s.ch.set d (trimZeros (xs.map wrap32 ++ (s.ch.getD d []).drop xs.length))).getD d [] =
        trimZeros (xs.map wrap32 ++ (s.ch.getD d []).drop xs.length) := by
      rw [List.getD_eq_getElem?_getD, List.getElem?_set_self hc]
      rfl
    rw [e, trimZeros_getD]
    by_cases hi : i < xs.length
    · rw [if_pos ⟨rfl, hi⟩, List.getD_append _ _ _ _ (by simpa using hi), List.getD_eq_getElem?_getD,
        List.getElem?_map, List.getD_eq_getElem?_getD, List.getElem?_eq_getElem hi]
      rfl
    · rw [if_neg (by omega), List.getD_append_right _ _ _ _ (by simp; omega), List.length_map,
        List.getD_eq_getElem?_getD, List.getElem?_drop, State.sample_eq, List.getD_eq_getElem?_getD,
        show xs.length + (i - xs.length) = i by omega]
      rfl
  · rw [if_neg (by omega), State.sample_eq]
    congr 2
    rw [List.getD_eq_getElem?_getD, List.getElem?_set_ne (fun h => hd h.symm), ← List.getD_eq_getElem?_getD]

theorem State.writeChannel_length (s : State) (c : Nat) (xs : List Int) :
    (s.writeChannel c xs).ch.length = s.ch.length := by
  rw [State.writeChannel_ch, List.length_set]

theorem State.silenceChannels_zero (s : State) (c b : Nat) : s.silenceChannels c b 0 = s := rfl

theorem State.silenceChannels_succ (s : State) (c b n : Nat) :
    s.silenceChannels c b (n + 1) = (s.writeChannel c (List.replicate b 0)).silenceChannels (c + 1) b n := rfl

/-- Silencing writes the channel buffers only. -/
theorem State.silenceChannels_frame (s : State) (c b n : Nat) :
    s.silenceChannels c b n = { s with ch := (s.silenceChannels c b n).ch } := by
  induction n generalizing s c with
  | zero => rfl
  | succ n ih =>
    rw [State.silenceChannels_succ]
    conv_lhs => rw [ih]
    rfl

theorem State.silenceChannels_length (s : State) (c b n : Nat) :
    (s.silenceChannels c b n).ch.length = s.ch.length := by
  induction n generalizing s c with
  | zero => rfl
  | succ n ih => rw [State.silenceChannels_succ, ih, State.writeChannel_length]

/-- A sample after silencing the `n` channels from `c` up (R505). -/
theorem State.sample_silenceChannels (s : State) (c b n d i : Nat) (hc : c + n ≤ s.ch.length) :
    (s.silenceChannels c b n).sample d i = if c ≤ d ∧ d < c + n ∧ i < b then 0 else s.sample d i := by
  induction n generalizing s c with
  | zero => rw [State.silenceChannels_zero, if_neg (by omega)]
  | succ n ih =>
    rw [State.silenceChannels_succ, ih _ _ (by rw [State.writeChannel_length]; omega),
      State.sample_writeChannel s c _ d i (by omega), List.length_replicate]
    by_cases h1 : c + 1 ≤ d ∧ d < c + 1 + n ∧ i < b
    · rw [if_pos h1, if_pos (by omega)]
    · rw [if_neg h1]
      by_cases h2 : d = c ∧ i < b
      · rw [if_pos h2, if_pos (by omega), List.getD_eq_getElem?_getD, List.getElem?_replicate, if_pos h2.2]
        rfl
      · rw [if_neg h2, if_neg (by omega)]

theorem State.samples_getD (s : State) (c b i : Nat) (h : i < b) : (s.samples c b).getD i 0 = s.sample c i := by
  unfold State.samples
  rw [List.getD_eq_getElem?_getD, List.getElem?_map, List.getElem?_range h]
  rfl

theorem State.samples_length (s : State) (c b : Nat) : (s.samples c b).length = b := by
  unfold State.samples
  rw [List.length_map, List.length_range]

/-- A stereo transformation writes the channel buffers only (R360). -/
theorem State.stereo_frame (s : State) (f : Int → Int → Int × Int) (b : Nat) :
    s.stereo f b = { s with ch := (s.stereo f b).ch } := rfl

theorem State.stereo_length (s : State) (f : Int → Int → Int × Int) (b : Nat) :
    (s.stereo f b).ch.length = s.ch.length := by
  unfold State.stereo
  rw [State.writeChannel_length, State.writeChannel_length]

/-- A sample after a stereo transformation (R360, R366). -/
theorem State.sample_stereo (s : State) (f : Int → Int → Int × Int) (b d i : Nat) (h : 2 ≤ s.ch.length) :
    (s.stereo f b).sample d i =
      if d = 0 ∧ i < b then (wrap32 (f (s.sample 0 i) (s.sample 1 i)).1).toInt
      else if d = 1 ∧ i < b then (wrap32 (f (s.sample 0 i) (s.sample 1 i)).2).toInt
      else s.sample d i := by
  unfold State.stereo
  have hl : (List.zipWith f (s.samples 0 b) (s.samples 1 b)).length = b := by
    rw [List.length_zipWith, State.samples_length, State.samples_length, min_self]
  have he : ∀ i, i < b → (List.zipWith f (s.samples 0 b) (s.samples 1 b))[i]? =
      some (f (s.sample 0 i) (s.sample 1 i)) := by
    intro i hi
    unfold State.samples
    rw [List.getElem?_zipWith, List.getElem?_map, List.getElem?_map, List.getElem?_range hi]
    rfl
  rw [State.sample_writeChannel _ 1 _ _ _ (by rw [State.writeChannel_length]; omega), List.length_map, hl,
    State.sample_writeChannel _ 0 _ _ _ (by omega), List.length_map, hl]
  by_cases h1 : d = 1 ∧ i < b
  · rw [if_pos h1, if_neg (by omega), if_pos h1, List.getD_eq_getElem?_getD, List.getElem?_map, he i h1.2]
    rfl
  · rw [if_neg h1]
    by_cases h0 : d = 0 ∧ i < b
    · rw [if_pos h0, if_pos h0, List.getD_eq_getElem?_getD, List.getElem?_map, he i h0.2]
      rfl
    · rw [if_neg h0, if_neg h0, if_neg h1]

/-! The canonical form of the rows. -/

/-- A write of at most `m` samples keeps the channel buffers canonical. -/
theorem State.writeChannel_rows (s : State) (c : Nat) (xs : List Int) (m : Nat) (hx : xs.length ≤ m)
    (h : ∀ row ∈ s.ch, row.length ≤ m ∧ trimZeros row = row) :
    ∀ row ∈ (s.writeChannel c xs).ch, row.length ≤ m ∧ trimZeros row = row := by
  intro row hr
  rw [State.writeChannel_ch] at hr
  rcases List.mem_or_eq_of_mem_set hr with hr | rfl
  · exact h row hr
  · refine ⟨le_trans (trimZeros_length _) ?_, trimZeros_trimZeros _⟩
    rw [List.length_append, List.length_map, List.length_drop]
    have : (s.ch.getD c []).length ≤ m := by
      rw [List.getD_eq_getElem?_getD]
      cases hg : s.ch[c]? with
      | none => simp
      | some r => exact (h r (List.mem_of_getElem? hg)).1
    omega

end Sys2Proof.Machine
end

