-- ==== Sys2Proof/Laws/Decode.lean ====
section
/-! SUPPORT. The equations of the decoder: one per slot for a value that fits it, and the rejection of one that does
not. -/

namespace Sys2Proof

theorem decode_tooWide (slot : Slot) (w : Nat) (h : 2 ^ slot.bits ≤ w) : decode slot w = .error .tooWide :=
  if_pos h

theorem decode_command (w : Nat) (h : w < 2 ^ 32) : decode .command w = .ok (decodeCommand (BitVec.ofNat 32 w)) :=
  if_neg (Nat.not_le.2 h)

/-- A word always fits the command slot. -/
theorem decode_command_word (w : BitVec 32) : decode .command w.toNat = .ok (decodeCommand w) := by
  rw [decode_command _ w.isLt, BitVec.ofNat_toNat, BitVec.setWidth_eq]

theorem decode_frame (w : Nat) (h : w < 2 ^ 16) : decode .frame w = decodeFrame w := if_neg (Nat.not_le.2 h)

theorem decode_subframe (w : Nat) (h : w < 2 ^ 8) : decode .subframe w = .ok (decodeSubframe w) :=
  if_neg (Nat.not_le.2 h)

theorem decode_method (w : Nat) (h : w < 2 ^ 2) : decode .method w = .ok (decodeMethod w) :=
  if_neg (Nat.not_le.2 h)

theorem decode_param4 (w : Nat) (h : w < 2 ^ 4) : decode .param4 w = .ok (decodeParam4 w) :=
  if_neg (Nat.not_le.2 h)

theorem decode_param5 (w : Nat) (h : w < 2 ^ 5) : decode .param5 w = .ok (decodeParam5 w) :=
  if_neg (Nat.not_le.2 h)

theorem decode_assignment (w : Nat) (h : w < 2 ^ 4) : decode .assignment w = .ok (decodeAssignment w) :=
  if_neg (Nat.not_le.2 h)

/-- The value of a word by its two fields (R170). -/
theorem word_fields (w : BitVec 32) :
    w.toNat = (w.extractLsb' 8 24).toNat * 256 + (w.extractLsb' 0 8).toNat := by
  have := w.isLt
  simp only [BitVec.extractLsb'_toNat, Nat.shiftRight_eq_div_pow]
  omega

end Sys2Proof
end

