-- ==== Sys2Proof/Laws/Memory.lean ====
section
/-! SUPPORT. The laws of the buffer memories (Machine/Ops.lean): read after write, and that every operation keeps the
canonical form. -/

namespace Sys2Proof.Machine

/-- What is found after a write; the canonical form is not needed, a write never passes an address that is not below
its own. -/
theorem Memory.find_write (m : Memory) (a b : Nat) (v : Byte) :
    Memory.find (Memory.write m a v) b = if b = a then some v else Memory.find m b := by
  induction m with
  | nil =>
    simp only [Memory.write, Memory.find]
  | cons e rest ih =>
    obtain ⟨c, u⟩ := e
    unfold Memory.write
    rcases Nat.lt_trichotomy a c with hac | hac | hac
    · rw [if_pos hac]
      simp only [Memory.find]
    · subst hac
      rw [if_neg (Nat.lt_irrefl _), if_pos rfl]
      by_cases hb : b = a <;> simp [Memory.find, hb]
    · rw [if_neg (by omega), if_neg (by omega)]
      simp only [Memory.find, ih]
      by_cases hb : b = c
      · rw [if_pos hb, if_neg (by omega), if_pos hb]
      · rw [if_neg hb, if_neg hb]

/-- Reading after a write: the byte written at its address, the old byte elsewhere. -/
theorem Memory.read_write (m : Memory) (a b : Nat) (v : Byte) :
    Memory.read (Memory.write m a v) b = if b = a then v else Memory.read m b := by
  unfold Memory.read
  rw [Memory.find_write m a b v]
  split_ifs <;> rfl

/-- A memory of at least one entry is canonical when its tail is and its first address is below the tail's. -/
theorem Memory.wf_cons (a : Nat) (v : Byte) (m : Memory) :
    Memory.wf ((a, v) :: m) = true ↔ (∀ b u r, m = (b, u) :: r → a < b) ∧ Memory.wf m = true := by
  cases m with
  | nil => simp [Memory.wf]
  | cons e r =>
    obtain ⟨b, u⟩ := e
    simp only [Memory.wf, Bool.and_eq_true, decide_eq_true_eq, List.cons.injEq, Prod.mk.injEq]
    constructor
    · rintro ⟨h1, h2⟩
      exact ⟨fun _ _ _ h => h.1.1 ▸ h1, h2⟩
    · rintro ⟨h1, h2⟩
      exact ⟨h1 b u r ⟨⟨rfl, rfl⟩, rfl⟩, h2⟩

/-- The first address after a write is the address written or the old first address. -/
theorem Memory.write_head (m : Memory) (a b : Nat) (v u : Byte) (r : Memory)
    (h : Memory.write m a v = (b, u) :: r) : b = a ∨ ∃ w r', m = (b, w) :: r' := by
  cases m with
  | nil =>
    simp only [Memory.write, List.cons.injEq, Prod.mk.injEq] at h
    exact .inl h.1.1.symm
  | cons e rest =>
    obtain ⟨c, x⟩ := e
    unfold Memory.write at h
    split_ifs at h
    · simp only [List.cons.injEq, Prod.mk.injEq] at h
      exact .inl h.1.1.symm
    · simp only [List.cons.injEq, Prod.mk.injEq] at h
      exact .inl h.1.1.symm
    · simp only [List.cons.injEq, Prod.mk.injEq] at h
      exact .inr ⟨x, rest, by rw [h.1.1]⟩

/-- A write keeps the canonical form. -/
theorem Memory.wf_write (m : Memory) (a : Nat) (v : Byte) (h : Memory.wf m = true) :
    Memory.wf (Memory.write m a v) = true := by
  induction m with
  | nil => rfl
  | cons e rest ih =>
    obtain ⟨c, u⟩ := e
    obtain ⟨hlt, hrest⟩ := (Memory.wf_cons c u rest).1 h
    unfold Memory.write
    split_ifs with h1 h2
    · refine (Memory.wf_cons _ _ _).2 ⟨fun b w r hbr => ?_, h⟩
      simp only [List.cons.injEq, Prod.mk.injEq] at hbr
      omega
    · subst h2
      exact (Memory.wf_cons _ _ _).2 ⟨hlt, hrest⟩
    · refine (Memory.wf_cons _ _ _).2 ⟨fun b w r hbr => ?_, ih hrest⟩
      rcases Memory.write_head _ _ _ _ _ _ hbr with rfl | ⟨w', r', hm⟩
      · omega
      · exact hlt _ _ _ hm

/-- Writing a byte sequence keeps the canonical form. -/
theorem Memory.wf_writeBytes (bytes : List Byte) (m : Memory) (a : Nat) (h : Memory.wf m = true) :
    Memory.wf (Memory.writeBytes m a bytes) = true := by
  induction bytes generalizing m a with
  | nil => exact h
  | cons v rest ih => exact ih _ _ (Memory.wf_write m a v h)

/-- Reading after a byte sequence was written from `a` up. -/
theorem Memory.read_writeBytes (bytes : List Byte) (m : Memory) (a b : Nat) :
    Memory.read (Memory.writeBytes m a bytes) b =
      if a ≤ b ∧ b < a + bytes.length then bytes.getD (b - a) 0 else Memory.read m b := by
  induction bytes generalizing m a with
  | nil =>
    rw [if_neg (by simp only [List.length_nil]; omega)]
    rfl
  | cons v rest ih =>
    unfold Memory.writeBytes
    rw [ih, Memory.read_write m a b v]
    by_cases h1 : b = a
    · subst h1; simp
    · by_cases h2 : a + 1 ≤ b ∧ b < a + 1 + rest.length
      · have e : b - a = (b - (a + 1)) + 1 := by omega
        rw [if_pos h2, if_pos ⟨by omega, by simp; omega⟩, e]
        simp
      · rw [if_neg h2, if_neg h1, if_neg]
        simp only [List.length_cons]
        omega

/-- A byte below or above the bytes written reads as before. -/
theorem Memory.read_writeBytes_outside (bytes : List Byte) (m : Memory) (a b : Nat)
    (hb : b < a ∨ a + bytes.length ≤ b) :
    Memory.read (Memory.writeBytes m a bytes) b = Memory.read m b := by
  rw [Memory.read_writeBytes bytes m a b, if_neg]
  omega

/-- Every byte listed after a write is the one written or was listed before. -/
theorem Memory.mem_write (m : Memory) (a : Nat) (v : Byte) (e : Host.Cell) (h : e ∈ Memory.write m a v) :
    e.1 = a ∨ e ∈ m := by
  induction m with
  | nil =>
    simp only [Memory.write, List.mem_singleton] at h
    exact .inl (by rw [h])
  | cons c rest ih =>
    obtain ⟨c, u⟩ := c
    unfold Memory.write at h
    split_ifs at h
    · rcases List.mem_cons.1 h with rfl | h
      · exact .inl rfl
      · exact .inr h
    · rcases List.mem_cons.1 h with rfl | h
      · exact .inl rfl
      · exact .inr (List.mem_cons_of_mem _ h)
    · rcases List.mem_cons.1 h with rfl | h
      · exact .inr (List.mem_cons_self ..)
      · exact (ih h).imp_right (List.mem_cons_of_mem _)

/-- Every byte listed after a byte sequence was written from `a` up is one of it or was listed before. -/
theorem Memory.mem_writeBytes (bytes : List Byte) (m : Memory) (a : Nat) (e : Host.Cell)
    (h : e ∈ Memory.writeBytes m a bytes) : (a ≤ e.1 ∧ e.1 < a + bytes.length) ∨ e ∈ m := by
  induction bytes generalizing m a with
  | nil => exact .inr h
  | cons v rest ih =>
    rcases ih _ _ h with h | h
    · exact .inl ⟨by omega, by simp only [List.length_cons]; omega⟩
    · rcases Memory.mem_write m a v e h with h | h
      · exact .inl ⟨by omega, by simp only [List.length_cons]; omega⟩
      · exact .inr h

end Sys2Proof.Machine
end

