-- ==== Sys2Proof/Laws/Delivery.lean ====
section
/-! SUPPORT. The laws of the delivery of a frame (Machine/Pipeline.lean): where each sample stands in OUTBUF (R92,
R381) and in the bytes fed to the MD5 (R551), and everything that the end of a DECODE which delivers changes
(R508 to R513). -/

namespace Sys2Proof.Machine

/-- An element of a list built from blocks of one length. -/
theorem getD_flatMap_blocks {α : Type} (f : Nat → List α) (m b i j : Nat) (d : α) (hf : ∀ i, (f i).length = m)
    (hi : i < b) (hj : j < m) : ((List.range b).flatMap f).getD (i * m + j) d = (f i).getD j d := by
  induction b generalizing i with
  | zero => omega
  | succ b ih =>
    have hl : ∀ b, ((List.range b).flatMap f).length = b * m := by
      intro b
      induction b with
      | zero => simp
      | succ b ih => rw [List.range_succ, List.flatMap_append, List.length_append, ih]; simp [hf, Nat.succ_mul]
    rw [List.range_succ, List.flatMap_append]
    by_cases hib : i = b
    · subst hib
      rw [List.getD_append_right _ _ _ _ (by rw [hl]; omega), hl, Nat.add_sub_cancel_left]
      simp
    · have hlt : i < b := by omega
      rw [List.getD_append _ _ _ _ (by
        rw [hl]
        have : (i + 1) * m ≤ b * m := Nat.mul_le_mul_right _ hlt
        rw [Nat.succ_mul] at this
        omega), ih _ hlt]

theorem length_flatMap_blocks {α : Type} (f : Nat → List α) (m b : Nat) (hf : ∀ i, (f i).length = m) :
    ((List.range b).flatMap f).length = b * m := by
  induction b with
  | zero => simp
  | succ b ih => rw [List.range_succ, List.flatMap_append, List.length_append, ih]; simp [hf, Nat.succ_mul]

/-- The conversion with OUT_W written out (R380). -/
theorem toPcm16_eq (x : Int) (n : Nat) :
    toPcm16 x n =
      clamp (if n = 16 then x else if n < 16 then x * (2 ^ (16 - n) : Nat) else asr x (n - 16)) (-32768) 32767 := rfl

theorem leBytes_length (n : Nat) (v : Int) : (leBytes n v).length = n := by
  unfold leBytes
  rw [List.length_map, List.length_range]

theorem leBytes_getD (n : Nat) (v : Int) (j : Nat) (h : j < n) :
    (leBytes n v).getD j 0 = BitVec.ofInt 8 (v / (2 ^ (8 * j) : Nat)) := by
  unfold leBytes
  rw [List.getD_eq_getElem?_getD, List.getElem?_map, List.getElem?_range h]
  rfl

theorem pcmBytes_length (s : State) (b c n : Nat) : (pcmBytes s b c n).length = 2 * b * c := by
  unfold pcmBytes
  rw [length_flatMap_blocks _ (c * 2) b fun i => length_flatMap_blocks _ 2 c fun ch => leBytes_length ..]
  ring

/-- Where a sample stands in OUTBUF (R92, R381): frame-interleaved, low byte first. -/
theorem pcmBytes_getD (s : State) (b c n i j k : Nat) (hi : i < b) (hj : j < c) (hk : k < 2) :
    (pcmBytes s b c n).getD (2 * (i * c + j) + k) 0 =
      BitVec.ofInt 8 (toPcm16 (s.sample j i) n / (2 ^ (8 * k) : Nat)) := by
  unfold pcmBytes
  have hjk : j * 2 + k < c * 2 := by omega
  rw [show 2 * (i * c + j) + k = i * (c * 2) + (j * 2 + k) by ring,
    getD_flatMap_blocks _ (c * 2) b i _ 0 (fun i => length_flatMap_blocks _ 2 c fun ch => leBytes_length ..) hi hjk,
    getD_flatMap_blocks _ 2 c j k 0 (fun ch => leBytes_length ..) hj hk, leBytes_getD _ _ _ hk]

/-- A frame feeds ceil(N/8) bytes a sample (R551). -/
theorem md5FrameBytes_length (s : State) (b c n : Nat) :
    (md5FrameBytes s b c n).length = (n + 7) / 8 * (b * c) := by
  unfold md5FrameBytes
  rw [length_flatMap_blocks _ (c * ((n + 7) / 8)) b fun i =>
    length_flatMap_blocks _ ((n + 7) / 8) c fun ch => leBytes_length ..]
  ring

/-- Where a byte of a sample stands among those fed to the MD5 (R551): sample-major, low byte first. -/
theorem md5FrameBytes_getD (s : State) (b c n i j k : Nat) (hi : i < b) (hj : j < c) (hk : k < (n + 7) / 8) :
    (md5FrameBytes s b c n).getD ((n + 7) / 8 * (i * c + j) + k) 0 =
      BitVec.ofInt 8 (s.sample j i / (2 ^ (8 * k) : Nat)) := by
  unfold md5FrameBytes
  generalize (n + 7) / 8 = m at hk ⊢
  have hjk : j * m + k < c * m := by
    have : (j + 1) * m ≤ c * m := Nat.mul_le_mul_right _ hj
    rw [Nat.succ_mul] at this
    omega
  rw [show m * (i * c + j) + k = i * (c * m) + (j * m + k) by ring,
    getD_flatMap_blocks _ (c * m) b i _ 0 (fun i => length_flatMap_blocks _ m c fun ch => leBytes_length ..) hi hjk,
    getD_flatMap_blocks _ m c j k 0 (fun ch => leBytes_length ..) hj hk, leBytes_getD _ _ _ hk]

/-- The end of a DECODE that delivers: its registers (R507 to R513). -/
theorem State.finishFrame_eq (s : State) :
    s.finishFrame =
      { s with
        dec := .unset
        mem := Memory.writeBytes s.mem outbufBase
          (pcmBytes s s.dec.header.blockSize s.dec.header.channels s.dec.header.bps)
        outTs := s.pos
        pos := s.pos + BitVec.ofNat 64 s.dec.header.blockSize
        md5 :=
          if s.cfg.md5En then
            md5Absorb s.md5 (md5FrameBytes s s.dec.header.blockSize s.dec.header.channels s.dec.header.bps)
          else s.md5
        out :=
          ⟨BitVec.ofNat 16 s.dec.header.blockSize, BitVec.ofNat 4 s.dec.header.channels,
            BitVec.ofNat 20 s.dec.header.rate, BitVec.ofNat 6 s.dec.header.bps⟩
        cnt := s.finishFrame.cnt
        consec := s.finishFrame.consec
        dstate := s.finishFrame.dstate
        status := s.finishFrame.status
        err := s.finishFrame.err } := by
  unfold State.finishFrame
  dsimp only
  cases s.dec.failed with
  | none => cases s.dec.warn <;> rfl
  | some f => rfl

/-- The counters, the state and the report at the end of a DECODE that delivers (R507, R513). -/
theorem State.finishFrame_reports (s : State) : deliveryReported s.dec.failed s.dec.warn s s.finishFrame := by
  unfold State.finishFrame deliveryReported
  dsimp only
  cases s.dec.failed with
  | none => cases s.dec.warn <;> exact ⟨⟨rfl, rfl, rfl, rfl, rfl⟩, rfl⟩
  | some f => exact ⟨⟨rfl, rfl, rfl, rfl, rfl⟩, rfl⟩

/-- The event bits of STATUS and the event counters stay as the DECODE left them. -/
theorem State.finishFrame_events (s : State) :
    s.finishFrame.status = { s.status with cmdOk := s.finishFrame.status.cmdOk } ∧
      s.finishFrame.cnt =
        { s.cnt with framesOk := s.finishFrame.cnt.framesOk, decodeFail := s.finishFrame.cnt.decodeFail } := by
  unfold State.finishFrame
  dsimp only
  cases s.dec.failed with
  | none => cases s.dec.warn <;> exact ⟨rfl, rfl⟩
  | some f => exact ⟨rfl, rfl⟩

/-- The end of a DECODE that delivers keeps the event bits of STATUS and the event counters (R34, R45). -/
theorem State.finishFrame_sameEvents (s : State) : sameEvents s s.finishFrame := by
  obtain ⟨h1, h2⟩ := s.finishFrame_events
  unfold sameEvents
  rw [h1, h2]
  exact ⟨rfl, rfl, rfl, rfl, rfl, rfl, rfl⟩

/-- The frame at hand is delivered (R92, R381, R508, R509, R511). -/
theorem State.finishFrame_delivers (s : State) :
    frameDelivered s.dec.header.blockSize s.dec.header.channels s.dec.header.rate s.dec.header.bps s
      s.finishFrame := by
  have hmem : s.finishFrame.mem = Memory.writeBytes s.mem outbufBase
      (pcmBytes s s.dec.header.blockSize s.dec.header.channels s.dec.header.bps) := by rw [s.finishFrame_eq]
  have hch : s.finishFrame.ch = s.ch := by rw [s.finishFrame_eq]
  have hsample : ∀ c i, s.finishFrame.sample c i = s.sample c i := fun c i => by
    unfold State.sample
    rw [hch]
  have hbytes : ∀ b c n, md5FrameBytes s.finishFrame b c n = md5FrameBytes s b c n := fun b c n => by
    unfold md5FrameBytes
    simp only [hsample]
  refine ⟨fun i j hi hj => ?_, fun a ha => ?_, ?_, ?_, ?_, ?_⟩
  · have hp : i * s.dec.header.channels + j < s.dec.header.blockSize * s.dec.header.channels := by
      have : (i + 1) * s.dec.header.channels ≤ s.dec.header.blockSize * s.dec.header.channels :=
        Nat.mul_le_mul_right _ hi
      rw [Nat.succ_mul] at this
      omega
    have hb : ∀ k, k < 2 → s.finishFrame.outByte (2 * (i * s.dec.header.channels + j) + k) =
        BitVec.ofInt 8 (toPcm16 (s.sample j i) s.dec.header.bps / (2 ^ (8 * k) : Nat)) := by
      intro k hk
      unfold State.outByte
      rw [hmem, Memory.read_writeBytes, pcmBytes_length, if_pos (by rw [Nat.mul_assoc]; omega),
        Nat.add_sub_cancel_left, pcmBytes_getD _ _ _ _ _ _ _ hi hj hk]
    have h0 := hb 0 (by decide)
    have h1 := hb 1 (by decide)
    rw [hsample]
    exact ⟨by simpa using h0, h1⟩
  · rw [hmem, Memory.read_writeBytes_outside _ _ _ _ (by rw [pcmBytes_length]; exact ha)]
  · rw [s.finishFrame_eq]
  · rw [s.finishFrame_eq]
  · rw [s.finishFrame_eq]
  · rw [hbytes]
    rw [s.finishFrame_eq]

end Sys2Proof.Machine
end

