-- ==== Sys2Proof/Laws/Reader.lean ====
section
/-! SUPPORT. The laws of readers (Machine/Operands.lean): how a sequence of reads runs, when each read succeeds and
fails, and what a repeated read gives. -/

namespace Sys2Proof.Machine

/-! How a sequence runs. -/

theorem Reader.bind_of_ok {α β : Type} {r : Reader α} {f : α → Reader β} {p q : Nat} {x : α}
    (h : r p = .ok (x, q)) : (r >>= f) p = f x q := by
  show Except.bind (r p) _ = _
  rw [h]
  rfl

theorem Reader.bind_of_error {α β : Type} {r : Reader α} {f : α → Reader β} {p : Nat} {c : Cause}
    (h : r p = .error c) : (r >>= f) p = .error c := by
  show Except.bind (r p) _ = _
  rw [h]
  rfl

/-- A sequence succeeds when both reads do. -/
theorem Reader.bind_ok {α β : Type} {r : Reader α} {f : α → Reader β} {p p' : Nat} {y : β} :
    (r >>= f) p = .ok (y, p') ↔ ∃ x q, r p = .ok (x, q) ∧ f x q = .ok (y, p') := by
  constructor
  · intro h
    cases hr : r p with
    | error c => rw [Reader.bind_of_error hr] at h; cases h
    | ok xq => exact ⟨xq.1, xq.2, rfl, by rw [← h, Reader.bind_of_ok hr]⟩
  · rintro ⟨x, q, hr, hf⟩
    rw [Reader.bind_of_ok hr, hf]

/-- A sequence fails when its first read does, or the second after it. -/
theorem Reader.bind_error {α β : Type} {r : Reader α} {f : α → Reader β} {p : Nat} {c : Cause} :
    (r >>= f) p = .error c ↔ r p = .error c ∨ ∃ x q, r p = .ok (x, q) ∧ f x q = .error c := by
  constructor
  · intro h
    cases hr : r p with
    | error c' =>
      rw [Reader.bind_of_error hr] at h
      cases h
      exact .inl rfl
    | ok xq => exact .inr ⟨xq.1, xq.2, rfl, by rw [← h, Reader.bind_of_ok hr]⟩
  · rintro (h | ⟨x, q, hr, hf⟩)
    · exact Reader.bind_of_error h
    · rw [Reader.bind_of_ok hr, hf]

theorem Reader.pure_run {α : Type} (x : α) (p : Nat) : (pure x : Reader α) p = .ok (x, p) := rfl

theorem Reader.pure_ok {α : Type} {x y : α} {p q : Nat} :
    (pure x : Reader α) p = .ok (y, q) ↔ x = y ∧ p = q := by
  rw [Reader.pure_run, Except.ok.injEq, Prod.mk.injEq]

theorem failWith_run {α : Type} (c : Cause) (p : Nat) : (failWith c : Reader α) p = .error c := rfl

theorem gate_pass {ok : Bool} (h : ok = true) (c : Cause) (p : Nat) : gate ok c p = .ok ((), p) := by
  subst h
  rfl

theorem gate_fail {ok : Bool} (h : ok = false) (c : Cause) (p : Nat) : gate ok c p = .error c := by
  subst h
  rfl

theorem gate_ok {ok : Bool} {c : Cause} {p q : Nat} {u : Unit} :
    gate ok c p = .ok (u, q) ↔ ok = true ∧ p = q := by
  cases ok
  · rw [gate_fail rfl]; simp
  · rw [gate_pass rfl]; simp

theorem orFail_ok {α : Type} {v : Option α} {c : Cause} {p q : Nat} {x : α} :
    orFail v c p = .ok (x, q) ↔ v = some x ∧ p = q := by
  cases v with
  | none => simp [orFail, failWith_run]
  | some y => simp only [orFail, Reader.pure_ok, Option.some.injEq]

theorem orFail_some {α : Type} {v : Option α} {x : α} (h : v = some x) (c : Cause) (p : Nat) :
    orFail v c p = .ok (x, p) := orFail_ok.2 ⟨h, rfl⟩

theorem orFail_none {α : Type} {v : Option α} (h : v = none) (c : Cause) (p : Nat) :
    orFail v c p = .error c := by
  subst h
  rfl

/-! The reads. -/

theorem readBits_of_le {ck : Chunk} {n p : Nat} (h : n ≤ ck.bitsLeft p) :
    readBits ck n p = .ok (ck.bits p n, p + n) := if_neg (Nat.not_lt.2 h)

theorem readBits_of_lt {ck : Chunk} {n p : Nat} (h : ck.bitsLeft p < n) : readBits ck n p = .error .underrun :=
  if_pos h

theorem readBits_ok {ck : Chunk} {n p q v : Nat} :
    readBits ck n p = .ok (v, q) ↔ n ≤ ck.bitsLeft p ∧ ck.bits p n = v ∧ p + n = q := by
  by_cases h : n ≤ ck.bitsLeft p
  · rw [readBits_of_le h, Except.ok.injEq, Prod.mk.injEq]
    exact ⟨fun hx => ⟨h, hx⟩, fun hx => hx.2⟩
  · rw [readBits_of_lt (Nat.lt_of_not_le h)]
    simp [h]

theorem readHeaderBits_of_le {ck : Chunk} {n p : Nat} (h : n ≤ ck.bitsLeft p) :
    readHeaderBits ck n p = .ok (ck.bits p n, p + n) := if_neg (Nat.not_lt.2 h)

theorem readHeaderBits_ok {ck : Chunk} {n p q v : Nat} :
    readHeaderBits ck n p = .ok (v, q) ↔ n ≤ ck.bitsLeft p ∧ ck.bits p n = v ∧ p + n = q := by
  by_cases h : n ≤ ck.bitsLeft p
  · rw [readHeaderBits_of_le h, Except.ok.injEq, Prod.mk.injEq]
    exact ⟨fun hx => ⟨h, hx⟩, fun hx => hx.2⟩
  · have : readHeaderBits ck n p = .error .truncated := if_pos (Nat.lt_of_not_le h)
    rw [this]
    simp [h]

theorem readBitsSigned_ok {ck : Chunk} {n p q : Nat} {v : Int} :
    readBitsSigned ck n p = .ok (v, q) ↔ n ≤ ck.bitsLeft p ∧ sext n (ck.bits p n) = v ∧ p + n = q := by
  unfold readBitsSigned
  rw [Reader.bind_ok]
  constructor
  · rintro ⟨x, q', h1, h2⟩
    obtain ⟨h, rfl, rfl⟩ := readBits_ok.1 h1
    exact ⟨h, Reader.pure_ok.1 h2⟩
  · rintro ⟨h, h1, h2⟩
    exact ⟨_, _, readBits_of_le h, Reader.pure_ok.2 ⟨h1, h2⟩⟩

/-- The loop of a unary code, over its zeros (R203). -/
theorem unaryLoop_zeros (ck : Chunk) (left u q p : Nat) (hu : u ≤ left) (hz : ∀ j, j < u → ck.bit (p + j) = 0)
    (hq : q + u ≤ ck.maxUnary) : unaryLoop ck left q p = unaryLoop ck (left - u) (q + u) (p + u) := by
  induction u generalizing left q p with
  | zero => rfl
  | succ u ih =>
    obtain ⟨left, rfl⟩ : ∃ l, left = l + 1 := ⟨left - 1, by omega⟩
    conv_lhs => unfold unaryLoop
    have h0 : ck.bit p ≠ 1 := by
      have := hz 0 (by omega)
      rw [Nat.add_zero] at this
      rw [this]
      decide
    have hcap : ¬ ck.maxUnary < q + 1 := by omega
    rw [if_neg h0, if_neg hcap, ih left (q + 1) (p + 1) (by omega) (fun j hj => by
      rw [show p + 1 + j = p + (j + 1) by omega]; exact hz (j + 1) (by omega)) (by omega)]
    congr 1 <;> omega

/-- u zeros and a one read as u (R203). -/
theorem readUnary_run (ck : Chunk) (p u : Nat) (hcap : u ≤ ck.maxUnary) (hlen : p + u + 1 ≤ 8 * ck.len)
    (hz : ∀ j, j < u → ck.bit (p + j) = 0) (h1 : ck.bit (p + u) = 1) : readUnary ck p = .ok (u, p + u + 1) := by
  unfold readUnary Chunk.bitsLeft
  rw [unaryLoop_zeros ck _ u 0 p (by omega) hz (by omega)]
  obtain ⟨l, hl⟩ : ∃ l, 8 * ck.len - p - u = l + 1 := ⟨8 * ck.len - p - u - 1, by omega⟩
  rw [hl, Nat.zero_add]
  unfold unaryLoop
  rw [if_pos h1]

/-- A unary code that is read lies in the chunk and is within the cap. -/
theorem unaryLoop_ok {ck : Chunk} {left q p v p' : Nat} (h : unaryLoop ck left q p = .ok (v, p'))
    (hq : q ≤ ck.maxUnary) : p < p' ∧ p' ≤ p + left ∧ q ≤ v ∧ v ≤ ck.maxUnary ∧ p' = p + (v - q) + 1 := by
  induction left generalizing q p with
  | zero => cases h
  | succ left ih =>
    unfold unaryLoop at h
    split_ifs at h with h1 h2
    · cases h; omega
    · have : q + 1 ≤ ck.maxUnary := by omega
      have := ih h this
      omega

theorem readUnary_ok {ck : Chunk} {p v p' : Nat} (h : readUnary ck p = .ok (v, p')) :
    p < p' ∧ p' ≤ 8 * ck.len ∧ v ≤ ck.maxUnary ∧ p' = p + v + 1 := by
  unfold readUnary Chunk.bitsLeft at h
  have := unaryLoop_ok h (Nat.zero_le _)
  have hb : 8 * ck.len - p ≠ 0 := by rintro h0; rw [h0] at h; cases h
  omega

/-! Repeated reads. -/

theorem readMany_zero {α : Type} (r : Reader α) (p : Nat) : readMany r 0 p = .ok ([], p) := rfl

theorem readMany_succ {α : Type} (r : Reader α) (n : Nat) :
    readMany r (n + 1) = (r >>= fun x => readMany r n >>= fun xs => pure (x :: xs)) := rfl

theorem readMany_succ_ok {α : Type} {r : Reader α} {n p p' : Nat} {xs : List α} :
    readMany r (n + 1) p = .ok (xs, p') ↔
      ∃ y q ys, r p = .ok (y, q) ∧ readMany r n q = .ok (ys, p') ∧ xs = y :: ys := by
  rw [readMany_succ, Reader.bind_ok]
  constructor
  · rintro ⟨y, q, h1, h2⟩
    obtain ⟨ys, q', h3, h4⟩ := Reader.bind_ok.1 h2
    obtain ⟨rfl, rfl⟩ := Reader.pure_ok.1 h4
    exact ⟨y, q, ys, h1, h3, rfl⟩
  · rintro ⟨y, q, ys, h1, h2, rfl⟩
    exact ⟨y, q, h1, Reader.bind_ok.2 ⟨ys, p', h2, rfl⟩⟩

/-- A repeated read gives as many values as it was asked for. -/
theorem readMany_length {α : Type} {r : Reader α} {n p p' : Nat} {xs : List α}
    (h : readMany r n p = .ok (xs, p')) : xs.length = n := by
  induction n generalizing p xs with
  | zero => cases h; rfl
  | succ n ih =>
    obtain ⟨y, q, ys, -, h2, rfl⟩ := readMany_succ_ok.1 h
    rw [List.length_cons, ih h2]

/-- Every value of a repeated read has a property that every value of the read has. -/
theorem readMany_all {α : Type} {r : Reader α} {P : α → Prop} (hr : ∀ p q x, r p = .ok (x, q) → P x)
    {n p p' : Nat} {xs : List α} (h : readMany r n p = .ok (xs, p')) : ∀ x ∈ xs, P x := by
  induction n generalizing p xs with
  | zero => cases h; intro x hx; cases hx
  | succ n ih =>
    obtain ⟨y, q, ys, h1, h2, rfl⟩ := readMany_succ_ok.1 h
    intro x hx
    rcases List.mem_cons.1 hx with rfl | hx
    · exact hr _ _ _ h1
    · exact ih h2 x hx

/-! Where a reader can leave the cursor, and which causes it can fail with. -/

/-- A reader never moves the cursor back, nor past the end of the chunk. -/
def Reader.staysIn {α : Type} (ck : Chunk) (r : Reader α) : Prop :=
  ∀ p q x, r p = .ok (x, q) → p ≤ q ∧ (p ≤ 8 * ck.len → q ≤ 8 * ck.len)

/-- Every cause a reader fails with satisfies `S`. -/
def Reader.failsOnly {α : Type} (S : Cause → Prop) (r : Reader α) : Prop := ∀ p c, r p = .error c → S c

theorem Reader.staysIn_bind {α β : Type} {ck : Chunk} {r : Reader α} {f : α → Reader β} (hr : r.staysIn ck)
    (hf : ∀ x, (f x).staysIn ck) : Reader.staysIn ck (r >>= f) := by
  intro p q y h
  obtain ⟨x, m, h1, h2⟩ := Reader.bind_ok.1 h
  have := hr _ _ _ h1
  have := hf x _ _ _ h2
  omega

theorem Reader.staysIn_pure {α : Type} (ck : Chunk) (x : α) : Reader.staysIn ck (pure x : Reader α) := by
  intro p q y h
  obtain ⟨-, rfl⟩ := Reader.pure_ok.1 h
  omega

theorem Reader.staysIn_failWith {α : Type} (ck : Chunk) (c : Cause) : Reader.staysIn ck (failWith c : Reader α) := by
  intro p q y h
  cases h

theorem Reader.staysIn_gate (ck : Chunk) (ok : Bool) (c : Cause) : Reader.staysIn ck (gate ok c) := by
  intro p q y h
  obtain ⟨-, rfl⟩ := gate_ok.1 h
  omega

theorem Reader.staysIn_orFail {α : Type} (ck : Chunk) (v : Option α) (c : Cause) :
    Reader.staysIn ck (orFail v c) := by
  intro p q y h
  obtain ⟨-, rfl⟩ := orFail_ok.1 h
  omega

theorem Reader.staysIn_readBits (ck : Chunk) (n : Nat) : Reader.staysIn ck (readBits ck n) := by
  intro p q y h
  obtain ⟨h1, -, rfl⟩ := readBits_ok.1 h
  unfold Chunk.bitsLeft at h1
  omega

theorem Reader.staysIn_readHeaderBits (ck : Chunk) (n : Nat) : Reader.staysIn ck (readHeaderBits ck n) := by
  intro p q y h
  obtain ⟨h1, -, rfl⟩ := readHeaderBits_ok.1 h
  unfold Chunk.bitsLeft at h1
  omega

theorem Reader.staysIn_readUnary (ck : Chunk) : Reader.staysIn ck (readUnary ck) := by
  intro p q y h
  have := readUnary_ok h
  omega

theorem Reader.staysIn_readMany {α : Type} {ck : Chunk} {r : Reader α} (hr : r.staysIn ck) (n : Nat) :
    Reader.staysIn ck (readMany r n) := by
  induction n with
  | zero => exact Reader.staysIn_pure ck []
  | succ n ih =>
    exact Reader.staysIn_bind hr fun x => Reader.staysIn_bind ih fun xs => Reader.staysIn_pure ck _

theorem Reader.failsOnly_bind {α β : Type} {S : Cause → Prop} {r : Reader α} {f : α → Reader β}
    (hr : r.failsOnly S) (hf : ∀ x, (f x).failsOnly S) : Reader.failsOnly S (r >>= f) := by
  intro p c h
  rcases Reader.bind_error.1 h with h | ⟨x, q, -, h⟩
  · exact hr _ _ h
  · exact hf x _ _ h

theorem Reader.failsOnly_pure {α : Type} (S : Cause → Prop) (x : α) : Reader.failsOnly S (pure x : Reader α) := by
  intro p c h
  cases h

theorem Reader.failsOnly_failWith {α : Type} {S : Cause → Prop} {c : Cause} (h : S c) :
    Reader.failsOnly S (failWith c : Reader α) := by
  intro p c' hc
  cases hc
  exact h

theorem Reader.failsOnly_gate {S : Cause → Prop} {c : Cause} (h : S c) (ok : Bool) :
    Reader.failsOnly S (gate ok c) := by
  intro p c' hc
  cases ok <;> cases hc
  exact h

theorem Reader.failsOnly_orFail {α : Type} {S : Cause → Prop} {c : Cause} (h : S c) (v : Option α) :
    Reader.failsOnly S (orFail v c) := by
  intro p c' hc
  cases v <;> cases hc
  exact h

theorem Reader.failsOnly_readBits {S : Cause → Prop} (h : S .underrun) (ck : Chunk) (n : Nat) :
    Reader.failsOnly S (readBits ck n) := by
  intro p c hc
  unfold readBits at hc
  split at hc <;> cases hc
  exact h

theorem Reader.failsOnly_readHeaderBits {S : Cause → Prop} (h : S .truncated) (ck : Chunk) (n : Nat) :
    Reader.failsOnly S (readHeaderBits ck n) := by
  intro p c hc
  unfold readHeaderBits at hc
  split at hc <;> cases hc
  exact h

theorem Reader.failsOnly_readUnary {S : Cause → Prop} (h1 : S .underrun) (h2 : S .unaryCap) (ck : Chunk) :
    Reader.failsOnly S (readUnary ck) := by
  have : ∀ left q, Reader.failsOnly S (unaryLoop ck left q) := by
    intro left
    induction left with
    | zero => intro q p c hc; cases hc; exact h1
    | succ left ih =>
      intro q p c hc
      unfold unaryLoop at hc
      split_ifs at hc
      · cases hc; exact h2
      · exact ih _ _ _ hc
  intro p c hc
  exact this _ _ _ _ hc

theorem Reader.failsOnly_readMany {α : Type} {S : Cause → Prop} {r : Reader α} (hr : r.failsOnly S) (n : Nat) :
    Reader.failsOnly S (readMany r n) := by
  induction n with
  | zero => exact Reader.failsOnly_pure S []
  | succ n ih =>
    exact Reader.failsOnly_bind hr fun x => Reader.failsOnly_bind ih fun xs => Reader.failsOnly_pure S _

end Sys2Proof.Machine
end

