-- ==== Sys2Proof/Laws/Frame.lean ====
section
/-! SUPPORT. The laws of the frame parser (Machine/Frame.lean): every way a footer check, a failed header and a header
read can end (R416, R420, R430), and which causes a header can fail with (R401). -/

namespace Sys2Proof.Machine

/-! The footer. -/

/-- What a footer check computes over: the byte after the padding and the CRC-16 up to it (R430). -/
def State.footerByte (s : State) : Nat := (s.dec.cursor + 7) / 8

def State.footerSum (s : State) : BitVec 16 :=
  crc16 (s.chunk.slice s.dec.frameStart (s.footerByte - s.dec.frameStart))

/-- The three ends of a footer check (R430). -/
theorem State.checkFooter_cases (s : State) :
    (16 ≤ s.chunk.bitsLeft (8 * s.footerByte) ∧ s.chunk.bits (8 * s.footerByte) 16 = s.footerSum.toNat ∧
      s.checkFooter =
        { s.footerRead (s.chunk.bits (8 * s.footerByte) 16) s.footerSum (s.footerByte + 2 - s.dec.frameStart)
            (8 * s.footerByte + 16) with
          dec := { s.dec with phase := .decorrelate, cursor := 8 * s.footerByte + 16 } }) ∨
    (16 ≤ s.chunk.bitsLeft (8 * s.footerByte) ∧ s.chunk.bits (8 * s.footerByte) 16 ≠ s.footerSum.toNat ∧
      s.checkFooter =
        (s.footerRead (s.chunk.bits (8 * s.footerByte) 16) s.footerSum (s.footerByte + 2 - s.dec.frameStart)
          (8 * s.footerByte + 16)).footerMismatch .footerMismatch) ∨
    (s.chunk.bitsLeft (8 * s.footerByte) < 16 ∧
      s.checkFooter = (s.footerRead 0 s.footerSum 0 (8 * s.footerByte)).footerMismatch .missingFooter) := by
  have ha : (alignToByte s.dec.cursor).2 = 8 * s.footerByte := by
    rw [alignToByte_eq]
    rfl
  have hd : 8 * s.footerByte / 8 = s.footerByte := by omega
  by_cases h : s.chunk.bitsLeft (8 * s.footerByte) < 16
  · refine .inr (.inr ⟨h, ?_⟩)
    unfold State.checkFooter
    dsimp only
    rw [ha, readBits_of_lt h, hd]
    rfl
  · have hr := readBits_of_le (Nat.le_of_not_lt h)
    by_cases he : s.chunk.bits (8 * s.footerByte) 16 = s.footerSum.toNat
    · refine .inl ⟨Nat.le_of_not_lt h, he, ?_⟩
      unfold State.checkFooter
      dsimp only
      rw [ha, hr, hd]
      exact if_pos he
    · refine .inr (.inl ⟨Nat.le_of_not_lt h, he, ?_⟩)
      unfold State.checkFooter
      dsimp only
      rw [ha, hr, hd]
      exact if_neg he

/-- A mismatch under CRC16_REJECT fails the DECODE (R33, R430). -/
theorem State.footerMismatch_reject (s : State) (cause : Cause) (h : s.cfg.crc16Reject = true) :
    s.footerMismatch cause =
      State.decodeFailed
        { s with
          status := { s.status with crc16Mismatch := true }
          cnt := { s.cnt with crc16Err := s.cnt.crc16Err + 1 } }
        .crc16Mismatch cause.number := if_pos h

/-- A mismatch without CRC16_REJECT is a warning, and the frame goes on (R33, R430). -/
theorem State.footerMismatch_warn (s : State) (cause : Cause) (h : s.cfg.crc16Reject = false) :
    s.footerMismatch cause =
      { s with
        status := { s.status with crc16Mismatch := true }
        cnt := { s.cnt with crc16Err := s.cnt.crc16Err + 1 }
        dec := { s.dec with phase := .decorrelate, warn := some cause } } :=
  if_neg (by rw [h]; decide)

/-- A footer check leaves the channel buffers as they are. -/
theorem State.checkFooter_ch (s : State) : s.checkFooter.ch = s.ch := by
  rcases s.checkFooter_cases with ⟨-, -, h⟩ | ⟨-, -, h⟩ | ⟨-, h⟩ <;> rw [h]
  · rfl
  all_goals
    unfold State.footerMismatch
    dsimp only
    split_ifs <;> rfl

/-! The frame search. -/

/-- The search for the next sync code finds the first one (R420). -/
theorem Chunk.findSync_some {ck : Chunk} {n o r : Nat} :
    ck.findSync n o = some r ↔
      o ≤ r ∧ r < o + n ∧ ck.isSync r = true ∧ ∀ r', o ≤ r' → r' < r → ck.isSync r' = false := by
  induction n generalizing o with
  | zero =>
    unfold Chunk.findSync
    constructor
    · intro h
      cases h
    · intro h
      omega
  | succ n ih =>
    unfold Chunk.findSync
    split_ifs with h
    · rw [Option.some.injEq]
      constructor
      · rintro rfl
        exact ⟨le_refl _, by omega, h, fun r' h1 h2 => by omega⟩
      · rintro ⟨h1, -, -, h4⟩
        by_contra hne
        rw [h4 o (le_refl _) (by omega)] at h
        cases h
    · rw [ih]
      constructor
      · rintro ⟨h1, h2, h3, h4⟩
        refine ⟨by omega, by omega, h3, fun r' h5 h6 => ?_⟩
        by_cases hr : r' = o
        · subst hr
          simpa using h
        · exact h4 r' (by omega) h6
      · rintro ⟨h1, h2, h3, h4⟩
        have : o ≠ r := by
          rintro rfl
          exact h h3
        exact ⟨by omega, by omega, h3, fun r' h5 h6 => h4 r' (by omega) h6⟩

theorem Chunk.findSync_none {ck : Chunk} {n o : Nat} :
    ck.findSync n o = none ↔ ∀ r, o ≤ r → r < o + n → ck.isSync r = false := by
  induction n generalizing o with
  | zero =>
    unfold Chunk.findSync
    exact ⟨fun _ r h1 h2 => by omega, fun _ => rfl⟩
  | succ n ih =>
    unfold Chunk.findSync
    split_ifs with h
    · constructor
      · intro hc
        cases hc
      · intro hc
        rw [hc o (le_refl _) (by omega)] at h
        cases h
    · rw [ih]
      constructor
      · intro hc r h1 h2
        by_cases hr : r = o
        · subst hr
          simpa using h
        · exact hc r (by omega) (by omega)
      · intro hc r h1 h2
        exact hc r (by omega) (by omega)

/-- The state after a failed header is noted (R420). -/
def State.noted (s : State) (e : Cause) : State := if s.dec.frameStart = 0 then s.noteFirstError e else s

/-- The two ends of a failed header (R420). -/
theorem State.headerFailed_cases (s : State) (e : Cause) :
    (∃ o, s.dec.frameStart < o ∧ o ≤ s.lastCandidate ∧ s.chunk.isSync o = true ∧
      (∀ o', s.dec.frameStart < o' → o' < o → s.chunk.isSync o' = false) ∧
      s.headerFailed e = (s.noted e).atCandidate o) ∨
    ((∀ o, s.dec.frameStart < o → o ≤ s.lastCandidate → s.chunk.isSync o = false) ∧
      s.headerFailed e = (s.noted e).noFrame) := by
  unfold State.headerFailed
  dsimp only
  cases h : s.chunk.findSync (s.lastCandidate - s.dec.frameStart) (s.dec.frameStart + 1) with
  | some o =>
    obtain ⟨h1, h2, h3, h4⟩ := Chunk.findSync_some.1 h
    exact .inl ⟨o, by omega, by omega, h3, fun o' h5 h6 => h4 o' (by omega) h6, rfl⟩
  | none =>
    have h1 := Chunk.findSync_none.1 h
    exact .inr ⟨fun o h2 h3 => h1 o (by omega) (by omega), rfl⟩

/-- What noting a failed header changes. -/
theorem State.noted_frame (s : State) (e : Cause) :
    s.noted e =
      { s with
        cnt := { s.cnt with crc8Err := s.cnt.crc8Err + if s.dec.frameStart = 0 ∧ e = .crc8 then 1 else 0 }
        dec := { s.dec with firstErr := if s.dec.frameStart = 0 then e else s.dec.firstErr } } := by
  unfold State.noted State.noteFirstError
  by_cases h : s.dec.frameStart = 0
  · by_cases he : e = .crc8 <;> simp [h, he]
  · simp [h]

/-- A search without a frame fails the DECODE, with the failure of offset 0 (R420, R513). -/
theorem State.noFrame_eq (s : State) :
    s.noFrame =
      s.decodeFailed (if s.dec.firstErr = .noSync then .syncLost else .headerInvalid) s.dec.firstErr.number := by
  unfold State.noFrame
  split_ifs with h
  · rw [h]
    rfl
  · rfl

/-! What the fields of a header can be. -/

theorem readContinuation_ok {ck : Chunk} {n v u p q : Nat} (h : readContinuation ck n v p = .ok (u, q)) :
    q = p + 8 * n ∧ u < (v + 1) * 64 ^ n ∧ (p ≤ 8 * ck.len → q ≤ 8 * ck.len) := by
  induction n generalizing v p with
  | zero =>
    obtain ⟨rfl, rfl⟩ := Reader.pure_ok.1 h
    exact ⟨rfl, by simp, id⟩
  | succ n ih =>
    obtain ⟨b, _, h1, h⟩ := Reader.bind_ok.1 h
    obtain ⟨_, _, h2, h⟩ := Reader.bind_ok.1 h
    obtain ⟨h3, -, rfl⟩ := readHeaderBits_ok.1 h1
    obtain ⟨-, rfl⟩ := gate_ok.1 h2
    obtain ⟨rfl, h5, h6⟩ := ih h
    unfold Chunk.bitsLeft at h3
    refine ⟨by omega, lt_of_lt_of_le h5 ?_, fun _ => h6 (by omega)⟩
    have hb : b % 64 < 64 := Nat.mod_lt _ (by decide)
    calc (64 * v + b % 64 + 1) * 64 ^ n ≤ ((v + 1) * 64) * 64 ^ n := Nat.mul_le_mul_right _ (by omega)
      _ = (v + 1) * 64 ^ (n + 1) := by rw [pow_succ]; ring

theorem leadingOnes_le (b : Nat) : leadingOnes b ≤ 8 := by
  unfold leadingOnes
  split_ifs <;> decide

theorem leadingOnes_pos (b : Nat) (h : 0x80 ≤ b) : 1 ≤ leadingOnes b := by
  unfold leadingOnes
  split_ifs <;> omega

/-- A coded number that is read is below 2^36 and takes 1 to 7 whole bytes (R126, R405). -/
theorem readCodedNumber_ok {ck : Chunk} {blocking : Bool} {u p q : Nat}
    (h : readCodedNumber ck blocking p = .ok (u, q)) :
    (∃ n, 1 ≤ n ∧ n ≤ 7 ∧ q = p + 8 * n) ∧ u < 2 ^ 36 ∧ (p ≤ 8 * ck.len → q ≤ 8 * ck.len) := by
  obtain ⟨b, _, h1, h⟩ := Reader.bind_ok.1 h
  obtain ⟨h3, rfl, rfl⟩ := readHeaderBits_ok.1 h1
  have h3' := h3
  unfold Chunk.bitsLeft at h3'
  split_ifs at h with hc
  · obtain ⟨rfl, rfl⟩ := Reader.pure_ok.1 h
    exact ⟨⟨1, by decide, by decide, by omega⟩, by omega, fun _ => by omega⟩
  · obtain ⟨_, _, h2, h⟩ := Reader.bind_ok.1 h
    obtain ⟨_, _, h4, h⟩ := Reader.bind_ok.1 h
    obtain ⟨hl, rfl⟩ := gate_ok.1 h2
    obtain ⟨-, rfl⟩ := gate_ok.1 h4
    obtain ⟨rfl, h5, h6⟩ := readContinuation_ok h
    have hle := leadingOnes_le (ck.bits p 8)
    have hpos := leadingOnes_pos (ck.bits p 8) (by omega)
    generalize ck.bits p 8 = b at *
    generalize leadingOnes b = l at *
    have hl2 : 2 ≤ l ∧ l ≤ 7 := by
      simp only [Bool.and_eq_true, bne_iff_ne] at hl
      omega
    refine ⟨⟨l, by omega, hl2.2, by omega⟩, lt_of_lt_of_le h5 ?_, fun _ => h6 (by omega)⟩
    have hm : b % 2 ^ (7 - l) + 1 ≤ 2 ^ (7 - l) := Nat.mod_lt _ (by positivity)
    calc (b % 2 ^ (7 - l) + 1) * 64 ^ (l - 1) ≤ 2 ^ (7 - l) * 64 ^ (l - 1) := Nat.mul_le_mul_right _ hm
      _ = 2 ^ (7 - l + 6 * (l - 1)) := by
        rw [pow_add, pow_mul]
        rfl
      _ ≤ 2 ^ 36 := Nat.pow_le_pow_right (by decide) (by omega)

/-- A block size that is read is at least 1 and takes at most two whole bytes (R122). -/
theorem resolveBlockSize_ok {ck : Chunk} {bs b p q : Nat} (h : resolveBlockSize ck bs p = .ok (b, q)) :
    (∃ n, n ≤ 2 ∧ q = p + 8 * n) ∧ 1 ≤ b ∧ (p ≤ 8 * ck.len → q ≤ 8 * ck.len) := by
  unfold resolveBlockSize at h
  split_ifs at h
  · cases h
  · obtain ⟨rfl, rfl⟩ := Reader.pure_ok.1 h
    exact ⟨⟨0, by decide, rfl⟩, by decide, id⟩
  · obtain ⟨rfl, rfl⟩ := Reader.pure_ok.1 h
    exact ⟨⟨0, by decide, rfl⟩, Nat.mul_pos (by decide) (by positivity), id⟩
  · obtain ⟨f, _, h1, h⟩ := Reader.bind_ok.1 h
    obtain ⟨h3, -, rfl⟩ := readHeaderBits_ok.1 h1
    obtain ⟨rfl, rfl⟩ := Reader.pure_ok.1 h
    unfold Chunk.bitsLeft at h3
    exact ⟨⟨1, by decide, rfl⟩, by omega, by omega⟩
  · obtain ⟨f, _, h1, h⟩ := Reader.bind_ok.1 h
    obtain ⟨h3, -, rfl⟩ := readHeaderBits_ok.1 h1
    obtain ⟨_, _, h4, h⟩ := Reader.bind_ok.1 h
    obtain ⟨-, rfl⟩ := gate_ok.1 h4
    obtain ⟨rfl, rfl⟩ := Reader.pure_ok.1 h
    unfold Chunk.bitsLeft at h3
    exact ⟨⟨2, by decide, rfl⟩, by omega, by omega⟩
  · obtain ⟨rfl, rfl⟩ := Reader.pure_ok.1 h
    exact ⟨⟨0, by decide, rfl⟩, Nat.mul_pos (by decide) (by positivity), id⟩

/-- A block size that is read from a 4-bit code fits OUT_SAMPLES: 65536 is not a block size (R122, R406). -/
theorem resolveBlockSize_le {ck : Chunk} {bs b p q : Nat} (hbs : bs < 16)
    (h : resolveBlockSize ck bs p = .ok (b, q)) : b ≤ 65535 := by
  unfold resolveBlockSize at h
  split_ifs at h
  · cases h
  · obtain ⟨rfl, rfl⟩ := Reader.pure_ok.1 h
    decide
  · obtain ⟨rfl, rfl⟩ := Reader.pure_ok.1 h
    have : 2 ^ (bs - 2) ≤ 2 ^ 3 := Nat.pow_le_pow_right (by decide) (by omega)
    omega
  · obtain ⟨f, _, h1, h⟩ := Reader.bind_ok.1 h
    obtain ⟨-, rfl, -⟩ := readHeaderBits_ok.1 h1
    obtain ⟨rfl, rfl⟩ := Reader.pure_ok.1 h
    have := ck.bits_lt p 8
    omega
  · obtain ⟨f, _, h1, h⟩ := Reader.bind_ok.1 h
    obtain ⟨-, rfl, -⟩ := readHeaderBits_ok.1 h1
    obtain ⟨_, _, h4, h⟩ := Reader.bind_ok.1 h
    obtain ⟨hg, rfl⟩ := gate_ok.1 h4
    obtain ⟨rfl, rfl⟩ := Reader.pure_ok.1 h
    have := ck.bits_lt p 16
    rw [bne_iff_ne] at hg
    omega
  · obtain ⟨rfl, rfl⟩ := Reader.pure_ok.1 h
    have : 2 ^ (bs - 8) ≤ 2 ^ 7 := Nat.pow_le_pow_right (by decide) (by omega)
    omega

theorem tableRate_le (sr : Nat) : tableRate sr ≤ 655350 := by
  unfold tableRate
  split <;> decide

/-- A sample-rate field that is read is at most 655,350 Hz and takes at most two whole bytes (R123). -/
theorem resolveRateField_ok {ck : Chunk} {sr r p q : Nat} (h : resolveRateField ck sr p = .ok (r, q)) :
    (∃ n, n ≤ 2 ∧ q = p + 8 * n) ∧ r ≤ 655350 ∧ (p ≤ 8 * ck.len → q ≤ 8 * ck.len) := by
  unfold resolveRateField at h
  split_ifs at h
  · obtain ⟨f, _, h1, h⟩ := Reader.bind_ok.1 h
    obtain ⟨h3, rfl, rfl⟩ := readHeaderBits_ok.1 h1
    obtain ⟨rfl, rfl⟩ := Reader.pure_ok.1 h
    have := ck.bits_lt p 8
    unfold Chunk.bitsLeft at h3
    exact ⟨⟨1, by decide, rfl⟩, by omega, by omega⟩
  · obtain ⟨h3, rfl, rfl⟩ := readHeaderBits_ok.1 h
    have := ck.bits_lt p 16
    unfold Chunk.bitsLeft at h3
    exact ⟨⟨2, by decide, rfl⟩, by omega, by omega⟩
  · obtain ⟨f, _, h1, h⟩ := Reader.bind_ok.1 h
    obtain ⟨h3, rfl, rfl⟩ := readHeaderBits_ok.1 h1
    obtain ⟨rfl, rfl⟩ := Reader.pure_ok.1 h
    have := ck.bits_lt p 16
    unfold Chunk.bitsLeft at h3
    exact ⟨⟨2, by decide, rfl⟩, by omega, by omega⟩
  · obtain ⟨rfl, rfl⟩ := Reader.pure_ok.1 h
    exact ⟨⟨0, by decide, rfl⟩, tableRate_le sr, id⟩

theorem checkChannels_ok {s : State} {ca : BitVec 4} {c p q : Nat} (h : checkChannels s ca p = .ok (c, q)) :
    c = channelCount ca ∧ c = s.si.channels.toNat ∧ 1 ≤ c ∧ c ≤ s.params.maxChannels ∧ q = p := by
  obtain ⟨_, _, h1, h⟩ := Reader.bind_ok.1 h
  obtain ⟨_, _, h2, h⟩ := Reader.bind_ok.1 h
  obtain ⟨h4, rfl⟩ := gate_ok.1 h1
  obtain ⟨h3, rfl⟩ := gate_ok.1 h2
  obtain ⟨rfl, rfl⟩ := Reader.pure_ok.1 h
  obtain ⟨h5, h6⟩ := (validChannelCount_iff _ _).1 h4
  exact ⟨rfl, beq_iff_eq.1 h3, h5, h6, rfl⟩

/-- A channel count that passes both checks (R270, R409). -/
theorem checkChannels_of_legal {s : State} {ca : BitVec 4} {p : Nat} (hm : channelCount ca ≤ s.params.maxChannels)
    (hc : channelCount ca = s.si.channels.toNat) : checkChannels s ca p = .ok (channelCount ca, p) := by
  have h1 : 1 ≤ channelCount ca := by
    unfold channelCount
    split_ifs <;> omega
  exact (Reader.bind_of_ok (gate_pass ((validChannelCount_iff _ _).2 ⟨h1, hm⟩) _ _)).trans
    (Reader.bind_of_ok (gate_pass (beq_iff_eq.2 hc) _ _))

/-- The sample rate that stands for the rate field `raw`, 0 deferring to STREAMINFO, or its failure (R410). -/
theorem checkRate_eq (s : State) (raw p : Nat) :
    checkRate s raw p =
      if (if raw = 0 then s.si.rate.toNat else raw) ≤ s.params.maxSampleRate then
        .ok (if raw = 0 then s.si.rate.toNat else raw, p)
      else .error .rate := by
  by_cases h : (if raw = 0 then s.si.rate.toNat else raw) ≤ s.params.maxSampleRate
  · rw [if_pos h]
    exact Reader.bind_of_ok (gate_pass ((validSampleRate_iff _ _).2 h) _ _)
  · rw [if_neg h]
    refine Reader.bind_of_error (gate_fail ?_ _ _)
    rw [← Bool.not_eq_true, validSampleRate_iff]
    exact h

theorem checkRate_ok {s : State} {raw r p q : Nat} (h : checkRate s raw p = .ok (r, q)) :
    r = (if raw = 0 then s.si.rate.toNat else raw) ∧ r ≤ s.params.maxSampleRate ∧ q = p := by
  obtain ⟨_, _, h2, h⟩ := Reader.bind_ok.1 h
  obtain ⟨h3, rfl⟩ := gate_ok.1 h2
  obtain ⟨rfl, rfl⟩ := Reader.pure_ok.1 h
  exact ⟨rfl, (validSampleRate_iff _ _).1 h3, rfl⟩

theorem checkBitDepth_ok {s : State} {ss n p q : Nat} (h : checkBitDepth s ss p = .ok (n, q)) :
    n = s.si.bps.toNat ∧ 4 ≤ n ∧ n ≤ 32 ∧ q = p := by
  obtain ⟨_, _, h2, h⟩ := Reader.bind_ok.1 h
  obtain ⟨_, _, h4, h⟩ := Reader.bind_ok.1 h
  obtain ⟨h3, rfl⟩ := gate_ok.1 h2
  obtain ⟨h5, rfl⟩ := gate_ok.1 h4
  obtain ⟨rfl, rfl⟩ := Reader.pure_ok.1 h
  rw [Bool.and_eq_true, validBitDepth_iff, bne_iff_ne] at h3
  exact ⟨beq_iff_eq.1 h5, by omega, by omega, rfl⟩

theorem allowSmall_iff (s : State) (b : Nat) :
    allowSmall s b = true ↔ s.si.total = 0 ∨ s.pos.toNat + b = s.si.total.toNat := by
  unfold allowSmall
  rw [Bool.or_eq_true, beq_iff_eq, beq_iff_eq]
  exact or_congr ⟨fun h => BitVec.eq_of_toNat_eq h, fun h => by rw [h]; rfl⟩ Iff.rfl

theorem checkBlockSize_ok {s : State} {b p q : Nat} {u : Unit} (h : checkBlockSize s b p = .ok (u, q)) :
    1 ≤ b ∧ b ≤ s.params.maxBlockSize ∧ (16 ≤ b ∨ s.si.total = 0 ∨ s.pos.toNat + b = s.si.total.toNat) ∧ q = p := by
  obtain ⟨h1, rfl⟩ := gate_ok.1 h
  obtain ⟨h2, h3⟩ := (validBlockSize_iff _ _ _).1 h1
  rw [← allowSmall_iff]
  split_ifs at h2 with hs
  · exact ⟨h2, h3, .inr hs, rfl⟩
  · exact ⟨by omega, h3, .inl h2, rfl⟩

/-- Everything a header read to its end after its channel assignment says (R400 to R412). -/
theorem headerAfterAssignment_ok {s : State} {o bs sr p q : Nat} {blocking : Bool} {ca : BitVec 4} {hd : FrameHeader}
    (h : headerAfterAssignment s o blocking bs sr ca p = .ok (hd, q)) :
    (∃ n, 2 ≤ n ∧ n ≤ 12 ∧ q = p + 4 + 8 * n) ∧ (p ≤ 8 * s.chunk.len → q ≤ 8 * s.chunk.len) ∧
      hd.blocking = blocking ∧ hd.bsCode = bs ∧ hd.srCode = sr ∧ hd.assign = ca ∧
      hd.crc8 = (crc8 (s.chunk.slice o ((q - 8) / 8 - o))).toNat ∧ hd.crc8 < 256 ∧
      1 ≤ hd.blockSize ∧ hd.blockSize ≤ s.params.maxBlockSize ∧
      (16 ≤ hd.blockSize ∨ s.si.total = 0 ∨ s.pos.toNat + hd.blockSize = s.si.total.toNat) ∧
      hd.channels = channelCount ca ∧ hd.channels = s.si.channels.toNat ∧ hd.bps = s.si.bps.toNat ∧ 4 ≤ hd.bps ∧
      hd.bps ≤ 32 ∧ (hd.rate ≤ s.params.maxSampleRate ∧ hd.rate < 2 ^ 20) ∧ hd.number < 2 ^ 36 ∧
      (bs < 16 → hd.blockSize ≤ 65535) ∧ hd.channels ≤ s.params.maxChannels ∧ s.chunk.bits p 3 ≠ 3 ∧
      s.chunk.bits (p + 3) 1 = 0 := by
  unfold headerAfterAssignment at h
  obtain ⟨ss, _, h1, h⟩ := Reader.bind_ok.1 h
  obtain ⟨_, _, h2, h⟩ := Reader.bind_ok.1 h
  obtain ⟨r, _, h3, h⟩ := Reader.bind_ok.1 h
  obtain ⟨_, _, h4, h⟩ := Reader.bind_ok.1 h
  obtain ⟨number, _, h5, h⟩ := Reader.bind_ok.1 h
  obtain ⟨b, _, h6, h⟩ := Reader.bind_ok.1 h
  obtain ⟨raw, _, h7, h⟩ := Reader.bind_ok.1 h
  obtain ⟨o2, p2, h8, h⟩ := Reader.bind_ok.1 h
  obtain ⟨cRead, _, h9, h⟩ := Reader.bind_ok.1 h
  obtain ⟨_, _, h10, h⟩ := Reader.bind_ok.1 h
  obtain ⟨c, _, h11, h⟩ := Reader.bind_ok.1 h
  obtain ⟨rate, _, h12, h⟩ := Reader.bind_ok.1 h
  obtain ⟨n, _, h13, h⟩ := Reader.bind_ok.1 h
  obtain ⟨_, _, h14, h⟩ := Reader.bind_ok.1 h
  obtain ⟨rfl, rfl⟩ := Reader.pure_ok.1 h
  obtain ⟨hb1, hss, rfl⟩ := readHeaderBits_ok.1 h1
  obtain ⟨hss3, rfl⟩ := gate_ok.1 h2
  obtain ⟨hb3, hres, rfl⟩ := readHeaderBits_ok.1 h3
  obtain ⟨hres0, rfl⟩ := gate_ok.1 h4
  obtain ⟨⟨n5, h51, h52, rfl⟩, h53, h54⟩ := readCodedNumber_ok h5
  obtain ⟨⟨n6, h61, rfl⟩, h62, h63⟩ := resolveBlockSize_ok h6
  obtain ⟨⟨n7, h71, rfl⟩, h72, h73⟩ := resolveRateField_ok h7
  have h8' : (Except.ok (_, _) : Except Cause (Nat × Nat)) = .ok (o2, p2) := h8
  cases h8'
  obtain ⟨hb9, he9, rfl⟩ := readHeaderBits_ok.1 h9
  obtain ⟨hcrc, rfl⟩ := gate_ok.1 h10
  obtain ⟨hc1, hc2, -, hc3, rfl⟩ := checkChannels_ok h11
  obtain ⟨hr1, hr, rfl⟩ := checkRate_ok h12
  obtain ⟨hn1, hn2, hn3, rfl⟩ := checkBitDepth_ok h13
  obtain ⟨hz1, hz2, hz3, rfl⟩ := checkBlockSize_ok h14
  have hlt := s.chunk.bits_lt (p + 3 + 1 + 8 * n5 + 8 * n6 + 8 * n7) 8
  unfold Chunk.bitsLeft at hb9
  refine ⟨⟨n5 + n6 + n7 + 1, by omega, by omega, by omega⟩, fun _ => by omega, rfl, rfl, rfl, rfl, ?_, he9 ▸ hlt, hz1,
    hz2, hz3, hc1, hc2, hn1, hn2, hn3, ⟨hr, ?_⟩, h53, fun hbs => resolveBlockSize_le hbs h6, hc3, ?_, ?_⟩
  · rw [Nat.add_sub_cancel]
    exact beq_iff_eq.1 hcrc
  · have h20 := s.si.rate.isLt
    subst hr1
    dsimp only
    split_ifs <;> omega
  · subst hss
    exact bne_iff_ne.1 hss3
  · subst hres
    exact beq_iff_eq.1 hres0

/-- The block-size and sample-rate codes that are read (R400). -/
theorem headerCodes_ok {ck : Chunk} {codes : Nat × Nat} {p q : Nat} (h : headerCodes ck p = .ok (codes, q)) :
    codes = (ck.bits p 4, ck.bits (p + 4) 4) ∧ q = p + 8 ∧ 8 ≤ ck.bitsLeft p ∧ codes.1 ≠ 0 ∧ codes.2 ≠ 15 := by
  obtain ⟨bs, _, h1, h⟩ := Reader.bind_ok.1 h
  obtain ⟨_, _, h2, h⟩ := Reader.bind_ok.1 h
  obtain ⟨sr, _, h3, h⟩ := Reader.bind_ok.1 h
  obtain ⟨_, _, h4, h⟩ := Reader.bind_ok.1 h
  obtain ⟨rfl, rfl⟩ := Reader.pure_ok.1 h
  obtain ⟨hb1, rfl, rfl⟩ := readHeaderBits_ok.1 h1
  obtain ⟨hg1, rfl⟩ := gate_ok.1 h2
  obtain ⟨hb3, rfl, rfl⟩ := readHeaderBits_ok.1 h3
  obtain ⟨hg2, rfl⟩ := gate_ok.1 h4
  unfold Chunk.bitsLeft at *
  exact ⟨rfl, rfl, by omega, by simpa using hg1, by simpa using hg2⟩

/-- A header read to its end is read through its codes, its channel assignment and the rest (R400). -/
theorem headerAfterSync_ok {s : State} {o p q : Nat} {blocking : Bool} {hd : FrameHeader}
    (h : headerAfterSync s o blocking p = .ok (hd, q)) :
    12 ≤ s.chunk.bitsLeft p ∧ s.chunk.bits (p + 8) 4 < 11 ∧
      headerCodes s.chunk p = .ok ((s.chunk.bits p 4, s.chunk.bits (p + 4) 4), p + 8) ∧
      headerAfterAssignment s o blocking (s.chunk.bits p 4) (s.chunk.bits (p + 4) 4)
        (BitVec.ofNat 4 (s.chunk.bits (p + 8) 4)) (p + 12) = .ok (hd, q) := by
  obtain ⟨codes, _, h1, h⟩ := Reader.bind_ok.1 h
  obtain ⟨ca, _, h2, h⟩ := Reader.bind_ok.1 h
  obtain ⟨_, _, h3, h⟩ := Reader.bind_ok.1 h
  have hc := headerCodes_ok h1
  obtain ⟨rfl, rfl, hb, -, -⟩ := hc
  obtain ⟨hb2, rfl, rfl⟩ := readHeaderBits_ok.1 h2
  obtain ⟨hg, rfl⟩ := gate_ok.1 h3
  unfold Chunk.bitsLeft at *
  exact ⟨by omega, by simpa using hg, h1, h⟩

/-! How a header read ends. -/

theorem State.runHeader_ok {s : State} {r : Reader FrameHeader} {p q : Nat} {hd : FrameHeader}
    (h : r p = .ok (hd, q)) : s.runHeader r p = s.acceptHeader hd q := by
  unfold State.runHeader
  rw [h]

theorem State.runHeader_error {s : State} {r : Reader FrameHeader} {p : Nat} {e : Cause} (h : r p = .error e) :
    s.runHeader r p = s.headerFailed e := by
  unfold State.runHeader
  rw [h]

/-- A header read ends accepted or failed. -/
theorem State.runHeader_cases (s : State) (r : Reader FrameHeader) (p : Nat) :
    (∃ hd q, r p = .ok (hd, q) ∧ s.runHeader r p = s.acceptHeader hd q) ∨
      ∃ e, r p = .error e ∧ s.runHeader r p = s.headerFailed e := by
  cases h : r p with
  | error e => exact .inr ⟨e, rfl, State.runHeader_error h⟩
  | ok x => exact .inl ⟨x.1, x.2, rfl, State.runHeader_ok h⟩

/-! Which causes a header fails with. -/

/-- The header causes that are counted (R401, R562). -/
abbrev headerCause (c : Cause) : Prop := 1 ≤ c.number.toNat ∧ c.number.toNat ≤ 13

theorem failsOnly_readCodedNumber (ck : Chunk) (blocking : Bool) :
    Reader.failsOnly headerCause (readCodedNumber ck blocking) := by
  have hc : ∀ n v, Reader.failsOnly headerCause (readContinuation ck n v) := by
    intro n
    induction n with
    | zero => exact fun v => Reader.failsOnly_pure _ _
    | succ n ih =>
      exact fun v => Reader.failsOnly_bind (Reader.failsOnly_readHeaderBits (by decide) _ _) fun b =>
        Reader.failsOnly_bind (Reader.failsOnly_gate (by decide) _) fun _ => ih _
  unfold readCodedNumber
  refine Reader.failsOnly_bind (Reader.failsOnly_readHeaderBits (by decide) _ _) fun b => ?_
  split_ifs
  · exact Reader.failsOnly_pure _ _
  · exact Reader.failsOnly_bind (Reader.failsOnly_gate (by decide) _) fun _ =>
      Reader.failsOnly_bind (Reader.failsOnly_gate (by decide) _) fun _ => hc _ _

theorem failsOnly_resolveBlockSize (ck : Chunk) (bs : Nat) :
    Reader.failsOnly headerCause (resolveBlockSize ck bs) := by
  have hr : ∀ n, Reader.failsOnly headerCause (readHeaderBits ck n) := fun n =>
    Reader.failsOnly_readHeaderBits (by decide) _ _
  unfold resolveBlockSize
  split_ifs
  · exact Reader.failsOnly_failWith (by decide)
  · exact Reader.failsOnly_pure _ _
  · exact Reader.failsOnly_pure _ _
  · exact Reader.failsOnly_bind (hr _) fun _ => Reader.failsOnly_pure _ _
  · exact Reader.failsOnly_bind (hr _) fun _ =>
      Reader.failsOnly_bind (Reader.failsOnly_gate (by decide) _) fun _ => Reader.failsOnly_pure _ _
  · exact Reader.failsOnly_pure _ _

theorem failsOnly_resolveRateField (ck : Chunk) (sr : Nat) :
    Reader.failsOnly headerCause (resolveRateField ck sr) := by
  have hr : ∀ n, Reader.failsOnly headerCause (readHeaderBits ck n) := fun n =>
    Reader.failsOnly_readHeaderBits (by decide) _ _
  unfold resolveRateField
  split_ifs
  · exact Reader.failsOnly_bind (hr _) fun _ => Reader.failsOnly_pure _ _
  · exact hr _
  · exact Reader.failsOnly_bind (hr _) fun _ => Reader.failsOnly_pure _ _
  · exact Reader.failsOnly_pure _ _

theorem failsOnly_headerAfterAssignment (s : State) (o : Nat) (blocking : Bool) (bs sr : Nat) (ca : BitVec 4) :
    Reader.failsOnly headerCause (headerAfterAssignment s o blocking bs sr ca) := by
  have hr : ∀ n, Reader.failsOnly headerCause (readHeaderBits s.chunk n) := fun n =>
    Reader.failsOnly_readHeaderBits (by decide) _ _
  unfold headerAfterAssignment checkChannels checkRate checkBitDepth checkBlockSize
  dsimp only
  refine Reader.failsOnly_bind (hr _) fun ss => Reader.failsOnly_bind (Reader.failsOnly_gate (by decide) _) fun _ =>
    Reader.failsOnly_bind (hr _) fun r => Reader.failsOnly_bind (Reader.failsOnly_gate (by decide) _) fun _ =>
    Reader.failsOnly_bind (failsOnly_readCodedNumber _ _) fun number =>
    Reader.failsOnly_bind (failsOnly_resolveBlockSize _ _) fun b =>
    Reader.failsOnly_bind (failsOnly_resolveRateField _ _) fun raw =>
    Reader.failsOnly_bind (fun p c h => by cases h) fun h => Reader.failsOnly_bind (hr _) fun cRead =>
    Reader.failsOnly_bind (Reader.failsOnly_gate (by decide) _) fun _ =>
    Reader.failsOnly_bind (Reader.failsOnly_bind (Reader.failsOnly_gate (by decide) _) fun _ =>
      Reader.failsOnly_bind (Reader.failsOnly_gate (by decide) _) fun _ => Reader.failsOnly_pure _ _) fun c =>
    Reader.failsOnly_bind (Reader.failsOnly_bind (Reader.failsOnly_gate (by decide) _) fun _ =>
      Reader.failsOnly_pure _ _) fun rate =>
    Reader.failsOnly_bind (Reader.failsOnly_bind (Reader.failsOnly_gate (by decide) _) fun _ =>
      Reader.failsOnly_bind (Reader.failsOnly_gate (by decide) _) fun _ => Reader.failsOnly_pure _ _) fun n =>
    Reader.failsOnly_bind (Reader.failsOnly_gate (by decide) _) fun _ => Reader.failsOnly_pure _ _

theorem failsOnly_headerCodes (ck : Chunk) : Reader.failsOnly headerCause (headerCodes ck) := by
  have hr : ∀ n, Reader.failsOnly headerCause (readHeaderBits ck n) := fun n =>
    Reader.failsOnly_readHeaderBits (by decide) _ _
  exact Reader.failsOnly_bind (hr _) fun _ => Reader.failsOnly_bind (Reader.failsOnly_gate (by decide) _) fun _ =>
    Reader.failsOnly_bind (hr _) fun _ => Reader.failsOnly_bind (Reader.failsOnly_gate (by decide) _) fun _ =>
    Reader.failsOnly_pure _ _

/-- A header whose first 16 bits are legal fails with one of the causes 1 to 13 (R401, R562). -/
theorem failsOnly_headerAfterSync (s : State) (o : Nat) (blocking : Bool) :
    Reader.failsOnly headerCause (headerAfterSync s o blocking) :=
  Reader.failsOnly_bind (failsOnly_headerCodes _) fun _ =>
    Reader.failsOnly_bind (Reader.failsOnly_readHeaderBits (by decide) _ _) fun _ =>
    Reader.failsOnly_bind (Reader.failsOnly_gate (by decide) _) fun _ => failsOnly_headerAfterAssignment _ _ _ _ _ _

end Sys2Proof.Machine
end

