-- ==== Sys2Proof/Laws/Subframe.lean ====
section
/-! SUPPORT. The laws of the subframe decoder (Machine/Subframe.lean, Machine/Residual.lean): how a subframe ends, how
its header runs, what prediction and wasted-bits restoration give, and how many values a residual holds. -/

namespace Sys2Proof.Machine

theorem State.runSubframe_ok {s : State} {r : Reader (List Int)} {p p' : Nat} {xs : List Int}
    (h : r p = .ok (xs, p')) : s.runSubframe r p = s.subframeDecoded xs p' := by
  unfold State.runSubframe
  rw [h]

theorem State.runSubframe_error {s : State} {r : Reader (List Int)} {p : Nat} {c : Cause}
    (h : r p = .error c) : s.runSubframe r p = s.subframeFailed c := by
  unfold State.runSubframe
  rw [h]

/-- A subframe read ends decoded or failed. -/
theorem State.runSubframe_cases (s : State) (r : Reader (List Int)) (p : Nat) :
    (∃ xs p', r p = .ok (xs, p') ∧ s.runSubframe r p = s.subframeDecoded xs p') ∨
      ∃ c, r p = .error c ∧ s.runSubframe r p = s.subframeFailed c := by
  cases h : r p with
  | error c => exact .inr ⟨c, rfl, State.runSubframe_error h⟩
  | ok xp => exact .inl ⟨xp.1, xp.2, rfl, State.runSubframe_ok h⟩

/-! The header. -/

/-- The wasted-bits field with a count below the bit depth (R312). -/
theorem readWasted_run {ck : Chunk} {flag side : Bool} {n w p p1 : Nat}
    (h : readWastedCount ck flag p = .ok (w, p1)) (hw : w < n) (hn : n ≤ 32) :
    readWasted ck flag n side p = .ok ((w, n - w + side.toNat), p1) := by
  unfold readWasted
  rw [Reader.bind_of_ok h, Reader.bind_of_ok (gate_pass ((validWasted_iff w n).2 hw) _ _)]
  have he : validEffectiveDepth (n - w + side.toNat) = true := by
    rw [validEffectiveDepth_iff]
    cases side <;> simp <;> omega
  rw [Reader.bind_of_ok (gate_pass he _ _)]
  rfl

/-- A subframe whose header byte lies in the chunk and passes its order gate (R311). -/
theorem subframeOf_run {ck : Chunk} {kind : SubKind} {order b n p : Nat} {flag side : Bool}
    (h8 : 8 ≤ ck.bitsLeft p) (ho : validSubframeOrder kind order b = true) :
    subframeOf ck kind order flag b n side p =
      (readWasted ck flag n side >>= fun we => subframeBody ck kind order b we.1 we.2) (p + 8) := by
  unfold subframeOf
  have h7 : 7 ≤ ck.bitsLeft p := by omega
  have h1 : 1 ≤ ck.bitsLeft (p + 7) := by unfold Chunk.bitsLeft at *; omega
  rw [Reader.bind_of_ok (readBits_of_le h7), Reader.bind_of_ok (gate_pass ho _ _),
    Reader.bind_of_ok (readBits_of_le h1)]

/-- A subframe's body, after its header byte and wasted bits (R310). -/
theorem subframeOf_body {ck : Chunk} {kind : SubKind} {order b n p w p1 : Nat} {flag side : Bool}
    (h8 : 8 ≤ ck.bitsLeft p) (ho : validSubframeOrder kind order b = true)
    (h : readWastedCount ck flag (p + 8) = .ok (w, p1)) (hw : w < n) (hn : n ≤ 32) :
    subframeOf ck kind order flag b n side p = subframeBody ck kind order b w (n - w + side.toNat) p1 := by
  rw [subframeOf_run h8 ho, Reader.bind_of_ok (readWasted_run h hw hn)]

/-- The same at the subframe the block stands at. -/
theorem State.subframe_body {s : State} {kind : SubKind} {order w p1 : Nat} {wasted : Bool}
    (h : s.subframeStarts wasted w p1) (ho : validSubframeOrder kind order s.dec.header.blockSize = true) :
    subframeOf s.chunk kind order wasted s.dec.header.blockSize s.dec.header.bps
        (isSide s.dec.header.assign s.dec.chan) s.dec.cursor =
      subframeBody s.chunk kind order s.dec.header.blockSize w (s.effectiveDepth w) p1 :=
  subframeOf_body h.1 ho h.2.1 h.2.2.1 h.2.2.2

/-- What a FIXED subframe reads before its residual (R324). -/
theorem fixedPredictor_run {ck : Chunk} {k w e p q : Nat} {warm : List Int}
    (h : readMany (readSample ck e) k p = .ok (warm, q)) :
    fixedPredictor ck k w e p = .ok (⟨.fixed, k, w, e, warm, [], 0⟩, q) := by
  unfold fixedPredictor
  rw [Reader.bind_of_ok h]
  rfl

theorem sext5_nonneg {f : Nat} (h : f < 16) : sext 5 f = (f : Int) := by
  unfold sext
  rw [if_neg]
  rw [show 2 ^ (5 - 1) = 16 by rfl, Nat.div_eq_of_lt h]
  decide

/-- What an LPC subframe reads before its residual (R335). -/
theorem lpcPredictor_run {ck : Chunk} {k w e p q r : Nat} {warm coefs : List Int}
    (h : readMany (readSample ck e) k p = .ok (warm, q)) (h9 : 9 ≤ ck.bitsLeft q) (hp : ck.bits q 4 ≠ 15)
    (hs : ck.bits (q + 4) 5 < 16) (hc : readMany (readBitsSigned ck (ck.bits q 4 + 1)) k (q + 9) = .ok (coefs, r)) :
    lpcPredictor ck k w e p = .ok (⟨.lpc, k, w, e, warm, coefs, ck.bits (q + 4) 5⟩, r) := by
  unfold lpcPredictor
  have hl : 5 ≤ ck.bitsLeft (q + 4) := by unfold Chunk.bitsLeft at *; omega
  rw [Reader.bind_of_ok h, Reader.bind_of_ok (readBits_of_le (by omega)),
    Reader.bind_of_ok (gate_pass (by simpa [validPrecision] using hp) _ _), Reader.bind_of_ok (readBits_of_le hl),
    sext5_nonneg hs, Reader.bind_of_ok (gate_pass ((validShift_iff _).2 (by omega)) _ _), Reader.bind_of_ok hc]
  rfl

/-! Samples. -/

theorem readSample_fits {ck : Chunk} {e p q : Nat} {v : Int} (h1 : 1 ≤ e) (h : readSample ck e p = .ok (v, q)) :
    fitsSigned v 32 = true ∨ 32 < e ∧ e ≠ 33 := by
  unfold readSample at h
  split at h
  · left
    obtain ⟨_, _, _, h⟩ := Reader.bind_ok.1 h
    obtain ⟨_, _, _, h⟩ := Reader.bind_ok.1 h
    obtain ⟨hv, -⟩ := orFail_ok.1 h
    obtain ⟨hf, rfl⟩ := (toInt32_eq_some _ _).1 hv
    exact hf
  · by_cases h32 : e ≤ 32
    · left
      obtain ⟨-, rfl, -⟩ := readBitsSigned_ok.1 h
      have hlt := ck.bits_lt p e
      generalize ck.bits p e = u at hlt
      obtain ⟨e, rfl⟩ : ∃ k, e = k + 1 := ⟨e - 1, by omega⟩
      have h2 : 2 ^ (e + 1) ≤ 2 ^ 32 := Nat.pow_le_pow_right (by decide) h32
      have h3 : 2 ^ (e + 1) = 2 * 2 ^ e := by rw [pow_succ]; ring
      rw [fitsSigned_32]
      unfold sext
      rw [Nat.add_sub_cancel]
      have hd : u / 2 ^ e < 2 := by rw [Nat.div_lt_iff_lt_mul (by positivity)]; omega
      by_cases hs : u / 2 ^ e % 2 = 1
      · rw [if_pos hs]
        have : 2 ^ e ≤ u := by
          by_contra hc
          rw [Nat.div_eq_of_lt (by omega)] at hs
          omega
        push_cast [h3]
        have hp : ((2 ^ e : Nat) : Int) = 2 ^ e := by push_cast; rfl
        rw [← hp]
        omega
      · rw [if_neg hs]
        have : u < 2 ^ e := by
          by_contra hc
          have : 1 ≤ u / 2 ^ e := by rw [Nat.one_le_div_iff (by positivity)]; omega
          omega
        omega
    · right
      omega

/-- Restoring the wasted bits of samples that fit (R340). -/
theorem restoreWasted_run {w : Nat} {xs : List Int} (h : ∀ v ∈ xs, fitsSigned (v * 2 ^ w) 32 = true) :
    restoreWasted w xs = some (xs.map (· * 2 ^ w)) := by
  unfold restoreWasted
  split_ifs with h0
  · subst h0
    simp
  · induction xs with
    | nil => rfl
    | cons v xs ih =>
      rw [List.mapM_cons, (checkSignedShift_eq_some v w _).2 ⟨h v (List.mem_cons_self ..), rfl⟩,
        ih fun u hu => h u (List.mem_cons_of_mem _ hu)]
      rfl

/-- Restored samples are int32, and as many as there were (R340). -/
theorem restoreWasted_some {w : Nat} {xs ys : List Int} (h : restoreWasted w xs = some ys) :
    ys.length = xs.length ∧ ((∀ v ∈ xs, fitsSigned v 32 = true) → ∀ v ∈ ys, fitsSigned v 32 = true) := by
  unfold restoreWasted at h
  split_ifs at h
  · cases h
    exact ⟨rfl, fun h => h⟩
  · induction xs generalizing ys with
    | nil => cases h; exact ⟨rfl, fun _ v hv => by cases hv⟩
    | cons v xs ih =>
      rw [List.mapM_cons] at h
      obtain ⟨u, hu, h⟩ := Option.bind_eq_some_iff.1 h
      obtain ⟨us, hus, h⟩ := Option.bind_eq_some_iff.1 h
      cases h
      obtain ⟨h1, h2⟩ := ih hus
      obtain ⟨hf, rfl⟩ := (checkSignedShift_eq_some v w u).1 hu
      refine ⟨by rw [List.length_cons, List.length_cons, h1], fun hx z hz => ?_⟩
      rcases List.mem_cons.1 hz with rfl | hz
      · exact hf
      · exact h2 (fun y hy => hx y (List.mem_cons_of_mem _ hy)) z hz

/-! Prediction. -/

/-- The samples so far, most recent first, as the predictor sees them. -/
theorem history_getD (x : Nat → Int) (n j : Nat) (h : j < n) :
    (((List.range n).map x).reverse).getD j 0 = x (n - 1 - j) := by
  rw [List.getD_eq_getElem?_getD, List.getElem?_reverse (by simpa using h)]
  simp only [List.length_map, List.length_range]
  rw [List.getElem?_map, List.getElem?_range (by omega)]
  rfl

/-- Prediction strictly in sequence (R324, R331, R337): where `x` obeys the predictor, `x` is what comes out. -/
theorem predictFrom_run (pr : Predictor) (x : Nat → Int) (res : List Int) (n : Nat)
    (h : ∀ m, n ≤ m → m < n + res.length →
      x m = pr.predict ((List.range m).map x).reverse + res.getD (m - n) 0 ∧
        fitsSigned (x m) (min pr.depth 32) = true) :
    predictFrom pr ((List.range n).map x).reverse res = some ((List.range (n + res.length)).map x) := by
  induction res generalizing n with
  | nil => simp [predictFrom]
  | cons r rs ih =>
    have h0 := h n (le_refl _) (by simp)
    rw [Nat.sub_self, List.getD_cons_zero] at h0
    have hstep : x n :: ((List.range n).map x).reverse = ((List.range (n + 1)).map x).reverse := by
      rw [List.range_succ, List.map_append, List.reverse_append]
      rfl
    unfold predictFrom
    rw [← h0.1, (narrow_eq_some (x n) pr.depth (x n)).2 ⟨h0.2, rfl⟩]
    show predictFrom pr (x n :: ((List.range n).map x).reverse) rs = _
    rw [hstep, ih (n + 1) fun m h1 h2 => ?_]
    · rw [List.length_cons]
      congr 2
      congr 1
      omega
    · have := h m (by omega) (by rw [List.length_cons]; omega)
      rw [show m - n = (m - (n + 1)) + 1 by omega, List.getD_cons_succ] at this
      exact this

/-- Prediction gives a sample for every residual after the history, each within the effective depth (R331). -/
theorem predictFrom_some {pr : Predictor} {hist res xs : List Int} (h : predictFrom pr hist res = some xs) :
    xs.length = hist.length + res.length ∧
      ((∀ v ∈ hist, fitsSigned v 32 = true) → ∀ v ∈ xs, fitsSigned v 32 = true) := by
  induction res generalizing hist with
  | nil =>
    cases h
    exact ⟨by simp, fun hv v hx => hv v (by simpa using hx)⟩
  | cons r rs ih =>
    unfold predictFrom at h
    cases hn : narrow (pr.predict hist + r) pr.depth with
    | none => rw [hn] at h; cases h
    | some v =>
      rw [hn] at h
      obtain ⟨h1, h2⟩ := ih h
      refine ⟨by rw [h1, List.length_cons, List.length_cons]; omega, fun hh => h2 fun u hu => ?_⟩
      rcases List.mem_cons.1 hu with rfl | hu
      · obtain ⟨hf, rfl⟩ := (narrow_eq_some _ _ _).1 hn
        rw [fitsSigned_iff] at hf
        have : 2 ^ (min pr.depth 32 - 1) ≤ 2 ^ 31 := Nat.pow_le_pow_right (by decide) (by omega)
        have : ((2 ^ (min pr.depth 32 - 1) : Nat) : Int) ≤ 2147483648 := by exact_mod_cast this
        rw [fitsSigned_32]
        omega
      · exact hh u hu

/-- The LPC prediction as a sum over the coefficients (R337). -/
theorem lpcPredict_run (coefs : List Int) (sh : Nat) (x : Nat → Int) (n : Nat) (h : coefs.length ≤ n) :
    lpcPredict coefs sh ((List.range n).map x).reverse =
      ((List.range coefs.length).map fun j => coefs.getD j 0 * x (n - 1 - j)).sum / 2 ^ sh := by
  unfold lpcPredict asr
  have hl : List.zipWith (· * ·) coefs ((List.range n).map x).reverse =
      (List.range coefs.length).map fun j => coefs.getD j 0 * x (n - 1 - j) := by
    apply List.ext_getElem?
    intro j
    by_cases hj : j < coefs.length
    · rw [List.getElem?_zipWith, List.getElem?_map, List.getElem?_range hj]
      have h1 : coefs[j]? = some (coefs.getD j 0) := by
        rw [List.getD_eq_getElem?_getD, List.getElem?_eq_getElem hj]
        rfl
      have h2 : (((List.range n).map x).reverse)[j]? = some (x (n - 1 - j)) := by
        have := history_getD x n j (by omega)
        rw [List.getD_eq_getElem?_getD] at this
        have hlen : j < (((List.range n).map x).reverse).length := by simp; omega
        rw [List.getElem?_eq_getElem hlen] at this ⊢
        rw [← this]
        rfl
      rw [h1, h2]
      rfl
    · rw [List.getElem?_eq_none (by simp; omega), List.getElem?_eq_none (by simp; omega)]
  rw [hl]
  push_cast
  rfl

/-! Residuals. -/

theorem ricePartition_length {ck : Chunk} {n k p p' : Nat} {xs : List Int}
    (h : ricePartition ck n k p = .ok (xs, p')) : xs.length = n := readMany_length h

theorem escapePartition_length {ck : Chunk} {n p p' : Nat} {xs : List Int}
    (h : escapePartition ck n p = .ok (xs, p')) : xs.length = n := by
  obtain ⟨_, _, _, h⟩ := Reader.bind_ok.1 h
  exact readMany_length h

theorem readPartition_length {ck : Chunk} {w n p p' : Nat} {xs : List Int}
    (h : readPartition ck w n p = .ok (xs, p')) : xs.length = n := by
  obtain ⟨r, _, _, h⟩ := Reader.bind_ok.1 h
  split at h
  · exact escapePartition_length h
  · exact ricePartition_length h

/-- The partitions from `j` on hold as many values as R282 says. -/
theorem readPartitions_length {ck : Chunk} {w b o k m j p p' : Nat} {xs : List Int}
    (h : readPartitions ck w b o k m j p = .ok (xs, p')) :
    xs.length = ((List.range m).map fun i => partitionSize b o k (j + i)).sum := by
  induction m generalizing j p xs with
  | zero => cases h; rfl
  | succ m ih =>
    obtain ⟨ys, q, h1, h2⟩ := Reader.bind_ok.1 h
    obtain ⟨zs, q', h3, h4⟩ := Reader.bind_ok.1 h2
    obtain ⟨rfl, rfl⟩ := Reader.pure_ok.1 h4
    have e : (fun i => partitionSize b o k (j + (i + 1))) = fun i => partitionSize b o k (j + 1 + i) := by
      funext i
      rw [show j + (i + 1) = j + 1 + i by omega]
    rw [List.length_append, readPartition_length h1, ih h3, List.range_succ_eq_map, List.map_cons, List.sum_cons,
      List.map_map]
    rw [← e]
    rfl

/-- The partitions of a residual hold B − k values in all (R280, R282). -/
theorem partitionSizes_sum (b o k : Nat) (hd : b % 2 ^ o = 0) (hk : k < b / 2 ^ o) :
    ((List.range (2 ^ o)).map fun i => partitionSize b o k (0 + i)).sum = b - k := by
  obtain ⟨m, hm⟩ : ∃ m, 2 ^ o = m + 1 := ⟨2 ^ o - 1, by have := Nat.pow_pos (n := o) (show 0 < 2 by decide); omega⟩
  have hb : b = (m + 1) * (b / 2 ^ o) := by
    have := Nat.div_add_mod b (2 ^ o)
    rw [hd, hm] at this
    rw [hm]
    omega
  rw [hm, List.range_succ_eq_map, List.map_cons, List.sum_cons, List.map_map]
  have e : ((fun i => partitionSize b o k (0 + i)) ∘ Nat.succ) = fun _ => b / 2 ^ o := by
    funext i
    simp [partitionSize]
  rw [e, List.map_const', List.sum_replicate, List.length_range]
  have h0 : partitionSize b o k (0 + 0) = b / 2 ^ o - k := rfl
  rw [h0]
  generalize b / 2 ^ o = q at *
  rw [smul_eq_mul]
  rw [hb]
  have : (m + 1) * q = m * q + q := by ring
  omega

/-- A residual that is read holds B - k values (R280, R282). -/
theorem decodeResidual_length {ck : Chunk} {b k p p' : Nat} {xs : List Int}
    (h : decodeResidual ck b k p = .ok (xs, p')) : xs.length = b - k := by
  obtain ⟨m, q, h1, h2⟩ := Reader.bind_ok.1 h
  have key : ∀ w q, residualAfterMethod ck w b k q = .ok (xs, p') → xs.length = b - k := by
    intro w q h
    obtain ⟨o, q1, h3, h4⟩ := Reader.bind_ok.1 h
    obtain ⟨o', q2, h5, h6⟩ := Reader.bind_ok.1 h3
    obtain ⟨_, _, h7, h8⟩ := Reader.bind_ok.1 h6
    obtain ⟨rfl, rfl⟩ := Reader.pure_ok.1 h8
    obtain ⟨h9, -⟩ := gate_ok.1 h7
    obtain ⟨⟨-, h10⟩, h11⟩ := (validPartitionOrder_iff _ _ _).1 h9
    rw [readPartitions_length h4, partitionSizes_sum b o' k h10 h11]
  split_ifs at h2
  · exact key _ _ h2
  · exact key _ _ h2
  · cases h2

/-- A predicted subframe decodes to the samples that its warm-up samples, its predictor and its residual give. -/
theorem decodePredicted_run {ck : Chunk} {b w p q : Nat} {pr : Predictor} {res : List Int} {x : Nat → Int}
    {predict : (Nat → Int) → Nat → Int} (hlen : pr.warmup.length = pr.order) (hkb : pr.order < b) (hw : pr.wasted = w)
    (hres : decodeResidual ck b pr.order p = .ok (res, q))
    (hx : predictedSamples b pr.order pr.depth w pr.warmup res predict x)
    (hpred : ∀ n, pr.order ≤ n → n < b → pr.predict ((List.range n).map x).reverse = predict x n) :
    decodePredicted ck b pr p = .ok (restored w b x, q) := by
  obtain ⟨h1, h2, h3⟩ := hx
  have hrl := decodeResidual_length hres
  unfold decodePredicted finishPredicted
  rw [Reader.bind_of_ok hres]
  have hwm : pr.warmup = (List.range pr.order).map x := by
    apply List.ext_getElem?
    intro i
    by_cases hi : i < pr.order
    · rw [List.getElem?_map, List.getElem?_range hi, Option.map_some, h1 i hi, List.getD_eq_getElem?_getD,
        List.getElem?_eq_getElem (by omega)]
      rfl
    · rw [List.getElem?_eq_none (by omega), List.getElem?_eq_none (by simp; omega)]
  have hpf : predictFrom pr pr.warmup.reverse res = some ((List.range b).map x) := by
    rw [hwm, predictFrom_run pr x res pr.order fun m hm1 hm2 => ?_, hrl]
    · congr 3
      omega
    · rw [hrl] at hm2
      rw [hpred m hm1 (by omega)]
      exact h2 m hm1 (by omega)
  rw [Reader.bind_of_ok (orFail_some hpf _ _)]
  refine orFail_some ?_ _ _
  rw [hw, restoreWasted_run fun v hv => ?_]
  · unfold restored
    rw [List.map_map]
    rfl
  · obtain ⟨n, hn, rfl⟩ := List.mem_map.1 hv
    exact h3 n (List.mem_range.1 hn)

/-! The LPC accumulator (R337): with the coefficients of R335 and samples of R331 the exact sum is an int of ACC_W
bits. -/

/-- A product of a coefficient within `c` and a sample within `h`. -/
theorem mul_bounds {a b c h : Int} (h1 : -c ≤ a) (h2 : a ≤ c) (h3 : -h ≤ b) (h4 : b ≤ h) :
    -(c * h) ≤ a * b ∧ a * b ≤ c * h := by
  have hc : 0 ≤ c := by omega
  have hh : 0 ≤ h := by omega
  have hn : (a * b).natAbs ≤ c.natAbs * h.natAbs := by
    rw [Int.natAbs_mul]
    exact Nat.mul_le_mul (by omega) (by omega)
  have e : ((c.natAbs * h.natAbs : Nat) : Int) = c * h := by
    rw [Int.natCast_mul, Int.natAbs_of_nonneg hc, Int.natAbs_of_nonneg hh]
  omega

/-- The sum of as many products as there are coefficients. -/
theorem dot_bounds {c h : Int} (hc : 0 ≤ c) (hh : 0 ≤ h) : ∀ (coefs hist : List Int),
    (∀ v ∈ coefs, -c ≤ v ∧ v ≤ c) → (∀ v ∈ hist, -h ≤ v ∧ v ≤ h) →
    -(coefs.length * (c * h)) ≤ (List.zipWith (· * ·) coefs hist).sum ∧
      (List.zipWith (· * ·) coefs hist).sum ≤ coefs.length * (c * h)
  | [], hist, _, _ => by simp
  | a :: coefs, [], _, _ => by
    have : 0 ≤ ((a :: coefs).length : Int) * (c * h) := Int.mul_nonneg (by omega) (Int.mul_nonneg hc hh)
    simp only [List.zipWith_nil_right, List.sum_nil]
    omega
  | a :: coefs, b :: hist, h1, h2 => by
    have ih := dot_bounds hc hh coefs hist (fun v hv => h1 v (.tail _ hv)) fun v hv => h2 v (.tail _ hv)
    have hab := mul_bounds (h1 a (.head _)).1 (h1 a (.head _)).2 (h2 b (.head _)).1 (h2 b (.head _)).2
    have e : ((a :: coefs).length : Int) * (c * h) = coefs.length * (c * h) + c * h := by
      simp [Int.add_mul]
    rw [List.zipWith_cons_cons, List.sum_cons, e]
    omega

/-- The accumulator of R337 fits ACC_W bits: at most 32 coefficients of at most 15 bits against int32 samples. -/
theorem lpcAccumulator_fits {coefs hist : List Int} (hl : coefs.length ≤ 32)
    (hc : ∀ v ∈ coefs, fitsSigned v 15 = true) (hh : ∀ v ∈ hist, fitsSigned v Config.sampleW = true) :
    fitsSigned (List.zipWith (· * ·) coefs hist).sum Config.accW = true := by
  have hc' : ∀ v ∈ coefs, (-16384 : Int) ≤ v ∧ v ≤ 16384 := fun v hv => by
    have := (fitsSigned_iff v 15).1 (hc v hv)
    simp only [show ((2 ^ (15 - 1) : Nat) : Int) = 16384 from rfl] at this
    omega
  have hh' : ∀ v ∈ hist, (-2147483648 : Int) ≤ v ∧ v ≤ 2147483648 := fun v hv => by
    have := (fitsSigned_32 v).1 (hh v hv)
    omega
  have hb := dot_bounds (by decide) (by decide) coefs hist hc' hh'
  rw [fitsSigned_iff, show ((2 ^ (Config.accW - 1) : Nat) : Int) = 9223372036854775808 from rfl]
  omega

end Sys2Proof.Machine
end

