-- ==== Sys2Proof/Laws/Elements.lean ====
section
/-! SUPPORT. What one step inside a DECODE is, phase by phase, in terms of the pseudocode functions that the DECODE
command runs (R400, R310, R360): the header at a candidate, a subframe, the delivery. -/

namespace Sys2Proof.Machine

theorem Chunk.peek_succ (ck : Chunk) (p n : Nat) :
    ck.peek p (n + 1) = 2 * ck.peek p n + if p + n < 8 * ck.len then ck.bit (p + n) else 0 := rfl

theorem Chunk.peek_half (ck : Chunk) (p n : Nat) : ck.peek p (n + 1) / 2 = ck.peek p n := by
  rw [Chunk.peek_succ]
  have := ck.bit_lt (p + n)
  split_ifs <;> omega

/-- A step outside the phases `idle` and `header` runs the instruction at the cursor. -/
theorem step_of_fetch {s : State} {i : Instr} (hp : s.dec.phase ≠ .idle) (hf : s.fetchElement = .ok i) :
    step s = exec i s := by
  unfold step
  rw [if_neg hp, hf]

theorem step_of_reject {s : State} {r : Reject} (hp : s.dec.phase ≠ .idle) (hf : s.fetchElement = .error r) :
    step s = .next (s.headerFailed .noSync) := by
  unfold step
  rw [if_neg hp, hf]

/-- A step at a candidate header is the parse of R400: accepted or failed. -/
theorem step_header {s : State} (hp : s.dec.phase = .header) :
    step s = .next (s.runHeader (parseFrameHeader s s.dec.frameStart) s.dec.cursor) := by
  have hn : s.dec.phase ≠ .idle := by rw [hp]; decide
  by_cases h16 : s.chunk.bitsLeft s.dec.cursor < 16
  · have hf : s.fetchElement = .error .noSync := by
      unfold State.fetchElement
      rw [hp]
      exact if_pos h16
    have hr : parseFrameHeader s s.dec.frameStart s.dec.cursor = .error .noSync := if_pos h16
    rw [step_of_reject hn hf, State.runHeader_error hr]
  · have hle : 16 ≤ s.chunk.bitsLeft s.dec.cursor := Nat.le_of_not_lt h16
    have hlt := s.chunk.bits_lt s.dec.cursor 16
    have hf : s.fetchElement = decodeFrame (s.chunk.bits s.dec.cursor 16) := by
      unfold State.fetchElement
      rw [hp]
      dsimp only
      rw [if_neg h16, s.chunk.peek_eq_bits _ _ hle, decode_frame _ hlt]
    have e1 : s.chunk.bits s.dec.cursor 16 =
        s.chunk.bits s.dec.cursor 14 * 4 + s.chunk.bits (s.dec.cursor + 14) 1 * 2 +
          s.chunk.bits (s.dec.cursor + 15) 1 := by
      rw [show 16 = 15 + 1 by rfl, s.chunk.bits_add, show 15 = 14 + 1 by rfl, s.chunk.bits_add]
      ring
    have l1 := s.chunk.bits_lt (s.dec.cursor + 14) 1
    have l2 := s.chunk.bits_lt (s.dec.cursor + 15) 1
    have hp16 : parseFrameHeader s s.dec.frameStart s.dec.cursor =
        (do
          gate (s.chunk.bits s.dec.cursor 14 == 0x3FFE) .noSync
          let r ← readBits s.chunk 1
          gate (r == 0) .reservedBit
          let blocking ← readBits s.chunk 1
          headerAfterSync s s.dec.frameStart (blocking == 1) : Reader FrameHeader) (s.dec.cursor + 14) := by
      unfold parseFrameHeader
      rw [if_neg h16, Reader.bind_of_ok (readBits_of_le (by omega))]
    have hb1 : 1 ≤ s.chunk.bitsLeft (s.dec.cursor + 14) := by unfold Chunk.bitsLeft at *; omega
    have hb2 : 1 ≤ s.chunk.bitsLeft (s.dec.cursor + 14 + 1) := by unfold Chunk.bitsLeft at *; omega
    have hframe : ∀ b, s.frameHeader b = s.runHeader (headerAfterSync s s.dec.frameStart b) (s.dec.cursor + 16) :=
      fun b => if_neg h16
    have hpass : s.chunk.bits s.dec.cursor 14 = 0x3FFE → s.chunk.bits (s.dec.cursor + 14) 1 = 0 →
        parseFrameHeader s s.dec.frameStart s.dec.cursor =
          headerAfterSync s s.dec.frameStart (s.chunk.bits (s.dec.cursor + 15) 1 == 1) (s.dec.cursor + 16) := by
      intro h1 h2
      rw [hp16, Reader.bind_of_ok (gate_pass (by rw [h1]; rfl) _ _), Reader.bind_of_ok (readBits_of_le hb1),
        Reader.bind_of_ok (gate_pass (by rw [h2]; rfl) _ _), Reader.bind_of_ok (readBits_of_le hb2)]
    have hrun : ∀ {r : Reader FrameHeader} {q : Nat},
        parseFrameHeader s s.dec.frameStart s.dec.cursor = r q →
        s.runHeader (parseFrameHeader s s.dec.frameStart) s.dec.cursor = s.runHeader r q := by
      intro r q h
      unfold State.runHeader
      rw [h]
    unfold decodeFrame at hf
    split_ifs at hf with c1 c2 c3
    · rw [step_of_fetch hn hf]
      show Host.Outcome.next (s.frameHeader false) = _
      rw [hframe, hrun (hpass (by omega) (by omega)), show s.chunk.bits (s.dec.cursor + 15) 1 = 0 by omega]
      rfl
    · rw [step_of_fetch hn hf]
      show Host.Outcome.next (s.frameHeader true) = _
      rw [hframe, hrun (hpass (by omega) (by omega)), show s.chunk.bits (s.dec.cursor + 15) 1 = 1 by omega]
      rfl
    · rw [step_of_fetch hn hf]
      show Host.Outcome.next (if _ then _ else s.headerFailed .reservedBit) = _
      rw [if_neg h16, State.runHeader_error]
      rw [hp16, Reader.bind_of_ok (gate_pass (by rw [show s.chunk.bits s.dec.cursor 14 = 0x3FFE by omega]; rfl) _ _),
        Reader.bind_of_ok (readBits_of_le hb1),
        Reader.bind_of_error (gate_fail (by rw [show s.chunk.bits (s.dec.cursor + 14) 1 = 1 by omega]; rfl) _ _)]
    · rw [step_of_reject hn hf, State.runHeader_error]
      rw [hp16, Reader.bind_of_error (gate_fail (by
        rw [beq_eq_false_iff_ne]
        omega) _ _)]

/-- What the instruction of a subframe header byte reads (R310, R311). -/
def subframeByteReader (s : State) (v : Nat) : Reader (List Int) :=
  if 128 ≤ v then do
    let _ ← readBits s.chunk 1
    failWith .padBit
  else
    match subframeType (v / 2 % 64) with
    | none => do
      let _ ← readBits s.chunk 7
      failWith .reservedType
    | some ko =>
      subframeOf s.chunk ko.1 ko.2 (v % 2 == 1) s.dec.header.blockSize s.dec.header.bps
        (isSide s.dec.header.assign s.dec.chan)

theorem exec_decodeSubframe (s : State) (v : Nat) :
    exec (decodeSubframe v) s = .next (s.runSubframe (subframeByteReader s v) s.dec.cursor) := by
  unfold decodeSubframe subframeByteReader
  dsimp only
  by_cases h : 128 ≤ v
  · rw [if_pos h, if_pos h]
    rfl
  · have hlt : v / 2 % 64 < 64 := Nat.mod_lt _ (by decide)
    rw [if_neg h, if_neg h]
    generalize v / 2 % 64 = t at *
    interval_cases t <;> rfl

/-- A step at a subframe is the subframe decoder of R310. -/
theorem step_subframe {s : State} (hp : s.dec.phase = .subframe) : step s = .next s.decodeSubframe := by
  have hn : s.dec.phase ≠ .idle := by rw [hp]; decide
  have hlt := s.chunk.peek_lt s.dec.cursor 8
  have hf : s.fetchElement = .ok (decodeSubframe (s.chunk.peek s.dec.cursor 8)) := by
    unfold State.fetchElement
    rw [hp]
    show decode s.dec.slot (s.chunk.peek s.dec.cursor s.dec.slot.bits) = _
    have hs : s.dec.slot = .subframe := by unfold DecodeCtx.slot; rw [hp]
    rw [hs]
    exact decode_subframe _ hlt
  rw [step_of_fetch hn hf, exec_decodeSubframe]
  have e7 : s.chunk.peek s.dec.cursor 8 / 2 = s.chunk.peek s.dec.cursor 7 := s.chunk.peek_half _ _
  have e1 : s.chunk.peek s.dec.cursor 8 / 128 = s.chunk.peek s.dec.cursor 1 := by
    have h6 : s.chunk.peek s.dec.cursor 7 / 2 = s.chunk.peek s.dec.cursor 6 := s.chunk.peek_half _ _
    have h5 : s.chunk.peek s.dec.cursor 6 / 2 = s.chunk.peek s.dec.cursor 5 := s.chunk.peek_half _ _
    have h4 : s.chunk.peek s.dec.cursor 5 / 2 = s.chunk.peek s.dec.cursor 4 := s.chunk.peek_half _ _
    have h3 : s.chunk.peek s.dec.cursor 4 / 2 = s.chunk.peek s.dec.cursor 3 := s.chunk.peek_half _ _
    have h2 : s.chunk.peek s.dec.cursor 3 / 2 = s.chunk.peek s.dec.cursor 2 := s.chunk.peek_half _ _
    have h1 : s.chunk.peek s.dec.cursor 2 / 2 = s.chunk.peek s.dec.cursor 1 := s.chunk.peek_half _ _
    omega
  have hr : subframeByteReader s (s.chunk.peek s.dec.cursor 8) s.dec.cursor =
      decodeSubframeAt s.chunk s.dec.header.blockSize s.dec.header.bps (isSide s.dec.header.assign s.dec.chan)
        s.dec.cursor := by
    generalize s.dec.cursor = p at *
    by_cases b1 : 1 ≤ s.chunk.bitsLeft p
    · rw [s.chunk.peek_eq_bits p 1 b1] at e1
      have hl1 := s.chunk.bits_lt p 1
      unfold decodeSubframeAt readSubframeHeader subframeByteReader
      by_cases hpad : s.chunk.bits p 1 = 1
      · rw [if_pos (by omega), Reader.bind_of_ok (readBits_of_le b1)]
        refine (Reader.bind_of_error ?_).symm
        rw [Reader.bind_of_ok (readBits_of_le b1), Reader.bind_of_error (gate_fail (by rw [hpad]; rfl) _ _)]
      · rw [if_neg (by omega)]
        by_cases b7 : 7 ≤ s.chunk.bitsLeft p
        · have b6 : 6 ≤ s.chunk.bitsLeft (p + 1) := by unfold Chunk.bitsLeft at *; omega
          rw [s.chunk.peek_eq_bits p 7 b7] at e7
          have hs7 := s.chunk.bits_add p 1 6
          have hl6 := s.chunk.bits_lt (p + 1) 6
          have ht : s.chunk.peek p 8 / 2 % 64 = s.chunk.bits (p + 1) 6 := by
            rw [show 1 + 6 = 7 by rfl] at hs7
            omega
          rw [ht]
          have hd : ∀ {α : Type} (f : SubKind × Nat × Nat × Nat → Reader α),
              ((do
                let pad ← readBits s.chunk 1
                gate (pad == 0) .padBit
                let t ← readBits s.chunk 6
                let ko ← orFail (subframeType t) .reservedType
                gate (validSubframeOrder ko.1 ko.2 s.dec.header.blockSize) .order
                let flag ← readBits s.chunk 1
                let we ← readWasted s.chunk (flag == 1) s.dec.header.bps (isSide s.dec.header.assign s.dec.chan)
                return (ko.1, ko.2, we.1, we.2) : Reader _) >>= f) p =
              ((do
                let ko ← orFail (subframeType (s.chunk.bits (p + 1) 6)) .reservedType
                gate (validSubframeOrder ko.1 ko.2 s.dec.header.blockSize) .order
                let flag ← readBits s.chunk 1
                let we ← readWasted s.chunk (flag == 1) s.dec.header.bps (isSide s.dec.header.assign s.dec.chan)
                return (ko.1, ko.2, we.1, we.2) : Reader _) >>= f) (p + 7) := by
            intro α f
            show Except.bind _ _ = Except.bind _ _
            congr 1
            rw [Reader.bind_of_ok (readBits_of_le b1),
              Reader.bind_of_ok (gate_pass (by rw [show s.chunk.bits p 1 = 0 by omega]; rfl) _ _),
              Reader.bind_of_ok (readBits_of_le b6)]
          rw [hd]
          cases hty : subframeType (s.chunk.bits (p + 1) 6) with
          | none =>
            dsimp only
            rw [Reader.bind_of_ok (readBits_of_le b7)]
            exact (Reader.bind_of_error (Reader.bind_of_error (orFail_none rfl _ _))).symm
          | some ko =>
            dsimp only
            unfold subframeOf
            rw [Reader.bind_of_ok (readBits_of_le b7)]
            by_cases hg : validSubframeOrder ko.1 ko.2 s.dec.header.blockSize = true
            · rw [Reader.bind_of_ok (gate_pass hg _ _)]
              by_cases b8 : 8 ≤ s.chunk.bitsLeft p
              · have bf : 1 ≤ s.chunk.bitsLeft (p + 7) := by unfold Chunk.bitsLeft at *; omega
                have hfl : (s.chunk.peek p 8 % 2 == 1) = (s.chunk.bits (p + 7) 1 == 1) := by
                  rw [s.chunk.peek_eq_bits p 8 b8,
                    show s.chunk.bits p 8 = 2 * s.chunk.bits p 7 + s.chunk.bit (p + 7) from rfl]
                  have : s.chunk.bits (p + 7) 1 = s.chunk.bit (p + 7) := by
                    rw [s.chunk.bits_succ, s.chunk.bits_zero]
                    simp
                  have := s.chunk.bit_lt (p + 7)
                  congr 1
                  omega
                rw [hfl, Reader.bind_of_ok (readBits_of_le bf)]
                rcases hw : readWasted s.chunk (s.chunk.bits (p + 7) 1 == 1) s.dec.header.bps
                    (isSide s.dec.header.assign s.dec.chan) (p + 7 + 1) with c | ⟨we, q⟩
                · rw [Reader.bind_of_error hw]
                  refine (Reader.bind_of_error ?_).symm
                  rw [Reader.bind_of_ok (orFail_some rfl _ _), Reader.bind_of_ok (gate_pass hg _ _),
                    Reader.bind_of_ok (readBits_of_le bf), Reader.bind_of_error hw]
                · rw [Reader.bind_of_ok hw]
                  refine (Reader.bind_of_ok (f := fun h : SubKind × Nat × Nat × Nat =>
                    subframeBody s.chunk h.1 h.2.1 s.dec.header.blockSize h.2.2.1 h.2.2.2)
                    (x := (ko.1, ko.2, we.1, we.2)) (q := q) ?_).symm
                  rw [Reader.bind_of_ok (orFail_some rfl _ _), Reader.bind_of_ok (gate_pass hg _ _),
                    Reader.bind_of_ok (readBits_of_le bf), Reader.bind_of_ok hw]
                  rfl
              · have bf : s.chunk.bitsLeft (p + 7) < 1 := by unfold Chunk.bitsLeft at *; omega
                rw [Reader.bind_of_error (readBits_of_lt bf)]
                refine (Reader.bind_of_error ?_).symm
                rw [Reader.bind_of_ok (orFail_some rfl _ _), Reader.bind_of_ok (gate_pass hg _ _),
                  Reader.bind_of_error (readBits_of_lt bf)]
            · have hg' := Bool.eq_false_iff.2 hg
              rw [Reader.bind_of_error (gate_fail hg' _ _)]
              refine (Reader.bind_of_error ?_).symm
              rw [Reader.bind_of_ok (orFail_some rfl _ _), Reader.bind_of_error (gate_fail hg' _ _)]
        · have b7' := Nat.lt_of_not_le b7
          have b6 : s.chunk.bitsLeft (p + 1) < 6 := by unfold Chunk.bitsLeft at *; omega
          have hl : ∀ v, (match subframeType v with
              | none => (do
                let _ ← readBits s.chunk 7
                failWith .reservedType : Reader (List Int))
              | some ko =>
                subframeOf s.chunk ko.1 ko.2 (s.chunk.peek p 8 % 2 == 1) s.dec.header.blockSize s.dec.header.bps
                  (isSide s.dec.header.assign s.dec.chan)) p = .error .underrun := by
            intro v
            cases subframeType v with
            | none => exact Reader.bind_of_error (readBits_of_lt b7')
            | some ko => exact Reader.bind_of_error (readBits_of_lt b7')
          rw [hl]
          refine (Reader.bind_of_error ?_).symm
          rw [Reader.bind_of_ok (readBits_of_le b1),
            Reader.bind_of_ok (gate_pass (by rw [show s.chunk.bits p 1 = 0 by omega]; rfl) _ _),
            Reader.bind_of_error (readBits_of_lt b6)]
    · have b1' := Nat.lt_of_not_le b1
      have b7' : s.chunk.bitsLeft p < 7 := by omega
      have hr : decodeSubframeAt s.chunk s.dec.header.blockSize s.dec.header.bps
          (isSide s.dec.header.assign s.dec.chan) p = .error .underrun := by
        unfold decodeSubframeAt readSubframeHeader
        exact Reader.bind_of_error (Reader.bind_of_error (readBits_of_lt b1'))
      rw [hr]
      unfold subframeByteReader
      split_ifs
      · exact Reader.bind_of_error (readBits_of_lt b1')
      · cases subframeType (s.chunk.peek p 8 / 2 % 64) with
        | none => exact Reader.bind_of_error (readBits_of_lt b7')
        | some ko => exact Reader.bind_of_error (readBits_of_lt b7')
  unfold State.decodeSubframe State.runSubframe
  dsimp only
  rw [hr]

/-- A step after the last subframe carries out the channel assignment and delivers the frame (R360, R500). -/
theorem step_decorrelate {s : State} (hp : s.dec.phase = .decorrelate) (ha : s.dec.header.assign.toNat ≤ 10) :
    step s = .next (s.decorrelate s.dec.header.assign s.dec.header.blockSize).finishFrame := by
  have hn : s.dec.phase ≠ .idle := by rw [hp]; decide
  have hf : s.fetchElement = .ok (decodeAssignment s.dec.header.assign.toNat) := by
    unfold State.fetchElement
    rw [hp]
    exact decode_assignment _ s.dec.header.assign.isLt
  rw [step_of_fetch hn hf]
  generalize hx : s.dec.header.assign = x at *
  have key : ∀ n : Fin 16, x = BitVec.ofNat 4 n.val → n.val ≤ 10 →
      exec (decodeAssignment n.val) s = .next (s.decorrelate x s.dec.header.blockSize).finishFrame := by
    intro n hn1 hn2
    have hph : ∀ a b : State, (if s.dec.phase = .decorrelate then a else b) = a := fun a b => if_pos hp
    subst hn1
    obtain ⟨n, h16⟩ := n
    interval_cases n
    all_goals first
      | omega
      | exact congrArg _ (hph _ _)
  have hn16 : x = BitVec.ofNat 4 (⟨x.toNat, x.isLt⟩ : Fin 16).val := by simp
  exact key _ hn16 ha

end Sys2Proof.Machine
end

