-- ==== Sys2Proof/Laws/Failures.lean ====
section
/-! SUPPORT. The laws of the subframe decoder where it fails (Machine/Subframe.lean, Machine/Residual.lean): reads cut by
the end of the chunk, and samples that leave their range. -/

namespace Sys2Proof.Machine

/-! Cut reads. -/

theorem readBits_bind_cut {α : Type} {ck : Chunk} {n p : Nat} {f : Nat → Reader α} (h : ck.bitsLeft p < n) :
    (readBits ck n >>= f) p = .error .underrun := Reader.bind_of_error (readBits_of_lt h)

theorem readBitsSigned_of_lt {ck : Chunk} {n p : Nat} (h : ck.bitsLeft p < n) :
    readBitsSigned ck n p = .error .underrun := readBits_bind_cut h

theorem readBitsSigned_of_le {ck : Chunk} {n p : Nat} (h : n ≤ ck.bitsLeft p) :
    readBitsSigned ck n p = .ok (sext n (ck.bits p n), p + n) := readBitsSigned_ok.2 ⟨h, rfl, rfl⟩

/-- `n` fields of `e` bits of which the chunk does not hold all (R201). -/
theorem readMany_cut {ck : Chunk} {e n p : Nat} (h : ck.bitsLeft p < e * n) :
    readMany (readBitsSigned ck e) n p = .error .underrun := by
  induction n generalizing p with
  | zero => exact absurd h (Nat.not_lt_zero _)
  | succ n ih =>
    rw [readMany_succ]
    by_cases he : e ≤ ck.bitsLeft p
    · rw [Reader.bind_of_ok (readBitsSigned_of_le he)]
      refine Reader.bind_of_error (ih ?_)
      unfold Chunk.bitsLeft at *
      rw [Nat.mul_succ] at h
      omega
    · exact Reader.bind_of_error (readBitsSigned_of_lt (by omega))

/-- The same for samples of an effective depth of at most 32 (R313). -/
theorem readSamples_cut {ck : Chunk} {e n p : Nat} (he : e ≤ 32) (h : ck.bitsLeft p < e * n) :
    readMany (readSample ck e) n p = .error .underrun := by
  have hr : readSample ck e = readBitsSigned ck e := if_neg (by omega)
  rw [hr]
  exact readMany_cut h

/-! Samples of 33 bits. -/

/-- One top bit and 32 more are the 33-bit field (R314). -/
theorem Chunk.bits_33 (ck : Chunk) (p : Nat) : ck.bits p 33 = ck.bits p 1 * 2 ^ 32 + ck.bits (p + 1) 32 :=
  ck.bits_add p 1 32

/-- The side sample of a 32-bit stream: the signed 33-bit field, kept when it is an int32 (R314). -/
theorem readSample_33 {ck : Chunk} {p : Nat} (h : 33 ≤ ck.bitsLeft p) :
    readSample ck 33 p =
      if fitsSigned (sext 33 (ck.bits p 33)) 32 = true then .ok (sext 33 (ck.bits p 33), p + 33)
      else .error .sampleRange := by
  have h32 : 32 ≤ ck.bitsLeft (p + 1) := by unfold Chunk.bitsLeft at *; omega
  unfold readSample
  rw [if_pos rfl, Reader.bind_of_ok (readBits_of_le (by omega)), Reader.bind_of_ok (readBits_of_le h32), ck.bits_33]
  unfold toInt32
  split <;> rfl

/-- A 33-bit sample cut anywhere fails with UNDERRUN (R201, R314). -/
theorem readSample_33_cut {ck : Chunk} {p : Nat} (h : ck.bitsLeft p < 33) : readSample ck 33 p = .error .underrun := by
  unfold readSample
  rw [if_pos rfl]
  by_cases h1 : 1 ≤ ck.bitsLeft p
  · rw [Reader.bind_of_ok (readBits_of_le h1)]
    exact readBits_bind_cut (by unfold Chunk.bitsLeft at *; omega)
  · exact readBits_bind_cut (by omega)

/-- A sample that is read is the signed field of its depth, of 33 bits too (R313, R314). -/
theorem readSample_field {ck : Chunk} {e p q : Nat} {v : Int} (h : readSample ck e p = .ok (v, q)) :
    v = sext e (ck.bits p e) ∧ q = p + e := by
  by_cases he : e = 33
  · subst he
    by_cases hc : ck.bitsLeft p < 33
    · rw [readSample_33_cut hc] at h
      cases h
    · rw [readSample_33 (by omega)] at h
      split at h
      · cases h
        exact ⟨rfl, rfl⟩
      · cases h
  · have hr : readSample ck e = readBitsSigned ck e := if_neg he
    rw [hr] at h
    obtain ⟨-, rfl, rfl⟩ := readBitsSigned_ok.1 h
    exact ⟨rfl, rfl⟩

/-- Samples read one after the other stand side by side (R322). -/
theorem readSamples_fields {ck : Chunk} {e n p q : Nat} {xs : List Int}
    (h : readMany (readSample ck e) n p = .ok (xs, q)) :
    q = p + e * n ∧ ∀ i, i < n → xs.getD i 0 = sext e (ck.bits (p + e * i) e) := by
  induction n generalizing p xs with
  | zero =>
    cases h
    exact ⟨rfl, fun i hi => absurd hi (Nat.not_lt_zero _)⟩
  | succ n ih =>
    obtain ⟨y, r, ys, h1, h2, rfl⟩ := readMany_succ_ok.1 h
    obtain ⟨rfl, rfl⟩ := readSample_field h1
    obtain ⟨rfl, h3⟩ := ih h2
    refine ⟨by rw [Nat.mul_succ]; omega, fun i hi => ?_⟩
    cases i with
    | zero => rfl
    | succ i =>
      rw [List.getD_cons_succ, h3 i (by omega), Nat.mul_succ, show p + e + e * i = p + (e * i + e) by omega]

/-- Of several samples of 33 bits, the first one that fails decides the cause (R314). -/
theorem readSamples_33_error {ck : Chunk} {n j p : Nat} {c : Cause} (hj : j < n) (hin : 33 * j ≤ ck.bitsLeft p)
    (hok : ∀ l, l < j → fitsSigned (sext 33 (ck.bits (p + 33 * l) 33)) 32 = true)
    (he : readSample ck 33 (p + 33 * j) = .error c) : readMany (readSample ck 33) n p = .error c := by
  induction n generalizing j p with
  | zero => exact absurd hj (Nat.not_lt_zero _)
  | succ n ih =>
    rw [readMany_succ]
    cases j with
    | zero => exact Reader.bind_of_error he
    | succ j =>
      have h0 := hok 0 (Nat.succ_pos _)
      rw [Nat.mul_zero, Nat.add_zero] at h0
      rw [Reader.bind_of_ok ((readSample_33 (by omega)).trans (if_pos h0))]
      refine Reader.bind_of_error (ih (j := j) (by omega) (by unfold Chunk.bitsLeft at *; omega) (fun l hl => ?_) ?_)
      · rw [show p + 33 + 33 * l = p + 33 * (l + 1) by omega]
        exact hok (l + 1) (by omega)
      · rw [show p + 33 + 33 * j = p + 33 * (j + 1) by omega]
        exact he

/-! Samples out of range. -/

/-- Prediction fails at the first sample outside the effective depth (R331). -/
theorem predictFrom_none (pr : Predictor) (x : Nat → Int) (res : List Int) (n m : Nat) (hn : n ≤ m)
    (hm : m < n + res.length)
    (h : ∀ j, n ≤ j → j < m →
      x j = pr.predict ((List.range j).map x).reverse + res.getD (j - n) 0 ∧ fitsSigned (x j) (min pr.depth 32) = true)
    (hf : fitsSigned (pr.predict ((List.range m).map x).reverse + res.getD (m - n) 0) (min pr.depth 32) = false) :
    predictFrom pr ((List.range n).map x).reverse res = none := by
  induction res generalizing n with
  | nil => exact absurd hm (by simpa using hn)
  | cons r rs ih =>
    unfold predictFrom
    by_cases hnm : n = m
    · subst hnm
      rw [Nat.sub_self, List.getD_cons_zero] at hf
      cases hc : narrow (pr.predict ((List.range n).map x).reverse + r) pr.depth with
      | none => rfl
      | some v => rw [((narrow_eq_some _ _ _).1 hc).1] at hf; cases hf
    · have h0 := h n (Nat.le_refl _) (by omega)
      rw [Nat.sub_self, List.getD_cons_zero] at h0
      have hstep : x n :: ((List.range n).map x).reverse = ((List.range (n + 1)).map x).reverse := by
        rw [List.range_succ, List.map_append, List.reverse_append]
        rfl
      have shift : ∀ j, n + 1 ≤ j → (r :: rs).getD (j - n) 0 = rs.getD (j - (n + 1)) 0 := fun j hj => by
        rw [show j - n = (j - (n + 1)) + 1 by omega, List.getD_cons_succ]
      rw [← h0.1, (narrow_eq_some (x n) pr.depth (x n)).2 ⟨h0.2, rfl⟩]
      show predictFrom pr (x n :: ((List.range n).map x).reverse) rs = _
      rw [hstep]
      refine ih (n + 1) (by omega) (by rw [List.length_cons] at hm; omega) (fun j h1 h2 => ?_) ?_
      · rw [← shift j h1]
        exact h j (by omega) h2
      · rw [← shift m (by omega)]
        exact hf

/-- Restoring the wasted bits fails when a shifted sample is no int32 (R340). -/
theorem restoreWasted_none {w : Nat} {xs : List Int} (hw : w ≠ 0)
    (h : ∃ v ∈ xs, fitsSigned (v * 2 ^ w) 32 = false) : restoreWasted w xs = none := by
  unfold restoreWasted
  rw [if_neg hw]
  obtain ⟨v, hv, hf⟩ := h
  induction xs with
  | nil => cases hv
  | cons u us ih =>
    rw [List.mapM_cons]
    cases hc : checkSignedShift u w with
    | none => rfl
    | some y =>
      rcases List.mem_cons.1 hv with rfl | hv
      · rw [((checkSignedShift_eq_some _ _ _).1 hc).1] at hf; cases hf
      · rw [ih hv]; rfl

/-- The same without wasted bits: the samples would have to be no int32 themselves. -/
theorem restoreWasted_none_of_fits {w : Nat} {xs : List Int} (hx : ∀ v ∈ xs, fitsSigned v 32 = true)
    (h : ∃ v ∈ xs, fitsSigned (v * 2 ^ w) 32 = false) : restoreWasted w xs = none := by
  by_cases hw : w = 0
  · obtain ⟨v, hv, hf⟩ := h
    rw [hw, Int.pow_zero, Int.mul_one, hx v hv] at hf
    cases hf
  · exact restoreWasted_none hw h

/-- `finishPredicted` fails with SAMPLE_RANGE only (R331, R340). -/
theorem finishPredicted_error {pr : Predictor} {res : List Int} {p : Nat} {c : Cause}
    (h : finishPredicted pr res p = .error c) : c = .sampleRange := by
  unfold finishPredicted at h
  have fails : ∀ {α : Type} (v : Option α), Reader.failsOnly (· = .sampleRange) (orFail v .sampleRange) :=
    fun v => Reader.failsOnly_orFail (S := (· = .sampleRange)) rfl v
  exact Reader.failsOnly_bind (fails _) (fun _ => fails _) _ _ h

/-- A predicted subframe whose residual fails, fails with its cause. -/
theorem decodePredicted_error {ck : Chunk} {b p : Nat} {pr : Predictor} {c : Cause}
    (h : decodeResidual ck b pr.order p = .error c) : decodePredicted ck b pr p = .error c :=
  Reader.bind_of_error h

/-- A predicted subframe whose samples leave their range fails with SAMPLE_RANGE (R331, R340). -/
theorem decodePredicted_leaves {ck : Chunk} {b w m p q : Nat} {pr : Predictor} {res : List Int} {x : Nat → Int}
    {predict : (Nat → Int) → Nat → Int} (hlen : pr.warmup.length = pr.order) (hkb : pr.order < b) (hw : pr.wasted = w)
    (hwarm : ∀ v ∈ pr.warmup, fitsSigned v 32 = true) (hres : decodeResidual ck b pr.order p = .ok (res, q))
    (hx : predictionLeavesRange b pr.order pr.depth w pr.warmup res predict x m)
    (hpred : ∀ n, pr.order ≤ n → n < b → pr.predict ((List.range n).map x).reverse = predict x n) :
    decodePredicted ck b pr p = .error .sampleRange := by
  obtain ⟨h1, h2, h3⟩ := hx
  have hrl := decodeResidual_length hres
  unfold decodePredicted finishPredicted
  rw [Reader.bind_of_ok hres]
  have hwm : pr.warmup = (List.range pr.order).map x := by
    apply List.ext_getElem?
    intro i
    by_cases hi : i < pr.order
    · rw [List.getElem?_map, List.getElem?_range hi, Option.map_some, h1 i hi, List.getD_eq_getElem?_getD,
        List.getElem?_eq_getElem (by omega)]
      rfl
    · rw [List.getElem?_eq_none (by omega), List.getElem?_eq_none (by simp; omega)]
  have step : ∀ j, pr.order ≤ j → j < m → j < b →
      x j = pr.predict ((List.range j).map x).reverse + res.getD (j - pr.order) 0 ∧
        fitsSigned (x j) (min pr.depth 32) = true := fun j hj hm hb => by
    rw [hpred j hj hb]
    exact h2 j hj hm
  rcases h3 with ⟨hkm, hmb, hf⟩ | ⟨rfl, n, hn, hf⟩
  · refine Reader.bind_of_error (orFail_none ?_ _ _)
    rw [hwm]
    refine predictFrom_none pr x res pr.order m hkm (by omega) (fun j hj hm => step j hj hm (by omega)) ?_
    rw [hpred m hkm hmb]
    exact hf
  · have hpf : predictFrom pr pr.warmup.reverse res = some ((List.range m).map x) := by
      rw [hwm, predictFrom_run pr x res pr.order fun j hj hm => step j hj (by omega) (by omega), hrl]
      congr 3
      omega
    rw [Reader.bind_of_ok (orFail_some hpf _ _)]
    refine orFail_none (restoreWasted_none_of_fits ?_ ?_) _ _
    · exact (predictFrom_some hpf).2 fun v hv => hwarm v (List.mem_reverse.1 hv)
    · rw [hw]
      exact ⟨x n, List.mem_map.2 ⟨n, List.mem_range.2 hn, rfl⟩, hf⟩

/-! The header byte and the wasted bits. -/

/-- A subframe with a legal order whose header byte is cut (R201, R311). -/
theorem subframeOf_cut {ck : Chunk} {kind : SubKind} {order b n p : Nat} {flag side : Bool}
    (h : ck.bitsLeft p < 8) (ho : validSubframeOrder kind order b = true) :
    subframeOf ck kind order flag b n side p = .error .underrun := by
  unfold subframeOf
  by_cases h7 : 7 ≤ ck.bitsLeft p
  · rw [Reader.bind_of_ok (readBits_of_le h7), Reader.bind_of_ok (gate_pass ho _ _)]
    exact readBits_bind_cut (by unfold Chunk.bitsLeft at *; omega)
  · exact readBits_bind_cut (by omega)

/-- A subframe whose wasted-bits field cannot be read (R312). -/
theorem subframeOf_wasted_error {ck : Chunk} {kind : SubKind} {order b n p : Nat} {flag side : Bool} {e : Cause}
    (h8 : 8 ≤ ck.bitsLeft p) (ho : validSubframeOrder kind order b = true)
    (h : readWastedCount ck flag (p + 8) = .error e) : subframeOf ck kind order flag b n side p = .error e := by
  rw [subframeOf_run h8 ho]
  exact Reader.bind_of_error (Reader.bind_of_error h)

/-- A subframe with as many wasted bits as the bit depth or more (R260, R312). -/
theorem subframeOf_wasted_bits {ck : Chunk} {kind : SubKind} {order b n p w q : Nat} {flag side : Bool}
    (h8 : 8 ≤ ck.bitsLeft p) (ho : validSubframeOrder kind order b = true)
    (h : readWastedCount ck flag (p + 8) = .ok (w, q)) (hw : n ≤ w) :
    subframeOf ck kind order flag b n side p = .error .wastedBits := by
  rw [subframeOf_run h8 ho]
  refine Reader.bind_of_error ?_
  unfold readWasted
  rw [Reader.bind_of_ok h]
  exact Reader.bind_of_error (gate_fail (by simp [validWasted]; omega) _ _)

end Sys2Proof.Machine
end

