-- ==== Sys2Proof/Laws/HeaderFailures.lean ====
section
/-! SUPPORT. The laws of the frame-header parser where it fails (Machine/Frame.lean): a field that is cut or illegal, a
coded number that breaks off, a follow-on that is cut. -/

namespace Sys2Proof.Machine

/-! One field and its check. -/

/-- A field that the chunk does not hold fails the header (R400). -/
theorem headerField_cut {α : Type} {ck : Chunk} {w p : Nat} {f : Nat → Reader α} (h : ck.bitsLeft p < w) :
    (readHeaderBits ck w >>= f) p = .error .truncated :=
  Reader.bind_of_error (if_pos h)

/-- A field whose check fails, fails the header with the cause of the check. -/
theorem headerField_illegal {α : Type} {ck : Chunk} {w p : Nat} {e : Cause} {ok : Nat → Bool} {f : Nat → Reader α}
    (h : w ≤ ck.bitsLeft p) (hb : ok (ck.bits p w) = false) :
    (readHeaderBits ck w >>= fun v => gate (ok v) e >>= fun _ => f v) p = .error e := by
  rw [Reader.bind_of_ok (readHeaderBits_of_le h)]
  exact Reader.bind_of_error (gate_fail hb _ _)

/-- A field that passes its check. -/
theorem headerField_legal {α : Type} {ck : Chunk} {w p : Nat} {e : Cause} {ok : Nat → Bool} {f : Nat → Reader α}
    (h : w ≤ ck.bitsLeft p) (hb : ok (ck.bits p w) = true) :
    (readHeaderBits ck w >>= fun v => gate (ok v) e >>= fun _ => f v) p = f (ck.bits p w) (p + w) := by
  rw [Reader.bind_of_ok (readHeaderBits_of_le h)]
  exact Reader.bind_of_ok (gate_pass hb _ _)

/-- The block-size and rate codes of a header, when both are legal (R403, R404). -/
theorem headerCodes_of_legal {ck : Chunk} {p : Nat} (h : 8 ≤ ck.bitsLeft p) (h0 : ck.bits p 4 ≠ 0)
    (h1 : ck.bits (p + 4) 4 ≠ 15) : headerCodes ck p = .ok ((ck.bits p 4, ck.bits (p + 4) 4), p + 8) := by
  unfold headerCodes
  rw [headerField_legal (ok := fun v => v != 0) (by omega) (by simpa using h0)]
  rw [headerField_legal (ok := fun v => v != 15) (by unfold Chunk.bitsLeft at *; omega) (by simpa using h1)]
  rfl

/-! The coded number (R126, R405). -/

/-- After `k` good continuation bytes the next one is cut or illegal. -/
theorem readContinuation_breaks (ck : Chunk) (n v p k : Nat) (e : Cause) (hk : k < n) (hl : 8 * k ≤ ck.bitsLeft p)
    (hj : ∀ j, j < k → ck.bits (p + 8 * j) 8 / 64 = 2)
    (he : ck.bitsLeft p < 8 * (k + 1) ∧ e = .truncated ∨
      8 * (k + 1) ≤ ck.bitsLeft p ∧ ck.bits (p + 8 * k) 8 / 64 ≠ 2 ∧ e = .codedNumber) :
    readContinuation ck n v p = .error e := by
  induction n generalizing v p k with
  | zero => omega
  | succ n ih =>
    unfold readContinuation
    by_cases hk0 : k = 0
    · subst hk0
      rcases he with ⟨h, rfl⟩ | ⟨h, h2, rfl⟩
      · exact headerField_cut (by omega)
      · exact headerField_illegal (ok := fun b => b / 64 == 2) (by omega) (by simpa using h2)
    · rw [headerField_legal (ok := fun b => b / 64 == 2) (by omega) (by simpa using hj 0 (by omega))]
      refine ih _ _ (k - 1) (by omega) (by unfold Chunk.bitsLeft at *; omega) (fun j h => ?_) ?_
      · rw [show p + 8 + 8 * j = p + 8 * (j + 1) by omega]
        exact hj (j + 1) (by omega)
      · rw [show p + 8 + 8 * (k - 1) = p + 8 * k by omega]
        rcases he with ⟨h, rfl⟩ | ⟨h, h2, rfl⟩
        · exact .inl ⟨by unfold Chunk.bitsLeft at *; omega, rfl⟩
        · exact .inr ⟨by unfold Chunk.bitsLeft at *; omega, h2, rfl⟩

/-- The first byte of a coded number of `n` bytes: n ones, a zero, and the top bits of the value. -/
theorem leadingOnes_table : ∀ (n : Fin 8) (lead : Fin 32), 2 ≤ n.val → lead.val < 2 ^ (7 - n.val) →
    leadingOnes (256 - 2 ^ (8 - n.val) + lead.val) = n.val ∧
      (256 - 2 ^ (8 - n.val) + lead.val) % 2 ^ (7 - n.val) = lead.val ∧
      ¬ 256 - 2 ^ (8 - n.val) + lead.val < 128 := by decide +kernel

/-- A first byte that begins no coded number: a continuation byte, 0xFF, and 0xFE with fixed block size. -/
theorem readCodedNumber_badFirst {ck : Chunk} {blocking : Bool} {p : Nat} (h8 : 8 ≤ ck.bitsLeft p)
    (h : ck.bits p 8 / 64 = 2 ∨ ck.bits p 8 = 0xFF ∨ ck.bits p 8 = 0xFE ∧ blocking = false) :
    readCodedNumber ck blocking p = .error .codedNumber := by
  unfold readCodedNumber
  rw [Reader.bind_of_ok (readHeaderBits_of_le h8)]
  rcases h with h | h | ⟨h, rfl⟩
  · have h1 : leadingOnes (ck.bits p 8) = 1 := by
      unfold leadingOnes
      rw [if_neg (by omega), if_pos (by omega)]
    rw [if_neg (by omega), h1]
    exact Reader.bind_of_error (gate_fail rfl _ _)
  · rw [h, if_neg (by omega)]
    exact Reader.bind_of_error (gate_fail rfl _ _)
  · rw [h, if_neg (by omega)]
    exact (Reader.bind_of_ok (gate_pass rfl _ _)).trans (Reader.bind_of_error (gate_fail rfl _ _))

theorem readCodedNumber_bad {ck : Chunk} {blocking : Bool} {p : Nat} {e : Cause} (h : badCodedNumber ck blocking p e) :
    readCodedNumber ck blocking p = .error e := by
  rcases h with ⟨h, rfl⟩ | ⟨h8, h, rfl⟩ | ⟨n, lead, k, h2, h7, hb, hlead, hk1, hkn, hl, hbits, hj, he⟩
  · unfold readCodedNumber
    exact headerField_cut h
  · exact readCodedNumber_badFirst h8 h
  · unfold readCodedNumber
    rw [Reader.bind_of_ok (readHeaderBits_of_le (by omega)), hbits]
    have hp : 2 ^ (7 - n) ≤ 2 ^ 5 := Nat.pow_le_pow_right (by decide) (by omega)
    obtain ⟨hn, hlow, hbig⟩ := leadingOnes_table ⟨n, by omega⟩ ⟨lead, by omega⟩ h2 hlead
    dsimp only at hn hlow hbig
    have hg1 : (n != 1 && n != 8) = true := by simp; omega
    have hg2 : (n != 7 || blocking) = true := by
      by_cases h : n = 7
      · simp [hb h]
      · simp [h]
    rw [if_neg hbig, hn, hlow, Reader.bind_of_ok (gate_pass hg1 _ _), Reader.bind_of_ok (gate_pass hg2 _ _)]
    refine readContinuation_breaks ck _ _ _ (k - 1) e (by omega) (by unfold Chunk.bitsLeft at *; omega)
      (fun j h => ?_) ?_
    · rw [show p + 8 + 8 * j = p + 8 * (j + 1) by omega]
      exact hj (j + 1) (by omega) (by omega)
    · rw [show p + 8 + 8 * (k - 1) = p + 8 * k by omega]
      rcases he with ⟨h, rfl⟩ | ⟨h, h2, rfl⟩
      · exact .inl ⟨by unfold Chunk.bitsLeft at *; omega, rfl⟩
      · exact .inr ⟨by unfold Chunk.bitsLeft at *; omega, h2, rfl⟩

/-! The follow-ons (R406, R407). -/

theorem resolveBlockSize_bad {ck : Chunk} {code p : Nat} {e : Cause} (h : badBlockSizeField ck code p e) :
    resolveBlockSize ck code p = .error e := by
  rcases h with ⟨rfl, h, rfl⟩ | ⟨rfl, h, rfl⟩ | ⟨rfl, h, h2, rfl⟩
  · exact headerField_cut h
  · exact headerField_cut h
  · exact headerField_illegal (ok := fun f => f + 1 != 65536) h (by rw [h2]; rfl)

theorem resolveRateField_bad {ck : Chunk} {code p : Nat} (h : badRateField ck code p) :
    resolveRateField ck code p = .error .truncated := by
  rcases h with ⟨rfl, h⟩ | ⟨rfl | rfl, h⟩
  · exact headerField_cut h
  · exact if_pos h
  · exact headerField_cut h

end Sys2Proof.Machine
end

