-- ==== Sys2Proof/Laws/Keeps.lean ====
section
/-! SUPPORT. What the operations inside a DECODE leave alone: one lemma per shared operation, from which the frame of
every bitstream element follows (R310, R416, R420, R430, R505). -/

namespace Sys2Proof.Machine

/-- What no operation between the header and the delivery changes, and that the outcome registers change only when the
DECODE ends. -/
def keepsStream (s t : State) : Prop :=
  nothingDelivered s t ∧ sameInputs s t ∧ sameReports s t ∧ t.frameOffset = s.frameOffset ∧
    { t.hdr with crc16Read := s.hdr.crc16Read, crc16Computed := s.hdr.crc16Computed } = s.hdr ∧
    t.status.recovered = s.status.recovered ∧ t.cnt.framesOk = s.cnt.framesOk ∧
    t.cnt.crc8Err = s.cnt.crc8Err ∧ t.cnt.syncRecovered = s.cnt.syncRecovered ∧
    (t.dec.phase ≠ .idle → t.consec = s.consec ∧ t.dstate = s.dstate ∧ t.err = s.err ∧ t.out = s.out ∧
      t.status.cmdOk = s.status.cmdOk ∧ t.cnt.decodeFail = s.cnt.decodeFail)

theorem sameInputs_refl (s : State) : sameInputs s s :=
  ⟨rfl, rfl, rfl, rfl, rfl, rfl, rfl, rfl, rfl, rfl, rfl, rfl⟩

/-- An end of a DECODE is idle, so the outcome registers may change. -/
theorem idle_absurd {p : Phase} {P : Prop} (h : p = .idle) : p ≠ .idle → P := fun hn => absurd h hn

theorem State.footerMismatch_keeps (s : State) (cause : Cause) : keepsStream s (s.footerMismatch cause) := by
  cases h : s.cfg.crc16Reject
  · rw [s.footerMismatch_warn cause h]
    exact ⟨⟨rfl, rfl, rfl, rfl⟩, sameInputs_refl s, ⟨rfl, rfl, rfl, rfl⟩, rfl, rfl, rfl, rfl, rfl, rfl,
      fun _ => ⟨rfl, rfl, rfl, rfl, rfl, rfl⟩⟩
  · rw [s.footerMismatch_reject cause h]
    exact ⟨⟨rfl, rfl, rfl, rfl⟩, sameInputs_refl s, ⟨rfl, rfl, rfl, rfl⟩, rfl, rfl, rfl, rfl, rfl, rfl,
      idle_absurd rfl⟩

theorem State.keepsStream_footerRead {s t : State} {c b p : Nat} {sum : BitVec 16}
    (h : keepsStream (s.footerRead c sum b p) t) : keepsStream s t := by
  obtain ⟨h1, h2, h3, h4, h5, h6, h7, h8, h9, h10⟩ := h
  have h5' := congrArg (fun h : HeaderRegs =>
    { h with crc16Read := s.hdr.crc16Read, crc16Computed := s.hdr.crc16Computed }) h5
  exact ⟨h1, h2, h3, h4, h5', h6, h7, h8, h9, h10⟩

theorem State.checkFooter_keeps (s : State) : keepsStream s s.checkFooter := by
  rcases s.checkFooter_cases with ⟨-, -, h⟩ | ⟨-, -, h⟩ | ⟨-, h⟩ <;> rw [h]
  · exact ⟨⟨rfl, rfl, rfl, rfl⟩, sameInputs_refl s, ⟨rfl, rfl, rfl, rfl⟩, rfl, rfl, rfl, rfl, rfl, rfl,
      fun _ => ⟨rfl, rfl, rfl, rfl, rfl, rfl⟩⟩
  · exact State.keepsStream_footerRead (State.footerMismatch_keeps _ _)
  · exact State.keepsStream_footerRead (State.footerMismatch_keeps _ _)

theorem State.subframeDecoded_keeps (s : State) (xs : List Int) (p : Nat) :
    keepsStream s (s.subframeDecoded xs p) := by
  unfold State.subframeDecoded
  dsimp only
  split_ifs
  · exact ⟨⟨rfl, rfl, rfl, rfl⟩, sameInputs_refl s, ⟨rfl, rfl, rfl, rfl⟩, rfl, rfl, rfl, rfl, rfl, rfl,
      fun _ => ⟨rfl, rfl, rfl, rfl, rfl, rfl⟩⟩
  · exact State.checkFooter_keeps { s.writeChannel s.dec.chan xs with dec := { s.dec with cursor := p } }

/-- A failed subframe, as one update (R505). -/
theorem State.subframeFailed_eq (s : State) (cause : Cause) :
    s.subframeFailed cause =
      { s with
        ch := (s.silenceChannels s.dec.chan s.dec.header.blockSize (s.dec.header.channels - s.dec.chan)).ch
        status := { s.status with silenced := true }
        cnt := { s.cnt with subframeErr := s.cnt.subframeErr + 1 }
        frameBytes := 0
        hdr := { s.hdr with crc16Read := 0, crc16Computed := 0 }
        dec := { s.dec with phase := .decorrelate, failed := some (s.dec.chan, cause) } } := by
  unfold State.subframeFailed State.silence
  dsimp only
  rw [State.silenceChannels_frame]

theorem State.subframeFailed_keeps (s : State) (cause : Cause) : keepsStream s (s.subframeFailed cause) := by
  rw [State.subframeFailed_eq]
  exact ⟨⟨rfl, rfl, rfl, rfl⟩, sameInputs_refl s, ⟨rfl, rfl, rfl, rfl⟩, rfl, rfl, rfl, rfl, rfl, rfl,
    fun _ => ⟨rfl, rfl, rfl, rfl, rfl, rfl⟩⟩

theorem State.runSubframe_keeps (s : State) (r : Reader (List Int)) (p : Nat) :
    keepsStream s (s.runSubframe r p) := by
  rcases s.runSubframe_cases r p with ⟨xs, p', -, h⟩ | ⟨c, -, h⟩ <;> rw [h]
  · exact s.subframeDecoded_keeps xs p'
  · exact s.subframeFailed_keeps c

theorem State.partitionDecoded_keeps (s : State) (xs : List Int) (p : Nat) :
    keepsStream s (s.partitionDecoded xs p) := by
  unfold State.partitionDecoded
  split_ifs
  · exact ⟨⟨rfl, rfl, rfl, rfl⟩, sameInputs_refl s, ⟨rfl, rfl, rfl, rfl⟩, rfl, rfl, rfl, rfl, rfl, rfl,
      fun _ => ⟨rfl, rfl, rfl, rfl, rfl, rfl⟩⟩
  · exact s.runSubframe_keeps _ _

theorem State.partition_keeps (s : State) (w : Nat) (body : Nat → Reader (List Int)) :
    keepsStream s (s.partition w body) := by
  unfold State.partition
  dsimp only
  split
  · exact s.partitionDecoded_keeps _ _
  · exact s.subframeFailed_keeps _

/-! The samples of the channels before the one at hand. -/

/-- Every sample of the channels below the one at hand is kept. -/
def keepsEarlier (s t : State) : Prop := ∀ c j, c < s.dec.chan → t.sample c j = s.sample c j

theorem State.sample_of_ch {s t : State} (h : t.ch = s.ch) (c j : Nat) : t.sample c j = s.sample c j := by
  unfold State.sample
  rw [h]

/-- A write to another channel, or to none, keeps a sample. -/
theorem State.sample_writeChannel_ne (s : State) (c : Nat) (xs : List Int) (d i : Nat) (h : d ≠ c) :
    (s.writeChannel c xs).sample d i = s.sample d i := by
  rw [State.sample_eq, State.sample_eq]
  congr 2
  rw [State.writeChannel_ch, List.getD_eq_getElem?_getD, List.getElem?_set_ne (fun h' => h h'.symm),
    ← List.getD_eq_getElem?_getD]

theorem State.sample_silenceChannels_below (s : State) (c b n d i : Nat) (h : d < c) :
    (s.silenceChannels c b n).sample d i = s.sample d i := by
  induction n generalizing s c with
  | zero => rfl
  | succ n ih =>
    rw [State.silenceChannels_succ, ih _ _ (by omega), State.sample_writeChannel_ne _ _ _ _ _ (by omega)]

theorem State.subframeDecoded_ch (s : State) (xs : List Int) (p : Nat) :
    (s.subframeDecoded xs p).ch = (s.writeChannel s.dec.chan xs).ch := by
  unfold State.subframeDecoded
  dsimp only
  split_ifs
  · rfl
  · exact State.checkFooter_ch _

theorem State.subframeDecoded_earlier (s : State) (xs : List Int) (p : Nat) :
    keepsEarlier s (s.subframeDecoded xs p) := fun c j h => by
  rw [State.sample_of_ch (s.subframeDecoded_ch xs p), State.sample_writeChannel_ne _ _ _ _ _ (by omega)]

theorem State.subframeFailed_earlier (s : State) (cause : Cause) : keepsEarlier s (s.subframeFailed cause) :=
  fun c j h => by
    rw [State.subframeFailed_eq]
    exact State.sample_silenceChannels_below _ _ _ _ _ _ h

theorem State.runSubframe_earlier (s : State) (r : Reader (List Int)) (p : Nat) :
    keepsEarlier s (s.runSubframe r p) := by
  rcases s.runSubframe_cases r p with ⟨xs, p', -, h⟩ | ⟨c, -, h⟩ <;> rw [h]
  · exact s.subframeDecoded_earlier xs p'
  · exact s.subframeFailed_earlier c

theorem State.partition_earlier (s : State) (w : Nat) (body : Nat → Reader (List Int)) :
    keepsEarlier s (s.partition w body) := by
  unfold State.partition
  dsimp only
  split
  · unfold State.partitionDecoded
    split_ifs
    · exact fun c j _ => rfl
    · exact s.runSubframe_earlier _ _
  · exact s.subframeFailed_earlier _

/-! Headers. -/

/-- What no header changes, and that the last-header registers change only when a header is accepted, the outcome
registers only when the DECODE ends (R416, R420). -/
def keepsHeader (s t : State) : Prop :=
  nothingDelivered s t ∧ t.ch = s.ch ∧ t.frameBytes = s.frameBytes ∧ sameInputs s t ∧ sameReports s t ∧
    t.status.silenced = s.status.silenced ∧ t.status.crc16Mismatch = s.status.crc16Mismatch ∧
    t.cnt.framesOk = s.cnt.framesOk ∧ t.cnt.crc16Err = s.cnt.crc16Err ∧ t.cnt.subframeErr = s.cnt.subframeErr ∧
    (t.dec.phase ≠ .subframe → t.hdr = s.hdr ∧ t.frameOffset = s.frameOffset) ∧
    (t.dec.phase ≠ .idle → t.consec = s.consec ∧ t.dstate = s.dstate ∧ t.err = s.err ∧ t.out = s.out ∧
      t.status.cmdOk = s.status.cmdOk)

theorem State.headerFailed_keeps (s : State) (e : Cause) : keepsHeader s (s.headerFailed e) := by
  rcases s.headerFailed_cases e with ⟨o, -, -, -, -, h⟩ | ⟨-, h⟩
  · rw [h, s.noted_frame]
    exact ⟨⟨rfl, rfl, rfl, rfl⟩, rfl, rfl, sameInputs_refl s, ⟨rfl, rfl, rfl, rfl⟩, rfl, rfl, rfl, rfl, rfl,
      fun _ => ⟨rfl, rfl⟩, fun _ => ⟨rfl, rfl, rfl, rfl, rfl⟩⟩
  · rw [h, State.noFrame_eq, s.noted_frame]
    exact ⟨⟨rfl, rfl, rfl, rfl⟩, rfl, rfl, sameInputs_refl s, ⟨rfl, rfl, rfl, rfl⟩, rfl, rfl, rfl, rfl, rfl,
      fun _ => ⟨rfl, rfl⟩, idle_absurd rfl⟩

/-- An accepted header, as one update (R416, R500). -/
theorem State.acceptHeader_eq (s : State) (hd : FrameHeader) (p : Nat) :
    s.acceptHeader hd p =
      { s with
        frameOffset := BitVec.ofNat 32 s.dec.frameStart
        hdr := (s.acceptHeader hd p).hdr
        status := { s.status with recovered := s.status.recovered || s.dec.frameStart != 0 }
        cnt :=
          { s.cnt with syncRecovered := s.cnt.syncRecovered + if s.dec.frameStart = 0 then 0 else 1 }
        dec := { s.dec with phase := .subframe, cursor := p, header := hd, chan := 0 } } := by
  unfold State.acceptHeader
  by_cases h : s.dec.frameStart = 0 <;> simp [h]

theorem State.acceptHeader_keeps (s : State) (hd : FrameHeader) (p : Nat) : keepsHeader s (s.acceptHeader hd p) := by
  rw [State.acceptHeader_eq]
  exact ⟨⟨rfl, rfl, rfl, rfl⟩, rfl, rfl, sameInputs_refl s, ⟨rfl, rfl, rfl, rfl⟩, rfl, rfl, rfl, rfl, rfl,
    fun hn => absurd rfl hn, fun _ => ⟨rfl, rfl, rfl, rfl, rfl⟩⟩

theorem State.runHeader_keeps (s : State) (r : Reader FrameHeader) (p : Nat) : keepsHeader s (s.runHeader r p) := by
  rcases s.runHeader_cases r p with ⟨hd, q, -, h⟩ | ⟨e, -, h⟩ <;> rw [h]
  · exact s.acceptHeader_keeps hd q
  · exact s.headerFailed_keeps e

theorem State.frameHeader_keeps (s : State) (blocking : Bool) : keepsHeader s (s.frameHeader blocking) := by
  unfold State.frameHeader
  split_ifs
  · exact s.headerFailed_keeps _
  · exact s.runHeader_keeps _ _

theorem State.headerAssignment_keeps (s : State) (ca : BitVec 4) : keepsHeader s (s.headerAssignment ca) := by
  unfold State.headerAssignment
  split_ifs
  · exact s.headerFailed_keeps _
  · exact s.runHeader_keeps _ _

theorem State.reservedAssignment_keeps (s : State) : keepsHeader s s.reservedAssignment := by
  unfold State.reservedAssignment
  split_ifs
  · exact s.headerFailed_keeps _
  · exact s.headerFailed_keeps _

end Sys2Proof.Machine
end

