-- ==== Sys2Proof/Laws/Md5.lean ====
section
/-! SUPPORT. The laws of the MD5 engine and of the CRCs (Machine/Md5.lean, Machine/Crc.lean): what a compression and an
absorbed byte leave, and the residue of a CRC. -/

namespace Sys2Proof.Machine

/-! MD5. -/

theorem md5Compress_frame (m : Md5State) (x : List Byte) :
    (md5Compress m x).buf = m.buf ∧ (md5Compress m x).len = m.len ∧ (md5Compress m x).tainted = m.tainted := by
  unfold md5Compress
  generalize (List.range 64).foldl _ _ = r
  obtain ⟨a, b, c, d⟩ := r
  exact ⟨rfl, rfl, rfl⟩

/-- A compression reads only the chaining words and the block (R552). -/
theorem md5Compress_congr {m n : Md5State} (ha : n.a = m.a) (hb : n.b = m.b) (hc : n.c = m.c) (hd : n.d = m.d)
    (x : List Byte) :
    md5Compress n x =
      { n with
        a := (md5Compress m x).a
        b := (md5Compress m x).b
        c := (md5Compress m x).c
        d := (md5Compress m x).d } := by
  unfold md5Compress
  rw [ha, hb, hc, hd]

/-- The words of a compression after `n` rounds (R552). -/
theorem md5Compress_rounds (m : Md5State) (x : List Byte) :
    ∃ v : Nat → Word × Word × Word × Word,
      v 0 = (m.a, m.b, m.c, m.d) ∧ (∀ i, v (i + 1) = md5Round (md5Message x) (v i) i) ∧
        md5Compress m x =
          { m with a := m.a + (v 64).1, b := m.b + (v 64).2.1, c := m.c + (v 64).2.2.1, d := m.d + (v 64).2.2.2 } := by
  refine ⟨fun n => (List.range n).foldl (md5Round (md5Message x)) (m.a, m.b, m.c, m.d), rfl, fun i => ?_, ?_⟩
  · show (List.range (i + 1)).foldl _ _ = _
    rw [List.range_succ, List.foldl_append]
    rfl
  · unfold md5Compress
    dsimp only

/-- A byte short of a block is only appended (R551). -/
theorem md5AbsorbByte_append (m : Md5State) (x : Byte) (h : m.buf.length + 1 ≠ 64) :
    md5AbsorbByte m x = { m with buf := m.buf ++ [x], len := m.len + 1 } := by
  unfold md5AbsorbByte
  exact if_neg (by rw [List.length_append, List.length_singleton]; exact h)

/-- A byte that fills a block has it compressed, and leaves nothing pending (R551). -/
theorem md5AbsorbByte_block (m : Md5State) (x : Byte) (h : m.buf.length + 1 = 64) :
    md5AbsorbByte m x =
      { md5Compress { m with buf := m.buf ++ [x], len := m.len + 1 } (m.buf ++ [x]) with buf := [] } := by
  unfold md5AbsorbByte
  exact if_pos (by rw [List.length_append, List.length_singleton]; exact h)

/-- An absorbed byte counts, keeps the pending bytes those past the last whole block, and does not taint. -/
theorem md5AbsorbByte_frame (m : Md5State) (x : Byte) (h : m.buf.length = m.len.toNat % 64) :
    (md5AbsorbByte m x).len = m.len + 1 ∧
      (md5AbsorbByte m x).buf.length = (md5AbsorbByte m x).len.toNat % 64 ∧
      (md5AbsorbByte m x).tainted = m.tainted := by
  have e : (m.len + 1).toNat % 64 = (m.len.toNat + 1) % 64 := by
    rw [BitVec.toNat_add]
    simp
  by_cases hc : m.buf.length + 1 = 64
  · rw [md5AbsorbByte_block m x hc]
    obtain ⟨-, h2, h3⟩ := md5Compress_frame { m with buf := m.buf ++ [x], len := m.len + 1 } (m.buf ++ [x])
    refine ⟨h2, ?_, h3⟩
    simp only [h2, List.length_nil]
    omega
  · rw [md5AbsorbByte_append m x hc]
    refine ⟨rfl, ?_, rfl⟩
    simp only [List.length_append, List.length_singleton]
    omega

theorem md5Absorb_nil (m : Md5State) : md5Absorb m [] = m := rfl

theorem md5Absorb_cons (m : Md5State) (x : Byte) (d : List Byte) :
    md5Absorb m (x :: d) = md5Absorb (md5AbsorbByte m x) d := rfl

theorem md5Absorb_append (m : Md5State) (d e : List Byte) : md5Absorb m (d ++ e) = md5Absorb (md5Absorb m d) e :=
  List.foldl_append ..

/-- The padding brings the pending bytes to 56, whatever follows the byte 0x80 (R553). -/
theorem md5PadZeros_spec (n : Nat) (h : n < 64) : md5PadZeros n < 64 ∧ (n + md5PadZeros n) % 64 = 56 := by
  unfold md5PadZeros
  split <;> omega

/-! CRC. -/

theorem crc8_append (d e : List Byte) : crc8 (d ++ e) = e.foldl crc8Byte (crc8 d) := List.foldl_append ..

theorem crc16_append (d e : List Byte) : crc16 (d ++ e) = e.foldl crc16Byte (crc16 d) := List.foldl_append ..

/-- Absorbing its own value takes CRC-8 to 0. -/
theorem crc8Byte_self (c : BitVec 8) : crc8Byte c c = 0 := by
  unfold crc8Byte
  rw [BitVec.xor_self]
  decide

theorem crc16_shift : ∀ lo : Fin 256,
    (List.range 8).foldl (fun c _ => crc16Bit c) (BitVec.ofNat 16 lo.val) = BitVec.ofNat 16 (lo.val * 256) := by
  decide +kernel

/-- Absorbing its own two bytes, high byte first, takes CRC-16 to 0. -/
theorem crc16Byte_self (c : BitVec 16) :
    crc16Byte (crc16Byte c (c.extractLsb' 8 8)) (c.extractLsb' 0 8) = 0 := by
  have h1 : c ^^^ ((c.extractLsb' 8 8).setWidth 16 <<< 8) = BitVec.ofNat 16 (c.extractLsb' 0 8).toNat := by
    apply BitVec.eq_of_getLsbD_eq
    intro i hi
    simp only [BitVec.getLsbD_xor, BitVec.getLsbD_shiftLeft, BitVec.getLsbD_setWidth, BitVec.getLsbD_extractLsb',
      BitVec.ofNat_toNat]
    interval_cases i <;> simp
  have h2 : crc16Byte c (c.extractLsb' 8 8) = BitVec.ofNat 16 ((c.extractLsb' 0 8).toNat * 256) := by
    unfold crc16Byte
    rw [h1]
    exact crc16_shift ⟨_, (c.extractLsb' 0 8).isLt⟩
  have h3 : BitVec.ofNat 16 ((c.extractLsb' 0 8).toNat * 256) = (c.extractLsb' 0 8).setWidth 16 <<< 8 := by
    apply BitVec.eq_of_toNat_eq
    simp [BitVec.toNat_shiftLeft, Nat.shiftLeft_eq]
  rw [h2]
  unfold crc16Byte
  rw [h3, BitVec.xor_self]
  decide

end Sys2Proof.Machine
end

