-- ==== Sys2Proof/Laws/PerInstr.lean ====
section
/-! SUPPORT. Facts made per instruction. The family RowMatch: the field value the encoder gives a well-formed
instruction is a word of its row of spec/opcode_table.json (the row's mask and match, and the values the row leaves
out), of the slot's width. -/

namespace Sys2Proof.Laws.RowMatch

/-- Mask and match of an instruction's row in spec/opcode_table.json. The rows ILLEGAL_COMMAND, RICE4_PARTITION and
RICE5_PARTITION have no fixed bit. -/
def row : Instr → Nat × Nat
  | .init => (0xFFFFFFFF, 0x00000001)
  | .decode => (0xFFFFFFFF, 0x00000002)
  | .flush => (0xFFFFFFFF, 0x00000003)
  | .reset => (0xFFFFFFFF, 0x00000004)
  | .seek => (0xFFFFFFFF, 0x00000005)
  | .setStreaminfo => (0xFFFFFFFF, 0x00000006)
  | .setSeektable => (0xFFFFFFFF, 0x00000007)
  | .checkMd5 => (0xFFFFFFFF, 0x00000008)
  | .illegalCommand _ _ => (0, 0)
  | .frameFixed => (0xFFFF, 0xFFF8)
  | .frameVariable => (0xFFFF, 0xFFF9)
  | .frameReservedBit _ => (0xFFFE, 0xFFFA)
  | .sfConstant _ => (0xFE, 0x00)
  | .sfVerbatim _ => (0xFE, 0x02)
  | .sfFixed0 _ => (0xFE, 0x10)
  | .sfFixed1 _ => (0xFE, 0x12)
  | .sfFixed2 _ => (0xFE, 0x14)
  | .sfFixed3 _ => (0xFE, 0x16)
  | .sfFixed4 _ => (0xFE, 0x18)
  | .sfLpc _ _ => (0xC0, 0x40)
  | .sfReservedType23 _ _ => (0xFC, 0x04)
  | .sfReservedType47 _ _ => (0xF8, 0x08)
  | .sfReservedType13 _ => (0xFE, 0x1A)
  | .sfReservedType1415 _ _ => (0xFC, 0x1C)
  | .sfReservedType1631 _ _ => (0xE0, 0x20)
  | .sfPadBitSet _ => (0x80, 0x80)
  | .resRice4 => (0b11, 0b00)
  | .resRice5 => (0b11, 0b01)
  | .resReserved _ => (0b10, 0b10)
  | .rice4Escape => (0b1111, 0b1111)
  | .rice5Escape => (0b11111, 0b11111)
  | .rice4Partition _ => (0, 0)
  | .rice5Partition _ => (0, 0)
  | .chIndependent _ => (0b1000, 0b0000)
  | .chLeftSide => (0b1111, 0b1000)
  | .chRightSide => (0b1111, 0b1001)
  | .chMidSide => (0b1111, 0b1010)
  | .chReserved11 => (0b1111, 0b1011)
  | .chReserved1215 _ => (0b1100, 0b1100)

/-- The values a row without a fixed bit leaves out: those other rows of its slot name. -/
def excluded : Slot → List Nat
  | .command => [1, 2, 3, 4, 5, 6, 7, 8]
  | .param4 => [15]
  | .param5 => [31]
  | _ => []

/-- What holds of every instruction: its word is its row's. -/
def Statement (i : Instr) : Prop :=
  i.wellFormed = true →
    encode i < 2 ^ i.slot.bits ∧ encode i &&& (row i).1 = (row i).2 ∧
      ((row i).1 = 0 → encode i ∉ excluded i.slot)

theorem init : Statement .init := by
  unfold Statement
  decide

theorem decode : Statement .decode := by
  unfold Statement
  decide

theorem flush : Statement .flush := by
  unfold Statement
  decide

theorem reset : Statement .reset := by
  unfold Statement
  decide

theorem seek : Statement .seek := by
  unfold Statement
  decide

theorem setStreaminfo : Statement .setStreaminfo := by
  unfold Statement
  decide

theorem setSeektable : Statement .setSeektable := by
  unfold Statement
  decide

theorem checkMd5 : Statement .checkMd5 := by
  unfold Statement
  decide

theorem illegalCommand (opcode : BitVec 8) (zero : BitVec 24) : Statement (.illegalCommand opcode zero) := by
  intro h
  have ho := opcode.isLt
  have hz := zero.isLt
  refine ⟨by simp only [encode, Instr.slot, Slot.bits]; omega, by simp [row], fun _ hmem => ?_⟩
  have hk : 1 ≤ zero.toNat * 256 + opcode.toNat ∧ zero.toNat * 256 + opcode.toNat ≤ 8 := by
    simp only [encode, Instr.slot, excluded, List.mem_cons, List.not_mem_nil, or_false] at hmem
    omega
  have hz0 : zero = 0#24 := BitVec.eq_of_toNat_eq (by rw [BitVec.toNat_ofNat]; omega)
  have ho0 : opcode ≠ 0#8 := fun h0 => by
    rw [h0, hz0] at hk
    simp at hk
  simp only [Instr.wellFormed, illegalCommandWord, hz0, Bool.or_eq_true, bne_iff_ne, ne_eq, not_true_eq_false,
    beq_iff_eq, decide_eq_true_eq, BitVec.ofNat_eq_ofNat, false_or] at h
  rcases h with h | h
  · exact ho0 h
  · omega

theorem frameFixed : Statement .frameFixed := by
  unfold Statement
  decide

theorem frameVariable : Statement .frameVariable := by
  unfold Statement
  decide

theorem frameReservedBit (blocking : Bool) : Statement (.frameReservedBit blocking) := by
  unfold Statement
  revert blocking
  decide

theorem sfConstant (wasted : Bool) : Statement (.sfConstant wasted) := by
  unfold Statement
  revert wasted
  decide

theorem sfVerbatim (wasted : Bool) : Statement (.sfVerbatim wasted) := by
  unfold Statement
  revert wasted
  decide

theorem sfFixed0 (wasted : Bool) : Statement (.sfFixed0 wasted) := by
  unfold Statement
  revert wasted
  decide

theorem sfFixed1 (wasted : Bool) : Statement (.sfFixed1 wasted) := by
  unfold Statement
  revert wasted
  decide

theorem sfFixed2 (wasted : Bool) : Statement (.sfFixed2 wasted) := by
  unfold Statement
  revert wasted
  decide

theorem sfFixed3 (wasted : Bool) : Statement (.sfFixed3 wasted) := by
  unfold Statement
  revert wasted
  decide

theorem sfFixed4 (wasted : Bool) : Statement (.sfFixed4 wasted) := by
  unfold Statement
  revert wasted
  decide

theorem sfLpc (p : BitVec 5) (wasted : Bool) : Statement (.sfLpc p wasted) := by
  unfold Statement
  revert p wasted
  decide

theorem sfReservedType23 (x : BitVec 1) (wasted : Bool) : Statement (.sfReservedType23 x wasted) := by
  unfold Statement
  revert x wasted
  decide

theorem sfReservedType47 (x : BitVec 2) (wasted : Bool) : Statement (.sfReservedType47 x wasted) := by
  unfold Statement
  revert x wasted
  decide

theorem sfReservedType13 (wasted : Bool) : Statement (.sfReservedType13 wasted) := by
  unfold Statement
  revert wasted
  decide

theorem sfReservedType1415 (x : BitVec 1) (wasted : Bool) : Statement (.sfReservedType1415 x wasted) := by
  unfold Statement
  revert x wasted
  decide

theorem sfReservedType1631 (x : BitVec 4) (wasted : Bool) : Statement (.sfReservedType1631 x wasted) := by
  unfold Statement
  revert x wasted
  decide

theorem sfPadBitSet (x : BitVec 7) : Statement (.sfPadBitSet x) := by
  unfold Statement
  revert x
  decide

theorem resRice4 : Statement .resRice4 := by
  unfold Statement
  decide

theorem resRice5 : Statement .resRice5 := by
  unfold Statement
  decide

theorem resReserved (x : BitVec 1) : Statement (.resReserved x) := by
  unfold Statement
  revert x
  decide

theorem rice4Escape : Statement .rice4Escape := by
  unfold Statement
  decide

theorem rice5Escape : Statement .rice5Escape := by
  unfold Statement
  decide

theorem rice4Partition (k : BitVec 4) : Statement (.rice4Partition k) := by
  unfold Statement
  revert k
  decide

theorem rice5Partition (k : BitVec 5) : Statement (.rice5Partition k) := by
  unfold Statement
  revert k
  decide

theorem chIndependent (c : BitVec 3) : Statement (.chIndependent c) := by
  unfold Statement
  revert c
  decide

theorem chLeftSide : Statement .chLeftSide := by
  unfold Statement
  decide

theorem chRightSide : Statement .chRightSide := by
  unfold Statement
  decide

theorem chMidSide : Statement .chMidSide := by
  unfold Statement
  decide

theorem chReserved11 : Statement .chReserved11 := by
  unfold Statement
  decide

theorem chReserved1215 (x : BitVec 2) : Statement (.chReserved1215 x) := by
  unfold Statement
  revert x
  decide

end Sys2Proof.Laws.RowMatch
end

