-- ==== Sys2Proof/Laws/Residual.lean ====
section
/-! SUPPORT. The laws of the residual decoder (Machine/Residual.lean): the range of every residual (R258, R283, R284)
and that its reads stay in the chunk. -/

namespace Sys2Proof.Machine

theorem quotient_remainder {z k m : Nat} (hk : k ≤ 31) (hc : z * 2 ^ k ≤ 4294967295) (hm : m < 2 ^ k) :
    z * 2 ^ k + m ≤ 4294967295 := by
  have h1 : z < 2 ^ (32 - k) := by
    by_contra hcon
    have : 2 ^ (32 - k) * 2 ^ k ≤ z * 2 ^ k := Nat.mul_le_mul_right _ (by omega)
    rw [← pow_add, show 32 - k + k = 32 by omega] at this
    omega
  have h2 : (z + 1) * 2 ^ k ≤ 2 ^ (32 - k) * 2 ^ k := Nat.mul_le_mul_right _ h1
  rw [← pow_add, show 32 - k + k = 32 by omega, Nat.succ_mul] at h2
  omega

theorem readRice_range (ck : Chunk) (k : Nat) (hk : k ≤ 31) (p q : Nat) (x : Int)
    (h : readRice ck k p = .ok (x, q)) : -2147483648 < x ∧ x ≤ 2147483647 := by
  obtain ⟨z, _, _, h⟩ := Reader.bind_ok.1 h
  obtain ⟨m, _, h2, h⟩ := Reader.bind_ok.1 h
  obtain ⟨t, _, h3, h⟩ := Reader.bind_ok.1 h
  obtain ⟨_, _, h4, h⟩ := Reader.bind_ok.1 h
  obtain ⟨rfl, -⟩ := Reader.pure_ok.1 h
  obtain ⟨h4, -⟩ := gate_ok.1 h4
  obtain ⟨h3, -⟩ := orFail_ok.1 h3
  have hne := (validResidual_iff _).1 h4
  unfold checkShift at h3
  split_ifs at h3 with hc
  cases h3
  have hm : m < 2 ^ k := by
    unfold readRemainder at h2
    split_ifs at h2
    · obtain ⟨-, rfl, -⟩ := readBits_ok.1 h2; exact ck.bits_lt _ _
    · obtain ⟨rfl, -⟩ := Reader.pure_ok.1 h2; positivity
  have hu := quotient_remainder hk hc hm
  unfold unzigzag at hne ⊢
  split_ifs at hne ⊢ <;> omega

theorem sext_range {n u : Nat} (hn : 1 ≤ n) (hu : u < 2 ^ n) :
    -2 ^ (n - 1) ≤ sext n u ∧ sext n u < 2 ^ (n - 1) := by
  obtain ⟨m, rfl⟩ : ∃ m, n = m + 1 := ⟨n - 1, by omega⟩
  unfold sext
  rw [Nat.add_sub_cancel]
  have h2 : 2 ^ (m + 1) = 2 * 2 ^ m := by rw [pow_succ]; ring
  have hp : ((2 ^ m : Nat) : Int) = 2 ^ m := by push_cast; rfl
  have hd : u / 2 ^ m < 2 := by rw [Nat.div_lt_iff_lt_mul (by positivity)]; omega
  split_ifs with h
  · have : 2 ^ m ≤ u := by
      by_contra hc
      rw [Nat.div_eq_of_lt (by omega)] at h
      omega
    push_cast [h2]
    rw [← hp]
    omega
  · have : u < 2 ^ m := by
      by_contra hc
      have : 1 ≤ u / 2 ^ m := by rw [Nat.one_le_div_iff (by positivity)]; omega
      omega
    rw [← hp]
    omega

theorem readRaw_range (ck : Chunk) (w : Nat) (hw : w ≤ 31) (p q : Nat) (x : Int) (h : readRaw ck w p = .ok (x, q))
    : -2147483648 < x ∧ x ≤ 2147483647 := by
  obtain ⟨v, _, h1, h⟩ := Reader.bind_ok.1 h
  obtain ⟨_, _, h2, h⟩ := Reader.bind_ok.1 h
  obtain ⟨rfl, -⟩ := Reader.pure_ok.1 h
  unfold readRawField at h1
  split_ifs at h1 with hc
  · obtain ⟨rfl, -⟩ := Reader.pure_ok.1 h1; decide
  · obtain ⟨-, rfl, -⟩ := readBitsSigned_ok.1 h1
    have := sext_range (n := w) (by omega) (ck.bits_lt p w)
    have h3 : (2 : Int) ^ (w - 1) ≤ 2 ^ 30 := pow_le_pow_right₀ (by decide) (by omega)
    omega

theorem partition_range (ck : Chunk) (w n : Nat) (hw : w ≤ 5) (p q : Nat) (xs : List Int)
    (h : readPartition ck w n p = .ok (xs, q)) : ∀ v ∈ xs, -2147483648 < v ∧ v ≤ 2147483647 := by
  obtain ⟨r, _, h1, h⟩ := Reader.bind_ok.1 h
  obtain ⟨-, rfl, -⟩ := readBits_ok.1 h1
  have hlt := ck.bits_lt p w
  have h3 : 2 ^ w ≤ 2 ^ 5 := Nat.pow_le_pow_right (by decide) hw
  split_ifs at h
  · obtain ⟨u, _, h1, h⟩ := Reader.bind_ok.1 h
    have hu : u < 32 := by obtain ⟨-, rfl, -⟩ := readBits_ok.1 h1; exact ck.bits_lt _ 5
    exact readMany_all (fun p q x => readRaw_range ck u (by omega) p q x) h
  · generalize ck.bits p w = u at *
    exact readMany_all (fun p q x => readRice_range ck u (by omega) p q x) h

theorem partitions_range (ck : Chunk) (w b o k m j : Nat) (hw : w ≤ 5) (p q : Nat) (xs : List Int)
    (h : readPartitions ck w b o k m j p = .ok (xs, q)) : ∀ v ∈ xs, -2147483648 < v ∧ v ≤ 2147483647 := by
  induction m generalizing j p xs with
  | zero => cases h; intro v hv; cases hv
  | succ m ih =>
    obtain ⟨ys, _, h1, h⟩ := Reader.bind_ok.1 h
    obtain ⟨zs, _, h2, h⟩ := Reader.bind_ok.1 h
    obtain ⟨rfl, rfl⟩ := Reader.pure_ok.1 h
    intro v hv
    rcases List.mem_append.1 hv with hv | hv
    · exact partition_range ck _ _ hw _ _ _ h1 v hv
    · exact ih _ _ _ h2 v hv

theorem staysIn_readRice (ck : Chunk) (k : Nat) : Reader.staysIn ck (readRice ck k) := by
  unfold readRice
  refine Reader.staysIn_bind (Reader.staysIn_readUnary ck) fun q => Reader.staysIn_bind ?_ fun m =>
      Reader.staysIn_bind (Reader.staysIn_orFail ck _ _) fun t => Reader.staysIn_bind (Reader.staysIn_gate ck _ _)
      fun _ => Reader.staysIn_pure ck _
  unfold readRemainder
  split_ifs
  · exact Reader.staysIn_readBits ck _
  · exact Reader.staysIn_pure ck _

theorem staysIn_readBitsSigned (ck : Chunk) (k : Nat) : Reader.staysIn ck (readBitsSigned ck k) :=
  Reader.staysIn_bind (Reader.staysIn_readBits ck _) fun _ => Reader.staysIn_pure ck _

theorem staysIn_readRaw (ck : Chunk) (k : Nat) : Reader.staysIn ck (readRaw ck k) := by
  unfold readRaw
  refine Reader.staysIn_bind ?_ fun m => Reader.staysIn_bind (Reader.staysIn_gate ck _ _) fun _ =>
      Reader.staysIn_pure ck _
  unfold readRawField
  split_ifs
  · exact Reader.staysIn_pure ck _
  · exact staysIn_readBitsSigned ck _

theorem staysIn_readPartition (ck : Chunk) (w n : Nat) : Reader.staysIn ck (readPartition ck w n) := by
  unfold readPartition
  refine Reader.staysIn_bind (Reader.staysIn_readBits ck _) fun r => ?_
  split_ifs
  · exact Reader.staysIn_bind (Reader.staysIn_readBits ck _) fun w => Reader.staysIn_readMany
      (staysIn_readRaw ck _) _
  · exact Reader.staysIn_readMany (staysIn_readRice ck _) _

theorem staysIn_readPartitions (ck : Chunk) (w b o k m j : Nat) :
    Reader.staysIn ck (readPartitions ck w b o k m j) := by
  induction m generalizing j with
  | zero => exact Reader.staysIn_pure ck _
  | succ m ih => exact Reader.staysIn_bind (staysIn_readPartition ck _ _) fun _ => Reader.staysIn_bind (ih _) fun
      _ => Reader.staysIn_pure ck _

theorem staysIn_residualAfterMethod (ck : Chunk) (w b k : Nat) : Reader.staysIn ck (residualAfterMethod ck w b k) :=
  Reader.staysIn_bind (Reader.staysIn_bind (Reader.staysIn_readBits ck _) fun _ => Reader.staysIn_bind
      (Reader.staysIn_gate ck _ _) fun _ => Reader.staysIn_pure ck _) fun _ => staysIn_readPartitions ck _ _ _ _ _ _

end Sys2Proof.Machine
end

