-- ==== Sys2Proof/Laws/Run.lean ====
section
/-! SUPPORT. The laws of a whole DECODE (Machine/Codec.lean): how the frame search ends (R420), what follows a subframe
(R500), and that the searched and the stepped headers agree. -/

namespace Sys2Proof.Machine

/-! Runs of elements. -/

theorem runElements_idle {s : State} (h : s.dec.phase = .idle) (n : Nat) : runElements n s = s := by
  cases n with
  | zero => rfl
  | succ n => exact if_pos h

theorem runElements_next {s t : State} (hp : s.dec.phase ≠ .idle) (hs : step s = .next t) (n : Nat) :
    runElements (n + 1) s = runElements n t := by
  conv_lhs => unfold runElements
  rw [if_neg hp, hs]

/-- A run that goes on from where another ends. -/
theorem runElements_trans {s t u : State} {a b : Nat} (hab : runElements a s = t) (hbc : runElements b t = u)
    (hstep : ∀ s : State, ∃ t, step s = .next t) : runElements (a + b) s = u := by
  induction a generalizing s with
  | zero =>
    rw [Nat.zero_add]
    exact (show s = t from hab) ▸ hbc
  | succ a ih =>
    by_cases hp : s.dec.phase = .idle
    · rw [runElements_idle hp] at hab ⊢
      subst hab
      rw [runElements_idle hp] at hbc
      exact hbc
    · obtain ⟨s', hs⟩ := hstep s
      rw [runElements_next hp hs] at hab
      rw [show a + 1 + b = (a + b) + 1 by omega, runElements_next hp hs]
      exact ih hab

/-! The frame search. -/

/-- The header parse reads the chunk, the STREAMINFO registers and POS only. -/
theorem parseFrameHeader_atCandidate (s : State) (o r : Nat) :
    parseFrameHeader (s.atCandidate r) o = parseFrameHeader s o := rfl

theorem parseFrameHeader_noteFirstError (s : State) (e : Cause) (o : Nat) :
    parseFrameHeader (s.noteFirstError e) o = parseFrameHeader s o := rfl

/-- The two ends of the scan of R420: the first candidate whose header parses, or none. -/
theorem State.scanFrom_cases (s : State) (n o : Nat) :
    (∃ r hd p, o ≤ r ∧ r < o + n ∧
      (s.chunk.isSync r = true ∧ ∀ o', o ≤ o' → o' < r → s.chunk.isSync o' = true → s.headerFailsAt o') ∧
      parseFrameHeader s r (8 * r) = .ok (hd, p) ∧ s.scanFrom n o = (s.atCandidate r).acceptHeader hd p) ∨
    (∀ o', o ≤ o' → o' < o + n → s.chunk.isSync o' = true → s.headerFailsAt o') ∧ s.scanFrom n o = s.noFrame := by
  induction n generalizing o with
  | zero => exact .inr ⟨fun o' h1 h2 => absurd h2 (by omega), rfl⟩
  | succ n ih =>
    have hrest : s.scanFrom (n + 1) o = s.scanFrom n (o + 1) → (s.chunk.isSync o = true → s.headerFailsAt o) →
        (∃ r hd p, o ≤ r ∧ r < o + (n + 1) ∧
          (s.chunk.isSync r = true ∧ ∀ o', o ≤ o' → o' < r → s.chunk.isSync o' = true → s.headerFailsAt o') ∧
          parseFrameHeader s r (8 * r) = .ok (hd, p) ∧
          s.scanFrom (n + 1) o = (s.atCandidate r).acceptHeader hd p) ∨
        (∀ o', o ≤ o' → o' < o + (n + 1) → s.chunk.isSync o' = true → s.headerFailsAt o') ∧
          s.scanFrom (n + 1) o = s.noFrame := by
      intro h ho
      have hcons : ∀ r, (∀ o', o + 1 ≤ o' → o' < r → s.chunk.isSync o' = true → s.headerFailsAt o') →
          ∀ o', o ≤ o' → o' < r → s.chunk.isSync o' = true → s.headerFailsAt o' := by
        intro r hr o' h1 h2
        by_cases h3 : o' = o
        · exact h3 ▸ ho
        · exact hr o' (by omega) h2
      rw [h]
      rcases ih (o + 1) with ⟨r, hd, p, h1, h2, h3, h4, h5⟩ | ⟨h4, h5⟩
      · exact .inl ⟨r, hd, p, by omega, by omega, ⟨h3.1, hcons _ h3.2⟩, h4, h5⟩
      · exact .inr ⟨hcons _ fun o' h1 h2 => h4 o' h1 (by omega), h5⟩
    by_cases hs : s.chunk.isSync o = true
    · cases hp : parseFrameHeader s o (8 * o) with
      | ok x =>
        refine .inl ⟨o, x.1, x.2, le_refl _, by omega, ⟨hs, fun o' h1 h2 => absurd h2 (by omega)⟩, hp, ?_⟩
        conv_lhs => unfold State.scanFrom
        rw [if_pos hs, hp]
      | error e =>
        refine hrest ?_ fun _ => ⟨e, hp⟩
        conv_lhs => unfold State.scanFrom
        rw [if_pos hs, hp]
    · refine hrest ?_ fun h => absurd h hs
      conv_lhs => unfold State.scanFrom
      rw [if_neg hs]

/-- The three ends of the frame search (R420): the header at offset 0, a later one, or none. -/
theorem State.findFrame_cases (s : State) :
    (∃ hd p, parseFrameHeader s 0 0 = .ok (hd, p) ∧ s.findFrame = (s.atCandidate 0).acceptHeader hd p) ∨
    (∃ e, parseFrameHeader s 0 0 = .error e ∧
      ((∃ r hd p, 1 ≤ r ∧ r ≤ s.lastCandidate ∧ s.frameFoundAt r hd p ∧
        parseFrameHeader s r (8 * r) = .ok (hd, p) ∧
        s.findFrame = (((s.atCandidate 0).noteFirstError e).atCandidate r).acceptHeader hd p) ∨
      (∀ o, s.candidate o → s.headerFailsAt o) ∧
        s.findFrame = ((s.atCandidate 0).noteFirstError e).noFrame)) := by
  cases h : parseFrameHeader s 0 0 with
  | ok x =>
    refine .inl ⟨x.1, x.2, rfl, ?_⟩
    unfold State.findFrame
    rw [h]
  | error e =>
    refine .inr ⟨e, rfl, ?_⟩
    have hf : s.findFrame = ((s.atCandidate 0).noteFirstError e).scanFrom s.lastCandidate 1 := by
      unfold State.findFrame
      rw [h]
    rw [hf]
    rcases ((s.atCandidate 0).noteFirstError e).scanFrom_cases s.lastCandidate 1 with
      ⟨r, hd, p, h1, h2, h3, h4, h5⟩ | ⟨h4, h5⟩
    · refine .inl ⟨r, hd, p, h1, by omega, ⟨.inr ⟨by show r ≤ s.lastCandidate; omega, h3.1⟩, h4, fun o ho hc => ?_⟩,
        h4, h5⟩
      rcases hc with rfl | ⟨-, hc⟩
      · exact ⟨e, h⟩
      · by_cases h0 : o = 0
        · subst h0; exact ⟨e, h⟩
        · exact h3.2 o (by omega) ho hc
    · refine .inr ⟨fun o hc => ?_, h5⟩
      rcases hc with rfl | ⟨hl, hc⟩
      · exact ⟨e, h⟩
      · by_cases h0 : o = 0
        · subst h0; exact ⟨e, h⟩
        · have hl : o ≤ s.lastCandidate := hl
          exact h4 o (by omega) (by omega) hc

/-- A header that parses is read after its first 16 bits (R400). -/
theorem parseFrameHeader_ok {s : State} {o p q : Nat} {hd : FrameHeader}
    (h : parseFrameHeader s o p = .ok (hd, q)) :
    16 ≤ s.chunk.bitsLeft p ∧ ∃ blocking, headerAfterSync s o blocking (p + 16) = .ok (hd, q) := by
  unfold parseFrameHeader at h
  split_ifs at h with hb
  obtain ⟨_, _, h1, h⟩ := Reader.bind_ok.1 h
  obtain ⟨_, _, h2, h⟩ := Reader.bind_ok.1 h
  obtain ⟨_, _, h3, h⟩ := Reader.bind_ok.1 h
  obtain ⟨_, _, h4, h⟩ := Reader.bind_ok.1 h
  obtain ⟨_, _, h5, h⟩ := Reader.bind_ok.1 h
  obtain ⟨-, -, rfl⟩ := readBits_ok.1 h1
  obtain ⟨-, rfl⟩ := gate_ok.1 h2
  obtain ⟨-, -, rfl⟩ := readBits_ok.1 h3
  obtain ⟨-, rfl⟩ := gate_ok.1 h4
  obtain ⟨-, -, rfl⟩ := readBits_ok.1 h5
  exact ⟨Nat.le_of_not_lt hb, _, h⟩

/-- Every failure of a header but NO_SYNC is one of the causes 1 to 13 (R401, R562). -/
theorem parseFrameHeader_error {s : State} {o p : Nat} {e : Cause} (h : parseFrameHeader s o p = .error e) :
    e = .noSync ∨ headerCause e := by
  unfold parseFrameHeader at h
  split_ifs at h with hb
  · cases h
    exact .inl rfl
  · have hle := Nat.le_of_not_lt hb
    rcases Reader.bind_error.1 h with h | ⟨_, _, h1, h⟩
    · rw [readBits_of_le (by omega)] at h
      cases h
    obtain ⟨-, -, rfl⟩ := readBits_ok.1 h1
    rcases Reader.bind_error.1 h with h | ⟨_, _, h2, h⟩
    · exact .inl (Reader.failsOnly_gate (S := fun c => c = .noSync) rfl _ _ _ h)
    obtain ⟨-, rfl⟩ := gate_ok.1 h2
    rcases Reader.bind_error.1 h with h | ⟨_, _, h3, h⟩
    · rw [readBits_of_le (by unfold Chunk.bitsLeft at *; omega)] at h
      cases h
    obtain ⟨-, -, rfl⟩ := readBits_ok.1 h3
    rcases Reader.bind_error.1 h with h | ⟨_, _, h4, h⟩
    · exact .inr (Reader.failsOnly_gate (S := headerCause) (by decide) _ _ _ h)
    obtain ⟨-, rfl⟩ := gate_ok.1 h4
    rcases Reader.bind_error.1 h with h | ⟨_, _, h5, h⟩
    · rw [readBits_of_le (by unfold Chunk.bitsLeft at *; omega)] at h
      cases h
    exact .inr (failsOnly_headerAfterSync _ _ _ _ _ h)

/-! Subframes. -/

/-- The subframe causes (R562). -/
abbrev subframeCause (c : Cause) : Prop := 32 ≤ c.number.toNat ∧ c.number.toNat ≤ 44

theorem failsOnly_readSample (ck : Chunk) (e : Nat) : Reader.failsOnly subframeCause (readSample ck e) := by
  have hb : ∀ n, Reader.failsOnly subframeCause (readBits ck n) := fun n => Reader.failsOnly_readBits (by decide)
      _ _
  unfold readSample
  split_ifs
  · exact Reader.failsOnly_bind (hb _) fun _ => Reader.failsOnly_bind (hb _) fun _ =>
      Reader.failsOnly_orFail (by decide) _
  · exact Reader.failsOnly_bind (hb _) fun _ => Reader.failsOnly_pure _ _

theorem failsOnly_readBitsSigned (ck : Chunk) (n : Nat) : Reader.failsOnly subframeCause (readBitsSigned ck n) :=
  Reader.failsOnly_bind (Reader.failsOnly_readBits (by decide) _ _) fun _ => Reader.failsOnly_pure _ _

theorem failsOnly_readPartition (ck : Chunk) (w n : Nat) :
    Reader.failsOnly subframeCause (readPartition ck w n) := by
  have hb : ∀ n, Reader.failsOnly subframeCause (readBits ck n) := fun n => Reader.failsOnly_readBits (by decide)
      _ _
  refine Reader.failsOnly_bind (hb _) fun r => ?_
  split_ifs
  · refine Reader.failsOnly_bind (hb _) fun w => Reader.failsOnly_readMany (Reader.failsOnly_bind ?_ fun v =>
      Reader.failsOnly_bind (Reader.failsOnly_gate (by decide) _) fun _ => Reader.failsOnly_pure _ _) _
    unfold readRawField
    split_ifs
    · exact Reader.failsOnly_pure _ _
    · exact failsOnly_readBitsSigned _ _
  · refine Reader.failsOnly_readMany (Reader.failsOnly_bind (Reader.failsOnly_readUnary (by decide) (by decide) _)
      fun q => Reader.failsOnly_bind ?_ fun m => Reader.failsOnly_bind (Reader.failsOnly_orFail (by decide) _)
      fun t => Reader.failsOnly_bind (Reader.failsOnly_gate (by decide) _) fun _ => Reader.failsOnly_pure _ _) _
    unfold readRemainder
    split_ifs
    · exact hb _
    · exact Reader.failsOnly_pure _ _

theorem failsOnly_decodeResidual (ck : Chunk) (b k : Nat) :
    Reader.failsOnly subframeCause (decodeResidual ck b k) := by
  have hb : ∀ n, Reader.failsOnly subframeCause (readBits ck n) := fun n => Reader.failsOnly_readBits (by decide)
      _ _
  have hp : ∀ w o m j, Reader.failsOnly subframeCause (readPartitions ck w b o k m j) := by
    intro w o m
    induction m with
    | zero => exact fun j => Reader.failsOnly_pure _ _
    | succ m ih =>
      exact fun j => Reader.failsOnly_bind (failsOnly_readPartition _ _ _) fun _ =>
        Reader.failsOnly_bind (ih _) fun _ => Reader.failsOnly_pure _ _
  have hm : ∀ w, Reader.failsOnly subframeCause (residualAfterMethod ck w b k) := fun w =>
    Reader.failsOnly_bind (Reader.failsOnly_bind (hb _) fun _ =>
      Reader.failsOnly_bind (Reader.failsOnly_gate (by decide) _) fun _ => Reader.failsOnly_pure _ _) fun _ => hp
          _ _ _ _
  refine Reader.failsOnly_bind (hb _) fun m => ?_
  split_ifs
  · exact hm _
  · exact hm _
  · exact Reader.failsOnly_failWith (by decide)

theorem failsOnly_decodePredicted (ck : Chunk) (b : Nat) (pr : Predictor) :
    Reader.failsOnly subframeCause (decodePredicted ck b pr) :=
  Reader.failsOnly_bind (failsOnly_decodeResidual _ _ _) fun _ =>
    Reader.failsOnly_bind (Reader.failsOnly_orFail (by decide) _) fun _ => Reader.failsOnly_orFail (by decide) _

/-- A subframe fails with one of the causes 32 to 44 (R310, R562). -/
theorem failsOnly_decodeSubframeAt (ck : Chunk) (b n : Nat) (side : Bool) :
    Reader.failsOnly subframeCause (decodeSubframeAt ck b n side) := by
  have hb : ∀ n, Reader.failsOnly subframeCause (readBits ck n) := fun n => Reader.failsOnly_readBits (by decide)
      _ _
  have hw : ∀ f, Reader.failsOnly subframeCause (readWasted ck f n side) := by
    intro f
    refine Reader.failsOnly_bind ?_ fun w => Reader.failsOnly_bind (Reader.failsOnly_gate (by decide) _) fun _ =>
      Reader.failsOnly_bind (Reader.failsOnly_gate (by decide) _) fun _ => Reader.failsOnly_pure _ _
    unfold readWastedCount
    split_ifs
    · exact Reader.failsOnly_bind (Reader.failsOnly_readUnary (by decide) (by decide) _) fun _ =>
        Reader.failsOnly_pure _ _
    · exact Reader.failsOnly_pure _ _
  refine Reader.failsOnly_bind (Reader.failsOnly_bind (hb _) fun _ =>
    Reader.failsOnly_bind (Reader.failsOnly_gate (by decide) _) fun _ => Reader.failsOnly_bind (hb _) fun _ =>
    Reader.failsOnly_bind (Reader.failsOnly_orFail (by decide) _) fun _ =>
    Reader.failsOnly_bind (Reader.failsOnly_gate (by decide) _) fun _ => Reader.failsOnly_bind (hb _) fun _ =>
    Reader.failsOnly_bind (hw _) fun _ => Reader.failsOnly_pure _ _) fun h => ?_
  unfold subframeBody
  split
  · exact Reader.failsOnly_bind (Reader.failsOnly_bind (failsOnly_readSample _ _) fun _ => Reader.failsOnly_pure _
      _)
      fun _ => Reader.failsOnly_orFail (by decide) _
  · exact Reader.failsOnly_bind (Reader.failsOnly_readMany (failsOnly_readSample _ _) _)
      fun _ => Reader.failsOnly_orFail (by decide) _
  · exact Reader.failsOnly_bind (Reader.failsOnly_bind (Reader.failsOnly_readMany (failsOnly_readSample _ _) _)
      fun _ => Reader.failsOnly_pure _ _) fun _ => failsOnly_decodePredicted _ _ _
  · exact Reader.failsOnly_bind (Reader.failsOnly_bind (Reader.failsOnly_readMany (failsOnly_readSample _ _) _)
      fun _ => Reader.failsOnly_bind (hb _) fun _ => Reader.failsOnly_bind (Reader.failsOnly_gate (by decide) _)
          fun _ =>
        Reader.failsOnly_bind (hb _) fun _ => Reader.failsOnly_bind (Reader.failsOnly_gate (by decide) _) fun _ =>
        Reader.failsOnly_bind (Reader.failsOnly_readMany (failsOnly_readBitsSigned _ _) _)
          fun _ => Reader.failsOnly_pure _ _) fun _ => failsOnly_decodePredicted _ _ _

/-- The three ends of a subframe: the next channel's, the footer's, or a failure (R310, R500, R505). -/
theorem State.decodeSubframe_cases (s : State) :
    (∃ xs p, decodeSubframeAt s.chunk s.dec.header.blockSize s.dec.header.bps (isSide s.dec.header.assign
        s.dec.chan)
        s.dec.cursor = .ok (xs, p) ∧ s.decodeSubframe = s.subframeDecoded xs p) ∨
      ∃ c, (decodeSubframeAt s.chunk s.dec.header.blockSize s.dec.header.bps
        (isSide s.dec.header.assign s.dec.chan) s.dec.cursor = .error c ∧ subframeCause c) ∧
        s.decodeSubframe = s.subframeFailed c := by
  rcases s.runSubframe_cases (decodeSubframeAt s.chunk s.dec.header.blockSize s.dec.header.bps
    (isSide s.dec.header.assign s.dec.chan)) s.dec.cursor with ⟨xs, p, h1, h2⟩ | ⟨c, h1, h2⟩
  · exact .inl ⟨xs, p, h1, h2⟩
  · exact .inr ⟨c, ⟨h1, failsOnly_decodeSubframeAt _ _ _ _ _ _ h1⟩, h2⟩

/-! The subframes of a frame, as the claims about whole DECODEs read them. -/

theorem readSubframes_ok {ck : Chunk} {hd : FrameHeader} {n c p q : Nat} {xs : List Int}
    (h : decodeSubframeAt ck hd.blockSize hd.bps (isSide hd.assign c) p = .ok (xs, q)) :
    readSubframes ck hd (n + 1) c p = readSubframes ck hd n (c + 1) q := by
  conv_lhs => unfold readSubframes
  rw [h]

theorem readSubframes_error {ck : Chunk} {hd : FrameHeader} {n c p : Nat} {e : Cause}
    (h : decodeSubframeAt ck hd.blockSize hd.bps (isSide hd.assign c) p = .error e) :
    readSubframes ck hd (n + 1) c p = .error (c, e) := by
  unfold readSubframes
  rw [h]

/-- The three ends of a footer check are what it finds wrong (R430). -/
theorem footerTrouble_footer (s : State) :
    footerTrouble s.chunk s.dec.frameStart s.dec.cursor =
      if s.chunk.bitsLeft (8 * s.footerByte) < 16 then some .missingFooter
      else if s.chunk.bits (8 * s.footerByte) 16 = s.footerSum.toNat then none else some .footerMismatch := rfl

/-! Where a DECODE stands. -/

/-- After its header: over, or past the last subframe, or at the subframe of channel `c`. -/
def standsAt (hd : FrameHeader) (c : Nat) (u : State) : Prop :=
  u.dec = .unset ∨ u.dec.header = hd ∧ (u.dec.phase = .decorrelate ∨ u.dec.phase = .subframe ∧ u.dec.chan = c ∧
      c < hd.channels)

/-- After the footer check: over, or past the last subframe of the same header (R430). -/
theorem State.checkFooter_phase (s : State) :
    s.checkFooter.dec = .unset ∨ s.checkFooter.dec.header = s.dec.header ∧ s.checkFooter.dec.phase =
    .decorrelate := by
  have key : ∀ (t : State) (cause), (t.footerMismatch cause).dec = .unset ∨ (t.footerMismatch cause).dec.header =
      t.dec.header ∧ (t.footerMismatch cause).dec.phase = .decorrelate := by
    intro t cause
    cases h : t.cfg.crc16Reject
    · rw [t.footerMismatch_warn cause h]; exact .inr ⟨rfl, rfl⟩
    · rw [t.footerMismatch_reject cause h]; exact .inl rfl
  rcases s.checkFooter_cases with ⟨-, -, h⟩ | ⟨-, -, h⟩ | ⟨-, h⟩ <;> rw [h]
  · exact .inr ⟨rfl, rfl⟩
  · exact key _ _
  · exact key _ _

/-- After a subframe: over, or past the last subframe, or at the next one (R310, R500). -/
theorem State.decodeSubframe_phase (s : State) :
    standsAt s.dec.header (s.dec.chan + 1) s.decodeSubframe := by
  rcases s.decodeSubframe_cases with ⟨xs, p, -, h⟩ | ⟨c, -, h⟩ <;> rw [h]
  · unfold State.subframeDecoded
    dsimp only
    split_ifs with h1
    · exact .inr ⟨rfl, .inr ⟨rfl, rfl, h1⟩⟩
    · rcases State.checkFooter_phase { s.writeChannel s.dec.chan xs with dec := { s.dec with cursor := p } } with
        h | ⟨h, h'⟩
      · exact .inl h
      · exact .inr ⟨h, .inl h'⟩
  · rw [State.subframeFailed_eq]; exact .inr ⟨rfl, .inl rfl⟩

/-- After the subframes of every channel: over, or past the last subframe of the same header (R500). -/
theorem State.decodeChannels_phase (s : State) (n : Nat) (hp : s.dec.phase = .subframe)
    (hc : s.dec.chan < s.dec.header.channels) (hn : s.dec.header.channels = s.dec.chan + n) :
    (s.decodeChannels n).dec = .unset ∨ (s.decodeChannels n).dec.header = s.dec.header ∧
        (s.decodeChannels n).dec.phase = .decorrelate := by
  induction n generalizing s with
  | zero => omega
  | succ n ih =>
    unfold State.decodeChannels
    rw [if_pos hp]
    have stay : ∀ (t : State) m, t.dec.phase ≠ .subframe → t.decodeChannels m = t := by
      intro t m ht; cases m
      · rfl
      · exact if_neg ht
    rcases State.decodeSubframe_phase s with h | ⟨h1, h | ⟨h2, h3, h4⟩⟩
    · rw [stay _ _ (by rw [h]; decide)]; exact .inl h
    · rw [stay _ _ (by rw [h]; decide)]; exact .inr ⟨h1, h⟩
    · rcases ih s.decodeSubframe h2 (by rw [h1]; omega) (by rw [h1]; omega) with h | ⟨h, h'⟩
      · exact .inl h
      · exact .inr ⟨h.trans h1, h'⟩

/-- After the frame search: over, or at the first subframe under a header with a legal assignment (R420). -/
theorem State.findFrame_phase (s : State) :
    s.findFrame.dec = .unset ∨ (s.findFrame.dec.phase = .subframe ∧ s.findFrame.dec.chan = 0 ∧
    0 < s.findFrame.dec.header.channels ∧ s.findFrame.dec.header.assign.toNat ≤ 10) := by
  have key : ∀ o hd p, parseFrameHeader s o (8 * o) = .ok (hd, p) → 0 < hd.channels ∧ hd.assign.toNat ≤ 10 := by
    intro o hd p h
    obtain ⟨h16, b, h⟩ := parseFrameHeader_ok h
    obtain ⟨-, h11, -, h⟩ := headerAfterSync_ok h
    obtain ⟨-, -, -, -, -, ha, -, -, -, -, -, hc, -⟩ := headerAfterAssignment_ok h
    have hlt := s.chunk.bits_lt (8 * o + 16 + 8) 4
    have ha' : hd.assign.toNat = s.chunk.bits (8 * o + 16 + 8) 4 := by rw [ha, BitVec.toNat_ofNat,
        Nat.mod_eq_of_lt hlt]
    refine ⟨?_, by omega⟩
    rw [hc]; unfold channelCount; split_ifs <;> omega
  rcases s.findFrame_cases with ⟨hd, p, h1, h2⟩ | ⟨e, -, ⟨r, hd, p, -, -, -, h1, h2⟩ | ⟨-, h⟩⟩
  · rw [h2]; exact .inr ⟨rfl, rfl, key 0 hd p h1⟩
  · rw [h2]; exact .inr ⟨rfl, rfl, key r hd p h1⟩
  · rw [h, State.noFrame_eq]; exact .inl rfl

/-! Whole DECODEs. -/

/-- A property `P` of the end of a DECODE, by a property `H` of the search for its header: every operation keeps them
(R420, R500). -/
theorem State.decodeChunk_keeps {H P : State → Prop} {s : State} (h0 : H s.beginDecode)
    (hcand : ∀ u o, H u → H (u.atCandidate o)) (hnote : ∀ u e, H u → H (u.noteFirstError e))
    (hacc : ∀ u hd p, H u → parseFrameHeader u u.dec.frameStart (8 * u.dec.frameStart) = .ok (hd, p) →
      P (u.acceptHeader hd p))
    (hno : ∀ u, H u → P u.noFrame) (hsub : ∀ u, P u → u.dec.phase = .subframe → P u.decodeSubframe)
    (hfin : ∀ u, P u → u.dec.phase = .decorrelate →
      P (u.decorrelate u.dec.header.assign u.dec.header.blockSize).finishFrame) : P s.decodeChunk := by
  have hfind : P s.beginDecode.findFrame := by
    rcases s.beginDecode.findFrame_cases with ⟨hd, p, h1, h2⟩ | ⟨e, -, ⟨r, hd, p, -, -, -, h1, h2⟩ | ⟨-, h⟩⟩
    · rw [h2]
      exact hacc _ _ _ (hcand _ _ h0) h1
    · rw [h2]
      exact hacc _ _ _ (hcand _ _ (hnote _ _ (hcand _ _ h0))) h1
    · rw [h]
      exact hno _ (hnote _ _ (hcand _ _ h0))
  have hchan : ∀ n u, P u → P (u.decodeChannels n) := by
    intro n
    induction n with
    | zero => exact fun u h => h
    | succ n ih =>
      intro u h
      unfold State.decodeChannels
      split_ifs with hp
      · exact ih _ (hsub _ h hp)
      · exact h
  unfold State.decodeChunk State.deliverDecoded
  dsimp only
  split_ifs with hp
  · exact hfin _ (hchan _ _ hfind) hp
  · exact hchan _ _ hfind

/-- The decorrelation writes the channel buffers only (R360). -/
theorem State.decorrelate_frame (s : State) (a : BitVec 4) (b : Nat) :
    s.decorrelate a b = { s with ch := (s.decorrelate a b).ch } := by
  unfold State.decorrelate
  split_ifs <;> rfl

/-- A predicted subframe has as many samples as its block (R324, R335). -/
theorem decodePredicted_length {ck : Chunk} {b p q : Nat} {pr : Predictor} {xs : List Int}
    (hw : pr.warmup.length = pr.order) (ho : pr.order < b) (h : decodePredicted ck b pr p = .ok (xs, q)) :
    xs.length = b := by
  obtain ⟨res, _, h1, h⟩ := Reader.bind_ok.1 h
  obtain ⟨ys, _, h2, h⟩ := Reader.bind_ok.1 h
  obtain ⟨h4, -⟩ := orFail_ok.1 h2
  obtain ⟨h3, -⟩ := orFail_ok.1 h
  rw [(restoreWasted_some h3).1, (predictFrom_some h4).1, List.length_reverse, decodeResidual_length h1, hw]
  omega

/-- A subframe that decodes has as many samples as its block (R310). -/
theorem decodeSubframeAt_length {ck : Chunk} {b n p q : Nat} {side : Bool} {xs : List Int}
    (h : decodeSubframeAt ck b n side p = .ok (xs, q)) : xs.length = b := by
  obtain ⟨⟨kind, order, w, e⟩, _, h1, h⟩ := Reader.bind_ok.1 h
  have ho : validSubframeOrder kind order b = true := by
    obtain ⟨_, _, _, h1⟩ := Reader.bind_ok.1 h1
    obtain ⟨_, _, _, h1⟩ := Reader.bind_ok.1 h1
    obtain ⟨_, _, _, h1⟩ := Reader.bind_ok.1 h1
    obtain ⟨_, _, _, h1⟩ := Reader.bind_ok.1 h1
    obtain ⟨_, _, h2, h1⟩ := Reader.bind_ok.1 h1
    obtain ⟨_, _, _, h1⟩ := Reader.bind_ok.1 h1
    obtain ⟨_, _, _, h1⟩ := Reader.bind_ok.1 h1
    obtain ⟨h1, -⟩ := Reader.pure_ok.1 h1
    obtain ⟨h2, -⟩ := gate_ok.1 h2
    cases h1
    exact h2
  dsimp only at h
  cases kind with
  | constant =>
    obtain ⟨ys, _, h2, h⟩ := Reader.bind_ok.1 h
    obtain ⟨v, _, _, h2⟩ := Reader.bind_ok.1 h2
    obtain ⟨rfl, -⟩ := Reader.pure_ok.1 h2
    obtain ⟨h3, -⟩ := orFail_ok.1 h
    rw [(restoreWasted_some h3).1, List.length_replicate]
  | verbatim =>
    obtain ⟨ys, _, h2, h⟩ := Reader.bind_ok.1 h
    obtain ⟨h3, -⟩ := orFail_ok.1 h
    rw [(restoreWasted_some h3).1]
    exact readMany_length h2
  | fixed =>
    obtain ⟨pr, _, h2, h⟩ := Reader.bind_ok.1 h
    obtain ⟨warm, _, h3, h2⟩ := Reader.bind_ok.1 h2
    obtain ⟨rfl, -⟩ := Reader.pure_ok.1 h2
    exact decodePredicted_length (readMany_length h3) ((validFixedOrder_iff _ _).1 ho).2 h
  | lpc =>
    obtain ⟨pr, _, h2, h⟩ := Reader.bind_ok.1 h
    obtain ⟨warm, _, h3, h2⟩ := Reader.bind_ok.1 h2
    obtain ⟨_, _, _, h2⟩ := Reader.bind_ok.1 h2
    obtain ⟨_, _, _, h2⟩ := Reader.bind_ok.1 h2
    obtain ⟨_, _, _, h2⟩ := Reader.bind_ok.1 h2
    obtain ⟨_, _, _, h2⟩ := Reader.bind_ok.1 h2
    obtain ⟨_, _, _, h2⟩ := Reader.bind_ok.1 h2
    obtain ⟨rfl, -⟩ := Reader.pure_ok.1 h2
    exact decodePredicted_length (readMany_length h3) ((validLpcOrder_iff _ _).1 ho).2 h

end Sys2Proof.Machine
end

