-- ==== Sys2Proof/Tests/Slice0.lean ====
section
/-! SUPPORT. The model's own tests: ill-formed terms, words written out from the encodings of 30_encoding.md, one step of
each instruction with the results of 95_test_vectors.md or of the rule's own example, and for each statement with
hypotheses a concrete state and operands that meet them. -/

namespace Sys2Proof.Tests

-- One proof at a time: the kernel evaluations of many theorems side by side need too much memory.
set_option Elab.async false

open Sys2Proof Sys2Proof.Machine

/-! Ill-formed terms: a command word that is one of the eight commands is no ILLEGAL_COMMAND (R175), and the all-ones
parameter is the escape, not a partition (R142). -/

theorem test_init_word_is_no_illegal_command : Instr.wellFormed (.illegalCommand 1 0) = false := by decide

theorem test_check_md5_word_is_no_illegal_command : Instr.wellFormed (.illegalCommand 8 0) = false := by decide

theorem test_rice4_partition_15_ill_formed : Instr.wellFormed (.rice4Partition 15) = false := by decide

theorem test_rice5_partition_31_ill_formed : Instr.wellFormed (.rice5Partition 31) = false := by decide

/-! Decoding: every row of the table from words written out bit by bit. -/

/-- R170, R171: opcode in bits [7:0], zeros above. -/
theorem test_decode_commands :
    decode .command 0b00000000000000000000000000000001 = .ok .init ∧
      decode .command 0b00000000000000000000000000000010 = .ok .decode ∧
      decode .command 0b00000000000000000000000000000011 = .ok .flush ∧
      decode .command 0b00000000000000000000000000000100 = .ok .reset ∧
      decode .command 0b00000000000000000000000000000101 = .ok .seek ∧
      decode .command 0b00000000000000000000000000000110 = .ok .setStreaminfo ∧
      decode .command 0b00000000000000000000000000000111 = .ok .setSeektable ∧
      decode .command 0b00000000000000000000000000001000 = .ok .checkMd5 := by decide

/-- R175: opcode 0, opcode 9, opcode 0xFF, and a bit above [7:0]. -/
theorem test_decode_illegal_commands :
    decode .command 0x00000000 = .ok (.illegalCommand 0 0) ∧ decode .command 0x00000009 = .ok (.illegalCommand 9 0) ∧
      decode .command 0x000000FF = .ok (.illegalCommand 0xFF 0) ∧
      decode .command 0x80000002 = .ok (.illegalCommand 2 0x800000) := by decide

/-- R127: sync 11111111111110, reserved bit, blocking bit. -/
theorem test_decode_frame_starts :
    decode .frame 0b1111111111111000 = .ok .frameFixed ∧ decode .frame 0b1111111111111001 = .ok .frameVariable ∧
      decode .frame 0b1111111111111010 = .ok (.frameReservedBit false) ∧
      decode .frame 0b1111111111111011 = .ok (.frameReservedBit true) ∧
      decode .frame 0b1111111111110100 = .error .noSync ∧ decode .frame 0b0111111111111000 = .error .noSync ∧
      decode .frame 0b11111111111110000 = .error .tooWide := by decide

/-- R130, R131: pad bit, six type bits, wasted-bits flag. -/
theorem test_decode_subframe_types :
    decode .subframe 0b00000000 = .ok (.sfConstant false) ∧ decode .subframe 0b00000011 = .ok (.sfVerbatim true) ∧
      decode .subframe 0b00010000 = .ok (.sfFixed0 false) ∧ decode .subframe 0b00010011 = .ok (.sfFixed1 true) ∧
      decode .subframe 0b00010100 = .ok (.sfFixed2 false) ∧ decode .subframe 0b00010110 = .ok (.sfFixed3 false) ∧
      decode .subframe 0b00011001 = .ok (.sfFixed4 true) ∧ decode .subframe 0b01000000 = .ok (.sfLpc 0 false) ∧
      decode .subframe 0b01111111 = .ok (.sfLpc 31 true) := by decide

/-- R131, R175: types 2 to 7, 13 to 31, and the pad bit. -/
theorem test_decode_reserved_subframe_types :
    decode .subframe 0b00000100 = .ok (.sfReservedType23 0 false) ∧
      decode .subframe 0b00000111 = .ok (.sfReservedType23 1 true) ∧
      decode .subframe 0b00001000 = .ok (.sfReservedType47 0 false) ∧
      decode .subframe 0b00001111 = .ok (.sfReservedType47 3 true) ∧
      decode .subframe 0b00011010 = .ok (.sfReservedType13 false) ∧
      decode .subframe 0b00011100 = .ok (.sfReservedType1415 0 false) ∧
      decode .subframe 0b00011111 = .ok (.sfReservedType1415 1 true) ∧
      decode .subframe 0b00100000 = .ok (.sfReservedType1631 0 false) ∧
      decode .subframe 0b00111111 = .ok (.sfReservedType1631 15 true) ∧
      decode .subframe 0b10000000 = .ok (.sfPadBitSet 0) ∧ decode .subframe 0b11111111 = .ok (.sfPadBitSet 127) := by
  decide

/-- R141, R142. -/
theorem test_decode_residual_fields :
    decode .method 0b00 = .ok .resRice4 ∧ decode .method 0b01 = .ok .resRice5 ∧
      decode .method 0b10 = .ok (.resReserved 0) ∧ decode .method 0b11 = .ok (.resReserved 1) ∧
      decode .param4 0b1111 = .ok .rice4Escape ∧ decode .param4 0b1110 = .ok (.rice4Partition 14) ∧
      decode .param5 0b11111 = .ok .rice5Escape ∧ decode .param5 0b11110 = .ok (.rice5Partition 30) := by decide

/-- R124. -/
theorem test_decode_assignments :
    decode .assignment 0b0000 = .ok (.chIndependent 0) ∧ decode .assignment 0b0111 = .ok (.chIndependent 7) ∧
      decode .assignment 0b1000 = .ok .chLeftSide ∧ decode .assignment 0b1001 = .ok .chRightSide ∧
      decode .assignment 0b1010 = .ok .chMidSide ∧ decode .assignment 0b1011 = .ok .chReserved11 ∧
      decode .assignment 0b1100 = .ok (.chReserved1215 0) ∧ decode .assignment 0b1111 = .ok (.chReserved1215 3) := by
  decide

/-! States for the tests. -/

/-- The `n` bytes whose big-endian value is `v`. -/
def bytesOf (n v : Nat) : List Byte := (List.range n).map fun i => BitVec.ofNat 8 (v / 256 ^ (n - 1 - i))

/-- `s` with these bytes as the chunk. -/
def withChunk (s : State) (bytes : List Byte) : State :=
  { s with mem := Memory.writeBytes s.mem inbufBase bytes, inLen := BitVec.ofNat 32 bytes.length }

/-- The state after the instruction. -/
def after (i : Instr) (s : State) : State :=
  match exec i s with
  | .next t => t
  | .fault _ => s
  | .refused _ => s

/-- The state after one step. -/
def stepped (s : State) : State :=
  match step s with
  | .next t => t
  | .fault _ => s
  | .refused _ => s

/-- The 34 bytes of P1's STREAMINFO: blocks of 16, 44100 Hz, 1 channel, 16 bits, 16 samples (program P1). -/
def p1Info : List Byte :=
  bytesOf 34 0x00100010_000000_000000_0AC440F000000010_FCEE6CB8A9BCC1706A67128D1C4F59B4

/-- Power-on with P1's STREAMINFO in SI_BUF. -/
def p1Boot : State := { State.reset with mem := Memory.writeBytes [] siBufBase p1Info }

/-- After SET_STREAMINFO and INIT, with MD5 enabled. -/
def p1Ready : State := after .init { after .setStreaminfo p1Boot with cfg := ⟨true, false⟩ }

/-- P1's frame of 16 samples of 1000. -/
def p1Frame : List Byte := bytesOf 12 0xFFF86908000F300003E84EF0

/-- P1 after its DECODE. -/
def p1Decoded : State := after .decode (withChunk p1Ready p1Frame)

/-- INITIALIZED with STREAMINFO of 44100 Hz, `c` channels of `n` bits and an unknown total. -/
def ready (c n : Nat) : State :=
  { State.reset with
    dstate := .initialized
    siValid := true
    si :=
      { minBlock := 16, maxBlock := 16, minFrame := 0, maxFrame := 0, rate := 44100, channels := BitVec.ofNat 4 c,
        bps := BitVec.ofNat 6 n, total := 0, md5 := .zero } }

/-- At the header at offset 0 of the chunk. -/
def atHeader (s : State) (bytes : List Byte) : State :=
  { withChunk s bytes with dec := { DecodeCtx.unset with phase := .header } }

/-- A header of `c` channels, block size `b`, depth `n`, assignment `a`. -/
def headerOf (a : BitVec 4) (c b n : Nat) : FrameHeader :=
  { FrameHeader.unset with assign := a, channels := c, blockSize := b, bps := n, rate := 44100 }

/-- At the subframe of channel `chan` that begins at the chunk's first bit. -/
def atSubframe (hd : FrameHeader) (chan : Nat) (bytes : List Byte) : State :=
  { withChunk (ready 1 16) bytes with
    dec := { DecodeCtx.unset with phase := .subframe, header := hd, chan := chan } }

/-- At the residual of a FIXED order 0 subframe of one channel with block size `b`. -/
def atResidual (b : Nat) (bytes : List Byte) : State :=
  { withChunk (ready 1 16) bytes with
    dec :=
      { DecodeCtx.unset with
        phase := .residual
        header := headerOf 0 1 b 16
        pred := { Predictor.unset with kind := .fixed, depth := 16 } } }

/-- At the one partition of such a residual, its parameter at the chunk's first bit. -/
def atPartition (b : Nat) (bytes : List Byte) : State :=
  { atResidual b bytes with dec := { (atResidual b bytes).dec with phase := .partition } }

/-- After the subframes of a frame of one sample of 16 bits with these samples in channels 0 and 1. -/
def atDecorrelate (a : BitVec 4) (x y : Int) : State :=
  { ready 2 16 with
    ch := [[BitVec.ofInt 32 x], [BitVec.ofInt 32 y], [], [], [], [], [], []]
    dec := { DecodeCtx.unset with phase := .decorrelate, header := headerOf a 2 1 16 } }

/-- At the channel assignment in P1's header, after the codes 6 and 9. -/
def atAssignment (bytes : List Byte) : State :=
  { withChunk (ready 1 16) bytes with
    dec :=
      { DecodeCtx.unset with
        phase := .assignment
        cursor := 24
        header := { FrameHeader.unset with bsCode := 6, srCode := 9 } } }

/-! The commands (programs P1 and P5 of 95_test_vectors.md, and the examples of the rules). -/

theorem test_init_p1 : p1Ready.dstate = .initialized ∧ p1Ready.status.cmdOk = true ∧ p1Ready.errorWord = 0 := by
  decide +kernel

/-- R520: SI_VALID is 0 at power-on. -/
theorem test_init_without_streaminfo : (after .init State.reset).errorWord = 0x00000003 := by decide +kernel

/-- Program P1. -/
theorem test_decode_p1 :
    p1Decoded.statusWord = 0x8A ∧ p1Decoded.errorWord = 0 ∧ p1Decoded.pos = 16 ∧ p1Decoded.outByte 0 = 0xE8 ∧
      p1Decoded.outByte 1 = 0x03 ∧ p1Decoded.outByte 31 = 0x03 ∧ p1Decoded.frameBytes = 12 := by decide +kernel

/-- V-FS5: the subframe is cut short. -/
theorem test_decode_cut_subframe :
    (after .decode (withChunk (ready 1 16) (bytesOf 9 0xFFF86908000F300003))).errorWord = 0x00082B09 := by
  decide +kernel

/-- Program P1. -/
theorem test_flush_p1 : (after .flush p1Decoded).statusWord = 0x8C ∧ (after .flush p1Decoded).outTs = 16 := by
  decide +kernel

/-- R530: back to INITIALIZED from DECODING, POS 0, STREAMINFO kept. -/
theorem test_reset_p1 :
    (after .reset p1Decoded).statusWord = 0x89 ∧ (after .reset p1Decoded).pos = 0 ∧
      (after .reset p1Decoded).sample 0 0 = 0 := by decide +kernel

/-- The seek table of program P5. -/
def p5Table : List SeekPoint :=
  [⟨0, 0, 16⟩, ⟨1024, 2000, 16⟩, ⟨2048, 4100, 16⟩, ⟨0xFFFFFFFFFFFFFFFF, 0, 0⟩]

/-- Program P5: target 1500. -/
theorem test_seek_p5 :
    (after .seek { ready 1 16 with st := p5Table, seekTargetLo := 1500 }).seekSample = 1024 ∧
      (after .seek { ready 1 16 with st := p5Table, seekTargetLo := 1500 }).seekOffset = 2000 ∧
      (after .seek { ready 1 16 with st := p5Table, seekTargetLo := 1500 }).pos = 1024 ∧
      (after .seek { ready 1 16 with st := p5Table, seekTargetLo := 1500 }).md5.tainted = true := by decide +kernel

/-- Program P1: the fields of SI_BUF. -/
theorem test_set_streaminfo_p1 :
    (after .setStreaminfo p1Boot).si =
      ⟨16, 16, 0, 0, 44100, 1, 16, 16, ⟨0xB86CEEFC, 0x70C1BCA9, 0x8D12676A, 0xB4594F1C⟩⟩ := by decide +kernel

/-- Program P5: the second record. -/
theorem test_set_seektable_p5 :
    (after .setSeektable
      { State.reset with
        stCount := 2
        mem := Memory.writeBytes [] stBufBase
          (bytesOf 36 0x000000000000000000000000000000000010_000000000000040000000000000007D00010) }).st =
      [⟨0, 0, 16⟩, ⟨1024, 2000, 16⟩] := by decide +kernel

/-- Program P1: MATCH, and the digest of 32 bytes E8 03. -/
theorem test_check_md5_p1 :
    (after .checkMd5 (after .flush p1Decoded)).statusWord = 0x18C ∧
      (after .checkMd5 (after .flush p1Decoded)).md5Digest.w0 = 0xB86CEEFC := by decide +kernel

/-- R561: the word 0x00000109. -/
theorem test_illegal_command : (stepped { p1Ready with host := [.write .word 0 0x109] }).errorWord = 0x00000901 := by
  decide +kernel

/-! The frame header (V-FH vectors). -/

/-- P1's header. -/
theorem test_frame_fixed_p1 :
    (after .frameFixed (atHeader (ready 1 16) p1Frame)).hdr = ⟨16, 44100, 0, 1, 16, 0, false, 0x30, 0, 0⟩ ∧
      (after .frameFixed (atHeader (ready 1 16) p1Frame)).dec.cursor = 56 := by decide +kernel

/-- V-FH15: the CRC-8 is wrong. -/
theorem test_frame_fixed_bad_crc8 :
    (stepped (atHeader (ready 1 16) (bytesOf 7 0xFFF86908000F31))).errorWord = 0x00000D08 ∧
      (stepped (atHeader (ready 1 16) (bytesOf 7 0xFFF86908000F31))).cnt.crc8Err = 1 := by decide +kernel

/-- V-FH22: a 7-byte coded number. -/
theorem test_frame_variable_long_number :
    (stepped (atHeader (ready 1 16) (bytesOf 13 0xFFF96908FE80808080_80810FCE))).hdr.number = 1 ∧
      (stepped (atHeader (ready 1 16) (bytesOf 13 0xFFF96908FE80808080_80810FCE))).hdr.blocking = true := by
  decide +kernel

/-- V-FH3. -/
theorem test_frame_reserved_bit :
    (stepped (atHeader (ready 1 16) (bytesOf 7 0xFFFA6908000FF4))).errorWord = 0x00000108 := by decide +kernel

/-- V-FH6 met at its channel assignment. -/
theorem test_ch_reserved_11 :
    (after .chReserved11 (atAssignment (bytesOf 7 0xFFF869B8000FDA))).errorWord = 0x00000608 := by decide +kernel

theorem test_ch_reserved_12_15 :
    (after (.chReserved1215 3) (atAssignment (bytesOf 7 0xFFF869F8000FDA))).errorWord = 0x00000608 := by decide +kernel

/-! Subframes (V-SF vectors). -/

/-- V-SF2: four wasted bits. -/
theorem test_sf_constant :
    (after (.sfConstant true) (atSubframe (headerOf 0 1 3 8) 0 (bytesOf 2 0b0000000100010011))).samples 0 4 =
      [48, 48, 48, 0] := by decide +kernel

/-- V-SF21: a side subframe has one more bit. -/
theorem test_sf_constant_side :
    (after (.sfConstant false) (atSubframe (headerOf 8 2 2 8) 1 (bytesOf 3 0b000000001000000000000000))).samples 1 2 =
      [-256, -256] := by decide +kernel

/-- V-SF3. -/
theorem test_sf_verbatim :
    (after (.sfVerbatim false) (atSubframe (headerOf 0 1 3 8) 0 (bytesOf 4 0x027F80FF))).samples 0 3 =
        [127, -128, -1] :=
  by decide +kernel

/-- V-SF4. -/
theorem test_sf_fixed0 :
    (after (.sfFixed0 false)
      (atSubframe (headerOf 0 1 3 8) 0 (bytesOf 4 0b00010000_00000000_10011010_11000000))).samples 0 3 =
          [3, -1, 0] := by
  decide +kernel

/-- V-SF5. -/
theorem test_sf_fixed1 :
    (after (.sfFixed1 false)
      (atSubframe (headerOf 0 1 3 8) 0 (bytesOf 5 0b00010010_00000101_00000000_10010001_01000000))).samples 0 3 =
      [5, 7, 4] := by decide +kernel

/-- V-SF6, the source's own example. -/
theorem test_sf_fixed2 :
    (after (.sfFixed2 false)
      (atSubframe (headerOf 0 1 3 8) 0 (bytesOf 5 0b00010100_00001010_00001100_00000000_10110000))).samples 0 3 =
      [10, 12, 15] := by decide +kernel

/-- V-SF7. -/
theorem test_sf_fixed3 :
    (after (.sfFixed3 false)
      (atSubframe (headerOf 0 1 5 8) 0
        (bytesOf 6 0b00010110_00000001_00000100_00001001_00000000_00110000))).samples 0 5 = [1, 4, 9, 16, 25] := by
  decide +kernel

/-- V-SF9: the residual is -5. -/
theorem test_sf_fixed4 :
    (after (.sfFixed4 false)
      (atSubframe (headerOf 0 1 5 8) 0
        (bytesOf 7 0b00011000_00000001_00001000_00011011_01000000_00000000_11010010))).samples 0 5 =
      [1, 8, 27, 64, 120] := by decide +kernel

/-- V-SF10: order 1, coefficient 3, shift 1. -/
theorem test_sf_lpc_order_1 :
    (after (.sfLpc 0 false)
      (atSubframe (headerOf 0 1 3 16) 0
        (bytesOf 7 0b01000000_00000000_00000100_00110000_10011000_00000101_10111000))).samples 0 3 = [4, 7, 8] := by
  decide +kernel

/-- V-SF11: order 2, coefficients 2 and -1. -/
theorem test_sf_lpc_order_2 :
    (after (.sfLpc 1 false)
      (atSubframe (headerOf 0 1 3 8) 0
        (bytesOf 7 0b01000010_00001010_00001100_00100000_00101110_00000001_01100000))).samples 0 3 = [10, 12, 15] := by
  decide +kernel

/-- V-SF19: types 2, 13 and 31, and the other reserved rows; V-SF18: the pad bit. -/
theorem test_reserved_subframes :
    (after (.sfReservedType23 0 false) (atSubframe (headerOf 0 1 2 8) 0 [0x04])).dec.failed =
        some (0, .reservedType) ∧
      (after (.sfReservedType47 3 false) (atSubframe (headerOf 0 1 2 8) 0 [0x0E])).dec.failed =
        some (0, .reservedType) ∧
      (after (.sfReservedType13 false) (atSubframe (headerOf 0 1 2 8) 0 [0x1A])).dec.failed =
        some (0, .reservedType) ∧
      (after (.sfReservedType1415 0 false) (atSubframe (headerOf 0 1 2 8) 0 [0x1C])).dec.failed =
        some (0, .reservedType) ∧
      (after (.sfReservedType1631 15 false) (atSubframe (headerOf 0 1 2 8) 0 [0x3E])).dec.failed =
        some (0, .reservedType) ∧
      (after (.sfPadBitSet 0) (atSubframe (headerOf 0 1 2 8) 0 [0x80])).dec.failed = some (0, .padBit) := by
  decide +kernel

/-! Residuals (V-RS vectors). -/

/-- V-RS1. -/
theorem test_res_rice4 :
    (after .resRice4 (atResidual 3 (bytesOf 3 0b00000000_10110010_10011100))).samples 0 3 = [1, -3, -6] := by
  decide +kernel

/-- V-RS2: two partitions with parameters 0 and 1. -/
theorem test_res_rice4_two_partitions :
    (after .resRice4 (atResidual 4 (bytesOf 3 0b00000100_00101000_10010011))).samples 0 4 = [0, -1, 2, -2] := by
  decide +kernel

/-- V-RS7: a RICE5 escape of width 1. -/
theorem test_res_rice5 :
    (after .resRice5 (atResidual 3 (bytesOf 3 0b01000011_11100001_01100000))).samples 0 3 = [0, -1, -1] := by
  decide +kernel

/-- V-RS9, V-RS10. -/
theorem test_res_reserved :
    (after (.resReserved 0) (atResidual 4 [0x80])).dec.failed = some (0, .reservedMethod) ∧
      (after (.resReserved 1) (atResidual 4 [0xC0])).dec.failed = some (0, .reservedMethod) := by decide +kernel

/-- The partition of V-RS1. -/
theorem test_rice4_partition :
    (after (.rice4Partition 2) (atPartition 3 (bytesOf 2 0b00101100_10100111))).samples 0 3 = [1, -3, -6] := by
  decide +kernel

/-- The codes of V-RS1 after a 5-bit parameter. -/
theorem test_rice5_partition :
    (after (.rice5Partition 2) (atPartition 3 (bytesOf 3 0b00010110_01010011_10000000))).samples 0 3 = [1, -3, -6] := by
  decide +kernel

/-- The partition of V-RS3. -/
theorem test_rice4_escape :
    (after .rice4Escape (atPartition 3 (bytesOf 3 0b11110010_00111100_01111000))).samples 0 3 = [7, -8, -1] := by
  decide +kernel

/-- The partition of V-RS7. -/
theorem test_rice5_escape :
    (after .rice5Escape (atPartition 3 (bytesOf 2 0b11111000_01011000))).samples 0 3 = [0, -1, -1] := by decide +kernel

/-! Channel assignments. -/

/-- R361 leaves the samples, R381 writes them. -/
theorem test_ch_independent :
    (after (.chIndependent 1) (atDecorrelate 1 100 (-2))).samples 0 1 = [100] ∧
      (after (.chIndependent 1) (atDecorrelate 1 100 (-2))).outByte 2 = 0xFE := by decide +kernel

/-- CH_INDEPENDENT met in P1's header. -/
theorem test_ch_independent_in_header :
    (after (.chIndependent 0) (atAssignment p1Frame)).dec.phase = .subframe ∧
      (after (.chIndependent 0) (atAssignment p1Frame)).hdr.count = 1 := by decide +kernel

/-- The example of R362. -/
theorem test_ch_left_side :
    (after .chLeftSide (atDecorrelate 8 100 30)).samples 0 1 = [100] ∧
      (after .chLeftSide (atDecorrelate 8 100 30)).samples 1 1 = [70] := by decide +kernel

/-- The example of R363. -/
theorem test_ch_right_side :
    (after .chRightSide (atDecorrelate 9 30 70)).samples 0 1 = [100] ∧
      (after .chRightSide (atDecorrelate 9 30 70)).samples 1 1 = [70] := by decide +kernel

/-- The example of R364. -/
theorem test_ch_mid_side :
    (after .chMidSide (atDecorrelate 10 5 3)).samples 0 1 = [7] ∧
      (after .chMidSide (atDecorrelate 10 5 3)).samples 1 1 = [4] := by decide +kernel

/-! The cursor and the parameters. -/

/-- V-BR16 and V-BR17: the bits skipped and the cursor after. -/
theorem test_align_to_byte : alignToByte (8 * 3 + 5) = (3, 8 * 4) ∧ alignToByte (8 * 4) = (0, 8 * 4) := by decide

/-- The values of R8. -/
theorem test_parameter_values :
    Config.Params.defaults = ⟨65535, 8, 1000000, 1048576, 10, 1048575, 16777215, 16777216, 932067, false⟩ ∧
      Config.sampleW = 32 ∧ Config.accW = 64 ∧ Config.outW = 16 := by decide

/-- R8, R412: P1's header in a block with a MAX_BLOCK_SIZE of 8. -/
theorem test_smaller_block :
    (stepped (atHeader { ready 1 16 with params := { Config.Params.defaults with maxBlockSize := 8 } }
        p1Frame)).errorWord =
      0x00000308 := by decide +kernel

/-- R270, R409: a header of two channels (V-FH12) in a block with a MAX_CHANNELS of 1. -/
theorem test_channel_count_gate :
    (stepped (atHeader { ready 2 16 with params := { Config.Params.defaults with maxChannels := 1 } }
        (bytesOf 7 0xFFF86918000F92))).errorWord =
      0x00000708 := by decide +kernel

/-! The host's accesses. -/

/-- R31: POSITION_LO loads the latch; R95: byte lanes. -/
theorem test_host_accesses :
    (stepped { ready 1 16 with pos := 0x500000007, host := [.read .word 0x28] }).readData = 7 ∧
      (stepped { ready 1 16 with pos := 0x500000007, host := [.read .word 0x28] }).posHiLatch = 5 ∧
      (stepped { ready 1 16 with host := [.write .word 0x10000004 0x44332211] }).inByte 5 = 0x22 := by decide +kernel

/-! Witnesses: for each statement with hypotheses, a concrete state and operands that meet them, for each of its clauses
at the ends of its range. -/

/-- EncodeThenDecode: the ends of the ranges that WellFormed cuts. -/
theorem witness_EncodeThenDecode :
    Instr.wellFormed (.illegalCommand 0 0) = true ∧ Instr.wellFormed (.illegalCommand 9 0) = true ∧
      Instr.wellFormed (.illegalCommand 1 0xFFFFFF) = true ∧ Instr.wellFormed (.rice4Partition 14) = true ∧
      Instr.wellFormed (.rice5Partition 30) = true ∧ Instr.wellFormed (.sfLpc 31 true) = true := by decide

/-- DecodeThenEncode: a decoded value, the widest value of a slot and the first too wide one. -/
theorem witness_DecodeThenEncode :
    decode .param5 30 = .ok (.rice5Partition 30) ∧ decode .command 0xFFFFFFFF = .ok (.illegalCommand 0xFF 0xFFFFFF) ∧
      2 ^ Slot.bits .param4 ≤ 16 ∧ (0xFFFB < 2 ^ 16 ∧ 0xFFFC / 4 ≠ 0x3FFE) := by decide

/-- StepRunsCommand: a waiting CMD write of the first and of the last command. -/
theorem witness_StepRunsCommand :
    State.reset.dec.phase = .idle ∧ decode .command (1#32).toNat = .ok .init ∧
      decode .command (0xFFFFFFFF#32).toNat = .ok (.illegalCommand 0xFF 0xFFFFFF) ∧
      ({ State.reset with host := [.write .word 0x00000000 1] } : State).host = .write .word 0x00000000 1 :: [] := by
  decide

/-- StepRunsElement: P1's header, its subframe, its channel assignment, and a chunk with no header. -/
theorem witness_StepRunsElement :
    (atHeader (ready 1 16) p1Frame).dec.slot = .frame ∧
      decode .frame ((atHeader (ready 1 16) p1Frame).chunk.bits 0 16) = .ok .frameFixed ∧
      8 ≤ (atSubframe (headerOf 0 1 3 8) 0 [0x02]).chunk.bitsLeft 0 ∧
      decode .subframe ((atSubframe (headerOf 0 1 3 8) 0 [0x02]).chunk.bits 0 8) = .ok (.sfVerbatim false) ∧
      (atDecorrelate 10 5 3).dec.phase = .decorrelate ∧
      decode .assignment (atDecorrelate 10 5 3).dec.header.assign.toNat = .ok .chMidSide ∧
      (atHeader (ready 1 16) [0xFF]).dec.phase = .header ∧ (atHeader (ready 1 16) [0xFF]).chunk.bitsLeft 0 < 16 ∧
      (atHeader (ready 1 16) [0xAA, 0x55]).chunk.bits 0 14 ≠ 0x3FFE := by decide +kernel

/-- StepPerformsHostAccess: no access, a read, a write that is no word write to CMD. -/
theorem witness_StepPerformsHostAccess :
    State.reset.dec.phase = .idle ∧ State.reset.host = [] ∧
      ({ State.reset with host := [.read .word 0x28] } : State).host = .read .word 0x28 :: [] ∧
      ({ State.reset with host := [.write .byte 0x00000000 1] } : State).host = .write .byte 0x00000000 1 :: [] ∧
      ¬(AccessSize.byte = .word ∧ (0x00000000 : Word) = 0x00000000) := by decide

/-- StatusAndErrorWords: the words of a state, the first and the last of the other registers and one of several fields:
CMD, CONFIG, CONSEC_ERR after one failure, POSITION_LO, SI_MD5_3 and HDR_MISC after P1; the first and the last
reserved offset; and the last cause. -/
theorem witness_StatusAndErrorWords :
    p1Boot.hostReadValue .word 0x00000004 = 0 ∧ (after .init State.reset).hostReadValue .word 0x00000008 = 3 ∧
      (0x010, 1) ∈ registerValues (after .decode (withChunk (ready 1 16) [0xAA, 0x55])) ∧
      (0x0F0, 0xB4594F1C) ∈ registerValues p1Ready ∧ (0x0A8, 0x3000) ∈ registerValues p1Decoded ∧
      ((0x000, 0) ∈ registerValues p1Decoded ∧ (0x00C, 1) ∈ registerValues p1Decoded ∧
        (0x028, 16) ∈ registerValues p1Decoded) ∧
      (∀ off ∈ [0x078, 0x0FC], off < 0x100 ∧ off ∉ [0x004, 0x008] ∧ off ∉ (registerValues p1Decoded).map Prod.fst) ∧
      Cause.missingFooter ≠ .noSync ∧ (Cause.missingFooter, 97) ∈ errorCauses := by
  decide +kernel

/-- UndefinedAccessesIgnored: another width at an aligned address, and a word at a misaligned one. -/
theorem witness_UndefinedAccessesIgnored :
    ¬(AccessSize.half = .word ∧ (0x00000000 : Word).toNat % 4 = 0) ∧
      ¬(AccessSize.word = .word ∧ (0xFFFFFFFF : Word).toNat % 4 = 0) := by decide

/-- ReservedAddressesIgnored: the first and last read-only and reserved registers, and the words beside the buffers. -/
theorem witness_ReservedAddressesIgnored :
    ((0x000 : Word).toNat < 0x100 ∧ (0x000 : Word).toNat ∉ [0x00C, 0x014, 0x018, 0x020, 0x024]) ∧
      ((0x0FC : Word).toNat < 0x100 ∧ (0x0FC : Word).toNat ∉ [0x00C, 0x014, 0x018, 0x020, 0x024]) ∧
      (0x100 ≤ (0x124 : Word).toNat ∧ ∀ k, k < 4 → hostWritable State.reset.params ((0x124 : Word).toNat + k) = false) ∧
      (∀ k, k < 4 → hostWritable State.reset.params ((0x30000000 : Word).toNat + k) = false) ∧
      (0x078 ≤ (0x07C : Word).toNat ∧ (0x07C : Word).toNat < 0x080) ∧
      (0x0B0 ≤ (0x0B0 : Word).toNat ∧ (0x0BC : Word).toNat < 0x0C0) ∧
      (0x0F4 ≤ (0x0F4 : Word).toNat ∧ (0x0FC : Word).toNat < 0x100) ∧
      (∀ k, k < 4 → hostWritable State.reset.params ((0x300FFFF0 : Word).toNat + k) = false ∧
        inOutbuf State.reset.params ((0x300FFFF0 : Word).toNat + k) = false) ∧
      hostWritable State.reset.params 0x121 = true ∧ hostWritable State.reset.params 0x122 = false ∧
          inOutbuf State.reset.params 0x300FFFEF = true := by decide

/-- BufferWordsInLanes: the word at the end of SI_BUF, two of whose bytes the host may write. -/
theorem witness_BufferWordsInLanes :
    (0x120 : Word).toNat % 4 = 0 ∧ 0x100 ≤ (0x120 : Word).toNat ∧
      hostWritable State.reset.params ((0x120 : Word).toNat + 1) = true ∧
      hostWritable State.reset.params ((0x120 : Word).toNat + 2) = false ∧ Memory.wf State.reset.mem = true := by decide

/-- StepKeepsInvariant: a state that is not the reset state, and its step. -/
theorem witness_StepKeepsInvariant :
    State.Inv { ready 1 16 with host := [.write .word 0x00000000 2] } ∧
      step { ready 1 16 with host := [.write .word 0x00000000 2] } =
        .next (after .decode (ready 1 16)) := by
  refine ⟨⟨by decide, by decide, fun e h => ?_, by decide, by decide, by decide, fun _ => ?_, fun _ => ?_,
    by unfold channelsCanonical; decide, by decide, by decide⟩, rfl⟩
  · cases h
  · unfold acceptedStreamInfo; decide
  · unfold parsedStreamInfo; decide

/-- A STREAMINFO for INIT. -/
def infoOf (rate channels bps minBlock maxBlock : Nat) : State :=
  { State.reset with
    siValid := true
    si :=
      { minBlock := BitVec.ofNat 16 minBlock, maxBlock := BitVec.ofNat 16 maxBlock, minFrame := 0, maxFrame := 0,
        rate := BitVec.ofNat 20 rate, channels := BitVec.ofNat 4 channels, bps := BitVec.ofNat 6 bps, total := 0,
        md5 := .zero } }

/-- The same state of a block with a MAX_BLOCK_SIZE of 16 and a MAX_SAMPLE_RATE of 8000 Hz (R8). -/
def smallBlock (s : State) : State :=
  { s with params := { Config.Params.defaults with maxBlockSize := 16, maxSampleRate := 8000 } }

/-- InitCommand: each refusal, and the least and the greatest accepted values. -/
theorem witness_InitCommand :
    (ready 1 16).dstate ≠ .uninitialized ∧ State.reset.dstate = .uninitialized ∧ State.reset.siValid = false ∧
      (infoOf 0 1 4 16 16).siValid = true ∧ (infoOf 0 1 4 16 16).si.rate = 0 ∧
      (smallBlock (infoOf 8001 1 4 16 16)).params.maxSampleRate < (smallBlock (infoOf 8001 1 4 16 16)).si.rate.toNat ∧
      (infoOf 1 0 4 16 16).si.channels.toNat < 1 ∧
      (infoOf 1 9 4 16 16).params.maxChannels < (infoOf 1 9 4 16 16).si.channels.toNat ∧
      (infoOf 1 1 3 16 16).si.bps.toNat < 4 ∧ 32 < (infoOf 1 1 33 16 16).si.bps.toNat ∧
      (infoOf 1 1 4 15 16).si.minBlock.toNat < 16 ∧
      (smallBlock (infoOf 1 1 4 17 17)).params.maxBlockSize < (smallBlock (infoOf 1 1 4 17 17)).si.minBlock.toNat ∧
      (infoOf 1 1 4 17 16).si.maxBlock.toNat < (infoOf 1 1 4 17 16).si.minBlock.toNat ∧
      ((infoOf 1 1 4 16 16).si.rate ≠ 0 ∧ 1 ≤ (infoOf 1 1 4 16 16).si.channels.toNat ∧
        4 ≤ (infoOf 1 1 4 16 16).si.bps.toNat ∧ 16 ≤ (infoOf 1 1 4 16 16).si.minBlock.toNat ∧
        (infoOf 1 1 4 16 16).si.minBlock.toNat ≤ (infoOf 1 1 4 16 16).si.maxBlock.toNat) ∧
      (let u := infoOf 1048575 8 32 65535 65535
       u.si.rate.toNat ≤ u.params.maxSampleRate ∧ u.si.channels.toNat ≤ u.params.maxChannels ∧
          u.si.bps.toNat ≤ 32 ∧ u.si.minBlock.toNat ≤ u.params.maxBlockSize) := by decide

/-- FlushCommand: both accepting states and a refusing one. -/
theorem witness_FlushCommand :
    (ready 1 16).dstate = .initialized ∧ ({ ready 1 16 with dstate := .decoding } : State).dstate = .decoding ∧
      State.reset.dstate ≠ .initialized ∧ State.reset.dstate ≠ .decoding := by decide

/-- SeekCommand: accepting and refusing states. -/
theorem witness_SeekCommand :
    (ready 1 16).dstate = .initialized ∧ ({ ready 1 16 with dstate := .endOfStream } : State).dstate = .endOfStream ∧
      State.reset.dstate = .uninitialized ∧
      ({ ready 1 16 with dstate := .decoderError } : State).dstate = .decoderError := by decide

/-- SeekLookupFindsNearest: no usable point, and a usable point at the target between one of its own sample and one
below. -/
theorem witness_SeekLookupFindsNearest :
    (∀ p ∈ ([⟨0xFFFFFFFFFFFFFFFF, 9, 0⟩, ⟨8, 9, 0⟩] : List SeekPoint),
        p.sample = 0xFFFFFFFFFFFFFFFF ∨ (7 : DWord).toNat < p.sample.toNat) ∧
      ((⟨7, 1, 0⟩ : SeekPoint).sample ≠ 0xFFFFFFFFFFFFFFFF ∧
        (⟨7, 1, 0⟩ : SeekPoint).sample.toNat ≤ (7 : DWord).toNat ∧
        (∀ q ∈ ([⟨6, 0, 0⟩] : List SeekPoint), q.sample ≠ 0xFFFFFFFFFFFFFFFF → q.sample.toNat ≤ (7 : DWord).toNat →
          q.sample.toNat < (⟨7, 1, 0⟩ : SeekPoint).sample.toNat) ∧
        ∀ q ∈ ([⟨7, 2, 0⟩] : List SeekPoint), q.sample ≠ 0xFFFFFFFFFFFFFFFF → q.sample.toNat ≤ (7 : DWord).toNat →
          q.sample.toNat ≤ (⟨7, 1, 0⟩ : SeekPoint).sample.toNat) := by decide

/-- SetStreaminfoCommand: both kinds of state. -/
theorem witness_SetStreaminfoCommand : p1Boot.dstate = .uninitialized ∧ (ready 1 16).dstate ≠ .uninitialized := by
  decide

/-- SetSeektableCommand: the greatest accepted and the least refused count, and a refusing state. -/
theorem witness_SetSeektableCommand :
    (ready 1 16).dstate = .initialized ∧
      ({ ready 1 16 with stCount := 932067 } : State).stCount.toNat ≤ (ready 1 16).params.seekCap ∧
      18 * ({ ready 1 16 with stCount := 932067 } : State).stCount.toNat ≤ (ready 1 16).params.maxMetadataLen ∧
      (ready 1 16).params.seekCap < ({ ready 1 16 with stCount := 932068 } : State).stCount.toNat ∧
      ({ ready 1 16 with dstate := .decoding } : State).dstate ≠ .uninitialized ∧
      ({ ready 1 16 with dstate := .decoding } : State).dstate ≠ .initialized := by decide

/-- CheckMd5Command: each reason not to check, and P1 at its end. -/
theorem witness_CheckMd5Command :
    p1Ready.dstate ≠ .endOfStream ∧ State.reset.cfg.md5En = false ∧
      ({ p1Ready with md5 := { Md5State.cleared with tainted := true } } : State).md5.tainted = true ∧
      (ready 1 16).si.md5 = ⟨0, 0, 0, 0⟩ ∧ (after .flush p1Decoded).dstate = .endOfStream ∧
      (after .flush p1Decoded).cfg.md5En = true ∧ (after .flush p1Decoded).md5.tainted = false ∧
      (after .flush p1Decoded).si.md5 ≠ ⟨0, 0, 0, 0⟩ := by decide +kernel

/-- IllegalCommandRefused: opcodes 0 and 9, and a bit above the opcode. -/
theorem witness_IllegalCommandRefused :
    State.reset.dec.phase = .idle ∧
      ({ State.reset with host := [.write .word 0x00000000 ((1 : BitVec 24) ++ (2 : BitVec 8))] } : State).host =
        .write .word 0x00000000 ((1 : BitVec 24) ++ (2 : BitVec 8)) :: [] ∧
      (1 : BitVec 24) ≠ 0 ∧ (0 : BitVec 8) = 0 ∧ 8 < (9 : BitVec 8).toNat := by decide

/-- CommandStateTable: every command answers a next state, among them the eleventh failure in a row. -/
theorem witness_CommandStateTable :
    exec .init (infoOf 1 1 4 16 16) = .next (after .init (infoOf 1 1 4 16 16)) ∧
      exec .decode (withChunk { ready 1 16 with consec := 10 } [0xAA, 0x55]) =
        .next (after .decode (withChunk { ready 1 16 with consec := 10 } [0xAA, 0x55])) ∧
      (after .decode (withChunk { ready 1 16 with consec := 10 } [0xAA, 0x55])).dstate = .decoderError ∧
      exec .flush p1Decoded = .next (after .flush p1Decoded) ∧ exec .reset p1Decoded = .next (after .reset p1Decoded) ∧
      exec .seek p1Decoded = .next (after .seek p1Decoded) ∧
      exec .setStreaminfo p1Boot = .next (after .setStreaminfo p1Boot) ∧
      exec .checkMd5 p1Decoded = .next (after .checkMd5 p1Decoded) ∧
      exec (.illegalCommand 9 0) p1Boot = .next (after (.illegalCommand 9 0) p1Boot) :=
  ⟨rfl, rfl, by decide +kernel, rfl, rfl, rfl, rfl, rfl, rfl⟩

/-- RefusalsAndPreChecks: a state without DECODE, and the lengths at IN_CAP. -/
theorem witness_RefusalsAndPreChecks :
    State.reset.dstate ≠ .initialized ∧ State.reset.dstate ≠ .decoding ∧
      (ready 1 16).params.inCap < ({ ready 1 16 with inLen := 16777217 } : State).inLen.toNat ∧
      State.decodeStarts { ready 1 16 with inLen := 16777216 } := by unfold State.decodeStarts; decide

/-- DecodeOutcomes: P1 succeeds, the cut frame is partial, and a chunk without a sync code fails. -/
theorem witness_DecodeOutcomes :
    (State.decodeStarts (withChunk p1Ready p1Frame) ∧ (withChunk p1Ready p1Frame).ch.length = 8) ∧
      (State.decodeStarts (withChunk (ready 1 16) (bytesOf 9 0xFFF86908000F300003)) ∧
        (after .decode (withChunk (ready 1 16) (bytesOf 9 0xFFF86908000F300003))).status.silenced = true) ∧
      (State.decodeStarts (withChunk (ready 1 16) [0xAA, 0x55]) ∧
        (after .decode (withChunk (ready 1 16) [0xAA, 0x55])).errorWord = 0x00000007) := by
  unfold State.decodeStarts
  decide +kernel

/-- DecodeOutcomes: a header that fails with CRC8 (V-FH15), which is counted, and V-FS6 under CRC16_REJECT. -/
theorem witness_DecodeOutcomes_fail :
    let s := withChunk (ready 1 16) (bytesOf 7 0xFFF86908000F31)
    let u := withChunk { ready 1 16 with cfg := ⟨false, true⟩ } (bytesOf 12 0xFFF86908000F300003E84EF1)
    (State.decodeStarts s ∧ s.firstHeaderCause = some .crc8 ∧ (after .decode s).errorWord = 0x00000D08 ∧
        (after .decode s).cnt.crc8Err = 1) ∧
      (State.decodeStarts u ∧ u.firstHeaderCause = none ∧ (after .decode u).errorWord = 0x0000600A) := by
  unfold State.decodeStarts
  decide +kernel

/-- P1's header as the parser reads it. -/
def p1Header : FrameHeader :=
  { blocking := false, bsCode := 6, srCode := 9, assign := 0, blockSize := 16, rate := 44100, channels := 1, bps := 16,
    number := 0, crc8 := 0x30 }

/-- DecodeOutcomes: the frame that P1's DECODE finds and its subframe, which is read to its end; a first subframe
that the end of the chunk cuts; and the footer of V-FS6. -/
theorem witness_DecodeOutcomes_tied :
    let s := withChunk p1Ready p1Frame
    let c := withChunk (ready 1 16) (bytesOf 9 0xFFF86908000F300003)
    let f := withChunk { ready 1 16 with cfg := ⟨false, true⟩ } (bytesOf 12 0xFFF86908000F300003E84EF1)
    s.frameFoundAt 0 p1Header 56 ∧ readSubframes s.chunk p1Header 1 0 56 = .ok 80 ∧ footerTrouble s.chunk 0 80 = none ∧
      c.frameFoundAt 0 p1Header 56 ∧ readSubframes c.chunk p1Header 1 0 56 = .error (0, .underrun) ∧
      readSubframes f.chunk p1Header 1 0 56 = .ok 80 ∧ footerTrouble f.chunk 0 80 = some .footerMismatch :=
  ⟨⟨.inl rfl, by decide +kernel, fun o' h => absurd h (Nat.not_lt_zero _)⟩, by decide +kernel, by decide +kernel,
    ⟨.inl rfl, by decide +kernel, fun o' h => absurd h (Nat.not_lt_zero _)⟩, by decide +kernel, by decide +kernel,
    by decide +kernel⟩

/-- DecodeDependsOnlyOnItsInputs: two states that differ in an older sample, in a byte past the chunk and in a counter. -/
theorem witness_DecodeDependsOnlyOnItsInputs :
    let s := withChunk p1Ready p1Frame
    let u : State :=
      { s with
        ch := [[7], [], [], [], [], [], [], []]
        mem := Memory.write s.mem (inbufBase + 12) 0xFF
        cnt := { s.cnt with decodeFail := 3 } }
    State.decodeStarts s ∧ s.ch.length = 8 ∧ u.ch.length = 8 ∧ (∀ i, i < s.inLen.toNat → u.inByte i = s.inByte i) ∧
      u.ch ≠ s.ch ∧ exec .decode s = .next (after .decode s) ∧ exec .decode u = .next (after .decode u) := by
  refine ⟨?_, ?_, ?_, ?_, ?_, rfl, rfl⟩
  · unfold State.decodeStarts; decide +kernel
  · decide +kernel
  · decide +kernel
  · decide +kernel
  · decide +kernel

/-- DecodeDependsOnlyOnItsInputs: the conditions of its clauses, from the same start: a frame delivered (P1), no header
accepted, and an accepted header whose CRC-16 fails the DECODE (V-FS6 under CRC16_REJECT). -/
theorem witness_DecodeDependsOnlyOnItsInputs_clauses :
    let n := after .decode (withChunk (ready 1 16) [0xAA, 0x55])
    let h := after .decode (withChunk (ready 1 16) (bytesOf 7 0xFFF86908000F31))
    let r := after .decode
      (withChunk { ready 1 16 with cfg := ⟨false, true⟩ } (bytesOf 12 0xFFF86908000F300003E84EF1))
    (p1Decoded.err.code ≠ .syncLost ∧ p1Decoded.err.code ≠ .headerInvalid ∧ p1Decoded.out.samples ≠ 0 ∧
        0 < p1Decoded.hdr.count.toNat ∧ 0 < p1Decoded.hdr.blockSize.toNat) ∧
      (n.err.code = .syncLost ∧ n.out.samples = 0) ∧ h.err.code = .headerInvalid ∧
      (r.err.code ≠ .syncLost ∧ r.err.code ≠ .headerInvalid ∧ r.out.samples = 0 ∧ 0 < r.hdr.blockSize.toNat) := by
  decide +kernel

/-- DecodeIsItsElements: a started DECODE. -/
theorem witness_DecodeIsItsElements : State.decodeStarts (withChunk (ready 1 16) []) := by
  unfold State.decodeStarts
  decide +kernel

/-- DecodeChangesOnlyItsState: a DECODE that delivers and one that is refused, from canonical memory. -/
theorem witness_DecodeChangesOnlyItsState :
    exec .decode (withChunk p1Ready p1Frame) = .next p1Decoded ∧ Memory.wf (withChunk p1Ready p1Frame).mem = true ∧
      exec .decode State.reset = .next (after .decode State.reset) := by
  refine ⟨rfl, ?_, rfl⟩
  decide +kernel

/-- NestedElementsAgree: P1's header, and a residual of two partitions. -/
theorem witness_NestedElementsAgree :
    16 ≤ (atHeader (ready 1 16) p1Frame).chunk.bitsLeft 0 ∧
      headerCodes (atHeader (ready 1 16) p1Frame).chunk 16 = .ok ((6, 9), 24) ∧
      headerAfterSync (atHeader (ready 1 16) p1Frame) 0 false 16 = .ok (p1Header, 56) ∧
      (atResidual 4 (bytesOf 3 0b00000100_00101000_10010011)).dec.phase = .residual ∧
      6 ≤ (atResidual 4 (bytesOf 3 0b00000100_00101000_10010011)).chunk.bitsLeft 0 ∧
      (atResidual 4 (bytesOf 3 0b00000100_00101000_10010011)).chunk.bits 0 2 < 2 ∧
      validPartitionOrder ((atResidual 4 (bytesOf 3 0b00000100_00101000_10010011)).chunk.bits 2 4) 4 0 = true := by
  decide +kernel

/-- FrameHeaderAccepted: P1's header, whose block size is the least a header may always have. -/
theorem witness_FrameHeaderAccepted :
    let s := atHeader (ready 1 16) p1Frame
    32 ≤ s.chunk.bitsLeft 0 ∧ s.chunk.bits 16 4 ≠ 0 ∧ s.chunk.bits 20 4 ≠ 15 ∧ s.chunk.bits 24 4 ≤ 10 ∧
      s.chunk.bits 28 3 ≠ 3 ∧ s.chunk.bits 31 1 = 0 ∧ readCodedNumber s.chunk false 32 = .ok (0, 40) ∧
      resolveBlockSize s.chunk (s.chunk.bits 16 4) 40 = .ok (16, 48) ∧
      resolveRateField s.chunk (s.chunk.bits 20 4) 48 = .ok (44100, 48) ∧ 8 ≤ s.chunk.bitsLeft 48 ∧
      s.chunk.bits 48 8 = (crc8 (s.chunk.slice 0 6)).toNat ∧
      s.si.channels.toNat = (if s.chunk.bits 24 4 ≤ 7 then s.chunk.bits 24 4 + 1 else 2) ∧
      tableBitDepth (s.chunk.bits 28 3) = some s.si.bps.toNat ∧ s.si.channels.toNat ≤ s.params.maxChannels ∧
      4 ≤ s.si.bps.toNat ∧ s.si.bps.toNat ≤ 32 ∧ 44100 ≤ s.params.maxSampleRate ∧
      (1 ≤ 16 ∧ 16 ≤ s.params.maxBlockSize ∧ (16 ≤ 16 ∨ s.si.total = 0 ∨
        s.pos.toNat + 16 = s.si.total.toNat)) := by decide +kernel

/-- FrameHeaderAccepted with blocking 1: V-FH22, whose coded number has 7 bytes. -/
theorem witness_FrameHeaderAccepted_variable :
    let s := atHeader (ready 1 16) (bytesOf 13 0xFFF96908FE80808080_80810FCE)
    32 ≤ s.chunk.bitsLeft 0 ∧ s.chunk.bits 16 4 = 6 ∧ s.chunk.bits 20 4 = 9 ∧ s.chunk.bits 24 4 = 0 ∧
      s.chunk.bits 28 3 = 4 ∧ s.chunk.bits 31 1 = 0 ∧ readCodedNumber s.chunk true 32 = .ok (1, 88) ∧
      resolveBlockSize s.chunk 6 88 = .ok (16, 96) ∧ resolveRateField s.chunk 9 96 = .ok (44100, 96) ∧
      8 ≤ s.chunk.bitsLeft 96 ∧ s.chunk.bits 96 8 = (crc8 (s.chunk.slice 0 12)).toNat ∧ s.si.channels.toNat = 1 ∧
      tableBitDepth 4 = some s.si.bps.toNat := by decide +kernel

/-- AcceptedHeaderIsLegal: P1's header, and V-FH22 with blocking 1. -/
theorem witness_AcceptedHeaderIsLegal :
    headerAfterSync (atHeader (ready 1 16) p1Frame) 0 false 16 = .ok (p1Header, 56) ∧
      headerAfterSync (atHeader (ready 1 16) (bytesOf 13 0xFFF96908FE80808080_80810FCE)) 0 true 16 =
        .ok ({ p1Header with blocking := true, number := 1, crc8 := 0xCE }, 104) := by decide +kernel

/-- FailedHeaderTurnsToNextCandidate: V-FS2, whose next candidate is at offset 3, and a chunk with none; a candidate at
the last offset there is. -/
theorem witness_FailedHeaderTurnsToNextCandidate :
    let s := atHeader (ready 1 16) (bytesOf 15 0xFFF800FFF86908000F300003E84EF0)
    let u := atHeader (ready 1 16) [0xAA, 0x55, 0xFF, 0xF8]
    let v := atHeader (ready 1 16) [0xAA, 0x55]
    (s.dec.frameStart < 3 ∧ 3 ≤ min s.params.maxSyncSearchBytes (s.inLen.toNat - 2) ∧ s.chunk.isSync 3 = true ∧
      ∀ o', s.dec.frameStart < o' → o' < 3 → s.chunk.isSync o' = false) ∧
      (2 ≤ min u.params.maxSyncSearchBytes (u.inLen.toNat - 2) ∧ u.chunk.isSync 2 = true ∧ u.chunk.isSync 1 = false) ∧
      ∀ o, v.dec.frameStart < o → o ≤ min v.params.maxSyncSearchBytes (v.inLen.toNat - 2) →
        v.chunk.isSync o = false := by
  refine ⟨⟨by decide +kernel, by decide +kernel, by decide +kernel, fun o' h1 h2 => ?_⟩, by decide +kernel,
    fun o h1 h2 => ?_⟩
  · have h1 : 0 < o' := h1
    obtain rfl | rfl : o' = 1 ∨ o' = 2 := by omega
    · decide +kernel
    · decide +kernel
  · have h1 : 0 < o := h1
    have h2 : o ≤ min 1048576 (2 - 2) := h2
    omega

/-- Field `n` of the coded header fields, with this entry, comes after fields that are read and legal. -/
abbrev atField (s : State) (n bits : Nat) (legal : Bool) (e : Cause) : Prop :=
  codedHeaderFields s = (codedHeaderFields s).take n ++ (bits, legal, e) :: (codedHeaderFields s).drop (n + 1) ∧
    (∀ f ∈ (codedHeaderFields s).take n, f.1 ≤ s.chunk.bitsLeft s.dec.cursor ∧ f.2.1 = true) ∧
    16 ≤ s.chunk.bitsLeft s.dec.cursor

/-- FrameHeaderRejected, an illegal field: V-FH4 to V-FH8. -/
theorem witness_FrameHeaderRejected_illegal_field :
    let h := fun v => atHeader (ready 1 16) (bytesOf 7 v)
    (headerAfterSync (h 0xFFF86906000F1C) 0 false 16 = .error .reservedSampleSize) ∧
      (atField (h 0xFFF80908001800) 0 20 false .reservedBlockSize ∧ 20 ≤ (h 0xFFF80908001800).chunk.bitsLeft 0) ∧
      (atField (h 0xFFF86F08000F44) 1 24 false .reservedRate ∧ 24 ≤ (h 0xFFF86F08000F44).chunk.bitsLeft 0) ∧
      (atField (h 0xFFF869B8000FDA) 2 28 false .reservedChannels ∧ 28 ≤ (h 0xFFF869B8000FDA).chunk.bitsLeft 0) ∧
      (atField (h 0xFFF86906000F1C) 3 31 false .reservedSampleSize ∧ 31 ≤ (h 0xFFF86906000F1C).chunk.bitsLeft 0) ∧
      (atField (h 0xFFF86909000F5B) 4 32 false .reservedBit ∧ 32 ≤ (h 0xFFF86909000F5B).chunk.bitsLeft 0) := by
  decide +kernel

/-- FrameHeaderRejected, a field cut by the end of the chunk: the block-size code after two bytes, the assignment after
three. -/
theorem witness_FrameHeaderRejected_cut_field :
    let a := { atHeader (ready 1 16) p1Frame with inLen := 2 }
    let b := { atHeader (ready 1 16) p1Frame with inLen := 3 }
    (atField a 0 20 true .reservedBlockSize ∧ a.chunk.bitsLeft 0 < 20) ∧
      (atField b 2 28 true .reservedChannels ∧ b.chunk.bitsLeft 0 < 28) := by decide +kernel

/-- All coded fields of the header at the cursor are read and legal. -/
abbrev fieldsLegal (s : State) : Prop :=
  (∀ f ∈ codedHeaderFields s, f.1 ≤ s.chunk.bitsLeft s.dec.cursor ∧ f.2.1 = true) ∧
    16 ≤ s.chunk.bitsLeft s.dec.cursor

/-- FrameHeaderRejected, a bad coded number: cut (V-FH14), 0x80 (V-FH9), and after C2 no byte and the byte 00. -/
theorem witness_FrameHeaderRejected_coded_number :
    let cut := atHeader (ready 1 16) (bytesOf 4 0xFFF86908)
    let first := atHeader (ready 1 16) (bytesOf 7 0xFFF86908800F86)
    let cut2 := atHeader (ready 1 16) (bytesOf 5 0xFFF86908C2)
    let second := atHeader (ready 1 16) (bytesOf 6 0xFFF86908C200)
    (fieldsLegal cut ∧ fieldsLegal first ∧ fieldsLegal cut2 ∧ fieldsLegal second) ∧
      badCodedNumber cut.chunk false 32 .truncated ∧ badCodedNumber first.chunk false 32 .codedNumber ∧
      badCodedNumber cut2.chunk false 32 .truncated ∧ badCodedNumber second.chunk false 32 .codedNumber := by
  refine ⟨by decide +kernel, .inl (by decide +kernel), .inr (.inl (by decide +kernel)),
    .inr (.inr ⟨2, 2, 1, by decide, by decide, by decide, by decide, by decide, by decide, by decide +kernel,
      by decide +kernel, fun j h1 h2 => by omega, .inl (by decide +kernel)⟩),
    .inr (.inr ⟨2, 2, 1, by decide, by decide, by decide, by decide, by decide, by decide, by decide +kernel,
      by decide +kernel, fun j h1 h2 => by omega, .inr (by decide +kernel)⟩)⟩

/-- FrameHeaderRejected, follow-ons and the CRC byte: a cut follow-on of code 6 and of code 7, block size 65536
(V-FH10), a cut follow-on of the rate codes 12 and 13, no CRC byte. -/
theorem witness_FrameHeaderRejected_follow_ons :
    let s6 := atHeader (ready 1 16) (bytesOf 5 0xFFF8690800)
    let s7 := atHeader (ready 1 16) (bytesOf 6 0xFFF8790800FF)
    let big := atHeader (ready 1 16) (bytesOf 8 0xFFF8790800FFFF45)
    let r12 := atHeader (ready 1 16) (bytesOf 6 0xFFF86C08000F)
    let r13 := atHeader (ready 1 16) (bytesOf 7 0xFFF86D08000F00)
    let crc := atHeader (ready 1 16) (bytesOf 6 0xFFF86908000F)
    (fieldsLegal s6 ∧ readCodedNumber s6.chunk false 32 = .ok (0, 40) ∧ s6.chunk.bits 16 4 = 6 ∧
        badBlockSizeField s6.chunk 6 40 .truncated) ∧
      (fieldsLegal s7 ∧ readCodedNumber s7.chunk false 32 = .ok (0, 40) ∧ s7.chunk.bits 16 4 = 7 ∧
        badBlockSizeField s7.chunk 7 40 .truncated) ∧
      (fieldsLegal big ∧ readCodedNumber big.chunk false 32 = .ok (0, 40) ∧ big.chunk.bits 16 4 = 7 ∧
        badBlockSizeField big.chunk 7 40 .blockSize) ∧
      (fieldsLegal r12 ∧ resolveBlockSize r12.chunk 6 40 = .ok (16, 48) ∧ r12.chunk.bits 20 4 = 12 ∧
        badRateField r12.chunk 12 48) ∧
      (fieldsLegal r13 ∧ resolveBlockSize r13.chunk 6 40 = .ok (16, 48) ∧ r13.chunk.bits 20 4 = 13 ∧
        badRateField r13.chunk 13 48) ∧
      (fieldsLegal crc ∧ resolveRateField crc.chunk 9 48 = .ok (44100, 48) ∧ crc.chunk.bitsLeft 48 < 8) := by
  unfold badBlockSizeField badRateField
  exact ⟨by decide +kernel, by decide +kernel, by decide +kernel, by decide +kernel, by decide +kernel,
    by decide +kernel⟩

/-- Check `n` of the checks after the fields fails with `e` after checks that pass. -/
abbrev atCheck (s : State) (b raw p n : Nat) (e : Cause) : Prop :=
  checksAfterFields s b raw p =
      (checksAfterFields s b raw p).take n ++ (false, e) :: (checksAfterFields s b raw p).drop (n + 1) ∧
    ∀ c ∈ (checksAfterFields s b raw p).take n, c.1 = true

/-- FrameHeaderRejected, the checks after the fields: V-FH15, two channels in a block with a MAX_CHANNELS of 1, V-FH12,
P1's header in a block with a MAX_SAMPLE_RATE of 8000 Hz, code 0 with a STREAMINFO of 3 bits (V-FH26), V-FH13,
V-FH11. -/
theorem witness_FrameHeaderRejected_checks :
    let h := fun v => atHeader (ready 1 16) (bytesOf 7 v)
    let bps3 := atHeader (ready 1 3) (bytesOf 7 0xFFF86000000FC7)
    let mono := { atHeader (ready 2 16) (bytesOf 7 0xFFF86918000F92) with
      params := { Config.Params.defaults with maxChannels := 1 } }
    let last := { h 0xFFF86908000314 with si := { (h 0xFFF86908000314).si with total := 16 } }
    (fieldsLegal (h 0xFFF86908000F31) ∧ 8 ≤ (h 0xFFF86908000F31).chunk.bitsLeft 48 ∧
        atCheck (h 0xFFF86908000F31) 16 44100 48 0 .crc8) ∧
      (fieldsLegal mono ∧ atCheck mono 16 44100 48 1 .channelMismatch) ∧
      (fieldsLegal (h 0xFFF86918000F92) ∧ atCheck (h 0xFFF86918000F92) 16 44100 48 2 .channelMismatch) ∧
      (fieldsLegal (smallBlock (h 0xFFF86908000F30)) ∧ atCheck (smallBlock (h 0xFFF86908000F30)) 16 44100 48 3 .rate) ∧
      (fieldsLegal bps3 ∧ atCheck bps3 16 0 48 4 .bps) ∧
      (fieldsLegal (h 0xFFF8690C000F9B) ∧ atCheck (h 0xFFF8690C000F9B) 16 44100 48 5 .bpsMismatch) ∧
      (fieldsLegal last ∧ atCheck last 4 44100 48 6 .blockSize) := by
  decide +kernel

/-- HeaderFieldTables: follow-ons at both ends, and first bytes of coded numbers of every length at their ends. -/
theorem witness_HeaderFieldTables :
    let ck := (withChunk (ready 1 16) (bytesOf 2 0xFFFF)).chunk
    let z := (withChunk (ready 1 16) (bytesOf 2 0x0000)).chunk
    let w := (withChunk (ready 1 16) (bytesOf 2 0xDFBF)).chunk
    let e := (withChunk (ready 1 16) (bytesOf 7 0xFEBFBFBFBFBFBF)).chunk
    let c := (withChunk (ready 1 16) [0x80]).chunk
    (8 ≤ ck.bitsLeft 8 ∧ 16 ≤ ck.bitsLeft 0 ∧ ck.bits 0 16 = 0xFFFF ∧ z.bits 0 16 ≠ 0xFFFF) ∧
      (8 * max 0 1 ≤ z.bitsLeft 0 ∧ z.bits 0 8 = 0) ∧
      (31 < 2 ^ (7 - 2) ∧ 8 * max 2 1 ≤ w.bitsLeft 0 ∧ w.bits 0 8 = 256 - 2 ^ (8 - 2) + 31 ∧ w.bits 8 8 / 64 = 2) ∧
      (0 < 2 ^ (7 - 7) ∧ 8 * max 7 1 ≤ e.bitsLeft 0 ∧ e.bits 0 8 = 256 - 2 ^ (8 - 7) + 0 ∧
        ∀ j, 1 ≤ j → j < 7 → e.bits (8 * j) 8 / 64 = 2) ∧
      (8 ≤ c.bitsLeft 0 ∧ c.bits 0 8 / 64 = 2 ∧ ck.bits 0 8 = 0xFF ∧ e.bits 0 8 = 0xFE) ∧
      (4 ≤ (ready 1 4).si.bps.toNat ∧ (ready 1 32).si.bps.toNat ≤ 32) := by
  refine ⟨by decide +kernel, by decide +kernel, by decide +kernel,
    ⟨by decide +kernel, by decide +kernel, by decide +kernel, ?_⟩, by decide +kernel, by decide⟩
  have h : ∀ j, j < 7 → 1 ≤ j →
      (withChunk (ready 1 16) (bytesOf 7 0xFEBFBFBFBFBFBF)).chunk.bits (8 * j) 8 / 64 = 2 := by decide +kernel
  exact fun j h1 h2 => h j h2 h1

/-- HeaderFieldTables, the deferred rate: a follow-on of 0, a STREAMINFO rate in range, and one above a MAX_SAMPLE_RATE
of 8000 Hz. -/
theorem witness_HeaderFieldTables_deferred_rate :
    let s := withChunk (ready 1 16) (bytesOf 2 0x0000)
    (16 ≤ s.chunk.bitsLeft 0 ∧ s.chunk.bits 0 16 = 0 ∧ s.chunk.bits 0 8 = 0 ∧
        s.si.rate.toNat ≤ s.params.maxSampleRate) ∧
      (smallBlock s).params.maxSampleRate < (smallBlock s).si.rate.toNat := by decide +kernel

/-- V-FH25: a follow-on of 0 defers to the STREAMINFO rate. -/
theorem test_deferred_rate :
    (after .decode (withChunk (ready 1 16) (bytesOf 14 0xFFF86D08000F00005D0003E83B08))).out.rate = 44100 := by
  decide +kernel

/-- AssignmentReadInHeader: P1's assignment and the rest of its header; V-FH13 for one that fails. -/
theorem witness_AssignmentReadInHeader :
    4 ≤ (atAssignment p1Frame).chunk.bitsLeft 24 ∧ (atAssignment p1Frame).dec.phase ≠ .decorrelate ∧
      headerAfterAssignment (atAssignment p1Frame) 0 false 6 9 0 28 = .ok (p1Header, 56) ∧
      headerAfterAssignment (atAssignment (bytesOf 7 0xFFF8690C000F9B)) 0 false 6 9 0 28 = .error .bpsMismatch := by
  decide +kernel

/-- ConstantSubframe: V-SF2, and a wasted bit that takes the sample out of int32. -/
theorem witness_ConstantSubframe :
    let s := atSubframe (headerOf 0 1 3 8) 0 (bytesOf 2 0b0000000100010011)
    let u := atSubframe (headerOf 8 2 2 32) 1 (bytesOf 6 0b00000001_11100000_00000000_00000000_00000000_00000000)
    (8 ≤ s.chunk.bitsLeft 0 ∧ readWastedCount s.chunk true 8 = .ok (4, 12) ∧ s.effectiveDepth 4 = 4 ∧
      readSample s.chunk 4 12 = .ok (3, 16) ∧ fitsSigned (3 * 2 ^ 4) 32 = true) ∧
      (readWastedCount u.chunk true 8 = .ok (1, 9) ∧ u.effectiveDepth 1 = 32 ∧
        readSample u.chunk 32 9 = .ok (-1073741824, 41) ∧ fitsSigned (-1073741824 * 2 ^ 1) 32 = true) := by
  decide +kernel

/-- The same at the first value that does not fit: the failing clause of ConstantSubframe. -/
theorem witness_ConstantSubframe_out_of_range :
    let u := atSubframe (headerOf 8 2 2 32) 1 (bytesOf 6 0b00000001_11011111_11111111_11111111_11111111_10000000)
    8 ≤ u.chunk.bitsLeft 0 ∧ readWastedCount u.chunk true 8 = .ok (1, 9) ∧ 1 < u.dec.header.bps ∧
      u.dec.header.bps ≤ 32 ∧ 1 ≤ u.dec.header.blockSize ∧ u.effectiveDepth 1 = 32 ∧
      readSample u.chunk 32 9 = .ok (-1073741825, 41) ∧ fitsSigned (-1073741825 * 2 ^ 1) 32 = false := by decide +kernel

/-- At the side subframe, of 33 bits a sample, of a frame of two samples of 32 bits. -/
def atSide (bytes : List Byte) : State := atSubframe (headerOf 8 2 2 32) 1 bytes

/-- ConstantSubframe at 33 bits: V-SF22, V-SF23, the example -2^31 - 1 of R314, and a sample that is cut. -/
theorem witness_ConstantSubframe_33_bits :
    let s := atSide (bytesOf 6 (0x1FFFFFFFE * 2 ^ 7))
    let u := atSide (bytesOf 6 (0x080000000 * 2 ^ 7))
    let v := atSide (bytesOf 6 (0x17FFFFFFF * 2 ^ 7))
    let c := atSide (bytesOf 5 0)
    (s.subframeStarts false 0 8 ∧ s.effectiveDepth 0 = 33 ∧ readSample s.chunk 33 8 = .ok (-2, 41) ∧
        fitsSigned (-2 * 2 ^ 0) 32 = true) ∧
      (u.subframeStarts false 0 8 ∧ readSample u.chunk (u.effectiveDepth 0) 8 = .error .sampleRange) ∧
      readSample v.chunk 33 8 = .error .sampleRange ∧
      (c.subframeStarts false 0 8 ∧ readSample c.chunk (c.effectiveDepth 0) 8 = .error .underrun) := by
  unfold State.subframeStarts
  decide +kernel

/-- R314: its examples, and V-SF22 and V-SF23 as CONSTANT subframes of the side channel. -/
theorem test_sample_of_33_bits :
    (after (.sfConstant false) (atSide (bytesOf 6 (0x1FFFFFFFE * 2 ^ 7)))).sample 1 1 = -2 ∧
      (after (.sfConstant false) (atSide (bytesOf 6 (0x180000000 * 2 ^ 7)))).sample 1 1 = -2147483648 ∧
      (after (.sfConstant false) (atSide (bytesOf 6 (0x080000000 * 2 ^ 7)))).dec.failed = some (1, .sampleRange) := by
  decide +kernel

/-- Two VERBATIM samples of 33 bits: -2 and -2^31; -2 and 2^31. -/
def vSide : State := atSide (bytesOf 10 (0x02 * 2 ^ 72 + 0x1FFFFFFFE * 2 ^ 39 + 0x180000000 * 2 ^ 6))
def vSideOut : State := atSide (bytesOf 10 (0x02 * 2 ^ 72 + 0x1FFFFFFFE * 2 ^ 39 + 0x080000000 * 2 ^ 6))

/-- VerbatimSubframe at 33 bits: two samples that are int32, and a second one that is not. -/
theorem witness_VerbatimSubframe_33_bits :
    (vSide.subframeStarts false 0 8 ∧ vSide.effectiveDepth 0 = 33 ∧
        readMany (readSample vSide.chunk 33) 2 8 = .ok ([-2, -2147483648], 74) ∧
        ∀ v ∈ ([-2, -2147483648] : List Int), fitsSigned (v * 2 ^ 0) 32 = true) ∧
      (vSideOut.subframeStarts false 0 8 ∧
        readMany (readSample vSideOut.chunk (vSideOut.effectiveDepth 0)) 2 8 = .error .sampleRange) := by
  unfold State.subframeStarts
  decide +kernel

/-- VerbatimSubframe: V-SF3. -/
theorem witness_VerbatimSubframe :
    let s := atSubframe (headerOf 0 1 3 8) 0 (bytesOf 4 0x027F80FF)
    8 ≤ s.chunk.bitsLeft 0 ∧ readWastedCount s.chunk false 8 = .ok (0, 8) ∧
      readMany (readSample s.chunk (s.effectiveDepth 0)) 3 8 = .ok ([127, -128, -1], 32) ∧
      ∀ v ∈ ([127, -128, -1] : List Int), fitsSigned (v * 2 ^ 0) 32 = true := by decide +kernel

/-- The failing clause of VerbatimSubframe: V-SF24 as VERBATIM in a block of one sample. -/
theorem witness_VerbatimSubframe_out_of_range :
    let u := atSubframe (headerOf 8 2 1 32) 1 (bytesOf 6 0b00000011_11000000_00000000_00000000_00000000_00000000)
    8 ≤ u.chunk.bitsLeft 0 ∧ readWastedCount u.chunk true 8 = .ok (1, 9) ∧ u.effectiveDepth 1 = 32 ∧
      readMany (readSample u.chunk 32) 1 9 = .ok ([-2147483648], 41) ∧
      ∃ v ∈ ([-2147483648] : List Int), fitsSigned (v * 2 ^ 1) 32 = false := by decide +kernel

/-- `xs` holds the samples of a predicted subframe, as a computation. -/
def samplesMeet (b k e w : Nat) (warm res : List Int) (predict : (Nat → Int) → Nat → Int) (xs : List Int) : Bool :=
  (List.range b).all fun n =>
    (if n < k then xs.getD n 0 == warm.getD n 0
      else xs.getD n 0 == predict (fun i => xs.getD i 0) n + res.getD (n - k) 0 &&
        fitsSigned (xs.getD n 0) (min e 32)) &&
    fitsSigned (xs.getD n 0 * 2 ^ w) 32

/-- The computation says what the statements' hypothesis says. -/
theorem predictedSamples_of_meet {b k e w : Nat} {warm res xs : List Int} {predict : (Nat → Int) → Nat → Int}
    (hk : k ≤ b) (h : samplesMeet b k e w warm res predict xs = true) :
    predictedSamples b k e w warm res predict fun n => xs.getD n 0 := by
  have h' : ∀ n, n < b → _ := fun n hn => List.all_eq_true.1 h n (List.mem_range.2 hn)
  refine ⟨fun n hn => ?_, fun n h1 h2 => ?_, fun n hn => ?_⟩
  · have := h' n (by omega)
    rw [if_pos hn, Bool.and_eq_true, beq_iff_eq] at this
    exact this.1
  · have := h' n h2
    rw [if_neg (by omega), Bool.and_eq_true, Bool.and_eq_true, beq_iff_eq] at this
    exact this.1
  · have := h' n hn
    rw [Bool.and_eq_true] at this
    exact this.2

/-- V-SF4 to V-SF7 and V-SF9 at their header bytes. -/
def vSf4 : State := atSubframe (headerOf 0 1 3 8) 0 (bytesOf 4 0b00010000_00000000_10011010_11000000)
def vSf5 : State := atSubframe (headerOf 0 1 3 8) 0 (bytesOf 5 0b00010010_00000101_00000000_10010001_01000000)
def vSf6 : State := atSubframe (headerOf 0 1 3 8) 0 (bytesOf 5 0b00010100_00001010_00001100_00000000_10110000)
def vSf7 : State :=
  atSubframe (headerOf 0 1 5 8) 0 (bytesOf 6 0b00010110_00000001_00000100_00001001_00000000_00110000)
def vSf9 : State :=
  atSubframe (headerOf 0 1 5 8) 0 (bytesOf 7 0b00011000_00000001_00001000_00011011_01000000_00000000_11010010)

/-- FixedSubframes, order 0: V-SF4. -/
theorem witness_FixedSubframes_0 :
    vSf4.subframeStarts false 0 8 ∧ 0 < vSf4.dec.header.blockSize ∧
      readMany (readSample vSf4.chunk (vSf4.effectiveDepth 0)) 0 8 = .ok ([], 8) ∧
      decodeResidual vSf4.chunk 3 0 8 = .ok ([3, -1, 0], 28) ∧
      predictedSamples 3 0 8 0 [] [3, -1, 0] (fun _ _ => 0) fun n => [3, -1, 0].getD n 0 :=
  ⟨by unfold State.subframeStarts; decide +kernel, by decide +kernel, by decide +kernel, by decide +kernel,
    predictedSamples_of_meet (by decide) (by decide +kernel)⟩

/-- FixedSubframes, order 1: V-SF5. -/
theorem witness_FixedSubframes_1 :
    vSf5.subframeStarts false 0 8 ∧ 1 < vSf5.dec.header.blockSize ∧
      readMany (readSample vSf5.chunk (vSf5.effectiveDepth 0)) 1 8 = .ok ([5], 16) ∧
      decodeResidual vSf5.chunk 3 1 16 = .ok ([2, -3], 34) ∧
      predictedSamples 3 1 8 0 [5] [2, -3] (fun x n => x (n - 1)) fun n => [5, 7, 4].getD n 0 :=
  ⟨by unfold State.subframeStarts; decide +kernel, by decide +kernel, by decide +kernel, by decide +kernel,
    predictedSamples_of_meet (by decide) (by decide +kernel)⟩

/-- FixedSubframes, order 2: V-SF6. -/
theorem witness_FixedSubframes_2 :
    vSf6.subframeStarts false 0 8 ∧ 2 < vSf6.dec.header.blockSize ∧
      readMany (readSample vSf6.chunk (vSf6.effectiveDepth 0)) 2 8 = .ok ([10, 12], 24) ∧
      decodeResidual vSf6.chunk 3 2 24 = .ok ([1], 37) ∧
      predictedSamples 3 2 8 0 [10, 12] [1] (fun x n => 2 * x (n - 1) - x (n - 2)) fun n => [10, 12, 15].getD n 0 :=
  ⟨by unfold State.subframeStarts; decide +kernel, by decide +kernel, by decide +kernel, by decide +kernel,
    predictedSamples_of_meet (by decide) (by decide +kernel)⟩

/-- FixedSubframes, order 3: V-SF7. -/
theorem witness_FixedSubframes_3 :
    vSf7.subframeStarts false 0 8 ∧ 3 < vSf7.dec.header.blockSize ∧
      readMany (readSample vSf7.chunk (vSf7.effectiveDepth 0)) 3 8 = .ok ([1, 4, 9], 32) ∧
      decodeResidual vSf7.chunk 5 3 32 = .ok ([0, 0], 44) ∧
      predictedSamples 5 3 8 0 [1, 4, 9] [0, 0] (fun x n => 3 * x (n - 1) - 3 * x (n - 2) + x (n - 3))
        fun n => [1, 4, 9, 16, 25].getD n 0 :=
  ⟨by unfold State.subframeStarts; decide +kernel, by decide +kernel, by decide +kernel, by decide +kernel,
    predictedSamples_of_meet (by decide) (by decide +kernel)⟩

/-- FixedSubframes, order 4 in a block of 5: V-SF9. -/
theorem witness_FixedSubframes_4 :
    vSf9.subframeStarts false 0 8 ∧ 4 < vSf9.dec.header.blockSize ∧
      readMany (readSample vSf9.chunk (vSf9.effectiveDepth 0)) 4 8 = .ok ([1, 8, 27, 64], 40) ∧
      decodeResidual vSf9.chunk 5 4 40 = .ok ([-5], 55) ∧
      predictedSamples 5 4 8 0 [1, 8, 27, 64] [-5]
        (fun x n => 4 * x (n - 1) - 6 * x (n - 2) + 4 * x (n - 3) - x (n - 4))
        fun n => [1, 8, 27, 64, 120].getD n 0 :=
  ⟨by unfold State.subframeStarts; decide +kernel, by decide +kernel, by decide +kernel, by decide +kernel,
    predictedSamples_of_meet (by decide) (by decide +kernel)⟩

/-- The warm-up sample of V-SF5, cut. -/
def vSf5Cut : State := atSubframe (headerOf 0 1 3 8) 0 [0b00010010]

/-- V-SF5 with the reserved residual method 0b10. -/
def vSf5Reserved : State := atSubframe (headerOf 0 1 3 8) 0 (bytesOf 3 0b00010010_00000101_10000000)

/-- V-SF16 at its header byte: 120 and a residual of 10 at 8 bits. -/
def vSf16 : State := atSubframe (headerOf 0 1 2 8) 0 (bytesOf 5 0b00010010_01111000_00000011_11001010_10100000)

/-- FixedSubframes, the failures of order 1: cut warm-up samples, a reserved residual method, and V-SF16, whose second
sample is outside 8 bits. -/
theorem witness_FixedSubframes_failures :
    (vSf5Cut.subframeStarts false 0 8 ∧
        readMany (readSample vSf5Cut.chunk (vSf5Cut.effectiveDepth 0)) 1 8 = .error .underrun) ∧
      (vSf5Reserved.subframeStarts false 0 8 ∧
        readMany (readSample vSf5Reserved.chunk (vSf5Reserved.effectiveDepth 0)) 1 8 = .ok ([5], 16) ∧
        decodeResidual vSf5Reserved.chunk 3 1 16 = .error .reservedMethod) ∧
      vSf16.subframeStarts false 0 8 ∧
      readMany (readSample vSf16.chunk (vSf16.effectiveDepth 0)) 1 8 = .ok ([120], 16) ∧
      decodeResidual vSf16.chunk 2 1 16 = .ok ([10], 36) ∧
      predictionLeavesRange 2 1 8 0 [120] [10] (fun x n => x (n - 1)) (fun n => [120].getD n 0) 1 := by
  refine ⟨⟨by unfold State.subframeStarts; decide +kernel, by decide +kernel⟩,
    ⟨by unfold State.subframeStarts; decide +kernel, by decide +kernel, by decide +kernel⟩,
    by unfold State.subframeStarts; decide +kernel, by decide +kernel, by decide +kernel,
    fun n hn => ?_, fun n h1 h2 => by omega, .inl (by decide)⟩
  obtain rfl : n = 0 := by omega
  rfl

/-- A sample that leaves int32 when it is shifted: order 0, one value 2^30 at 32 bits with one wasted bit. -/
theorem witness_predictionLeavesRange_restored :
    predictionLeavesRange 1 0 32 1 [] [1073741824] (fun _ _ => 0) (fun _ => 1073741824) 1 := by
  refine ⟨fun n hn => by omega, fun n h1 h2 => ?_, .inr ⟨rfl, 0, by decide, by decide⟩⟩
  obtain rfl : n = 0 := by omega
  decide

/-- V-SF10 at its header byte. -/
def vSf10 : State :=
  atSubframe (headerOf 0 1 3 16) 0 (bytesOf 7 0b01000000_00000000_00000100_00110000_10011000_00000101_10111000)

/-- LpcSubframe: V-SF10. -/
theorem witness_LpcSubframe :
    vSf10.subframeStarts false 0 8 ∧ (0#5).toNat + 1 < vSf10.dec.header.blockSize ∧
      readMany (readSample vSf10.chunk (vSf10.effectiveDepth 0)) 1 8 = .ok ([4], 24) ∧ 9 ≤ vSf10.chunk.bitsLeft 24 ∧
      vSf10.chunk.bits 24 4 = 3 ∧ vSf10.chunk.bits 28 5 = 1 ∧
      readMany (readBitsSigned vSf10.chunk (3 + 1)) 1 33 = .ok ([3], 37) ∧
      decodeResidual vSf10.chunk 3 1 37 = .ok ([1, -2], 53) ∧
      predictedSamples 3 1 16 0 [4] [1, -2]
        (fun x n => ((List.range 1).map fun j => [3].getD j 0 * x (n - 1 - j)).sum / 2 ^ 1)
        fun n => [4, 7, 8].getD n 0 :=
  ⟨by unfold State.subframeStarts; decide +kernel, by decide +kernel, by decide +kernel, by decide +kernel,
    by decide +kernel, by decide +kernel, by decide +kernel, by decide +kernel,
    predictedSamples_of_meet (by decide) (by decide +kernel)⟩

/-- LpcSubframe, a warm-up sample that is cut, and one of 33 bits that is no int32. -/
theorem witness_LpcSubframe_failures :
    let c := atSubframe (headerOf 0 1 3 8) 0 (bytesOf 1 0b01000000)
    let r := atSide (bytesOf 6 (0b01000000 * 2 ^ 40 + 0x080000000 * 2 ^ 7))
    (c.subframeStarts false 0 8 ∧ (0#5).toNat + 1 < c.dec.header.blockSize ∧
        readMany (readSample c.chunk (c.effectiveDepth 0)) 1 8 = .error .underrun) ∧
      (r.subframeStarts false 0 8 ∧ (0#5).toNat + 1 < r.dec.header.blockSize ∧ r.effectiveDepth 0 = 33 ∧
        readMany (readSample r.chunk (r.effectiveDepth 0)) 1 8 = .error .sampleRange) := by
  unfold State.subframeStarts
  decide +kernel

/-- IllegalSubframesRejected: a byte of header, order 4 in a block of 4 and order 32 in a block of 32 (V-SF12, V-SF13),
as many wasted bits as the depth (V-SF20), precision 15 and shift -1 and -16 (V-SF14, V-SF15). -/
theorem witness_IllegalSubframesRejected :
    let b := atSubframe (headerOf 0 1 4 8) 0 [0x18]
    let l := atSubframe (headerOf 0 1 32 16) 0 [0x7E]
    let w := atSubframe (headerOf 0 1 2 16) 0 (bytesOf 3 0b00000001_00000000_00000001)
    let p := atSubframe (headerOf 0 1 3 8) 0 (bytesOf 3 0b01000000_00000100_11110000)
    let h := atSubframe (headerOf 0 1 3 8) 0 (bytesOf 4 0b01000000_00000100_00111000_00000000)
    (1 ≤ b.chunk.bitsLeft 0 ∧ 7 ≤ b.chunk.bitsLeft 0 ∧ b.dec.header.blockSize ≤ 4) ∧
      (7 ≤ l.chunk.bitsLeft 0 ∧ l.dec.header.blockSize ≤ (31#5).toNat + 1) ∧
      (8 ≤ w.chunk.bitsLeft 0 ∧ readWastedCount w.chunk true 8 = .ok (16, 24) ∧ w.dec.header.bps ≤ 16) ∧
      (8 ≤ p.chunk.bitsLeft 0 ∧ readWastedCount p.chunk false 8 = .ok (0, 8) ∧
        readMany (readSample p.chunk (p.effectiveDepth 0)) 1 8 = .ok ([4], 16) ∧ 4 ≤ p.chunk.bitsLeft 16 ∧
        p.chunk.bits 16 4 = 15) ∧
      (9 ≤ h.chunk.bitsLeft 16 ∧ h.chunk.bits 16 4 ≠ 15 ∧ 16 ≤ h.chunk.bits 20 5) := by decide +kernel

/-- IllegalSubframesRejected, each form of subframe: a cut header byte, a cut wasted-bits field, as many wasted bits as the
depth, and samples cut by the end of the chunk. -/
theorem witness_IllegalSubframesRejected_forms :
    let b := atSubframe (headerOf 0 1 3 8) 0 []
    let u := atSubframe (headerOf 0 1 3 8) 0 (bytesOf 2 0b00010011_00000000)
    let w := atSubframe (headerOf 0 1 3 8) 0 (bytesOf 2 0b00010011_00000001)
    let c := atSubframe (headerOf 0 1 3 8) 0 (bytesOf 2 0b01000010_00001010)
    (subframeForm b (.sfConstant false) false 1 ∧ subframeForm b (.sfVerbatim true) true 3 ∧
        subframeForm b (.sfFixed0 false) false 0 ∧ subframeForm b (.sfLpc 1 true) true 2) ∧
      (b.chunk.bitsLeft 0 < 7 ∧ b.chunk.bitsLeft 0 < 8) ∧
      (8 ≤ u.chunk.bitsLeft 0 ∧ subframeForm u (.sfFixed1 true) true 1 ∧
        readWastedCount u.chunk true 8 = .error .underrun) ∧
      (subframeForm w (.sfFixed1 true) true 1 ∧ readWastedCount w.chunk true 8 = .ok (8, 16) ∧ w.dec.header.bps ≤ 8) ∧
      (subframeForm c (.sfLpc 1 false) false 2 ∧ readWastedCount c.chunk false 8 = .ok (0, 8) ∧
        0 < c.dec.header.bps ∧ c.effectiveDepth 0 ≤ 32 ∧ c.chunk.bitsLeft 8 < c.effectiveDepth 0 * 2) :=
  ⟨⟨.inl ⟨rfl, rfl⟩, .inr (.inl ⟨rfl, rfl⟩), .inr (.inr ⟨by decide, .inl (by decide)⟩),
    .inr (.inr ⟨by decide, .inr ⟨1, rfl, rfl⟩⟩)⟩, by decide +kernel,
    ⟨by decide +kernel, .inr (.inr ⟨by decide, .inl (by decide)⟩), by decide +kernel⟩,
    ⟨.inr (.inr ⟨by decide, .inl (by decide)⟩), by decide +kernel, by decide⟩,
    ⟨.inr (.inr ⟨by decide, .inr ⟨1, rfl, rfl⟩⟩), by decide +kernel, by decide, by decide, by decide +kernel⟩⟩

/-- IllegalSubframesRejected, VERBATIM samples of 33 bits: the second one is no int32, and the second one is cut. -/
theorem witness_IllegalSubframesRejected_33_bits :
    let c := { vSide with inLen := 9 }
    (subframeForm vSideOut (.sfVerbatim false) false 2 ∧ readWastedCount vSideOut.chunk false 8 = .ok (0, 8) ∧
        0 < vSideOut.dec.header.bps ∧ vSideOut.effectiveDepth 0 = 33 ∧ 33 * 2 ≤ vSideOut.chunk.bitsLeft 8 ∧
        (∀ l, l < 1 → fitsSigned (sext 33 (vSideOut.chunk.bits (8 + 33 * l) 33)) 32 = true) ∧
        fitsSigned (sext 33 (vSideOut.chunk.bits (8 + 33 * 1) 33)) 32 = false) ∧
      (subframeForm c (.sfVerbatim false) false 2 ∧ readWastedCount c.chunk false 8 = .ok (0, 8) ∧
        c.effectiveDepth 0 = 33 ∧ 33 * 1 ≤ c.chunk.bitsLeft 8 ∧ c.chunk.bitsLeft 8 < 33 * 2 ∧
        ∀ l, l < 1 → fitsSigned (sext 33 (c.chunk.bits (8 + 33 * l) 33)) 32 = true) :=
  ⟨⟨.inr (.inl ⟨rfl, rfl⟩), by decide +kernel, by decide, by decide, by decide +kernel, by decide +kernel,
    by decide +kernel⟩, .inr (.inl ⟨rfl, rfl⟩), by decide +kernel, by decide, by decide +kernel, by decide +kernel,
    by decide +kernel⟩

/-- IllegalSubframesRejected, an LPC subframe cut in its precision, in its shift and in its coefficients. -/
theorem witness_IllegalSubframesRejected_lpc_cut :
    let a := atSubframe (headerOf 0 1 3 8) 0 (bytesOf 2 0b01000000_00000100)
    let b := atSubframe (headerOf 0 1 3 8) 0 (bytesOf 3 0b01000000_00000100_00110000)
    let c := atSubframe (headerOf 0 1 3 8) 0 (bytesOf 4 0b01000000_00000100_11100000_00000000)
    (8 ≤ a.chunk.bitsLeft 0 ∧ readMany (readSample a.chunk (a.effectiveDepth 0)) 1 8 = .ok ([4], 16) ∧
        a.chunk.bitsLeft 16 < 4) ∧
      (readMany (readSample b.chunk (b.effectiveDepth 0)) 1 8 = .ok ([4], 16) ∧ 4 ≤ b.chunk.bitsLeft 16 ∧
        b.chunk.bits 16 4 ≠ 15 ∧ b.chunk.bitsLeft 16 < 9) ∧
      (readMany (readSample c.chunk (c.effectiveDepth 0)) 1 8 = .ok ([4], 16) ∧ 9 ≤ c.chunk.bitsLeft 16 ∧
        c.chunk.bits 16 4 = 14 ∧ c.chunk.bits 20 5 < 16 ∧ c.chunk.bitsLeft 25 < (14 + 1) * 1) := by decide +kernel

/-- A chunk of `n` zero bytes and then the byte `b`. -/
def zerosThen (n : Nat) (b : Byte) : Chunk :=
  { byte := fun i => if i = n then b else 0, len := n + 1, maxUnary := 1000000 }

/-- WastedBitsCount: 1,000,000 zeros and a one (V-BR13), one zero more (V-BR14), and zeros to the end (V-BR15). -/
theorem witness_WastedBitsCount :
    (0 + 1000000 + 1 ≤ 8 * (zerosThen 125000 0x80).len ∧ (∀ j, j < 1000000 → (zerosThen 125000 0x80).bit (0 + j) = 0) ∧
        (zerosThen 125000 0x80).bit (0 + 1000000) = 1) ∧
      (1000000 ≤ (zerosThen 125000 0x80).maxUnary ∧
        (zerosThen 125000 0x40).maxUnary + 1 ≤ (zerosThen 125000 0x40).bitsLeft 0 ∧
        ∀ j, j < 1000001 → (zerosThen 125000 0x40).bit (0 + j) = 0) ∧
      ((zerosThen 1 0).bitsLeft 0 ≤ (zerosThen 1 0).maxUnary ∧ ∀ j, j < (zerosThen 1 0).bitsLeft 0 →
          (zerosThen 1 0).bit (0 + j) = 0) := by
  have zero : ∀ n b j, j / 8 < n → (zerosThen n b).bit (0 + j) = 0 := by
    intro n b j h
    have e : (zerosThen n b).byte ((0 + j) / 8) = 0 := if_neg (by omega)
    show ((zerosThen n b).byte ((0 + j) / 8)).toNat / 2 ^ (7 - (0 + j) % 8) % 2 = 0
    rw [e]
    show 0 / _ % 2 = 0
    rw [Nat.zero_div]
  refine ⟨⟨by decide, fun j h => zero _ _ _ (by omega), by decide⟩, ⟨by decide, by decide, fun j h => ?_⟩,
    by decide, ?_⟩
  · by_cases hj : j = 1000000
    · subst hj; decide
    · exact zero _ _ _ (by omega)
  · decide

/-- SubframeSamplesStored: the ends of int32 in channels 0 and 7. -/
theorem witness_SubframeSamplesStored :
    (ready 1 16).ch.length = 8 ∧ (atSubframe (headerOf 0 1 2 16) 0 []).dec.chan < 8 ∧
      (atSubframe (headerOf 7 8 2 16) 7 []).dec.chan < 8 ∧
      ∀ v ∈ ([-2147483648, 2147483647] : List Int), fitsSigned v 32 = true := by decide +kernel

/-- FailedSubframeSilenced: a frame of eight channels that fails in the first and in the last. -/
theorem witness_FailedSubframeSilenced :
    (atSubframe (headerOf 7 8 2 16) 0 []).ch.length = 8 ∧
        (atSubframe (headerOf 7 8 2 16) 0 []).dec.header.channels ≤ 8 ∧
      (0 < (atSubframe (headerOf 7 8 2 16) 7 []).dec.header.channels ∧
        (atSubframe (headerOf 7 8 2 16) 7 []).dec.chan = 7) := by decide +kernel

/-- P1 at its footer, with this chunk. -/
def atFooter (bytes : List Byte) (reject : Bool) : State :=
  { withChunk (ready 1 16) bytes with
    cfg := ⟨false, reject⟩
    dec := { DecodeCtx.unset with phase := .subframe, cursor := 80, header := headerOf 0 1 16 16 } }

/-- FooterChecked: P1's footer, V-FS6 and V-FS4, under both policies. -/
theorem witness_FooterChecked :
    (16 ≤ (atFooter p1Frame false).chunk.bitsLeft (8 * 10) ∧
      (atFooter p1Frame false).chunk.bits (8 * 10) 16 =
        (crc16 ((atFooter p1Frame false).chunk.slice 0 10)).toNat) ∧
      (16 ≤ (atFooter (bytesOf 12 0xFFF86908000F300003E84EF1) true).chunk.bitsLeft (8 * 10) ∧
        (atFooter (bytesOf 12 0xFFF86908000F300003E84EF1) true).chunk.bits (8 * 10) 16 ≠
          (crc16 ((atFooter (bytesOf 12 0xFFF86908000F300003E84EF1) true).chunk.slice 0 10)).toNat) ∧
      (atFooter (bytesOf 10 0xFFF86908000F300003E8) false).chunk.bitsLeft (8 * 10) < 16 ∧
      (atFooter p1Frame true).cfg.crc16Reject = true ∧ (atFooter p1Frame false).cfg.crc16Reject = false := by
  decide +kernel

/-- ResidualMethodsRead: V-RS2, V-RS7, and an order that leaves partition 0 no value (V-RS11). -/
theorem witness_ResidualMethodsRead :
    let s := atResidual 4 (bytesOf 3 0b00000100_00101000_10010011)
    let u := atResidual 3 (bytesOf 3 0b01000011_11100001_01100000)
    let v := atResidual 15 (bytesOf 1 0b00000100)
    (2 ≤ s.chunk.bitsLeft 0 ∧ 6 ≤ s.chunk.bitsLeft 0 ∧ s.dec.header.blockSize % 2 ^ s.chunk.bits 2 4 = 0 ∧
      s.dec.pred.order < s.dec.header.blockSize / 2 ^ s.chunk.bits 2 4 ∧
      readPartitions s.chunk 4 4 1 0 2 0 6 = .ok ([0, -1, 2, -2], 24) ∧
      finishPredicted s.dec.pred [0, -1, 2, -2] 24 = .ok ([0, -1, 2, -2], 24)) ∧
      (readPartitions u.chunk 5 3 0 0 1 0 6 = .ok ([0, -1, -1], 19) ∧
        finishPredicted u.dec.pred [0, -1, -1] 19 = .ok ([0, -1, -1], 19)) ∧
      (6 ≤ v.chunk.bitsLeft 0 ∧ v.dec.header.blockSize % 2 ^ v.chunk.bits 2 4 ≠ 0) := by decide +kernel

/-- ResidualMethodsRead, the failures: a partition cut by the end of the chunk, a value outside 16 bits (escape of 18
bits), and a partition order of which no bit is left. -/
theorem witness_ResidualMethodsRead_failures :
    let c := atResidual 4 (bytesOf 2 0b00000000_01100000)
    let r := atResidual 1 (bytesOf 5 0b00000011_11100100_11111111_11111111_10000000)
    let z := { c with dec := { c.dec with cursor := 14 } }
    (6 ≤ c.chunk.bitsLeft 0 ∧ c.dec.header.blockSize % 2 ^ c.chunk.bits 2 4 = 0 ∧
        c.dec.pred.order < c.dec.header.blockSize / 2 ^ c.chunk.bits 2 4 ∧
        readPartitions c.chunk 4 4 0 0 1 0 6 = .error .underrun) ∧
      (readPartitions r.chunk 4 1 0 0 1 0 6 = .ok ([131071], 33) ∧
        finishPredicted r.dec.pred [131071] 33 = .error .sampleRange) ∧
      (2 ≤ z.chunk.bitsLeft z.dec.cursor ∧ z.chunk.bitsLeft z.dec.cursor < 6) := by decide +kernel

/-- ResidualCountAndRange: V-RS8, whose partition 0 holds one value, and V-RS1. -/
theorem witness_ResidualCountAndRange :
    decodeResidual (withChunk (ready 1 16) (bytesOf 5 0b00001000_00100001_11100001_11100001_11100000)).chunk 16 3 0 =
        .ok ([0, 0, 0, 0, 0, 0, 0, 0, 0, 0, 0, 0, 0], 35) ∧
      decodeResidual (withChunk (ready 1 16) (bytesOf 3 0b00000000_10110010_10011100)).chunk 3 0 0 =
        .ok ([1, -3, -6], 22) := by decide +kernel

/-- PartitionsAppended: the partitions of V-RS1 and V-RS3, one that the chunk's end cuts (V-RS13), and one that is not
the last. -/
theorem witness_PartitionsAppended :
    let s := atPartition 3 (bytesOf 2 0b00101100_10100111)
    let e := atPartition 3 (bytesOf 3 0b11110010_00111100_01111000)
    let c := atPartition 4 (bytesOf 1 0b00011000)
    let m : State := { s with dec := { s.dec with partOrder := 1 } }
    (3 = partitionSize s.dec.header.blockSize s.dec.partOrder s.dec.pred.order s.dec.part ∧ 4 ≤ s.chunk.bitsLeft 0 ∧
      ricePartition s.chunk 3 (2#4).toNat 4 = .ok ([1, -3, -6], 16) ∧ 2 ^ s.dec.partOrder ≤ s.dec.part + 1 ∧
      finishPredicted s.dec.pred (s.dec.res ++ [1, -3, -6]) 16 = .ok ([1, -3, -6], 16)) ∧
      escapePartition e.chunk 3 4 = .ok ([7, -8, -1], 21) ∧
      (4 ≤ c.chunk.bitsLeft 0 ∧ ricePartition c.chunk 4 (1#4).toNat 4 = .error .underrun) ∧
      m.dec.part + 1 < 2 ^ m.dec.partOrder ∧
      (let r := atPartition 1 (bytesOf 4 0b11111001_00111111_11111111_11100000)
       escapePartition r.chunk 1 4 = .ok ([131071], 27) ∧ 2 ^ r.dec.partOrder ≤ r.dec.part + 1 ∧
        finishPredicted r.dec.pred (r.dec.res ++ [131071]) 27 = .error .sampleRange) := by decide +kernel

/-- ResidualValues: the greatest value that can be read and the first that cannot (V-RS5, V-RS6), a quotient part of
2^32 (V-RS14), and escapes of width 0 and 4 (V-RS4, V-RS3). -/
theorem witness_ResidualValues :
    (3 * 2 ^ 30 + (2 ^ 30 - 2) < 4294967295 ∧ 3 * 2 ^ 30 + (2 ^ 30 - 1) = 4294967295 ∧
        4294967296 ≤ 262144 * 2 ^ 14 ∧ 262144 ≤ 1000000) ∧
      (let ck := (withChunk (ready 1 16) (bytesOf 5 0x1FFFFFFF80)).chunk; ck.bits 0 3 = 0 ∧ ck.bit 3 = 1 ∧
          0 + 3 + 1 + 30 ≤ 8 * ck.len ∧ ck.bits 4 30 = 2 ^ 30 - 2) ∧
      (let ck := (withChunk (ready 1 16) (bytesOf 5 0x1FFFFFFFC0)).chunk; ck.bits 0 3 = 0 ∧ ck.bit 3 = 1 ∧
          ck.bits 4 30 = 2 ^ 30 - 1) ∧
      (let ck := (withChunk (ready 1 16) (bytesOf 1 0b00000000)).chunk; 5 ≤ ck.bitsLeft 0 ∧ ck.bits 0 5 = 0 ∧
          5 + 0 * 5 ≤ ck.bitsLeft 0) ∧
      (let ck := (withChunk (ready 1 16) (bytesOf 3 0b00100011_11000111_10000000)).chunk; ck.bits 0 5 = 4 ∧
          5 + 4 * 3 ≤ ck.bitsLeft 0) := by decide +kernel

/-- AssignmentsDeliver: after the subframes, with no failed channel and no warning, with a CRC-16 warning, and with a
failed channel; and what each reports. -/
theorem witness_AssignmentsDeliver :
    let s := atDecorrelate 10 5 3
    let w : State := { s with dec := { s.dec with warn := some .footerMismatch } }
    let f : State := { s with dec := { s.dec with failed := some (1, .underrun) } }
    (s.dec.phase = .decorrelate ∧ s.ch.length = 8 ∧ 0 < s.dec.header.blockSize ∧ s.dec.failed = none ∧
        s.dec.warn = none ∧ (after .chMidSide s).errorWord = 0) ∧
      (w.dec.phase = .decorrelate ∧ (after .chMidSide w).errorWord = 0x0000600A ∧
        (after .chMidSide w).cnt.framesOk = 1) ∧
      (f.dec.phase = .decorrelate ∧ (after .chMidSide f).errorWord = 0x00092B09 ∧
        (after .chMidSide f).cnt.decodeFail = 1) := by decide +kernel

/-- PcmConversion: the depths 4, 16, 17 and 32 with the ends of their ranges, and the first values past them. -/
theorem witness_PcmConversion :
    fitsSigned (-8) 4 = true ∧ fitsSigned 32767 16 = true ∧ fitsSigned (-65536) 17 = true ∧
      fitsSigned 2147483647 32 = true ∧ (32768 : Int) ≤ 32768 / 2 ^ (16 - 16) ∧
      (-32768 * 65536 : Int) / 2 ^ (32 - 16) ≤ -32768 ∧ (32768 : Int) ≤ 8 * 2 ^ (16 - 4) ∧
      (-16384 * 2 ^ (16 - 15) : Int) ≤ -32768 := by decide

/-- The byte-format examples of R551. -/
theorem test_md5_frame_bytes :
    let m := fun x y => ({ State.reset with ch := [[x, y], [], [], [], [], [], [], []] } : State)
    md5FrameBytes (m 1000 (BitVec.ofInt 32 (-2))) 2 1 16 = [0xE8, 0x03, 0xFE, 0xFF] ∧
      md5FrameBytes (m 1 (BitVec.ofInt 32 (-1))) 2 1 24 = [0x01, 0x00, 0x00, 0xFF, 0xFF, 0xFF] ∧
      md5FrameBytes (m (BitVec.ofInt 32 (-128)) 0) 1 1 8 = [0x80] ∧
      md5FrameBytes (m (BitVec.ofInt 32 (-16)) 0) 1 1 12 = [0xF0, 0xFF] := by decide +kernel

/-- Md5PendingBytes: the last byte of the last sample of a frame of two channels at 12 bits, nothing pending, 63 bytes
pending with no byte more, and with the byte that fills the block. -/
theorem witness_Md5PendingBytes :
    (15 < 16 ∧ 1 < 2 ∧ 1 < (12 + 7) / 8) ∧ Md5State.cleared.buf.length = Md5State.cleared.len.toNat % 64 ∧
      (List.replicate 63 (0 : Byte)).length < 64 ∧ (List.replicate 63 (0 : Byte)).length + 0 < 64 ∧
      (List.replicate 63 (0 : Byte)).length + [0x80#8].length = 64 := by decide

/-- StreamBitsAreBigEndian: one bit, and the last bit of a chunk; and samples of 33 bits: cut, and the
examples of R314. -/
theorem witness_StreamBitsAreBigEndian :
    (1 ≤ 1 ∧ 1 ≤ (zerosThen 1 0x80).bitsLeft 15 ∧ 16 ≤ (zerosThen 1 0x80).bitsLeft 0) ∧
      (zerosThen 1 0x80).bitsLeft 0 < 33 ∧
      (let s := (atSide (bytesOf 6 (0x1FFFFFFFE * 2 ^ 7))).chunk; 33 ≤ s.bitsLeft 8 ∧
        (-2 : Int) = s.bits 9 32 - 2 ^ 32 * (s.bits 8 1 : Int)) ∧
      (let s := (atSide (bytesOf 6 (0x17FFFFFFF * 2 ^ 7))).chunk; 33 ≤ s.bitsLeft 8 ∧
        (-2147483649 : Int) = s.bits 9 32 - 2 ^ 32 * (s.bits 8 1 : Int)) := by decide +kernel

/-- OnlyTheirWritersWrite: an instruction's next state. -/
theorem witness_OnlyTheirWritersWrite :
    exec .setStreaminfo p1Boot = .next (after .setStreaminfo p1Boot) ∧
      (after .setStreaminfo p1Boot).si.rate ≠ p1Boot.si.rate := by
  refine ⟨rfl, ?_⟩
  decide +kernel

/-- HeaderElementsFrame: each of its kinds of instruction. -/
theorem witness_HeaderElementsFrame :
    exec .frameFixed (atHeader (ready 1 16) p1Frame) = .next (after .frameFixed (atHeader (ready 1 16) p1Frame)) ∧
      Instr.slot .frameFixed = .frame ∧
      exec .chMidSide (atAssignment p1Frame) = .next (after .chMidSide (atAssignment p1Frame)) ∧
      Instr.slot .chMidSide = .assignment ∧ (atAssignment p1Frame).dec.phase ≠ .decorrelate ∧
      exec .chReserved11 (atAssignment p1Frame) = .next (after .chReserved11 (atAssignment p1Frame)) :=
  ⟨rfl, rfl, rfl, rfl, by decide, rfl⟩

/-- SubframeElementsFrame: an instruction of each of its slots. -/
theorem witness_SubframeElementsFrame :
    exec (.sfConstant false) (atSubframe (headerOf 0 1 3 8) 0 [0, 7]) =
        .next (after (.sfConstant false) (atSubframe (headerOf 0 1 3 8) 0 [0, 7])) ∧
      Instr.slot (.sfConstant false) = .subframe ∧ Instr.slot .resRice4 = .method ∧
      Instr.slot .rice4Escape = .param4 ∧ Instr.slot .rice5Escape = .param5 ∧
      exec .resRice4 (atResidual 3 [0]) = .next (after .resRice4 (atResidual 3 [0])) :=
  ⟨rfl, rfl, rfl, rfl, rfl, rfl⟩

end Sys2Proof.Tests
end

/-! The laws of a whole DECODE that several statements share: what every instruction leaves alone, what a DECODE counts,
how it ends, and the buffers it writes. -/

namespace Sys2Proof.Machine

/-! The commands. -/

theorem decodeCommand_slot (w : Word) : (decodeCommand w).slot = .command := by
  unfold decodeCommand
  split <;> rfl

theorem startsCommand_cmd : startsCommand .word 0x00000000 = true := by decide

/-- A waiting write to CMD runs its command (R49, R100). -/
theorem step_cmd {s : State} {w : Word} {rest : List HostAccess} (hp : s.dec.phase = .idle)
    (hh : s.host = .write .word 0x00000000 w :: rest) : step s = exec (decodeCommand w) { s with host := rest } := by
  unfold step
  rw [if_pos hp, hh]
  exact if_pos startsCommand_cmd

/-- The four ways a step outside a DECODE goes (R101, R600). -/
theorem step_idle_cases {s t : State} (hp : s.dec.phase = .idle) (h : step s = .next t) :
    t = s ∨
      (∃ size addr rest, t = ({ s with host := rest } : State).hostRead size addr) ∨
      (∃ size addr data rest, t = ({ s with host := rest } : State).hostWrite size addr data) ∨
      ∃ w rest, exec (decodeCommand w) { s with host := rest } = .next t := by
  unfold step at h
  rw [if_pos hp] at h
  split at h
  · exact .inl (Host.Outcome.next.inj h).symm
  · exact .inr (.inl ⟨_, _, _, (Host.Outcome.next.inj h).symm⟩)
  · split_ifs at h
    · exact .inr (.inr (.inr ⟨_, _, h⟩))
    · exact .inr (.inr (.inl ⟨_, _, _, _, (Host.Outcome.next.inj h).symm⟩))

/-! What a DECODE counts (R507, R513). -/

/-- The parameters, CONSEC, DSTATE and the two counters of outcomes are as before: the DECODE goes on. -/
def sameCounts (s t : State) : Prop :=
  t.params = s.params ∧ t.consec = s.consec ∧ t.dstate = s.dstate ∧ t.cnt.framesOk = s.cnt.framesOk ∧
    t.cnt.decodeFail = s.cnt.decodeFail

theorem sameCounts.trans {s t u : State} (h1 : sameCounts s t) (h2 : sameCounts t u) : sameCounts s u := by
  obtain ⟨a1, a2, a3, a4, a5⟩ := h1
  obtain ⟨b1, b2, b3, b4, b5⟩ := h2
  exact ⟨b1.trans a1, b2.trans a2, b3.trans a3, b4.trans a4, b5.trans a5⟩

theorem sameCounts.failureCounted {s t u : State} (h : sameCounts s t) (hf : failureCounted t u) :
    failureCounted s u := by
  obtain ⟨h1, h2, h3, h4, h5⟩ := h
  unfold Machine.failureCounted at hf ⊢
  rwa [h1, h2, h3, h4, h5] at hf

theorem sameCounts.successCounted {s t u : State} (h : sameCounts s t) (hf : successCounted t u) :
    successCounted s u := by
  obtain ⟨-, -, h3, h4, h5⟩ := h
  unfold Machine.successCounted at hf ⊢
  rwa [h3, h4, h5] at hf

theorem keepsStream.sameCounts {s t : State} (h : keepsStream s t) (hp : t.dec.phase ≠ .idle) : sameCounts s t := by
  obtain ⟨-, ⟨-, -, -, -, -, -, -, -, -, -, -, hpar⟩, -, -, -, -, hok, -, -, hend⟩ := h
  obtain ⟨hc, hd, -, -, -, hf⟩ := hend hp
  exact ⟨hpar, hc, hd, hok, hf⟩

theorem State.acceptHeader_sameCounts (s : State) (hd : FrameHeader) (p : Nat) :
    sameCounts s (s.acceptHeader hd p) := by
  rw [State.acceptHeader_eq]
  exact ⟨rfl, rfl, rfl, rfl, rfl⟩

theorem State.noteFirstError_sameCounts (s : State) (e : Cause) : sameCounts s (s.noteFirstError e) := by
  refine ⟨rfl, rfl, rfl, ?_, ?_⟩ <;> rw [State.noteFirstError_cnt] <;> split_ifs <;> rfl

theorem State.noFrame_failureCounted (s : State) : failureCounted s s.noFrame := by
  rw [State.noFrame_eq]
  exact ⟨rfl, rfl, rfl, rfl, rfl⟩

/-- A footer that ends the DECODE fails it (R430). -/
theorem State.footerMismatch_failureCounted {s : State} {cause : Cause}
    (h : (s.footerMismatch cause).dec.phase = .idle) : failureCounted s (s.footerMismatch cause) := by
  cases hr : s.cfg.crc16Reject with
  | false => rw [s.footerMismatch_warn cause hr] at h; cases h
  | true =>
    rw [s.footerMismatch_reject cause hr]
    exact ⟨rfl, rfl, rfl, rfl, rfl⟩

theorem State.checkFooter_failureCounted {s : State} (h : s.checkFooter.dec.phase = .idle) :
    failureCounted s s.checkFooter := by
  rcases s.checkFooter_cases with ⟨-, -, e⟩ | ⟨-, -, e⟩ | ⟨-, e⟩ <;> rw [e] at h ⊢
  · cases h
  · exact State.footerMismatch_failureCounted h
  · exact State.footerMismatch_failureCounted h

/-- A subframe that ends the DECODE, by the footer after it, fails it (R430, R500). -/
theorem State.decodeSubframe_failureCounted {s : State} (h : s.decodeSubframe.dec.phase = .idle) :
    failureCounted s s.decodeSubframe := by
  rcases s.decodeSubframe_cases with ⟨xs, p, -, e⟩ | ⟨c, -, e⟩ <;> rw [e] at h ⊢
  · unfold State.subframeDecoded at h ⊢
    dsimp only at h ⊢
    by_cases hc : s.dec.chan + 1 < s.dec.header.channels
    · rw [if_pos hc] at h
      cases h
    · rw [if_neg hc] at h ⊢
      exact State.checkFooter_failureCounted h
  · rw [State.subframeFailed_eq] at h
    cases h

/-- A delivery counts a success or a failure (R507, R513). -/
theorem State.finishFrame_counted (s : State) : failureCounted s s.finishFrame ∨ successCounted s s.finishFrame := by
  have h := s.finishFrame_reports
  unfold deliveryReported at h
  split at h
  · exact .inr h.1
  · exact .inr h.1
  · exact .inl h.1

theorem State.finishFrame_dec (s : State) : s.finishFrame.dec = .unset := by rw [s.finishFrame_eq]

/-- What a DECODE from `s` has counted when it stands at `t`: nothing while it goes on, a failure or a success once it
is over. -/
def decodeCounted (s t : State) : Prop :=
  (t.dec.phase ≠ .idle → sameCounts s t) ∧ (t.dec.phase = .idle → failureCounted s t ∨ successCounted s t)

theorem State.decodeChunk_counted (s : State) : decodeCounted s s.decodeChunk := by
  refine State.decodeChunk_keeps (H := sameCounts s) ⟨rfl, rfl, rfl, rfl, rfl⟩ (fun u o h => h)
    (fun u e h => h.trans (u.noteFirstError_sameCounts e))
    (fun u hd p h _ => ⟨fun _ => h.trans (u.acceptHeader_sameCounts hd p), fun h0 => by cases h0⟩)
    (fun u h => ⟨fun hn => absurd (by rw [u.noFrame_eq]; rfl) hn,
      fun _ => .inl (h.failureCounted u.noFrame_failureCounted)⟩)
    (fun u h hp => ?_) (fun u h hp => ?_)
  · have hu : sameCounts s u := h.1 (by rw [hp]; decide)
    exact ⟨fun hn => hu.trans ((u.runSubframe_keeps _ _).sameCounts hn),
      fun h0 => .inl (hu.failureCounted (State.decodeSubframe_failureCounted h0))⟩
  · have hu : sameCounts s u := h.1 (by rw [hp]; decide)
    have hv : sameCounts s (u.decorrelate u.dec.header.assign u.dec.header.blockSize) := by
      rw [u.decorrelate_frame]
      exact hu
    refine ⟨fun hn => absurd (by rw [State.finishFrame_dec]; rfl) hn, fun _ => ?_⟩
    exact (State.finishFrame_counted _).imp hv.failureCounted hv.successCounted

/-- A DECODE leaves no state inside it (R20, R24). -/
theorem State.decodeChunk_dec (s : State) : s.decodeChunk.dec = .unset := by
  have hfin : ∀ u : State, u.dec = .unset ∨ u.dec.phase = .decorrelate → u.deliverDecoded.dec = .unset := by
    intro u h
    unfold State.deliverDecoded
    split_ifs with hp
    · exact State.finishFrame_dec _
    · exact h.resolve_right hp
  have hunset : ∀ (u : State) (n : Nat), u.dec = .unset → u.decodeChannels n = u := by
    intro u n h
    cases n with
    | zero => rfl
    | succ n => exact if_neg (by rw [h]; decide)
  unfold State.decodeChunk
  refine hfin _ ?_
  rcases s.beginDecode.findFrame_phase with h | ⟨hp, hc, hch, -⟩
  · exact .inl (by rw [hunset _ _ h]; exact h)
  · exact (State.decodeChannels_phase _ _ hp (by omega) (by omega)).imp_right And.right

/-! The buffers a DECODE writes. -/

/-- The memory is canonical and inside the buffers, the channel buffers are canonical and the MD5 engine holds the
bytes past the last whole block. -/
def State.buffersCanonical (s : State) : Prop :=
  (Memory.wf s.mem = true ∧ bytesInBuffers s.params s.mem) ∧ channelsCanonical s.params s.ch ∧
    s.md5.buf.length = s.md5.len.toNat % 64

/-- The frame at hand fits the channel buffers and OUTBUF (R270, R412). -/
def State.headerFits (s : State) : Prop :=
  s.dec.header.blockSize ≤ s.params.maxBlockSize ∧ s.dec.header.channels ≤ s.params.maxChannels

theorem State.writeChannel_canonical {s : State} {c : Nat} {xs : List Int} (hx : xs.length ≤ s.params.maxBlockSize)
    (h : channelsCanonical s.params s.ch) : channelsCanonical s.params (s.writeChannel c xs).ch :=
  ⟨(s.writeChannel_length c xs).trans h.1, s.writeChannel_rows c xs _ hx h.2⟩

theorem State.silenceChannels_canonical {s : State} {c b n : Nat} (hb : b ≤ s.params.maxBlockSize)
    (h : channelsCanonical s.params s.ch) : channelsCanonical s.params (s.silenceChannels c b n).ch := by
  induction n generalizing s c with
  | zero => exact h
  | succ n ih =>
    rw [State.silenceChannels_succ]
    exact ih (s := s.writeChannel c (List.replicate b 0)) hb
      (State.writeChannel_canonical (by rwa [List.length_replicate]) h)

theorem State.stereo_canonical {s : State} {f : Int → Int → Int × Int} {b : Nat} (hb : b ≤ s.params.maxBlockSize)
    (h : channelsCanonical s.params s.ch) : channelsCanonical s.params (s.stereo f b).ch := by
  have hl : (List.zipWith f (s.samples 0 b) (s.samples 1 b)).length = b := by
    rw [List.length_zipWith, State.samples_length, State.samples_length, min_self]
  unfold State.stereo
  refine State.writeChannel_canonical (s := s.writeChannel 0 _) (by rwa [List.length_map, hl]) ?_
  exact State.writeChannel_canonical (by rwa [List.length_map, hl]) h

theorem State.decorrelate_canonical {s : State} {a : BitVec 4} {b : Nat} (hb : b ≤ s.params.maxBlockSize)
    (h : channelsCanonical s.params s.ch) : channelsCanonical s.params (s.decorrelate a b).ch := by
  unfold State.decorrelate
  split_ifs
  · exact h
  · exact State.stereo_canonical hb h
  · exact State.stereo_canonical hb h
  · exact State.stereo_canonical hb h
  · exact h

/-- Absorbing keeps the pending bytes those past the last whole block (R551). -/
theorem md5Absorb_pending {m : Md5State} {bytes : List Byte} (h : m.buf.length = m.len.toNat % 64) :
    (md5Absorb m bytes).buf.length = (md5Absorb m bytes).len.toNat % 64 := by
  induction bytes generalizing m with
  | nil => exact h
  | cons x d ih =>
    rw [md5Absorb_cons]
    exact ih (md5AbsorbByte_frame m x h).2.1

/-- A delivered frame lies in OUTBUF (R92, R381). -/
theorem bytesInBuffers_writeFrame {p : Config.Params} {m : Memory} {bytes : List Byte} {b c : Nat}
    (hb : b ≤ p.maxBlockSize) (hc : c ≤ p.maxChannels) (hl : bytes.length = 2 * b * c) (h : bytesInBuffers p m) :
    bytesInBuffers p (Memory.writeBytes m outbufBase bytes) := by
  intro e he
  rcases Memory.mem_writeBytes _ _ _ _ he with ⟨h1, h2⟩ | he
  · have hcap : 2 * b * c ≤ 2 * p.maxBlockSize * p.maxChannels :=
      Nat.mul_le_mul (Nat.mul_le_mul_left 2 hb) hc
    refine .inr ((inOutbuf_iff _ _).2 ?_)
    unfold outbufBase at h1 h2
    omega
  · exact h e he

theorem State.finishFrame_canonical {s : State} (hf : s.headerFits) (h : s.buffersCanonical) :
    s.finishFrame.buffersCanonical := by
  obtain ⟨⟨hwf, hin⟩, hch, hmd⟩ := h
  rw [s.finishFrame_eq]
  refine ⟨⟨Memory.wf_writeBytes _ _ _ hwf, ?_⟩, hch, ?_⟩
  · exact bytesInBuffers_writeFrame hf.1 hf.2 (pcmBytes_length ..) hin
  · dsimp only
    split_ifs
    · exact md5Absorb_pending hmd
    · exact hmd

/-- An operation that stores nothing keeps the buffers, but for the channels it writes. -/
theorem keepsStream.buffersCanonical {s t : State} (hk : keepsStream s t) (hch : channelsCanonical s.params t.ch)
    (h : s.buffersCanonical) : t.buffersCanonical := by
  obtain ⟨⟨-, -, hmd, hmem⟩, ⟨-, -, -, -, -, -, -, -, -, -, -, hpar⟩, -⟩ := hk
  unfold State.buffersCanonical
  rw [hmd, hmem, hpar]
  exact ⟨h.1, hch, h.2.2⟩

theorem State.decodeSubframe_canonical {s : State} (hf : s.headerFits) (h : s.buffersCanonical) :
    s.decodeSubframe.buffersCanonical := by
  refine keepsStream.buffersCanonical (s.runSubframe_keeps _ _) ?_ h
  rcases s.decodeSubframe_cases with ⟨xs, p, hr, e⟩ | ⟨c, -, e⟩
  · show channelsCanonical s.params s.decodeSubframe.ch
    rw [e, State.subframeDecoded_ch]
    exact State.writeChannel_canonical (by rw [decodeSubframeAt_length hr]; exact hf.1) h.2.1
  · show channelsCanonical s.params s.decodeSubframe.ch
    rw [e, State.subframeFailed_eq]
    exact State.silenceChannels_canonical hf.1 h.2.1

/-- A subframe keeps the header, or ends the DECODE and leaves none. -/
theorem State.decodeSubframe_fits {s : State} (hf : s.headerFits) : s.decodeSubframe.headerFits := by
  have hpar : s.decodeSubframe.params = s.params := by
    obtain ⟨-, ⟨-, -, -, -, -, -, -, -, -, -, -, hpar⟩, -⟩ := s.runSubframe_keeps _ _
    exact hpar
  unfold State.headerFits
  rw [hpar]
  rcases s.decodeSubframe_phase with e | ⟨e, -⟩ <;> rw [e]
  · exact ⟨Nat.zero_le _, Nat.zero_le _⟩
  · exact hf

theorem State.acceptHeader_fits {s : State} {hd : FrameHeader} {o p q : Nat}
    (h : parseFrameHeader s o p = .ok (hd, q)) : (s.acceptHeader hd q).headerFits := by
  obtain ⟨-, blocking, h⟩ := parseFrameHeader_ok h
  obtain ⟨-, -, -, h⟩ := headerAfterSync_ok h
  obtain ⟨-, -, -, -, -, -, -, -, -, hb, -, -, -, -, -, -, -, -, -, hc, -⟩ := headerAfterAssignment_ok h
  exact ⟨hb, hc⟩

theorem State.noFrame_canonical {s : State} (h : s.buffersCanonical) :
    s.noFrame.buffersCanonical ∧ s.noFrame.headerFits := by
  rw [State.noFrame_eq]
  exact ⟨h, Nat.zero_le _, Nat.zero_le _⟩

theorem State.decodeChunk_canonical {s : State} (h : s.buffersCanonical) : s.decodeChunk.buffersCanonical := by
  suffices hP : s.decodeChunk.buffersCanonical ∧ s.decodeChunk.headerFits from hP.1
  refine State.decodeChunk_keeps (H := State.buffersCanonical) (P := fun u => u.buffersCanonical ∧ u.headerFits)
    h (fun u o h => h) (fun u e h => h) (fun u hd p h hp => ⟨h, State.acceptHeader_fits hp⟩)
    (fun u h => State.noFrame_canonical h)
    (fun u h _ => ⟨State.decodeSubframe_canonical h.2 h.1, State.decodeSubframe_fits h.2⟩) (fun u h _ => ?_)
  obtain ⟨⟨hmem, hch, hmd⟩, hf⟩ := h
  refine ⟨State.finishFrame_canonical ?_ ?_, ?_⟩
  · rw [u.decorrelate_frame]; exact hf
  · have hch' := State.decorrelate_canonical (a := u.dec.header.assign) hf.1 hch
    rw [u.decorrelate_frame]
    exact ⟨hmem, hch', hmd⟩
  · unfold State.headerFits
    rw [State.finishFrame_dec]
    exact ⟨Nat.zero_le _, Nat.zero_le _⟩

end Sys2Proof.Machine

/-! What every instruction leaves alone (R28, R29, R31, R33, R37, R43, R46, R91). -/

namespace Sys2Proof.Machine

/-- The reports of CHECK_MD5 and SEEK stay, no byte below OUTBUF changes and the memory stays canonical. -/
def keepsReports (s t : State) : Prop :=
  (t.md5Digest = s.md5Digest ∧ t.seekSample = s.seekSample ∧ t.seekOffset = s.seekOffset) ∧
    (∀ a, a < outbufBase → Memory.read t.mem a = Memory.read s.mem a) ∧
    (Memory.wf s.mem = true → Memory.wf t.mem = true)

/-- What an instruction with no register of its own to write leaves alone. -/
def keepsOwned (s t : State) : Prop := sameInputs s t ∧ keepsReports s t

theorem keepsReports_of_same {s t : State} (hd : t.md5Digest = s.md5Digest) (hs : t.seekSample = s.seekSample)
    (ho : t.seekOffset = s.seekOffset) (hm : t.mem = s.mem) : keepsReports s t :=
  ⟨⟨hd, hs, ho⟩, fun a _ => by rw [hm], fun h => by rwa [hm]⟩

theorem sameInputs.trans {s t u : State} (h1 : sameInputs s t) (h2 : sameInputs t u) : sameInputs s u := by
  obtain ⟨a1, a2, a3, a4, a5, a6, a7, a8, a9, a10, a11, a12⟩ := h1
  obtain ⟨b1, b2, b3, b4, b5, b6, b7, b8, b9, b10, b11, b12⟩ := h2
  exact ⟨b1.trans a1, b2.trans a2, b3.trans a3, b4.trans a4, b5.trans a5, b6.trans a6, b7.trans a7, b8.trans a8,
    b9.trans a9, b10.trans a10, b11.trans a11, b12.trans a12⟩

theorem keepsOwned.trans {s t u : State} (h1 : keepsOwned s t) (h2 : keepsOwned t u) : keepsOwned s u := by
  obtain ⟨i1, ⟨d1, s1, o1⟩, r1, w1⟩ := h1
  obtain ⟨i2, ⟨d2, s2, o2⟩, r2, w2⟩ := h2
  exact ⟨i1.trans i2, ⟨d2.trans d1, s2.trans s1, o2.trans o1⟩, fun a ha => (r2 a ha).trans (r1 a ha),
    fun h => w2 (w1 h)⟩

theorem keepsStream.keepsOwned {s t : State} (h : keepsStream s t) : keepsOwned s t := by
  obtain ⟨⟨-, -, -, hm⟩, hi, ⟨hs, ho, hd, -⟩, -⟩ := h
  exact ⟨hi, keepsReports_of_same hd hs ho hm⟩

theorem keepsHeader.keepsOwned {s t : State} (h : keepsHeader s t) : keepsOwned s t := by
  obtain ⟨⟨-, -, -, hm⟩, -, -, hi, ⟨hs, ho, hd, -⟩, -⟩ := h
  exact ⟨hi, keepsReports_of_same hd hs ho hm⟩

/-- A delivery writes OUTBUF only (R92). -/
theorem State.finishFrame_keepsOwned (s : State) : keepsOwned s s.finishFrame := by
  rw [s.finishFrame_eq]
  exact ⟨sameInputs_refl s, ⟨rfl, rfl, rfl⟩, fun a ha => Memory.read_writeBytes_outside _ _ _ _ (.inl ha),
    Memory.wf_writeBytes _ _ _⟩

theorem State.stereo_keepsOwned (s : State) (f : Int → Int → Int × Int) (b : Nat) : keepsOwned s (s.stereo f b) :=
  ⟨sameInputs_refl s, keepsReports_of_same rfl rfl rfl rfl⟩

theorem State.decodeChunk_keepsOwned (s : State) : keepsOwned s s.decodeChunk := by
  refine State.decodeChunk_keeps (H := keepsOwned s) ⟨sameInputs_refl s, keepsReports_of_same rfl rfl rfl rfl⟩
    (fun u o h => h) (fun u e h => h) (fun u hd p h _ => h.trans (u.acceptHeader_keeps hd p).keepsOwned)
    (fun u h => ?_) (fun u h _ => h.trans (u.runSubframe_keeps _ _).keepsOwned) (fun u h _ => ?_)
  · rw [u.noFrame_eq]
    exact h
  · rw [u.decorrelate_frame]
    exact h.trans (State.finishFrame_keepsOwned _)

/-- An instruction that answers one of two states, by a condition. -/
theorem next_ite {c : Prop} [Decidable c] {a b t : State}
    (h : (.next (if c then a else b) : Host.Outcome State Fault Refusal) = .next t) : c ∧ t = a ∨ ¬c ∧ t = b := by
  by_cases hc : c
  · rw [if_pos hc] at h
    exact .inl ⟨hc, (Host.Outcome.next.inj h).symm⟩
  · rw [if_neg hc] at h
    exact .inr ⟨hc, (Host.Outcome.next.inj h).symm⟩

theorem State.refuse_keepsOwned (s : State) (code : ErrorCode) (cause : BitVec 8) :
    keepsOwned s (s.refuse code cause) := ⟨sameInputs_refl s, keepsReports_of_same rfl rfl rfl rfl⟩

/-- Every bitstream element leaves alone what no instruction of its own writes (R91). -/
theorem exec_element_keepsOwned {i : Instr} {s t : State} (hi : i.slot ≠ .command) (h : exec i s = .next t) :
    keepsOwned s t := by
  cases i with
  | init | decode | flush | reset | seek | setStreaminfo | setSeektable | checkMd5 | illegalCommand =>
    exact absurd rfl hi
  | frameFixed | frameVariable => cases h; exact (s.frameHeader_keeps _).keepsOwned
  | frameReservedBit =>
    rcases next_ite h with ⟨-, rfl⟩ | ⟨-, rfl⟩
    · exact (s.headerFailed_keeps _).keepsOwned
    · exact (s.headerFailed_keeps _).keepsOwned
  | sfConstant | sfVerbatim | sfFixed0 | sfFixed1 | sfFixed2 | sfFixed3 | sfFixed4 | sfLpc | sfReservedType23
  | sfReservedType47 | sfReservedType13 | sfReservedType1415 | sfReservedType1631 | sfPadBitSet | resRice4
  | resRice5 | resReserved =>
    cases h; exact (s.runSubframe_keeps _ _).keepsOwned
  | rice4Escape | rice5Escape | rice4Partition | rice5Partition =>
    cases h; exact (s.partition_keeps _ _).keepsOwned
  | chIndependent =>
    rcases next_ite h with ⟨-, rfl⟩ | ⟨-, rfl⟩
    · exact s.finishFrame_keepsOwned
    · exact (s.headerAssignment_keeps _).keepsOwned
  | chLeftSide | chRightSide | chMidSide =>
    rcases next_ite h with ⟨-, rfl⟩ | ⟨-, rfl⟩
    · exact (s.stereo_keepsOwned _ _).trans (State.finishFrame_keepsOwned _)
    · exact (s.headerAssignment_keeps _).keepsOwned
  | chReserved11 | chReserved1215 => cases h; exact s.reservedAssignment_keeps.keepsOwned

/-- The claim of `Obligations.OnlyTheirWritersWrite` for one instruction. -/
def onlyOwnWrites (i : Instr) (s t : State) : Prop :=
  (i ≠ .setStreaminfo → t.si = s.si ∧ t.siValid = s.siValid) ∧
    (i ≠ .setSeektable → t.st = s.st) ∧
    (i ≠ .checkMd5 → t.md5Digest = s.md5Digest) ∧
    (i ≠ .seek → t.seekSample = s.seekSample ∧ t.seekOffset = s.seekOffset) ∧
    t.cfg = s.cfg ∧ t.inLen = s.inLen ∧ t.stCount = s.stCount ∧ t.seekTargetLo = s.seekTargetLo ∧
    t.seekTargetHi = s.seekTargetHi ∧ t.posHiLatch = s.posHiLatch ∧ t.host = s.host ∧ t.readData = s.readData ∧
    t.params = s.params ∧
    (∀ a, a < 0x30000000 → Memory.read t.mem a = Memory.read s.mem a) ∧
    (Memory.wf s.mem = true → Memory.wf t.mem = true)

theorem keepsOwned.onlyOwnWrites {i : Instr} {s t : State} (h : keepsOwned s t) : onlyOwnWrites i s t := by
  obtain ⟨⟨h1, h2, h3, h4, h5, h6, h7, h8, h9, h10, h11, h12⟩, ⟨d, s, o⟩, r, w⟩ := h
  exact ⟨fun _ => ⟨h1, h2⟩, fun _ => h3, fun _ => d, fun _ => ⟨s, o⟩, h4, h5, h6, h7, h8, h9, h10, h11, h12, r, w⟩

end Sys2Proof.Machine

/-! How each command ends (R490, R520 to R545): one lemma per command. -/

namespace Sys2Proof.Machine

theorem exec_init_cases {s t : State} (h : exec .init s = .next t) :
    (∃ code cause, t = s.refuse code cause) ∨
      (s.dstate = .uninitialized ∧ s.siValid = true ∧ checkStreamInfo s.params s.si = none) ∧
        t = ({ s.clearStream 0 with dstate := .initialized } : State).complete := by
  rcases next_ite h with ⟨hd, rfl⟩ | ⟨-, rfl⟩
  · split_ifs with hv
    · cases hc : checkStreamInfo s.params s.si with
      | some c => exact .inl ⟨_, _, rfl⟩
      | none => exact .inr ⟨⟨hd, hv, rfl⟩, rfl⟩
    · exact .inl ⟨_, _, rfl⟩
  · exact .inl ⟨_, _, rfl⟩

theorem exec_decode_cases {s t : State} (h : exec .decode s = .next t) :
    (∃ code cause, t = s.refuse code cause) ∨ s.decodeStarts ∧ t = s.decodeChunk := by
  rcases next_ite h with ⟨hd, rfl⟩ | ⟨-, rfl⟩
  · split_ifs with hl
    · exact .inl ⟨_, _, rfl⟩
    · exact .inr ⟨⟨hd, Nat.le_of_not_lt hl⟩, rfl⟩
  · exact .inl ⟨_, _, rfl⟩

theorem exec_flush_cases {s t : State} (h : exec .flush s = .next t) :
    s.dstate ≠ .decoding ∧ t = s.refuse .illegalState 0x03 ∨
      (s.dstate = .initialized ∨ s.dstate = .decoding) ∧
        t = ({ s with
          out := .empty
          outTs := s.pos
          dstate := if s.dstate = DState.decoding then .endOfStream else s.dstate } : State).complete :=
  (next_ite h).symm.imp_left fun hd => ⟨fun he => hd.1 (.inr he), hd.2⟩

theorem exec_reset_eq {s t : State} (h : exec .reset s = .next t) :
    t = ({ s.clearStream 0 with
      dstate := if s.dstate = DState.decoderError ∨ s.dstate = DState.uninitialized then .uninitialized
        else .initialized } : State).complete :=
  (Host.Outcome.next.inj h).symm

theorem exec_seek_cases {s t : State} (h : exec .seek s = .next t) :
    (s.dstate = .uninitialized ∨ s.dstate = .decoderError) ∧ t = s.refuse .illegalState 0x05 ∨
      ¬(s.dstate = .uninitialized ∨ s.dstate = .decoderError) ∧ ∃ sample offset,
        t = ({ ({ s with seekSample := sample, seekOffset := offset } : State).clearStream sample with
          dstate := .initialized } : State).complete := by
  have hstates : (s.dstate = .initialized ∨ s.dstate = .decoding ∨ s.dstate = .endOfStream) ↔
      ¬(s.dstate = .uninitialized ∨ s.dstate = .decoderError) := by cases s.dstate <;> decide
  rcases next_ite h with ⟨hd, rfl⟩ | ⟨hd, rfl⟩
  · exact .inr ⟨hstates.1 hd, _, _, rfl⟩
  · exact .inl ⟨not_not.1 fun hn => hd (hstates.2 hn), rfl⟩

theorem exec_setStreaminfo_cases {s t : State} (h : exec .setStreaminfo s = .next t) :
    t = s.refuse .illegalState 0x06 ∨
      s.dstate = .uninitialized ∧ t = ({ s with si := parseStreamInfo s, siValid := true } : State).complete :=
  (next_ite h).symm.imp_left And.right

theorem exec_setSeektable_cases {s t : State} (h : exec .setSeektable s = .next t) :
    (∃ code cause, t = s.refuse code cause) ∨
      ∃ st : List SeekPoint, st.length ≤ s.params.seekCap ∧ t = ({ s with st := st } : State).complete := by
  rcases next_ite h with ⟨-, rfl⟩ | ⟨-, rfl⟩
  · split_ifs with hl
    · exact .inl ⟨_, _, rfl⟩
    · refine .inr ⟨_, ?_, rfl⟩
      rw [List.length_map, List.length_range]
      simp only [Bool.or_eq_true, decide_eq_true_eq, not_or, Nat.not_lt] at hl
      exact hl.1
  · exact .inl ⟨_, _, rfl⟩

theorem exec_checkMd5_cases {s t : State} (h : exec .checkMd5 s = .next t) :
    ∃ digest result, t = (({ s with md5Digest := digest } : State).setMd5Result result).complete := by
  rcases next_ite h with ⟨-, rfl⟩ | ⟨-, rfl⟩
  · exact ⟨_, _, rfl⟩
  · exact ⟨s.md5Digest, _, rfl⟩

theorem exec_illegalCommand_eq {opcode : BitVec 8} {zero : BitVec 24} {s t : State}
    (h : exec (.illegalCommand opcode zero) s = .next t) : t = s.refuse .illegalCommand opcode :=
  (Host.Outcome.next.inj h).symm

/-- Every command writes only the registers that are its own. -/
theorem exec_command_onlyOwnWrites {i : Instr} {s t : State} (hi : i.slot = .command) (h : exec i s = .next t) :
    onlyOwnWrites i s t := by
  have hmem : ∀ u : State, u.mem = s.mem →
      (∀ a, a < 0x30000000 → Memory.read u.mem a = Memory.read s.mem a) ∧
        (Memory.wf s.mem = true → Memory.wf u.mem = true) := fun u e => by rw [e]; exact ⟨fun _ _ => rfl, id⟩
  cases i with
  | init =>
    rcases exec_init_cases h with ⟨_, _, rfl⟩ | ⟨-, rfl⟩
    · exact (s.refuse_keepsOwned _ _).onlyOwnWrites
    · exact keepsOwned.onlyOwnWrites ⟨sameInputs_refl s, keepsReports_of_same rfl rfl rfl rfl⟩
  | decode =>
    rcases exec_decode_cases h with ⟨_, _, rfl⟩ | ⟨-, rfl⟩
    · exact (s.refuse_keepsOwned _ _).onlyOwnWrites
    · exact s.decodeChunk_keepsOwned.onlyOwnWrites
  | flush =>
    rcases exec_flush_cases h with ⟨-, rfl⟩ | ⟨-, rfl⟩
    · exact (s.refuse_keepsOwned _ _).onlyOwnWrites
    · exact keepsOwned.onlyOwnWrites ⟨sameInputs_refl s, keepsReports_of_same rfl rfl rfl rfl⟩
  | reset =>
    rw [exec_reset_eq h]
    exact keepsOwned.onlyOwnWrites ⟨sameInputs_refl s, keepsReports_of_same rfl rfl rfl rfl⟩
  | seek =>
    rcases exec_seek_cases h with ⟨-, rfl⟩ | ⟨-, _, _, rfl⟩
    · exact (s.refuse_keepsOwned _ _).onlyOwnWrites
    · exact ⟨fun _ => ⟨rfl, rfl⟩, fun _ => rfl, fun _ => rfl, fun hn => absurd rfl hn, rfl, rfl, rfl, rfl, rfl, rfl,
        rfl, rfl, rfl, hmem _ rfl⟩
  | setStreaminfo =>
    rcases exec_setStreaminfo_cases h with rfl | ⟨-, rfl⟩
    · exact (s.refuse_keepsOwned _ _).onlyOwnWrites
    · exact ⟨fun hn => absurd rfl hn, fun _ => rfl, fun _ => rfl, fun _ => ⟨rfl, rfl⟩, rfl, rfl, rfl, rfl, rfl, rfl,
        rfl, rfl, rfl, hmem _ rfl⟩
  | setSeektable =>
    rcases exec_setSeektable_cases h with ⟨_, _, rfl⟩ | ⟨_, -, rfl⟩
    · exact (s.refuse_keepsOwned _ _).onlyOwnWrites
    · exact ⟨fun _ => ⟨rfl, rfl⟩, fun hn => absurd rfl hn, fun _ => rfl, fun _ => ⟨rfl, rfl⟩, rfl, rfl, rfl, rfl,
        rfl, rfl, rfl, rfl, rfl, hmem _ rfl⟩
  | checkMd5 =>
    obtain ⟨_, _, rfl⟩ := exec_checkMd5_cases h
    exact ⟨fun _ => ⟨rfl, rfl⟩, fun _ => rfl, fun hn => absurd rfl hn, fun _ => ⟨rfl, rfl⟩, rfl, rfl, rfl, rfl,
      rfl, rfl, rfl, rfl, rfl, hmem _ rfl⟩
  | illegalCommand =>
    rw [exec_illegalCommand_eq h]
    exact (s.refuse_keepsOwned _ _).onlyOwnWrites
  | _ => cases hi

theorem exec_onlyOwnWrites {i : Instr} {s t : State} (h : exec i s = .next t) : onlyOwnWrites i s t := by
  by_cases hi : i.slot = .command
  · exact exec_command_onlyOwnWrites hi h
  · exact (exec_element_keepsOwned hi h).onlyOwnWrites

theorem exec_params {i : Instr} {s t : State} (h : exec i s = .next t) : t.params = s.params := by
  obtain ⟨-, -, -, -, -, -, -, -, -, -, -, -, hpar, -⟩ := exec_onlyOwnWrites h
  exact hpar

/-- Settles O58: DECODE and the bitstream elements by the frames of their shared operations, the other commands by how
each ends. -/
theorem onlyTheirWritersWrite : Obligations.OnlyTheirWritersWrite := fun _ _ _ h => exec_onlyOwnWrites h

/-- Settles O26: every command by how it ends, DECODE by what it counts (R507). -/
theorem commandStateTable : Obligations.CommandStateTable := by
  intro s
  refine ⟨fun t h => ?_, fun t h => ?_, fun t h => ?_, fun t h => ?_, fun t h => ?_, fun i t hi h => ?_,
    fun opcode zero t h => ?_⟩
  · rcases exec_init_cases h with ⟨_, _, rfl⟩ | ⟨⟨hd, -, -⟩, rfl⟩
    · exact .inl rfl
    · exact .inr ⟨hd, rfl⟩
  · rcases exec_decode_cases h with ⟨_, _, rfl⟩ | ⟨⟨hd, -⟩, rfl⟩
    · exact .inl rfl
    · obtain ⟨hgoes, hends⟩ := s.decodeChunk_counted
      rcases hends (by rw [s.decodeChunk_dec]; rfl) with ⟨-, -, -, e, -⟩ | ⟨-, -, -, e, -⟩ <;> rw [e]
      · split_ifs with hc
        · exact .inr (.inr ⟨hd, rfl, hc⟩)
        · exact .inl rfl
      · split_ifs with hc
        · exact .inr (.inl ⟨hc, rfl⟩)
        · exact .inl rfl
  · rcases exec_flush_cases h with ⟨hd, rfl⟩ | ⟨-, rfl⟩
    · exact (if_neg hd).symm
    · rfl
  · rw [exec_reset_eq h]
    show (if _ then _ else _) = if _ then _ else _
    simp only [or_comm]
  · rcases exec_seek_cases h with ⟨hd, rfl⟩ | ⟨hd, _, _, rfl⟩
    · exact (if_pos hd).symm
    · exact (if_neg hd).symm
  · rcases hi with rfl | rfl | rfl
    · rcases exec_setStreaminfo_cases h with rfl | ⟨-, rfl⟩ <;> rfl
    · rcases exec_setSeektable_cases h with ⟨_, _, rfl⟩ | ⟨_, -, rfl⟩ <;> rfl
    · obtain ⟨_, _, rfl⟩ := exec_checkMd5_cases h
      rfl
  · rw [exec_illegalCommand_eq h]
    rfl

end Sys2Proof.Machine

/-! Every step keeps the invariant (R23, R26, R28, R29, R30, R492, R551). -/

namespace Sys2Proof.Machine

/-- What the invariant reads of a state. -/
def State.invView (s : State) :=
  (s.params, s.dec, s.mem, s.consec, s.dstate, s.si, s.siValid, s.ch, s.md5.buf, s.md5.len, s.st)

/-- A state that differs in nothing the invariant reads satisfies it too. -/
theorem State.Inv.of_view {s t : State} (h : s.Inv) (e : t.invView = s.invView) : t.Inv := by
  simp only [State.invView, Prod.mk.injEq] at e
  obtain ⟨hpar, hdec, hmem, hcon, hds, hsi, hsv, hch, hbuf, hlen, hst⟩ := e
  exact
    { idle := hdec ▸ h.idle
      memCanonical := hmem ▸ h.memCanonical
      memBuffers := by rw [hpar, hmem]; exact h.memBuffers
      consecBound := by rw [hpar, hcon]; exact h.consecBound
      consecError := by rw [hpar, hcon, hds]; exact h.consecError
      consecStart := by rw [hcon, hds]; exact h.consecStart
      started := by rw [hpar, hds, hsv, hsi]; exact h.started
      parsed := by rw [hsv, hsi]; exact h.parsed
      channels := by rw [hpar, hch]; exact h.channels
      md5Pending := by rw [hbuf, hlen]; exact h.md5Pending
      seekTable := by rw [hpar, hst]; exact h.seekTable }

/-! Host accesses. -/

theorem State.writeHostByte_inv {s : State} (h : s.Inv) (a : Nat) (v : Byte) : (s.writeHostByte a v).Inv := by
  unfold State.writeHostByte
  split_ifs with hw
  · exact
      { h with
        memCanonical := Memory.wf_write _ _ _ h.memCanonical
        memBuffers := fun e he => by
          rcases Memory.mem_write _ _ _ _ he with ha | he
          · exact .inl (ha ▸ hw)
          · exact h.memBuffers e he }
  · exact h

theorem State.writeHostByte_params (s : State) (a : Nat) (v : Byte) : (s.writeHostByte a v).params = s.params := by
  unfold State.writeHostByte
  split_ifs <;> rfl

/-- A register write stores nothing that the invariant reads. -/
theorem State.writeRegister_view (s : State) (off : Nat) (data : Word) :
    (s.writeRegister off data).invView = s.invView := by
  unfold State.writeRegister
  split <;> rfl

theorem State.hostWrite_inv {s : State} (h : s.Inv) (size : AccessSize) (addr data : Word) :
    (s.hostWrite size addr data).Inv := by
  unfold State.hostWrite
  dsimp only
  split_ifs
  · exact h.of_view (s.writeRegister_view _ _)
  · exact State.writeHostByte_inv (State.writeHostByte_inv (State.writeHostByte_inv
      (State.writeHostByte_inv h _ _) _ _) _ _) _ _
  · exact h

theorem State.hostWrite_params (s : State) (size : AccessSize) (addr data : Word) :
    (s.hostWrite size addr data).params = s.params := by
  unfold State.hostWrite
  dsimp only
  split_ifs
  · exact congrArg Prod.fst (s.writeRegister_view _ _)
  · simp only [State.writeHostByte_params]
  · rfl

/-! Commands. -/

theorem clearedChannels_canonical (p : Config.Params) : channelsCanonical p clearedChannels := by
  refine ⟨rfl, fun row h => ?_⟩
  rw [show clearedChannels = List.replicate 8 [] from rfl] at h
  rw [List.eq_of_mem_replicate h]
  exact ⟨Nat.zero_le _, rfl⟩

/-- A stream begins anew, in a state with no failures behind it (R520, R530, R532, R540). -/
theorem State.Inv.cleared {s : State} (h : s.Inv) (d : DState) (p : DWord) (hd : d ≠ .decoderError)
    (hs : d ≠ .uninitialized → s.siValid = true ∧ acceptedStreamInfo s.params s.si) :
    ({ s.clearStream p with dstate := d } : State).complete.Inv :=
  { idle := h.idle
    memCanonical := h.memCanonical
    memBuffers := h.memBuffers
    consecBound := Nat.zero_le _
    consecError := iff_of_false (Nat.succ_ne_zero _).symm hd
    consecStart := fun _ => rfl
    started := hs
    parsed := h.parsed
    channels := clearedChannels_canonical _
    md5Pending := rfl
    seekTable := h.seekTable }

/-- STREAMINFO registers in which INIT finds no failing cause (R520). -/
theorem acceptedStreamInfo_of_check {p : Config.Params} {si : StreamInfo} (h : checkStreamInfo p si = none) :
    acceptedStreamInfo p si := by
  unfold checkStreamInfo at h
  split_ifs at h with h1 h2 h3 h4 h5
  simp only [Bool.or_eq_true, decide_eq_true_eq, Bool.not_eq_true', Bool.not_eq_false, not_or, validSampleRate_iff,
    validChannelCount_iff, validBitDepth_iff, validBlockSize_iff, if_false, Bool.false_eq_true] at h1 h2 h3 h4
  unfold acceptedStreamInfo
  omega

theorem parseStreamInfo_parsed (s : State) : parsedStreamInfo (parseStreamInfo s) := by
  have hc : s.siField 100 3 < 2 ^ 3 := Nat.mod_lt _ (by decide)
  have hb : s.siField 103 5 < 2 ^ 5 := Nat.mod_lt _ (by decide)
  have hch : (parseStreamInfo s).channels.toNat = s.siField 100 3 + 1 := by
    rw [parseStreamInfo, BitVec.toNat_ofNat, Nat.mod_eq_of_lt (by omega)]
  have hbps : (parseStreamInfo s).bps.toNat = s.siField 103 5 + 1 := by
    rw [parseStreamInfo, BitVec.toNat_ofNat, Nat.mod_eq_of_lt (by omega)]
  unfold parsedStreamInfo
  omega

/-- A DECODE, accepted with room for one more failure, keeps the invariant (R23, R507). -/
theorem State.decodeChunk_inv {s : State} (h : s.Inv) (hd : s.dstate = .initialized ∨ s.dstate = .decoding) :
    s.decodeChunk.Inv := by
  have hne : s.dstate ≠ .uninitialized ∧ s.dstate ≠ .decoderError := by rcases hd with e | e <;> rw [e] <;> decide
  have hroom : s.consec ≤ s.params.maxConsecutiveErrors := by
    have hb := h.consecBound
    have he : s.consec ≠ s.params.maxConsecutiveErrors + 1 := fun e => hne.2 (h.consecError.1 e)
    omega
  obtain ⟨⟨hsi, hsv, hst, -, -, -, -, -, -, -, -, hpar⟩, -⟩ := s.decodeChunk_keepsOwned
  obtain ⟨⟨hwf, hin⟩, hch, hmd⟩ :=
    State.decodeChunk_canonical ⟨⟨h.memCanonical, h.memBuffers⟩, h.channels, h.md5Pending⟩
  have hcount : s.decodeChunk.consec ≤ s.params.maxConsecutiveErrors + 1 ∧
      (s.decodeChunk.consec = s.params.maxConsecutiveErrors + 1 ↔ s.decodeChunk.dstate = .decoderError) ∧
      s.decodeChunk.dstate ≠ .uninitialized := by
    rcases s.decodeChunk_counted.2 (by rw [s.decodeChunk_dec]; rfl) with ⟨-, -, hc, hs, -⟩ | ⟨-, -, hc, hs, -⟩
    · rw [hc, hs]
      split_ifs with hm
      · exact ⟨by omega, iff_of_true (by omega) rfl, by decide⟩
      · exact ⟨by omega, iff_of_false (by omega) hne.2, hne.1⟩
    · rw [hc, hs]
      split_ifs with hi
      · exact ⟨Nat.zero_le _, iff_of_false not_false (by decide), by decide⟩
      · exact ⟨Nat.zero_le _, iff_of_false not_false hne.2, hne.1⟩
  exact
    { idle := s.decodeChunk_dec
      memCanonical := hwf
      memBuffers := hin
      consecBound := hpar ▸ hcount.1
      consecError := hpar ▸ hcount.2.1
      consecStart := fun e => absurd e hcount.2.2
      started := fun _ => by rw [hsv, hsi, hpar]; exact h.started hne.1
      parsed := by rw [hsv, hsi]; exact h.parsed
      channels := hch
      md5Pending := hmd
      seekTable := by rw [hst, hpar]; exact h.seekTable }

theorem State.flush_inv {s : State} (h : s.Inv) (hd : s.dstate = .initialized ∨ s.dstate = .decoding) :
    ({ s with
      out := .empty
      outTs := s.pos
      dstate := if s.dstate = DState.decoding then .endOfStream else s.dstate } : State).complete.Inv := by
  have hc := h.consecError
  have hs := h.started
  rcases hd with e | e <;> rw [e] at hc hs ⊢
  · exact h.of_view (by simp only [State.invView, e]; rfl)
  · exact
      { h with
        consecError := iff_of_false (fun he => nomatch hc.1 he) fun he => nomatch he
        consecStart := fun he => nomatch he
        started := fun _ => hs (by decide) }

/-- Every command keeps the invariant. -/
theorem exec_command_inv {i : Instr} {s t : State} (hi : i.slot = .command) (h : s.Inv) (he : exec i s = .next t) :
    t.Inv := by
  have hrefuse : ∀ code cause, (s.refuse code cause).Inv := fun _ _ => h.of_view rfl
  cases i with
  | init =>
    rcases exec_init_cases he with ⟨_, _, rfl⟩ | ⟨⟨-, hv, hc⟩, rfl⟩
    · exact hrefuse _ _
    · exact h.cleared _ _ (by decide) fun _ => ⟨hv, acceptedStreamInfo_of_check hc⟩
  | decode =>
    rcases exec_decode_cases he with ⟨_, _, rfl⟩ | ⟨⟨hd, -⟩, rfl⟩
    · exact hrefuse _ _
    · exact State.decodeChunk_inv h hd
  | flush =>
    rcases exec_flush_cases he with ⟨-, rfl⟩ | ⟨hd, rfl⟩
    · exact hrefuse _ _
    · exact State.flush_inv h hd
  | reset =>
    rw [exec_reset_eq he]
    split_ifs with hd
    · exact h.cleared _ _ (by decide) fun hn => absurd rfl hn
    · exact h.cleared _ _ (by decide) fun _ => h.started fun e => hd (.inr e)
  | seek =>
    rcases exec_seek_cases he with ⟨-, rfl⟩ | ⟨hd, sample, offset, rfl⟩
    · exact hrefuse _ _
    · have hk : ({ s with seekSample := sample, seekOffset := offset } : State).Inv := h.of_view rfl
      exact hk.cleared _ _ (by decide) fun _ => h.started fun e => hd (.inl e)
  | setStreaminfo =>
    rcases exec_setStreaminfo_cases he with rfl | ⟨hd, rfl⟩
    · exact hrefuse _ _
    · exact
        { h with
          started := fun hn => absurd hd hn
          parsed := fun _ => parseStreamInfo_parsed s }
  | setSeektable =>
    rcases exec_setSeektable_cases he with ⟨_, _, rfl⟩ | ⟨_, hl, rfl⟩
    · exact hrefuse _ _
    · exact { h with seekTable := hl }
  | checkMd5 =>
    obtain ⟨_, _, rfl⟩ := exec_checkMd5_cases he
    exact h.of_view rfl
  | illegalCommand =>
    rw [exec_illegalCommand_eq he]
    exact hrefuse _ _
  | _ => cases hi

/-- Settles O16: a host access by what the invariant reads, a command by how it ends, DECODE by what it counts and by
the buffers it writes. -/
theorem stepKeepsInvariant : Obligations.StepKeepsInvariant := by
  intro s t h hstep
  have hq : ∀ rest, ({ s with host := rest } : State).Inv := fun rest => h.of_view rfl
  rcases step_idle_cases (by rw [h.idle]; rfl) hstep with
    rfl | ⟨size, addr, rest, rfl⟩ | ⟨size, addr, data, rest, rfl⟩ | ⟨w, rest, he⟩
  · exact ⟨h, rfl⟩
  · exact ⟨h.of_view rfl, rfl⟩
  · exact ⟨State.hostWrite_inv (hq rest) size addr data, State.hostWrite_params _ size addr data⟩
  · exact ⟨exec_command_inv (decodeCommand_slot w) (hq rest) he, by rw [exec_params he]⟩

end Sys2Proof.Machine

/-! The host's view of the registers (R31 to R49) and the commands that a CMD write starts. -/

namespace Sys2Proof.Machine

/-- Settles O4: a word write to CMD is the step's command branch, and every word decodes. -/
theorem stepRunsCommand : Obligations.StepRunsCommand := by
  intro s w rest i hp hh hd
  rw [decode_command_word] at hd
  rw [step_cmd hp hh, Except.ok.inj hd]

/-- A word that is no command decodes to its two fields (R175). -/
theorem decodeCommand_illegal {opcode : BitVec 8} {zero : BitVec 24}
    (h : zero ≠ 0 ∨ opcode = 0 ∨ 8 < opcode.toNat) :
    decodeCommand (zero ++ opcode) = .illegalCommand opcode zero := by
  have hlo : (zero ++ opcode).extractLsb' 0 8 = opcode := BitVec.extractLsb'_append_eq_right
  have hhi : (zero ++ opcode).extractLsb' 8 24 = zero := BitVec.extractLsb'_append_eq_left
  have hw := word_fields (zero ++ opcode)
  rw [hlo, hhi] at hw
  have hz : zero ≠ 0 → 0 < zero.toNat := fun hn => Nat.pos_of_ne_zero fun e => hn (BitVec.eq_of_toNat_eq e)
  have hn : (zero ++ opcode).toNat = 0 ∨ 8 < (zero ++ opcode).toNat := by
    rcases h with h | rfl | h
    · have := hz h
      omega
    · rw [show (0 : BitVec 8).toNat = 0 from rfl] at hw
      omega
    · omega
  unfold decodeCommand
  rw [hlo, hhi]
  split
  case h_9 => rfl
  all_goals omega

/-- Settles O25: the refusal is the command's whole effect, and the word decodes to it. -/
theorem illegalCommandRefused : Obligations.IllegalCommandRefused := by
  refine fun opcode zero s => ⟨rfl, fun hp rest hh h => ?_⟩
  rw [step_cmd hp hh, decodeCommand_illegal h]
  rfl

/-! Registers. -/

/-- A word read below 0x100 at a multiple of 4 is a register's (R32, R95). -/
theorem State.hostReadValue_register (s : State) {off : Nat} (h : off < 256) (h4 : off % 4 = 0) :
    s.hostReadValue .word (BitVec.ofNat 32 off) = s.readRegister off := by
  have e : (BitVec.ofNat 32 off).toNat = off := by rw [BitVec.toNat_ofNat, Nat.mod_eq_of_lt (by omega)]
  unfold State.hostReadValue wordAccess
  dsimp only
  rw [e, h4, if_pos (by decide), if_pos h]

/-- A misaligned word read returns 0 (R96). -/
theorem State.hostReadValue_misaligned (s : State) {addr : Word} (h : addr.toNat % 4 ≠ 0) :
    s.hostReadValue .word addr = 0 := by
  unfold State.hostReadValue wordAccess
  dsimp only
  exact if_neg (by simpa using h)

/-- Settles O9: the latch is written by the read of POSITION_LO alone. -/
theorem positionReadThroughLatch : Obligations.PositionReadThroughLatch := by
  refine ⟨fun s size addr => ?_, fun s => ⟨rfl, rfl⟩, fun s p => rfl, rfl, rfl⟩
  have hiff : (wordAccess size addr && addr == 0x028) = true ↔ size = .word ∧ addr = 0x00000028 := by
    unfold wordAccess
    simp only [Bool.and_eq_true, beq_iff_eq]
    exact ⟨fun h => ⟨h.1.1, h.2⟩, fun h => ⟨⟨h.1, by rw [h.2]; decide⟩, h.2⟩⟩
  unfold State.hostRead
  simp only [hiff]

/-! Words from their fields. -/

/-- The value of two fields side by side. -/
theorem toNat_append_add {m n : Nat} (x : BitVec m) (y : BitVec n) :
    (x ++ y).toNat = 2 ^ n * x.toNat + y.toNat := by
  rw [BitVec.toNat_append, ← Nat.shiftLeft_add_eq_or_of_lt y.isLt, Nat.shiftLeft_eq, Nat.mul_comm]

theorem getLsbD_of_toNat {n k : Nat} {w : BitVec n} {b : Bool} (h : w.toNat / 2 ^ k % 2 = b.toNat) :
    w.getLsbD k = b := by
  rw [BitVec.getLsbD, Nat.testBit_eq_decide_div_mod_eq, h]
  cases b <;> rfl

theorem extractLsb'_of_toNat {n k m : Nat} {w : BitVec n} {x : BitVec m} (h : w.toNat / 2 ^ k % 2 ^ m = x.toNat) :
    w.extractLsb' k m = x := by
  apply BitVec.eq_of_toNat_eq
  rw [BitVec.extractLsb'_toNat, Nat.shiftRight_eq_div_pow, h]

/-- STATUS as a number: each field at its bits (R32, R34). -/
theorem State.statusWord_toNat (s : State) :
    s.statusWord.toNat =
      s.dstate.number.toNat + 2 ^ 3 * s.status.cmdOk.toNat + 2 ^ 4 * s.status.crc16Mismatch.toNat +
        2 ^ 5 * s.status.silenced.toNat + 2 ^ 6 * s.status.recovered.toNat + 2 ^ 7 * s.siValid.toNat +
        2 ^ 8 * s.status.md5Result.number.toNat + 2 ^ 10 * s.md5.tainted.toNat := by
  unfold State.statusWord
  change @BitVec.toNat (21 + 1 + 2 + 1 + 1 + 1 + 1 + 1 + 3) _ = _
  simp only [toNat_append_add, BitVec.toNat_ofBool, BitVec.toNat_ofNat]
  omega

/-- ERROR as a number: each field at its bits (R32, R35). -/
theorem State.errorWord_toNat (s : State) :
    s.errorWord.toNat =
      s.err.code.number.toNat + 2 ^ 8 * s.err.cause.toNat + 2 ^ 16 * s.err.channel.toNat +
        2 ^ 19 * s.err.channelValid.toNat := by
  unfold State.errorWord
  change @BitVec.toNat (12 + 1 + 3 + 8 + 8) _ = _
  simp only [toNat_append_add, BitVec.toNat_ofBool, BitVec.toNat_ofNat]
  omega

/-- CONFIG as a number (R33). -/
theorem State.configWord_toNat (s : State) :
    s.configWord.toNat = s.cfg.md5En.toNat + 2 * s.cfg.crc16Reject.toNat := by
  unfold State.configWord
  change @BitVec.toNat (30 + 1 + 1) _ = _
  simp only [toNat_append_add, BitVec.toNat_ofBool, BitVec.toNat_ofNat]
  omega

theorem getLsbD_toNat {n : Nat} (w : BitVec n) (k : Nat) : (w.getLsbD k).toNat = w.toNat / 2 ^ k % 2 := by
  rw [BitVec.getLsbD, Nat.testBit_eq_decide_div_mod_eq]
  rcases Nat.mod_two_eq_zero_or_one (w.toNat / 2 ^ k) with h | h <;> rw [h] <;> rfl

/-- A CONFIG word shows the two bits that were written (R33). -/
theorem State.configWord_writeConfig (s : State) (w : Word) : (s.writeConfig w).configWord = w &&& 3 := by
  apply BitVec.eq_of_toNat_eq
  rw [State.configWord_toNat, BitVec.toNat_and]
  show (w.getLsbD 0).toNat + 2 * (w.getLsbD 1).toNat = w.toNat &&& (2 ^ 2 - 1)
  rw [getLsbD_toNat, getLsbD_toNat, Nat.and_two_pow_sub_one_eq_mod]
  omega

/-- STATUS's fields, each read back from the word's number. -/
theorem statusWord_fields (s : State) (w : Word) (h : s.statusWord = w) :
    w.extractLsb' 0 3 = s.dstate.number ∧ w.getLsbD 3 = s.status.cmdOk ∧ w.getLsbD 4 = s.status.crc16Mismatch ∧
      w.getLsbD 5 = s.status.silenced ∧ w.getLsbD 6 = s.status.recovered ∧ w.getLsbD 7 = s.siValid ∧
      w.extractLsb' 8 2 = s.status.md5Result.number ∧ w.getLsbD 10 = s.md5.tainted ∧ w.extractLsb' 11 21 = 0 := by
  have hw := s.statusWord_toNat
  rw [h] at hw
  have hd := s.dstate.number.isLt
  have h3 := s.status.cmdOk.toNat_le
  have h4 := s.status.crc16Mismatch.toNat_le
  have h5 := s.status.silenced.toNat_le
  have h6 := s.status.recovered.toNat_le
  have h7 := s.siValid.toNat_le
  have h8 := s.status.md5Result.number.isLt
  have h10 := s.md5.tainted.toNat_le
  refine ⟨extractLsb'_of_toNat ?_, getLsbD_of_toNat ?_, getLsbD_of_toNat ?_, getLsbD_of_toNat ?_, getLsbD_of_toNat ?_,
    getLsbD_of_toNat ?_, extractLsb'_of_toNat ?_, getLsbD_of_toNat ?_, extractLsb'_of_toNat ?_⟩
  case refine_9 => show _ = 0; omega
  all_goals omega

/-- ERROR's fields, each read back from the word's number. -/
theorem errorWord_fields (s : State) (w : Word) (h : s.errorWord = w) :
    w.extractLsb' 0 8 = s.err.code.number ∧ w.extractLsb' 8 8 = s.err.cause ∧ w.extractLsb' 16 3 = s.err.channel ∧
      w.getLsbD 19 = s.err.channelValid ∧ w.extractLsb' 20 12 = 0 := by
  have hw := s.errorWord_toNat
  rw [h] at hw
  have h0 := s.err.code.number.isLt
  have h8 := s.err.cause.isLt
  have h16 := s.err.channel.isLt
  have h19 := s.err.channelValid.toNat_le
  refine ⟨extractLsb'_of_toNat ?_, extractLsb'_of_toNat ?_, extractLsb'_of_toNat ?_, getLsbD_of_toNat ?_,
    extractLsb'_of_toNat ?_⟩
  case refine_5 => show _ = 0; omega
  all_goals omega

/-- The register offsets but STATUS and ERROR (R32). -/
def registerOffsets : List Nat :=
  [0x000, 0x00C, 0x028, 0x02C, 0x010, 0x014, 0x018, 0x01C, 0x020, 0x024, 0x030, 0x034, 0x038, 0x03C, 0x040, 0x044,
    0x048, 0x04C, 0x050, 0x054, 0x058, 0x05C, 0x060, 0x064, 0x068, 0x06C, 0x070, 0x074, 0x080, 0x084, 0x088, 0x08C,
    0x090, 0x094, 0x098, 0x09C, 0x0A0, 0x0A4, 0x0A8, 0x0AC, 0x0C0, 0x0C4, 0x0C8, 0x0CC, 0x0D0, 0x0D4, 0x0D8, 0x0DC,
    0x0E0, 0x0E4, 0x0E8, 0x0EC, 0x0F0]

theorem registerValues_offsets (s : State) : (registerValues s).map Prod.fst = registerOffsets := rfl

theorem registerOffsets_aligned : ∀ off ∈ registerOffsets, off < 256 ∧ off % 4 = 0 := by decide

/-- At any other offset but those of STATUS and ERROR no register is read. -/
theorem State.readRegister_other (s : State) {off : Nat} (h : off ∉ 0x004 :: 0x008 :: registerOffsets) :
    s.readRegister off = 0 := by
  unfold State.readRegister
  split
  case h_55 => rfl
  all_goals exact absurd (by decide) h

/-- A field no wider than its register fills it with zeros. -/
theorem toNat_setWidth_wider {m n : Nat} (x : BitVec m) (h : m ≤ n) : (x.setWidth n).toNat = x.toNat := by
  rw [BitVec.toNat_setWidth, Nat.mod_eq_of_lt (Nat.lt_of_lt_of_le x.isLt (Nat.pow_le_pow_right (by decide) h))]

/-- The bits from 32 up, as the high register of a field of up to 64 bits shows them. -/
theorem toNat_high {m n : Nat} (x : BitVec m) (h : m ≤ 32 + n) : (x.extractLsb' 32 n).toNat = x.toNat / 2 ^ 32 := by
  have hx : x.toNat < 2 ^ 32 * 2 ^ n := by
    rw [← pow_add]
    exact Nat.lt_of_lt_of_le x.isLt (Nat.pow_le_pow_right (by decide) h)
  rw [BitVec.extractLsb'_toNat, Nat.shiftRight_eq_div_pow, Nat.mod_eq_of_lt (Nat.div_lt_of_lt_mul hx)]

theorem toNat_high_setWidth {m n : Nat} (x : BitVec m) (h : m ≤ 32 + n) (hn : n ≤ 32) :
    ((x.extractLsb' 32 n).setWidth 32).toNat = x.toNat / 2 ^ 32 := by
  rw [toNat_setWidth_wider _ hn, toNat_high x h]

/-- CONSEC_ERR shows CONSEC's low byte (R36). -/
theorem toNat_low_byte (n : Nat) : ((BitVec.ofNat 8 n).setWidth 32).toNat = n % 256 :=
  toNat_setWidth_wider _ (by decide)

/-- HDR_ASSIGN: two fields of four bits (R47). -/
theorem HeaderRegs.toNat_assign (h : HeaderRegs) :
    ((h.count ++ h.assign).setWidth 32).toNat = h.assign.toNat + 2 ^ 4 * h.count.toNat := by
  rw [toNat_setWidth_wider _ (by decide), toNat_append_add, Nat.add_comm]

/-- HDR_MISC: the blocking bit, and the CRC-8 from bit 8 up (R47). -/
theorem HeaderRegs.toNat_misc (h : HeaderRegs) :
    ((h.crc8 ++ 0#7 ++ BitVec.ofBool h.blocking).setWidth 32).toNat =
      h.blocking.toNat + 2 ^ 8 * h.crc8.toNat := by
  rw [toNat_setWidth_wider _ (by decide), toNat_append_add, toNat_append_add, BitVec.toNat_ofBool]
  show 2 ^ 1 * (2 ^ 7 * h.crc8.toNat + 0) + _ = _
  omega

theorem HeaderRegs.toNat_crc16 (h : HeaderRegs) :
    (h.crc16Computed ++ h.crc16Read).toNat = h.crc16Read.toNat + 2 ^ 16 * h.crc16Computed.toNat := by
  rw [toNat_append_add, Nat.add_comm]

/-- Each register holds its value of `registerValues`, block by block of that list (R33, R36 to R49). -/
theorem State.readRegister_values (s : State) : ∀ e ∈ registerValues s, (s.readRegister e.1).toNat = e.2 := by
  have wide : ∀ {m : Nat} (x : BitVec m), m ≤ 32 → (x.setWidth 32).toNat = x.toNat :=
    fun x h => toNat_setWidth_wider x h
  have low : ∀ {m : Nat} (x : BitVec m), (x.setWidth 32).toNat = x.toNat % 2 ^ 32 := fun x =>
    BitVec.toNat_setWidth 32 x
  unfold registerValues
  simp only [List.forall_mem_append, List.forall_mem_cons, List.not_mem_nil, false_implies, implies_true, and_true]
  refine ⟨⟨⟨⟨⟨?_, ?_⟩, ?_⟩, ?_⟩, ?_⟩, ?_⟩
  · exact ⟨rfl, s.configWord_toNat, low s.pos, rfl⟩
  · exact ⟨toNat_low_byte s.consec, rfl, rfl, BitVec.toNat_ofNat _ 32, rfl, rfl⟩
  · exact ⟨wide s.out.samples (by decide), wide s.out.channels (by decide), wide s.out.rate (by decide),
      wide s.out.bps (by decide), low s.outTs, toNat_high s.outTs (by decide), low s.seekSample,
      toNat_high s.seekSample (by decide), low s.seekOffset, toNat_high s.seekOffset (by decide), rfl, rfl⟩
  · exact ⟨rfl, rfl, rfl, rfl, rfl, rfl, rfl, rfl, rfl, rfl⟩
  · exact ⟨wide s.hdr.blockSize (by decide), wide s.hdr.rate (by decide), s.hdr.toNat_assign,
      wide s.hdr.bps (by decide), low s.hdr.number, toNat_high_setWidth s.hdr.number (by decide) (by decide),
      s.hdr.toNat_misc, s.hdr.toNat_crc16⟩
  · exact ⟨wide s.si.minBlock (by decide), wide s.si.maxBlock (by decide), wide s.si.minFrame (by decide),
      wide s.si.maxFrame (by decide), wide s.si.rate (by decide), wide s.si.channels (by decide),
      wide s.si.bps (by decide), low s.si.total, toNat_high_setWidth s.si.total (by decide) (by decide), rfl, rfl,
      rfl, rfl⟩

/-- What a host reads at a register offset but STATUS and ERROR. -/
theorem State.hostReadValue_values (s : State) {off v : Nat} (h : (off, v) ∈ registerValues s) :
    (s.hostReadValue .word (BitVec.ofNat 32 off)).toNat = v := by
  have hoff : off ∈ registerOffsets := by
    rw [← registerValues_offsets s]
    exact List.mem_map_of_mem (f := Prod.fst) h
  obtain ⟨hlt, h4⟩ := registerOffsets_aligned off hoff
  rw [s.hostReadValue_register hlt h4]
  exact s.readRegister_values _ h

/-- A host reads 0 at every other offset below 0x100 (R96, R97). -/
theorem State.hostReadValue_reserved (s : State) {off : Nat} (hlt : off < 256)
    (h : off ∉ 0x004 :: 0x008 :: registerOffsets) : s.hostReadValue .word (BitVec.ofNat 32 off) = 0 := by
  by_cases h4 : off % 4 = 0
  · rw [s.hostReadValue_register hlt h4, s.readRegister_other h]
  · refine s.hostReadValue_misaligned ?_
    rwa [BitVec.toNat_ofNat, Nat.mod_eq_of_lt (show off < 2 ^ 32 by omega)]

/-- The code numbers are those of R560. -/
theorem mem_errorCodes_iff (code : ErrorCode) (n : Nat) : (code, n) ∈ errorCodes ↔ code.number.toNat = n := by
  constructor
  · intro h
    have key : ∀ e ∈ errorCodes, e.1.number.toNat = e.2 := by decide
    exact key _ h
  · rintro rfl
    cases code <;> decide

/-- The cause numbers are those of R562. -/
theorem mem_errorCauses_iff {cause : Cause} (hc : cause ≠ .noSync) (n : Nat) :
    (cause, n) ∈ errorCauses ↔ cause.number.toNat = n := by
  constructor
  · intro h
    have key : ∀ e ∈ errorCauses, e.1.number.toNat = e.2 := by decide
    exact key _ h
  · rintro rfl
    revert hc
    cases cause <;> decide

/-- Settles O8: STATUS and ERROR by their values as numbers, the other registers by `registerValues`. -/
theorem statusAndErrorWords : Obligations.StatusAndErrorWords := by
  refine ⟨fun s w h => ?_, fun s w h => errorWord_fields s w h, mem_errorCodes_iff,
    fun cause n hc => mem_errorCauses_iff hc n, fun s off v h => s.hostReadValue_values h,
    fun s off hlt h1 h2 => s.hostReadValue_reserved hlt ?_, fun s w => ⟨rfl, rfl, rfl, rfl⟩⟩
  · obtain ⟨f1, f2, f3, f4, f5, f6, f7, f8, f9⟩ := statusWord_fields s w h
    exact ⟨f1, f2, f3, f4, f5, f6, f7, f8, f9, rfl, rfl, rfl, rfl, rfl, rfl, rfl, rfl, rfl⟩
  · rw [registerValues_offsets] at h2
    simp only [List.mem_cons, List.not_mem_nil, or_false, not_or] at h1 h2 ⊢
    exact ⟨h1.1, h1.2, h2⟩

/-- Settles O10: the write is `State.writeConfig`, and the word read back shows the two bits stored. -/
theorem configWriteTaints : Obligations.ConfigWriteTaints :=
  ⟨fun s w => ⟨rfl, s.configWord_writeConfig w⟩, by decide⟩

end Sys2Proof.Machine

/-! The host's accesses to the registers and the buffers (R94 to R97), and the steps that perform them (R101). -/

namespace Sys2Proof.Machine

theorem wordAccess_iff (size : AccessSize) (addr : Word) :
    wordAccess size addr = true ↔ size = .word ∧ addr.toNat % 4 = 0 := by
  simp only [wordAccess, Bool.and_eq_true, beq_iff_eq]

/-- A command is started by a word write to CMD alone (R49, R96). -/
theorem startsCommand_iff (size : AccessSize) (addr : Word) :
    startsCommand size addr = true ↔ size = .word ∧ addr = 0x00000000 := by
  simp only [startsCommand, Bool.and_eq_true, wordAccess_iff, beq_iff_eq]
  exact ⟨fun h => ⟨h.1.1, h.2⟩, fun h => ⟨⟨h.1, by rw [h.2]; rfl⟩, h.2⟩⟩

theorem step_no_access {s : State} (hp : s.dec.phase = .idle) (hh : s.host = []) : step s = .next s := by
  unfold step
  rw [if_pos hp, hh]

theorem step_read {s : State} {size : AccessSize} {addr : Word} {rest : List HostAccess} (hp : s.dec.phase = .idle)
    (hh : s.host = .read size addr :: rest) :
    step s = .next (({ s with host := rest } : State).hostRead size addr) := by
  unfold step
  rw [if_pos hp, hh]

theorem step_write {s : State} {size : AccessSize} {addr data : Word} {rest : List HostAccess}
    (hp : s.dec.phase = .idle) (hh : s.host = .write size addr data :: rest)
    (hc : startsCommand size addr = false) :
    step s = .next (({ s with host := rest } : State).hostWrite size addr data) := by
  unfold step
  rw [if_pos hp, hh]
  exact if_neg (by rw [hc]; decide)

/-- Settles O6: the three branches of a step outside a DECODE that start no command. -/
theorem stepPerformsHostAccess : Obligations.StepPerformsHostAccess := fun _ hp =>
  ⟨step_no_access hp, fun _ _ _ => step_read hp, fun size addr _ _ hh hn =>
    step_write hp hh (Bool.eq_false_iff.2 fun hc => hn ((startsCommand_iff size addr).1 hc))⟩

/-- Settles O11: every operation of the host interface asks first for a naturally aligned word. -/
theorem undefinedAccessesIgnored : Obligations.UndefinedAccessesIgnored := by
  intro s size addr data hn
  have hw : wordAccess size addr = false := Bool.eq_false_iff.2 fun h => hn ((wordAccess_iff size addr).1 h)
  refine ⟨?_, ?_, ?_, ?_⟩
  · simp only [State.hostWrite, hw, Bool.false_eq_true, if_false]
  · simp only [State.hostReadValue, hw, Bool.false_eq_true, if_false]
  · simp only [startsCommand, hw, Bool.false_and]
  · simp only [State.hostRead, State.hostReadValue, hw, Bool.false_eq_true, if_false, Bool.false_and]

/-! A word write, and a word read, at a multiple of 4. -/

/-- The state after the `n` low byte lanes of a word are written from `a` up (R95). -/
def State.writeLanes (s : State) (a : Nat) (data : Word) : Nat → State
  | 0 => s
  | n + 1 => (s.writeLanes a data n).writeHostByte (a + n) (laneOf data n)

/-- A word write below 0x100 is a register's (R32, R95). -/
theorem State.hostWrite_register (s : State) {addr : Word} (data : Word) (h4 : addr.toNat % 4 = 0)
    (h : addr.toNat < 0x100) : s.hostWrite .word addr data = s.writeRegister addr.toNat data := by
  unfold State.hostWrite
  rw [if_pos ((wordAccess_iff _ _).2 ⟨rfl, h4⟩)]
  exact if_pos h

/-- A word write from 0x100 up writes its four byte lanes (R94, R95). -/
theorem State.hostWrite_lanes (s : State) {addr : Word} (data : Word) (h4 : addr.toNat % 4 = 0)
    (h : 0x100 ≤ addr.toNat) : s.hostWrite .word addr data = s.writeLanes addr.toNat data 4 := by
  unfold State.hostWrite
  rw [if_pos ((wordAccess_iff _ _).2 ⟨rfl, h4⟩)]
  exact if_neg (Nat.not_lt.2 h)

theorem State.hostReadValue_below (s : State) {addr : Word} (h4 : addr.toNat % 4 = 0) (h : addr.toNat < 0x100) :
    s.hostReadValue .word addr = s.readRegister addr.toNat := by
  unfold State.hostReadValue
  rw [if_pos ((wordAccess_iff _ _).2 ⟨rfl, h4⟩)]
  exact if_pos h

theorem State.hostReadValue_lanes (s : State) {addr : Word} (h4 : addr.toNat % 4 = 0) (h : 0x100 ≤ addr.toNat) :
    s.hostReadValue .word addr =
      wordOfLanes (s.hostByte (addr.toNat + 0)) (s.hostByte (addr.toNat + 1)) (s.hostByte (addr.toNat + 2))
        (s.hostByte (addr.toNat + 3)) := by
  unfold State.hostReadValue
  rw [if_pos ((wordAccess_iff _ _).2 ⟨rfl, h4⟩)]
  exact if_neg (Nat.not_lt.2 h)

/-! One byte the host writes. -/

theorem State.writeHostByte_unwritable {s : State} {a : Nat} (h : hostWritable s.params a = false) (v : Byte) :
    s.writeHostByte a v = s := if_neg (by rw [h]; decide)

theorem State.writeHostByte_writable {s : State} {a : Nat} (h : hostWritable s.params a = true) (v : Byte) :
    s.writeHostByte a v = { s with mem := Memory.write s.mem a v } := if_pos h

/-- A byte after the host wrote `v` at `a`: `v` there when the host may write it, the old byte elsewhere (R94). -/
theorem State.hostByte_writeHostByte (s : State) (a b : Nat) (v : Byte) :
    (s.writeHostByte a v).hostByte b =
      if b = a ∧ hostWritable s.params a = true then v else s.hostByte b := by
  cases hw : hostWritable s.params a with
  | false => rw [State.writeHostByte_unwritable hw, if_neg fun h => nomatch h.2]
  | true =>
    rw [State.writeHostByte_writable hw]
    by_cases hb : b = a
    · subst hb
      simp [State.hostByte, Memory.read_write, hw]
    · simp [State.hostByte, Memory.read_write, hb]

theorem State.writeHostByte_frame (s : State) (a : Nat) (v : Byte) :
    s.writeHostByte a v = { s with mem := (s.writeHostByte a v).mem } := by
  cases hw : hostWritable s.params a with
  | false => rw [State.writeHostByte_unwritable hw]
  | true => rw [State.writeHostByte_writable hw]

theorem State.writeHostByte_wf {s : State} (a : Nat) (v : Byte) (h : Memory.wf s.mem = true) :
    Memory.wf (s.writeHostByte a v).mem = true := by
  cases hw : hostWritable s.params a with
  | false => rwa [State.writeHostByte_unwritable hw]
  | true =>
    rw [State.writeHostByte_writable hw]
    exact Memory.wf_write _ _ _ h

/-! The lanes of a word. -/

theorem State.writeLanes_params (s : State) (a : Nat) (data : Word) (n : Nat) :
    (s.writeLanes a data n).params = s.params := by
  induction n with
  | zero => rfl
  | succ n ih => rw [State.writeLanes, State.writeHostByte_params, ih]

/-- A byte after the low lanes of a word were written from `a` up: its lane where the host may write, the old byte
elsewhere (R94, R95). -/
theorem State.hostByte_writeLanes (s : State) (a : Nat) (data : Word) (n b : Nat) :
    (s.writeLanes a data n).hostByte b =
      if (a ≤ b ∧ b < a + n) ∧ hostWritable s.params b = true then laneOf data (b - a) else s.hostByte b := by
  induction n with
  | zero => rw [if_neg (by omega)]; rfl
  | succ n ih =>
    rw [State.writeLanes, State.hostByte_writeHostByte, State.writeLanes_params, ih]
    by_cases hb : b = a + n
    · subst hb
      rw [Nat.add_sub_cancel_left, if_neg (by omega : ¬((a ≤ a + n ∧ a + n < a + n) ∧ _))]
      simp only [true_and, show a ≤ a + n ∧ a + n < a + (n + 1) by omega]
    · have hrange : (a ≤ b ∧ b < a + (n + 1)) ↔ a ≤ b ∧ b < a + n := by omega
      simp only [hb, hrange, false_and, if_false]

theorem State.writeLanes_frame (s : State) (a : Nat) (data : Word) (n : Nat) :
    s.writeLanes a data n = { s with mem := (s.writeLanes a data n).mem } := by
  induction n with
  | zero => rfl
  | succ n ih =>
    exact (State.writeHostByte_frame _ _ _).trans
      (congrArg (fun u : State => { u with mem := (s.writeLanes a data (n + 1)).mem }) ih)

theorem State.writeLanes_wf {s : State} (a : Nat) (data : Word) (n : Nat) (h : Memory.wf s.mem = true) :
    Memory.wf (s.writeLanes a data n).mem = true := by
  induction n with
  | zero => exact h
  | succ n ih => exact State.writeHostByte_wf _ _ ih

/-- Lanes none of which the host may write change nothing (R97). -/
theorem State.writeLanes_unwritable {s : State} {a : Nat} (data : Word) {n : Nat}
    (h : ∀ k, k < n → hostWritable s.params (a + k) = false) : s.writeLanes a data n = s := by
  induction n with
  | zero => rfl
  | succ n ih =>
    rw [State.writeLanes, ih fun k hk => h k (by omega), State.writeHostByte_unwritable (h n (by omega))]

/-- Byte lane `k` of the word of four bytes is the `k`-th of them (R95). -/
theorem laneOf_wordOfLanes (b : Nat → Byte) {k : Nat} (h : k < 4) :
    laneOf (wordOfLanes (b 0) (b 1) (b 2) (b 3)) k = b k := by
  have h0 := (b 0).isLt
  have h1 := (b 1).isLt
  have h2 := (b 2).isLt
  have h3 := (b 3).isLt
  refine extractLsb'_of_toNat ?_
  unfold wordOfLanes
  change @BitVec.toNat (8 + 8 + 8 + 8) _ / _ % _ = _
  simp only [toNat_append_add]
  interval_cases k <;> omega

/-- Settles O13: a buffer word write is its four lanes, and a lane of the word read is the byte it was made of. -/
theorem bufferWordsInLanes : Obligations.BufferWordsInLanes := by
  intro s addr data h4 h
  rw [s.hostWrite_lanes data h4 h, s.hostReadValue_lanes h4 h]
  refine ⟨fun k hk hw => ?_, fun a ha => ?_, fun k hk => ?_, s.writeLanes_frame _ _ _, s.writeLanes_wf _ _ _⟩
  · rw [s.hostByte_writeLanes, if_pos ⟨by omega, hw⟩, Nat.add_sub_cancel_left, laneOf]
  · rw [s.hostByte_writeLanes, if_neg]
    rintro ⟨hr, hw⟩
    rcases ha with ha | ha | ha
    · omega
    · omega
    · rw [ha] at hw; cases hw
  · exact laneOf_wordOfLanes (fun k => s.hostByte (addr.toNat + k)) hk

/-! Reserved addresses. -/

/-- A register write stores nothing at CMD, a read-only register or a reserved offset (R32, R97). -/
theorem State.writeRegister_other (s : State) {off : Nat} (data : Word)
    (h : off ∉ [0x00C, 0x014, 0x018, 0x020, 0x024]) : s.writeRegister off data = s := by
  unfold State.writeRegister
  split
  case h_6 => rfl
  all_goals exact absurd (by decide) h

/-- The offsets below 0x100 that R32 leaves free, CMD apart. -/
def reservedOffset (off : Nat) : Prop :=
  0x078 ≤ off ∧ off < 0x080 ∨ 0x0B0 ≤ off ∧ off < 0x0C0 ∨ 0x0F4 ≤ off ∧ off < 0x100

theorem not_reservedOffset_of_register : ∀ off ∈ 0x004 :: 0x008 :: registerOffsets, ¬reservedOffset off := by
  unfold reservedOffset
  decide

/-- CMD and the reserved offsets read 0 (R49, R97). -/
theorem State.readRegister_reserved (s : State) {off : Nat} (h : off = 0 ∨ reservedOffset off) :
    s.readRegister off = 0 := by
  rcases h with rfl | h
  · rfl
  · exact s.readRegister_other fun hm => not_reservedOffset_of_register off hm h

/-- A byte outside the buffers reads 0 (R97). -/
theorem State.hostByte_reserved {s : State} {a : Nat} (hw : hostWritable s.params a = false)
    (ho : inOutbuf s.params a = false) : s.hostByte a = 0 := if_neg (by rw [hw, ho]; decide)

/-- Settles O12: the register file and the buffers, each by what its write and its read do at a reserved address. -/
theorem reservedAddressesIgnored : Obligations.ReservedAddressesIgnored := by
  refine fun s addr data h4 => ⟨fun h hr => ?_, fun h hw => ?_, fun h => ?_, fun h hb => ?_,
    hostWritable_iff s.params, inOutbuf_iff s.params⟩
  · rw [s.hostWrite_register data h4 h, s.writeRegister_other data hr]
  · rw [s.hostWrite_lanes data h4 h, State.writeLanes_unwritable data hw]
  · rw [s.hostReadValue_below h4 (by omega), s.readRegister_reserved h]
  · have hz : ∀ k, k < 4 → s.hostByte (addr.toNat + k) = 0 := fun k hk =>
      State.hostByte_reserved (hb k hk).1 (hb k hk).2
    rw [s.hostReadValue_lanes h4 h, hz 0 (by decide), hz 1 (by decide), hz 2 (by decide), hz 3 (by decide)]
    rfl

end Sys2Proof.Machine

/-! The element a step inside a DECODE runs (R120 to R142, R400). -/

namespace Sys2Proof.Machine

/-- A field that lies inside the chunk is looked up by its bits (R98). -/
theorem State.fetchElement_inside {s : State} (hp : s.dec.phase ≠ .decorrelate)
    (h : s.dec.slot.bits ≤ s.chunk.bitsLeft s.dec.cursor) :
    s.fetchElement = decode s.dec.slot (s.chunk.bits s.dec.cursor s.dec.slot.bits) := by
  rw [← s.chunk.peek_eq_bits _ _ h]
  unfold State.fetchElement
  unfold DecodeCtx.slot at h ⊢
  cases hph : s.dec.phase with
  | decorrelate => exact absurd hph hp
  | header =>
    rw [hph] at h
    exact if_neg (Nat.not_lt.2 h)
  | idle | assignment | subframe | residual | partition => rfl

theorem State.fetchElement_decorrelate {s : State} (hp : s.dec.phase = .decorrelate) :
    s.fetchElement = decode .assignment s.dec.header.assign.toNat := by
  unfold State.fetchElement
  rw [hp]

/-- A header is not looked at further without a sync code (R400). -/
theorem parseFrameHeader_noSync {s : State} {o p : Nat}
    (h : s.chunk.bitsLeft p < 16 ∨ s.chunk.bits p 14 ≠ 0x3FFE) : parseFrameHeader s o p = .error .noSync := by
  unfold parseFrameHeader
  split_ifs with hb
  · rfl
  · have hs : (s.chunk.bits p 14 == 0x3FFE) = false := beq_eq_false_iff_ne.2 (h.resolve_left hb)
    rw [Reader.bind_of_ok (readBits_of_le (by omega)), Reader.bind_of_error (gate_fail hs _ _)]

/-- Settles O5: the element the step fetches, and the header parse for a missing sync code. -/
theorem stepRunsElement : Obligations.StepRunsElement := by
  refine fun s => ⟨fun i hi hd hl hdec => ?_, fun i hp hdec => ?_, fun hp h => ?_⟩
  · exact step_of_fetch hi ((State.fetchElement_inside hd hl).trans hdec)
  · exact step_of_fetch (by rw [hp]; decide) ((State.fetchElement_decorrelate hp).trans hdec)
  · rw [step_header hp, State.runHeader_error (parseFrameHeader_noSync h)]

end Sys2Proof.Machine

/-! What a DECODE writes to memory (R91, R92, R511). -/

namespace Sys2Proof.Machine

/-- The block size and the channel count of the header at hand fit OUT_SAMPLES and OUT_CHANNELS (R41). -/
def State.headerShowable (s : State) : Prop := s.dec.header.blockSize < 2 ^ 16 ∧ s.dec.header.channels < 2 ^ 4

theorem channelCount_le (a : BitVec 4) : channelCount a ≤ 8 := by
  unfold channelCount
  split_ifs <;> omega

theorem State.acceptHeader_showable {s : State} {hd : FrameHeader} {o p q : Nat}
    (h : parseFrameHeader s o p = .ok (hd, q)) : (s.acceptHeader hd q).headerShowable := by
  obtain ⟨-, blocking, h⟩ := parseFrameHeader_ok h
  obtain ⟨-, -, -, h⟩ := headerAfterSync_ok h
  obtain ⟨-, -, -, -, -, -, -, -, -, -, -, hc, -, -, -, -, -, -, hb, -⟩ := headerAfterAssignment_ok h
  have hchan := channelCount_le (BitVec.ofNat 4 (s.chunk.bits (p + 16 + 8) 4))
  have hblock := hb (s.chunk.bits_lt _ 4)
  show hd.blockSize < 2 ^ 16 ∧ hd.channels < 2 ^ 4
  omega

/-- A subframe keeps the header, or ends the DECODE and leaves none. -/
theorem State.decodeSubframe_showable {s : State} (h : s.headerShowable) : s.decodeSubframe.headerShowable := by
  unfold State.headerShowable
  rcases s.decodeSubframe_phase with e | ⟨e, -⟩ <;> rw [e]
  · exact ⟨by decide, by decide⟩
  · exact h

theorem sameBytesBut_of_mem {s t : State} (n : Nat) (h : t.mem = s.mem) : sameBytesBut n s t := fun a _ => by rw [h]

/-- What a DECODE from `s` has stored when it stands at `t`: nothing while it goes on, and once it is over no byte but
those of the frame that OUT_SAMPLES and OUT_CHANNELS show. -/
def storesFrame (s t : State) : Prop :=
  t.status.md5Result = s.status.md5Result ∧ (t.dec.phase ≠ .idle → t.mem = s.mem ∧ t.headerShowable) ∧
    (t.dec.phase = .idle → sameBytesBut (2 * t.out.samples.toNat * t.out.channels.toNat) s t)

/-- The delivery of the frame at hand stores as many bytes as the AudioFrame registers show (R92, R511). -/
theorem State.finishFrame_bytes {s : State} (h : s.headerShowable) :
    sameBytesBut (2 * s.finishFrame.out.samples.toNat * s.finishFrame.out.channels.toNat) s s.finishFrame := by
  obtain ⟨-, hbytes, -, -, hout, -⟩ := s.finishFrame_delivers
  rw [hout]
  dsimp only
  rwa [BitVec.toNat_ofNat, BitVec.toNat_ofNat, Nat.mod_eq_of_lt h.1, Nat.mod_eq_of_lt h.2]

theorem State.finishFrame_md5Result (s : State) : s.finishFrame.status.md5Result = s.status.md5Result := by
  rw [s.finishFrame_events.1]

theorem State.decodeSubframe_storesFrame {s u : State} (hp : u.dec.phase = .subframe) (h : storesFrame s u) :
    storesFrame s u.decodeSubframe := by
  obtain ⟨hres, hgoes, -⟩ := h
  obtain ⟨hmem, hshow⟩ := hgoes (by rw [hp]; decide)
  have hk : keepsStream u u.decodeSubframe := u.runSubframe_keeps _ _
  obtain ⟨⟨-, -, -, hm⟩, -, ⟨-, -, -, hr⟩, -⟩ := hk
  exact ⟨hr.trans hres, fun _ => ⟨hm.trans hmem, State.decodeSubframe_showable hshow⟩,
    fun _ => sameBytesBut_of_mem _ (hm.trans hmem)⟩

theorem State.deliver_storesFrame {s u : State} (hp : u.dec.phase = .decorrelate) (h : storesFrame s u)
    (a : BitVec 4) (b : Nat) : storesFrame s (u.decorrelate a b).finishFrame := by
  obtain ⟨hres, hgoes, -⟩ := h
  obtain ⟨hmem, hshow⟩ := hgoes (by rw [hp]; decide)
  have hidle : (u.decorrelate a b).finishFrame.dec.phase = .idle := by rw [State.finishFrame_dec]; rfl
  have hs : (u.decorrelate a b).headerShowable := by rw [u.decorrelate_frame]; exact hshow
  have hm : (u.decorrelate a b).mem = s.mem := by rw [u.decorrelate_frame]; exact hmem
  have hr : (u.decorrelate a b).status = u.status := by rw [u.decorrelate_frame]
  refine ⟨?_, fun hn => absurd hidle hn, fun _ x hx => ?_⟩
  · rw [State.finishFrame_md5Result, hr, hres]
  · rw [State.finishFrame_bytes hs x hx, hm]

theorem State.decodeChunk_storesFrame (s : State) : storesFrame s s.decodeChunk := by
  refine State.decodeChunk_keeps (H := fun u => u.mem = s.mem ∧ u.status.md5Result = s.status.md5Result)
    ⟨rfl, rfl⟩ (fun u o h => h) (fun u e h => h) (fun u hd p h hp => ?_) (fun u h => ?_)
    (fun u h hp => State.decodeSubframe_storesFrame hp h) (fun u h hp => State.deliver_storesFrame hp h _ _)
  · obtain ⟨⟨-, -, -, hm⟩, -, -, -, ⟨-, -, -, hr⟩, -⟩ := u.acceptHeader_keeps hd p
    exact ⟨hr.trans h.2, fun _ => ⟨hm.trans h.1, State.acceptHeader_showable hp⟩, fun h0 => by cases h0⟩
  · rw [u.noFrame_eq]
    exact ⟨h.2, fun hn => absurd rfl hn, fun _ => sameBytesBut_of_mem _ h.1⟩

/-- Settles O31: a refusal stores nothing; a DECODE that starts stores the frame it delivers. -/
theorem decodeChangesOnlyItsState : Obligations.DecodeChangesOnlyItsState := by
  intro s t h
  rcases exec_decode_cases h with ⟨code, cause, rfl⟩ | ⟨-, rfl⟩
  · exact ⟨sameInputs_refl s, ⟨rfl, rfl, rfl, rfl⟩, sameBytesBut_of_mem _ rfl, id⟩
  · obtain ⟨hin, ⟨hdig, hss, hso⟩, -, hwf⟩ := s.decodeChunk_keepsOwned
    obtain ⟨hres, -, hbytes⟩ := s.decodeChunk_storesFrame
    exact ⟨hin, ⟨hss, hso, hdig, hres⟩, hbytes (by rw [s.decodeChunk_dec]; rfl), hwf⟩

end Sys2Proof.Machine

/-! What the bit reader reads (R98, R200 to R206, R313, R314). -/

namespace Sys2Proof.Machine

/-- A byte-aligned field of whole bytes is the big-endian value of its bytes (R98). -/
theorem Chunk.bits_bytes (ck : Chunk) (o n : Nat) : ck.bits (8 * o) (8 * n) = beValue (ck.slice o n) := by
  induction n with
  | zero => rfl
  | succ n ih =>
    have hs : ck.slice o (n + 1) = ck.slice o n ++ [ck.byte (o + n)] := by
      unfold Chunk.slice
      rw [List.range_succ, List.map_append]
      rfl
    rw [Nat.mul_succ, ck.bits_add, ih, ← Nat.mul_add, ck.bits_byte, hs, beValue_append, beValue_cons]
    simp [beValue_nil]

/-- A field and its value in two's complement differ by 2^n or not at all (R11). -/
theorem sext_emod (n u : Nat) : (sext n u - u) % (2 : Int) ^ n = 0 := by
  unfold sext
  split_ifs
  · push_cast
    rw [sub_sub_cancel_left, Int.neg_emod_self]
  · rw [sub_self, Int.zero_emod]

/-- A signed read inside the chunk is the int_n congruent to its bits (R202). -/
theorem readBitsSigned_twosComplement (ck : Chunk) {p n : Nat} (h1 : 1 ≤ n) (hl : n ≤ ck.bitsLeft p) :
    ∃ v : Int, readBitsSigned ck n p = .ok (v, p + n) ∧ -2 ^ (n - 1) ≤ v ∧ v < 2 ^ (n - 1) ∧
      (v - ck.bits p n) % 2 ^ n = 0 := by
  obtain ⟨hlo, hhi⟩ := sext_range h1 (ck.bits_lt p n)
  exact ⟨_, readBitsSigned_ok.2 ⟨hl, rfl, rfl⟩, hlo, hhi, sext_emod n _⟩

theorem readSample_signed (ck : Chunk) {e : Nat} (h : e ≠ 33) : readSample ck e = readBitsSigned ck e := if_neg h

/-- The sign bit of a 33-bit field counts -2^32 (R11, R314). -/
theorem sext33_eq {hi lo : Nat} (hh : hi < 2) (hl : lo < 2 ^ 32) :
    sext 33 (hi * 2 ^ 32 + lo) = (lo : Int) - 2 ^ 32 * (hi : Int) := by
  unfold sext
  have hq : (hi * 2 ^ 32 + lo) / 2 ^ (33 - 1) % 2 = hi := by omega
  rw [hq]
  split_ifs <;> push_cast <;> omega

/-- A 33-bit sample that is cut fails, whichever of its two fields the chunk's end cuts (R201, R314). -/
theorem readSample33_cut {ck : Chunk} {p : Nat} (h : ck.bitsLeft p < 33) : readSample ck 33 p = .error .underrun := by
  unfold readSample
  rw [if_pos rfl]
  by_cases h1 : 1 ≤ ck.bitsLeft p
  · have hlo : ck.bitsLeft (p + 1) < 32 := by unfold Chunk.bitsLeft at *; omega
    rw [Reader.bind_of_ok (readBits_of_le h1), Reader.bind_of_error (readBits_of_lt hlo)]
  · rw [Reader.bind_of_error (readBits_of_lt (by omega))]

/-- A 33-bit sample inside the chunk: its value when that is an int32 (R314). -/
theorem readSample33_inside {ck : Chunk} {p : Nat} {v : Int} (h : 33 ≤ ck.bitsLeft p)
    (hv : v = ck.bits (p + 1) 32 - 2 ^ 32 * (ck.bits p 1 : Int)) :
    readSample ck 33 p =
      if -2147483648 ≤ v ∧ v ≤ 2147483647 then .ok (v, p + 33) else .error .sampleRange := by
  have hlo : 32 ≤ ck.bitsLeft (p + 1) := by unfold Chunk.bitsLeft at *; omega
  unfold readSample
  rw [if_pos rfl, Reader.bind_of_ok (readBits_of_le (by omega)), Reader.bind_of_ok (readBits_of_le hlo),
    sext33_eq (ck.bits_lt p 1) (ck.bits_lt _ 32), ← hv]
  by_cases hr : -2147483648 ≤ v ∧ v ≤ 2147483647
  · rw [if_pos hr, orFail_some ((toInt32_eq_some v v).2 ⟨(fitsSigned_32 v).2 hr, rfl⟩)]
  · have hn : toInt32 v = none := Option.eq_none_iff_forall_ne_some.2 fun x hx =>
      hr ((fitsSigned_32 v).1 ((toInt32_eq_some v x).1 hx).1)
    rw [if_neg hr, orFail_none hn]

/-- Alignment moves by what it returns, at most seven bits, to a byte boundary (R206). -/
theorem alignToByte_spec (p : Nat) :
    (alignToByte p).2 = p + (alignToByte p).1 ∧ (alignToByte p).1 ≤ 7 ∧ (alignToByte p).2 % 8 = 0 := by
  rw [alignToByte_eq]
  dsimp only
  omega

/-- Settles O57: one lemma for each kind of read, and alignment. -/
theorem streamBitsAreBigEndian : Obligations.StreamBitsAreBigEndian := fun ck =>
  ⟨ck.bits_bytes, ck.bits_lt, fun _ _ => rfl, fun _ _ h1 hl => readBitsSigned_twosComplement ck h1 hl,
    fun p _ he => congrFun (readSample_signed ck (by omega)) p, fun _ h => readSample33_cut h,
    fun _ _ h hv => readSample33_inside h hv, alignToByte_spec, rfl⟩

end Sys2Proof.Machine

/-! The round trips of the encoder and the decoder (30_encoding.md, R127, R131, R141, R142, R171, R175). -/

namespace Sys2Proof

/-- The word of `i` fits its slot, and the decoder reads `i` from it. -/
abbrev roundTrips (i : Instr) : Prop := encode i < 2 ^ i.slot.bits ∧ decode i.slot (encode i) = .ok i

/-- The illegal command's word is the concatenation of its two fields (R170). -/
theorem encode_illegalCommand (opcode : BitVec 8) (zero : BitVec 24) :
    encode (.illegalCommand opcode zero) = (zero ++ opcode).toNat := by
  rw [Machine.toNat_append_add, Nat.mul_comm]
  rfl

theorem illegalCommandWord_iff (opcode : BitVec 8) (zero : BitVec 24) :
    illegalCommandWord opcode zero = true ↔ zero ≠ 0 ∨ opcode = 0 ∨ 8 < opcode.toNat := by
  simp [illegalCommandWord, or_assoc]

theorem illegalCommand_roundTrips {opcode : BitVec 8} {zero : BitVec 24}
    (h : illegalCommandWord opcode zero = true) : roundTrips (.illegalCommand opcode zero) := by
  unfold roundTrips
  rw [encode_illegalCommand]
  refine ⟨(zero ++ opcode).isLt, ?_⟩
  show decode .command _ = _
  rw [decode_command_word, Machine.decodeCommand_illegal ((illegalCommandWord_iff _ _).1 h)]

/-- Settles O2, by the row of the opcode table: the fields of the illegal command are wide, and every other row has at
most 128 words, which are all read. -/
theorem encodeThenDecode : Obligations.EncodeThenDecode := by
  intro i hw
  show roundTrips i
  cases i with
  | illegalCommand opcode zero => exact illegalCommand_roundTrips hw
  | init | decode | flush | reset | seek | setStreaminfo | setSeektable | checkMd5 => decide
  | frameFixed | frameVariable => decide
  | frameReservedBit blocking => decide +revert
  | sfConstant wasted | sfVerbatim wasted | sfFixed0 wasted | sfFixed1 wasted | sfFixed2 wasted | sfFixed3 wasted
  | sfFixed4 wasted | sfReservedType13 wasted => decide +revert
  | sfLpc x wasted | sfReservedType23 x wasted | sfReservedType47 x wasted | sfReservedType1415 x wasted
  | sfReservedType1631 x wasted => decide +revert
  | sfPadBitSet x => decide +revert
  | resRice4 | resRice5 | rice4Escape | rice5Escape => decide
  | resReserved x => decide +revert
  | rice4Partition k | rice5Partition k => decide +revert
  | chLeftSide | chRightSide | chMidSide | chReserved11 => decide
  | chIndependent c => decide +revert
  | chReserved1215 x => decide +revert

/-- `i` is a well-formed instruction of the slot, whose word is `w`. -/
def Slot.holds (slot : Slot) (i : Instr) (w : Nat) : Prop := i.wellFormed = true ∧ i.slot = slot ∧ encode i = w

theorem flag_toNat (b : Nat) : (b % 2 == 1).toNat = b % 2 := by
  rcases Nat.mod_two_eq_zero_or_one b with h | h <;> rw [h] <;> rfl

theorem decodeCommand_holds (w : BitVec 32) : Slot.holds .command (decodeCommand w) w.toNat := by
  unfold decodeCommand
  split
  case h_9 =>
    refine ⟨(illegalCommandWord_iff _ _).2 ?_, rfl, (word_fields w).symm⟩
    have hw := word_fields w
    simp only [imp_false] at *
    by_contra hc
    push Not at hc
    obtain ⟨hz, ho, h8⟩ := hc
    rw [hz, show (0 : BitVec 24).toNat = 0 from rfl] at hw
    have : (w.extractLsb' 0 8).toNat ≠ 0 := fun e => ho (BitVec.eq_of_toNat_eq e)
    omega
  all_goals
    rename_i hw
    exact ⟨rfl, rfl, hw.symm⟩

theorem decodeFrame_holds {w : Nat} {i : Instr} (h : decodeFrame w = .ok i) : Slot.holds .frame i w := by
  unfold decodeFrame at h
  split_ifs at h with h1 h2 h3
  · cases h
    exact ⟨rfl, rfl, h1.symm⟩
  · cases h
    exact ⟨rfl, rfl, h2.symm⟩
  · cases h
    refine ⟨rfl, rfl, ?_⟩
    show 0xFFFA + (w % 2 == 1).toNat = w
    rw [flag_toNat]
    omega

/-- The header byte by its type and its flag (R130). -/
theorem subframeByte_fields {b : Nat} (h : b < 128) : subframeByte (b / 2 % 64) (b % 2 == 1) = b := by
  unfold subframeByte
  rw [flag_toNat]
  omega

theorem decodeSubframe_holds {b : Nat} (h : b < 2 ^ 8) : Slot.holds .subframe (decodeSubframe b) b := by
  unfold decodeSubframe
  dsimp only
  by_cases hp : 128 ≤ b
  · rw [if_pos hp]
    refine ⟨rfl, rfl, ?_⟩
    show 128 + (BitVec.ofNat 7 b).toNat = b
    rw [BitVec.toNat_ofNat]
    omega
  · rw [if_neg hp]
    have hb := subframeByte_fields (Nat.lt_of_not_le hp)
    have ht : b / 2 % 64 < 64 := Nat.mod_lt _ (by decide)
    generalize (b % 2 == 1) = wasted at *
    generalize b / 2 % 64 = t at *
    subst hb
    interval_cases t <;> exact ⟨rfl, rfl, rfl⟩

theorem decodeMethod_holds {m : Nat} (h : m < 2 ^ 2) : Slot.holds .method (decodeMethod m) m := by
  interval_cases m <;> exact ⟨rfl, rfl, rfl⟩

theorem decodeParam4_holds {r : Nat} (h : r < 2 ^ 4) : Slot.holds .param4 (decodeParam4 r) r := by
  interval_cases r <;> exact ⟨rfl, rfl, rfl⟩

theorem decodeParam5_holds {r : Nat} (h : r < 2 ^ 5) : Slot.holds .param5 (decodeParam5 r) r := by
  interval_cases r <;> exact ⟨rfl, rfl, rfl⟩

theorem decodeAssignment_holds {a : Nat} (h : a < 2 ^ 4) : Slot.holds .assignment (decodeAssignment a) a := by
  interval_cases a <;> exact ⟨rfl, rfl, rfl⟩

/-- A value that fits its slot is read as the instruction whose word it is, or it is no sync code. -/
theorem decode_cases {slot : Slot} {w : Nat} (h : w < 2 ^ slot.bits) :
    (∃ i, decode slot w = .ok i ∧ slot.holds i w) ∨
      slot = .frame ∧ w / 4 ≠ 0x3FFE ∧ decode slot w = .error .noSync := by
  cases slot with
  | command =>
    have hw := decodeCommand_holds (BitVec.ofNat 32 w)
    have hm : w % 2 ^ 32 = w := Nat.mod_eq_of_lt h
    rw [BitVec.toNat_ofNat, hm] at hw
    exact .inl ⟨_, decode_command w h, hw⟩
  | frame =>
    rw [decode_frame w h]
    cases hd : decodeFrame w with
    | ok i => exact .inl ⟨i, rfl, decodeFrame_holds hd⟩
    | error r =>
      unfold decodeFrame at hd
      split_ifs at hd with h1 h2 h3
      cases hd
      exact .inr ⟨rfl, by omega, rfl⟩
  | subframe => exact .inl ⟨_, decode_subframe w h, decodeSubframe_holds h⟩
  | method => exact .inl ⟨_, decode_method w h, decodeMethod_holds h⟩
  | param4 => exact .inl ⟨_, decode_param4 w h, decodeParam4_holds h⟩
  | param5 => exact .inl ⟨_, decode_param5 w h, decodeParam5_holds h⟩
  | assignment => exact .inl ⟨_, decode_assignment w h, decodeAssignment_holds h⟩

/-- The word of a frame-header start has the sync code (R127). -/
theorem sync_of_frame_holds {i : Instr} {w : Nat} (h : Slot.holds .frame i w) : w / 4 = 0x3FFE := by
  obtain ⟨-, hs, rfl⟩ := h
  cases i with
  | frameFixed | frameVariable => rfl
  | frameReservedBit blocking => cases blocking <;> rfl
  | _ => cases hs

/-- Settles O3: a value is too wide, or read as the instruction whose word it is, or no sync code. -/
theorem decodeThenEncode : Obligations.DecodeThenEncode := by
  intro slot w
  by_cases hw : 2 ^ slot.bits ≤ w
  · rw [decode_tooWide slot w hw]
    refine ⟨nofun, iff_of_true rfl hw, iff_of_false nofun ?_⟩
    rintro ⟨rfl, h, -⟩
    exact absurd hw (Nat.not_le.2 h)
  · rcases decode_cases (Nat.lt_of_not_le hw) with ⟨i, hd, hi⟩ | ⟨rfl, hsync, hd⟩
    · rw [hd]
      refine ⟨fun j h => Except.ok.inj h ▸ hi, iff_of_false nofun hw, iff_of_false nofun ?_⟩
      rintro ⟨rfl, -, h⟩
      exact h (sync_of_frame_holds hi)
    · rw [hd]
      exact ⟨nofun, iff_of_false nofun hw, iff_of_true rfl ⟨rfl, Nat.lt_of_not_le hw, hsync⟩⟩

/-- Settles O1, by evaluation of the decoder at each word. -/
theorem knownWordsDecode : Obligations.KnownWordsDecode := by
  unfold Obligations.KnownWordsDecode
  decide

end Sys2Proof

/-! The frame header's fields and what an accepted header has passed (R121 to R126, R232, R400 to R412). -/

namespace Sys2Proof.Machine

theorem channelCount_of_stereo {a : BitVec 4} (h : 7 < a.toNat) : channelCount a = 2 := if_neg (by omega)

theorem channelCount_of_independent {a : BitVec 4} (h : a.toNat ≤ 7) : channelCount a = a.toNat + 1 := if_pos h

/-- Settles O34: what each field of a header that is read to its end has passed. -/
theorem acceptedHeaderIsLegal : Obligations.AcceptedHeaderIsLegal := by
  intro s blocking hd p hal h
  obtain ⟨hin, ha, hcodes, hrest⟩ := headerAfterSync_ok h
  obtain ⟨-, -, -, hbs, hsr⟩ := headerCodes_ok hcodes
  obtain ⟨⟨n, hn2, hn12, hp⟩, hend, hblocking, hbsCode, hsrCode, hassign, hcrc, -, hb1, hbMax, hbSmall, hcount, hchan,
    hbps, hbps4, hbps32, ⟨hrate, -⟩, hnum, hb65535, hchanMax, hss, hres⟩ := headerAfterAssignment_ok hrest
  have hca : hd.assign.toNat = s.chunk.bits (s.dec.cursor + 24) 4 := by
    rw [hassign, BitVec.toNat_ofNat]
    exact Nat.mod_eq_of_lt (s.chunk.bits_lt _ 4)
  have hcount' : hd.channels = channelCount hd.assign := by rw [hcount, hassign]
  have hle : p ≤ 8 * s.chunk.len := hend (by unfold Chunk.bitsLeft at hin; omega)
  have hcrcEnd : (p - 8) / 8 = p / 8 - 1 := by omega
  rw [hcrcEnd] at hcrc
  refine ⟨by omega, by omega, by omega, hle, hblocking, hcrc, hb1, hb65535 (s.chunk.bits_lt _ 4), hbMax, hbSmall,
    hbsCode, by rw [hbsCode]; exact hbs, hsrCode, by rw [hsrCode]; exact hsr, hss, hres, hca,
    hca ▸ Nat.le_of_lt_succ ha, hchanMax, hchan, fun h7 => hcount'.trans (channelCount_of_stereo h7),
    fun h7 => hcount'.trans (channelCount_of_independent h7), hbps, hbps4, hbps32, hrate, hnum⟩

/-! The channel assignment in a header (R124, R400, R401). -/

/-- The assignment instruction `i` that stands for the assignment `a` (R124). -/
def standsForAssignment (i : Instr) (a : BitVec 4) : Prop :=
  (∃ c : BitVec 3, i = .chIndependent c ∧ a = c.setWidth 4) ∨ i = .chLeftSide ∧ a = 8 ∨ i = .chRightSide ∧ a = 9 ∨
    i = .chMidSide ∧ a = 10

/-- In a header, an assignment instruction reads the rest of the header with its code. -/
theorem exec_assignment_inHeader {s : State} {i : Instr} {a : BitVec 4} (hi : standsForAssignment i a)
    (hp : s.dec.phase ≠ .decorrelate) : exec i s = .next (s.headerAssignment a) := by
  rcases hi with ⟨c, rfl, rfl⟩ | ⟨rfl, rfl⟩ | ⟨rfl, rfl⟩ | ⟨rfl, rfl⟩ <;> exact congrArg _ (if_neg hp)

theorem State.headerAssignment_inside {s : State} (h : 4 ≤ s.chunk.bitsLeft s.dec.cursor) (ca : BitVec 4) :
    s.headerAssignment ca =
      s.runHeader
        (headerAfterAssignment s s.dec.frameStart s.dec.header.blocking s.dec.header.bsCode s.dec.header.srCode ca)
        (s.dec.cursor + 4) := if_neg (Nat.not_lt.2 h)

theorem State.reservedAssignment_inside {s : State} (h : 4 ≤ s.chunk.bitsLeft s.dec.cursor) :
    s.reservedAssignment = s.headerFailed .reservedChannels := if_neg (Nat.not_lt.2 h)

/-- Settles O38: the rest of the header is accepted or fails, and a reserved assignment fails at once. -/
theorem assignmentReadInHeader : Obligations.AssignmentReadInHeader := by
  intro s hin
  refine ⟨fun i a hi hp => ?_, ?_⟩
  · rw [exec_assignment_inHeader hi hp, State.headerAssignment_inside hin]
    refine ⟨fun hd p hr => ⟨by rw [State.runHeader_ok hr], ?_⟩, fun e hr => by rw [State.runHeader_error hr]⟩
    obtain ⟨-, -, -, -, -, hassign, -⟩ := headerAfterAssignment_ok hr
    exact hassign
  · rintro i (rfl | ⟨x, rfl⟩) <;> exact congrArg _ (State.reservedAssignment_inside hin)

/-! The tables of R122 and R123. -/

theorem resolveBlockSize_follow8 {ck : Chunk} {p : Nat} (h : 8 ≤ ck.bitsLeft p) :
    resolveBlockSize ck 6 p = .ok (ck.bits p 8 + 1, p + 8) := Reader.bind_of_ok (readHeaderBits_of_le h)

theorem resolveBlockSize_follow16 {ck : Chunk} {p : Nat} (h : 16 ≤ ck.bitsLeft p) (hb : ck.bits p 16 ≠ 0xFFFF) :
    resolveBlockSize ck 7 p = .ok (ck.bits p 16 + 1, p + 16) :=
  headerField_legal (ok := fun f => f + 1 != 65536) h (bne_iff_ne.2 (by omega))

theorem resolveRateField_khz {ck : Chunk} {p : Nat} (h : 8 ≤ ck.bitsLeft p) :
    resolveRateField ck 12 p = .ok (ck.bits p 8 * 1000, p + 8) := Reader.bind_of_ok (readHeaderBits_of_le h)

theorem resolveRateField_hz {ck : Chunk} {p : Nat} (h : 16 ≤ ck.bitsLeft p) :
    resolveRateField ck 13 p = .ok (ck.bits p 16, p + 16) := readHeaderBits_of_le h

theorem resolveRateField_tensOfHz {ck : Chunk} {p : Nat} (h : 16 ≤ ck.bitsLeft p) :
    resolveRateField ck 14 p = .ok (ck.bits p 16 * 10, p + 16) := Reader.bind_of_ok (readHeaderBits_of_le h)

/-- Code 0, and a follow-on of 0, read as the rate 0 (R123, R407). -/
theorem resolveRateField_zero {ck : Chunk} {p code width : Nat}
    (hc : (code, width) ∈ [(0, 0), (12, 8), (13, 16), (14, 16)]) (h : width ≤ ck.bitsLeft p)
    (h0 : ck.bits p width = 0) : resolveRateField ck code p = .ok (0, p + width) := by
  simp only [List.mem_cons, Prod.mk.injEq, List.not_mem_nil, or_false] at hc
  rcases hc with ⟨rfl, rfl⟩ | ⟨rfl, rfl⟩ | ⟨rfl, rfl⟩ | ⟨rfl, rfl⟩
  · rfl
  · rw [resolveRateField_khz h, h0]
  · rw [resolveRateField_hz h, h0]
  · rw [resolveRateField_tensOfHz h, h0]

/-! The coded number (R126, R405). -/

/-- Good continuation bytes contribute six bits each. -/
theorem readContinuation_run (ck : Chunk) (n v p : Nat) (hl : 8 * n ≤ ck.bitsLeft p)
    (hj : ∀ j, j < n → ck.bits (p + 8 * j) 8 / 64 = 2) :
    readContinuation ck n v p =
      .ok ((List.range n).foldl (fun v j => 64 * v + ck.bits (p + 8 * j) 8 % 64) v, p + 8 * n) := by
  induction n generalizing v p with
  | zero => rfl
  | succ n ih =>
    have hshift : ∀ j, p + 8 + 8 * j = p + 8 * (j + 1) := fun j => by omega
    have h0 : ck.bits p 8 / 64 = 2 := hj 0 (by omega)
    unfold readContinuation
    rw [headerField_legal (ok := fun b => b / 64 == 2) (by omega) (beq_iff_eq.2 h0),
      ih _ _ (by unfold Chunk.bitsLeft at *; omega) fun j h => hshift j ▸ hj (j + 1) (by omega), hshift n,
      List.range_succ_eq_map, List.foldl_cons, List.foldl_map]
    simp only [hshift]
    rfl

/-- A first byte 0xxxxxxx is the number. -/
theorem readCodedNumber_oneByte {ck : Chunk} {p lead : Nat} (blocking : Bool) (h8 : 8 ≤ ck.bitsLeft p)
    (hlead : lead < 128) (hbits : ck.bits p 8 = lead) : readCodedNumber ck blocking p = .ok (lead, p + 8) := by
  unfold readCodedNumber
  rw [Reader.bind_of_ok (readHeaderBits_of_le h8), hbits, if_pos hlead]
  rfl

/-- A first byte with `n` leading ones is followed by `n - 1` continuation bytes. -/
theorem readCodedNumber_moreBytes {ck : Chunk} {blocking : Bool} {p n lead : Nat} (h2 : 2 ≤ n) (h7 : n ≤ 7)
    (hblocking : n = 7 → blocking = true) (hlead : lead < 2 ^ (7 - n)) (hl : 8 * n ≤ ck.bitsLeft p)
    (hbits : ck.bits p 8 = 256 - 2 ^ (8 - n) + lead) (hj : ∀ j, 1 ≤ j → j < n → ck.bits (p + 8 * j) 8 / 64 = 2) :
    readCodedNumber ck blocking p =
      .ok ((List.range (n - 1)).foldl (fun v j => 64 * v + ck.bits (p + 8 * (j + 1)) 8 % 64) lead, p + 8 * n) := by
  have hp : 2 ^ (7 - n) ≤ 2 ^ 5 := Nat.pow_le_pow_right (by decide) (by omega)
  obtain ⟨hones, hlow, hbig⟩ := leadingOnes_table ⟨n, by omega⟩ ⟨lead, by omega⟩ h2 hlead
  dsimp only at hones hlow hbig
  have hlegal : (n != 1 && n != 8) = true := by simp; omega
  have hwide : (n != 7 || blocking) = true := by
    rw [Bool.or_eq_true, bne_iff_ne]
    exact or_iff_not_imp_left.2 fun h => hblocking (not_not.1 h)
  have hshift : ∀ j, p + 8 + 8 * j = p + 8 * (j + 1) := fun j => by omega
  unfold readCodedNumber
  rw [Reader.bind_of_ok (readHeaderBits_of_le (by omega)), hbits, if_neg hbig, hones, hlow,
    Reader.bind_of_ok (gate_pass hlegal _ _), Reader.bind_of_ok (gate_pass hwide _ _),
    readContinuation_run ck _ _ _ (by unfold Chunk.bitsLeft at *; omega)
      fun j h => hshift j ▸ hj (j + 1) (by omega) (by omega)]
  simp only [hshift, Nat.sub_add_cancel (show 1 ≤ n by omega)]

/-! The bit depth (R125, R411). -/

/-- A bit depth in range is checked against STREAMINFO's. -/
theorem checkBitDepth_of_valid {s : State} {ss n p : Nat} (hn : (tableBitDepth ss).getD s.si.bps.toNat = n)
    (h4 : 4 ≤ n) (h32 : n ≤ 32) :
    checkBitDepth s ss p = if n = s.si.bps.toNat then .ok (n, p) else .error .bpsMismatch := by
  have hv : (validBitDepth n && n != 0) = true :=
    Bool.and_eq_true_iff.2 ⟨(validBitDepth_iff n).2 (.inr ⟨h4, h32⟩), bne_iff_ne.2 (by omega)⟩
  unfold checkBitDepth
  rw [hn]
  rw [Reader.bind_of_ok (gate_pass hv _ _)]
  split_ifs with h
  · exact Reader.bind_of_ok (gate_pass (beq_iff_eq.2 h) _ _)
  · exact Reader.bind_of_error (gate_fail (beq_eq_false_iff_ne.2 h) _ _)

/-- The sample-size codes that stand for a depth of their own (R125). -/
theorem tableBitDepth_own {code bits : Nat} (h : (code, bits) ∈ [(1, 8), (2, 12), (4, 16), (5, 20), (6, 24), (7, 32)]) :
    tableBitDepth code = some bits ∧ 4 ≤ bits ∧ bits ≤ 32 := by
  simp only [List.mem_cons, Prod.mk.injEq, List.not_mem_nil, or_false] at h
  rcases h with ⟨rfl, rfl⟩ | ⟨rfl, rfl⟩ | ⟨rfl, rfl⟩ | ⟨rfl, rfl⟩ | ⟨rfl, rfl⟩ | ⟨rfl, rfl⟩ <;> decide

/-- Settles O37, table by table. -/
theorem headerFieldTables : Obligations.HeaderFieldTables := by
  refine ⟨fun ck p => ⟨fun code h1 h5 => ?_, fun code h8 h15 => ?_, resolveBlockSize_follow8,
      resolveBlockSize_follow16, fun h hb => resolveBlockSize_bad (.inr (.inr ⟨rfl, h, hb, rfl⟩)), rfl,
      fun code rate h => ?_, resolveRateField_khz, resolveRateField_hz, resolveRateField_tensOfHz⟩,
    fun ck blocking p => ⟨fun n lead h7 hn1 hblocking hlead hl hbits hj => ?_, readCodedNumber_badFirst⟩,
    fun s p => ⟨fun h => ?_, fun h => ?_, fun raw h1 => ?_, fun code width hc hl h0 hr => ?_⟩,
    rfl, fun code bits h => (tableBitDepth_own h).1, fun s p h4 h32 => ⟨?_, fun code bits h => ?_⟩⟩
  · interval_cases code <;> rfl
  · interval_cases code <;> rfl
  · simp only [List.mem_cons, Prod.mk.injEq, List.not_mem_nil, or_false] at h
    rcases h with ⟨rfl, rfl⟩ | ⟨rfl, rfl⟩ | ⟨rfl, rfl⟩ | ⟨rfl, rfl⟩ | ⟨rfl, rfl⟩ | ⟨rfl, rfl⟩ | ⟨rfl, rfl⟩ |
      ⟨rfl, rfl⟩ | ⟨rfl, rfl⟩ | ⟨rfl, rfl⟩ | ⟨rfl, rfl⟩ <;> rfl
  · by_cases hn0 : n = 0
    · subst hn0
      exact readCodedNumber_oneByte blocking hl hlead hbits
    · rw [if_neg hn0] at hlead hbits
      rw [Nat.max_eq_left (by omega)] at hl ⊢
      exact readCodedNumber_moreBytes (by omega) h7 hblocking hlead hl hbits hj
  · exact (checkRate_eq s 0 p).trans (if_pos h)
  · exact (checkRate_eq s 0 p).trans (if_neg (Nat.not_le.2 h))
  · rw [checkRate_eq, if_neg (show raw ≠ 0 by omega)]
  · rw [Reader.bind_of_ok (resolveRateField_zero hc hl h0)]
    exact (checkRate_eq s 0 _).trans (if_pos hr)
  · exact (checkBitDepth_of_valid (ss := 0) (n := s.si.bps.toNat) rfl h4 h32).trans (if_pos rfl)
  · obtain ⟨ht, hb4, hb32⟩ := tableBitDepth_own h
    exact checkBitDepth_of_valid (by rw [ht]; rfl) hb4 hb32

end Sys2Proof.Machine

/-! The values of Rice codes and of raw residuals (R143, R283 to R285). -/

namespace Sys2Proof.Machine

/-- Inside the chunk a remainder is its bits, none for the parameter 0 (R143). -/
theorem readRemainder_of_le {ck : Chunk} {k p : Nat} (h : k ≤ ck.bitsLeft p) :
    readRemainder ck k p = .ok (ck.bits p k, p + k) := by
  unfold readRemainder
  split_ifs with hk
  · exact readBits_of_le h
  · obtain rfl : k = 0 := by omega
    rfl

theorem checkShift_fits {a k : Nat} (h : a * 2 ^ k ≤ 4294967295) : checkShift a k = some (a * 2 ^ k) := if_pos h

theorem checkShift_overflow {a k : Nat} (h : 4294967296 ≤ a * 2 ^ k) : checkShift a k = none := if_neg (by omega)

/-- The zigzag value is -2^31 at 2^32 - 1, and at no lower value (R285). -/
theorem validResidual_unzigzag {u : Nat} (h : u < 4294967295) : validResidual (unzigzag u) = true := by
  rw [validResidual_iff]
  unfold unzigzag
  split_ifs <;> omega

/-- A Rice code inside the chunk comes down to its quotient `q` and remainder `m`: the overflow check, then the range
check (R283). -/
theorem readRice_run {ck : Chunk} {p k q m : Nat} (hq : q ≤ ck.maxUnary) (hz : ∀ j, j < q → ck.bit (p + j) = 0)
    (h1 : ck.bit (p + q) = 1) (hin : p + q + 1 + k ≤ 8 * ck.len) (hm : ck.bits (p + q + 1) k = m) :
    readRice ck k p =
      (orFail (checkShift q k) .riceOverflow >>= fun t =>
        gate (validResidual (unzigzag (t + m))) .residualInt32Min >>= fun _ => pure (unzigzag (t + m)))
        (p + q + 1 + k) := by
  unfold readRice
  rw [Reader.bind_of_ok (readUnary_run ck p q hq (by omega) hz h1),
    Reader.bind_of_ok (readRemainder_of_le (by unfold Chunk.bitsLeft; omega)), hm]

/-- A raw residual of at most 31 bits inside the chunk is its bits in two's complement, and 0 without any (R284). -/
theorem readRaw_run {ck : Chunk} {w p : Nat} (hw : w ≤ 31) (h : w ≤ ck.bitsLeft p) :
    readRaw ck w p = .ok (if w = 0 then 0 else sext w (ck.bits p w), p + w) := by
  unfold readRaw readRawField
  split_ifs with h0
  · subst h0
    rfl
  · have hlo := (sext_range (n := w) (by omega) (ck.bits_lt p w)).1
    have hpow : (2 : Int) ^ (w - 1) ≤ 2 ^ 30 := pow_le_pow_right₀ (by decide) (by omega)
    have hv : validResidual (sext w (ck.bits p w)) = true := (validResidual_iff _).2 (by omega)
    rw [Reader.bind_of_ok (readBitsSigned_of_le h)]
    exact Reader.bind_of_ok (gate_pass hv _ _)

/-- A read of fixed width, repeated inside the chunk, gives the values one after the other. -/
theorem readMany_fixedWidth {α : Type} {ck : Chunk} {r : Reader α} {w : Nat} {f : Nat → α}
    (hr : ∀ p, w ≤ ck.bitsLeft p → r p = .ok (f p, p + w)) (n p : Nat) (h : w * n ≤ ck.bitsLeft p) :
    readMany r n p = .ok ((List.range n).map fun i => f (p + w * i), p + w * n) := by
  induction n generalizing p with
  | zero => rfl
  | succ n ih =>
    rw [Nat.mul_succ] at h
    have hshift : ∀ i, p + w + w * i = p + w * (i + 1) := fun i => by rw [Nat.mul_succ]; omega
    have hrest := ih (p + w) (by unfold Chunk.bitsLeft at *; omega)
    simp only [hshift] at hrest
    refine readMany_succ_ok.2 ⟨_, _, _, hr p (by omega), hrest, ?_⟩
    rw [List.range_succ_eq_map, List.map_cons, List.map_map]
    rfl

/-- Settles O51: a Rice code by its overflow and range checks, an escape partition by its fixed width. -/
theorem residualValues : Obligations.ResidualValues := by
  refine ⟨fun ck p k q m hk hq hz h1 hin hm => ?_, fun ck n p w h5 hw hl => ?_⟩
  · have hrun := readRice_run hq hz h1 hin hm
    refine ⟨fun hu => ?_, fun hu => ?_, fun hu => ?_⟩
    · rw [hrun, Reader.bind_of_ok (orFail_some (checkShift_fits (by omega)) _ _),
        Reader.bind_of_ok (gate_pass (validResidual_unzigzag hu) _ _)]
      rfl
    · rw [hrun, Reader.bind_of_ok (orFail_some (checkShift_fits (by omega)) _ _), hu]
      exact Reader.bind_of_error (gate_fail (by decide) _ _)
    · rw [hrun]
      exact Reader.bind_of_error (orFail_none (checkShift_overflow hu) _ _)
  · have hw31 : w ≤ 31 := by
      have := ck.bits_lt p 5
      omega
    unfold escapePartition
    rw [Reader.bind_of_ok (readBits_of_le h5), hw]
    exact readMany_fixedWidth (fun p => readRaw_run hw31) n (p + 5) (by unfold Chunk.bitsLeft at *; omega)

end Sys2Proof.Machine

/-! The elements that hold other elements: a header and its channel assignment, a residual and its partitions (R121,
R140, R280, R400). -/

namespace Sys2Proof.Machine

/-! A header and its channel assignment. -/

/-- The assignments 0 to 10 are read as the instructions that stand for them (R124). -/
theorem standsForAssignment_decode {a : Nat} (h : a < 11) :
    standsForAssignment (decodeAssignment a) (BitVec.ofNat 4 a) := by
  obtain h7 | rfl | rfl | rfl : a ≤ 7 ∨ a = 8 ∨ a = 9 ∨ a = 10 := by omega
  · interval_cases a <;> exact .inl ⟨_, rfl, rfl⟩
  · exact .inr (.inl ⟨rfl, rfl⟩)
  · exact .inr (.inr (.inl ⟨rfl, rfl⟩))
  · exact .inr (.inr (.inr ⟨rfl, rfl⟩))

theorem exec_frameHeader (s : State) (blocking : Bool) :
    exec (if blocking then .frameVariable else .frameFixed) s = .next (s.frameHeader blocking) := by
  cases blocking <;> rfl

theorem State.frameHeader_inside {s : State} (h : 16 ≤ s.chunk.bitsLeft s.dec.cursor) (blocking : Bool) :
    s.frameHeader blocking =
      s.runHeader (headerAfterSync s s.dec.frameStart blocking) (s.dec.cursor + 16) := if_neg (Nat.not_lt.2 h)

/-- `s` at the channel assignment of its header, after the codes `codes` (R121). -/
def State.atAssignment (s : State) (blocking : Bool) (codes : Nat × Nat) (q : Nat) : State :=
  { s with
    dec := { s.dec with
      phase := .assignment
      cursor := q
      header := { s.dec.header with blocking := blocking, bsCode := codes.1, srCode := codes.2 } } }

/-- A step at a legal channel assignment inside the chunk reads the rest of the header. -/
theorem step_assignment {s : State} (hp : s.dec.phase = .assignment) (hin : 4 ≤ s.chunk.bitsLeft s.dec.cursor)
    (ha : s.chunk.bits s.dec.cursor 4 < 11) :
    step s = .next (s.headerAssignment (BitVec.ofNat 4 (s.chunk.bits s.dec.cursor 4))) := by
  have hd : s.dec.phase ≠ .decorrelate := by rw [hp]; decide
  have hslot : s.dec.slot = .assignment := by unfold DecodeCtx.slot; rw [hp]
  have hf : s.fetchElement = .ok (decodeAssignment (s.chunk.bits s.dec.cursor 4)) := by
    rw [State.fetchElement_inside hd (by rw [hslot]; exact hin), hslot]
    exact decode_assignment _ (s.chunk.bits_lt _ 4)
  rw [step_of_fetch (by rw [hp]; decide) hf, exec_assignment_inHeader (standsForAssignment_decode ha) hd]

/-- At a channel assignment inside the chunk, a header that is read to its end is accepted. -/
theorem State.headerAssignment_atAssignment {s : State} {blocking : Bool} {codes : Nat × Nat} {a : BitVec 4} {q p : Nat}
    {hd : FrameHeader} (hin : 4 ≤ s.chunk.bitsLeft q)
    (hr : headerAfterAssignment s s.dec.frameStart blocking codes.1 codes.2 a (q + 4) = .ok (hd, p)) :
    (s.atAssignment blocking codes q).headerAssignment a = s.acceptHeader hd p :=
  (State.headerAssignment_inside (s := s.atAssignment blocking codes q) hin a).trans (State.runHeader_ok hr)

/-- An accepted header is what its channel assignment makes of it. -/
theorem exec_frameHeader_eq_step_assignment {s : State} {blocking : Bool} {codes : Nat × Nat} {q p : Nat}
    {hd : FrameHeader} (h16 : 16 ≤ s.chunk.bitsLeft s.dec.cursor)
    (hc : headerCodes s.chunk (s.dec.cursor + 16) = .ok (codes, q))
    (hr : headerAfterSync s s.dec.frameStart blocking (s.dec.cursor + 16) = .ok (hd, p)) :
    exec (if blocking then .frameVariable else .frameFixed) s = step (s.atAssignment blocking codes q) := by
  obtain ⟨hin, ha, -, hrest⟩ := headerAfterSync_ok hr
  obtain ⟨rfl, rfl, -⟩ := headerCodes_ok hc
  have hin4 : 4 ≤ s.chunk.bitsLeft (s.dec.cursor + 16 + 8) := by unfold Chunk.bitsLeft at *; omega
  have hacc := State.headerAssignment_atAssignment (codes := (_, _)) hin4 hrest
  rw [exec_frameHeader, State.frameHeader_inside h16, State.runHeader_ok hr, ← hacc]
  exact (step_assignment (s := s.atAssignment blocking (s.chunk.bits _ 4, s.chunk.bits _ 4) _) rfl hin4 ha).symm

/-! One partition. -/

/-- The width of a Rice parameter (R141, R142). -/
def DecodeCtx.paramWidth (d : DecodeCtx) : Nat := if d.rice5 then 5 else 4

/-- The values after a parameter `r` of `w` bits: the escape, or Rice codes (R142). -/
def partitionBody (ck : Chunk) (w r n : Nat) : Reader (List Int) :=
  if r = 2 ^ w - 1 then escapePartition ck n else ricePartition ck n r

theorem readPartition_eq (ck : Chunk) (w n : Nat) :
    readPartition ck w n = (readBits ck w >>= fun r => partitionBody ck w r n) := rfl

theorem exec_decodeParam4 (s : State) {r : Nat} (h : r < 2 ^ 4) :
    exec (decodeParam4 r) s = .next (s.partition 4 fun n => partitionBody s.chunk 4 r n) := by
  interval_cases r <;> rfl

theorem exec_decodeParam5 (s : State) {r : Nat} (h : r < 2 ^ 5) :
    exec (decodeParam5 r) s = .next (s.partition 5 fun n => partitionBody s.chunk 5 r n) := by
  interval_cases r <;> rfl

/-- The number of values of the partition at hand (R282). -/
def State.partitionLength (s : State) : Nat :=
  partitionSize s.dec.header.blockSize s.dec.partOrder s.dec.pred.order s.dec.part

/-- The partition at hand, read with its parameter (R280). -/
def State.runPartition (s : State) : State :=
  match readPartition s.chunk s.dec.paramWidth s.partitionLength s.dec.cursor with
  | .ok (xs, p) => s.partitionDecoded xs p
  | .error c => s.subframeFailed c

/-- The parameter is read once: peeked at, or cut by the end of the chunk. -/
theorem State.partition_eq_runPartition (s : State) :
    (s.partition s.dec.paramWidth fun n =>
      partitionBody s.chunk s.dec.paramWidth (s.chunk.peek s.dec.cursor s.dec.paramWidth) n) = s.runPartition := by
  have hr : (readBits s.chunk s.dec.paramWidth >>= fun _ =>
        partitionBody s.chunk s.dec.paramWidth (s.chunk.peek s.dec.cursor s.dec.paramWidth) s.partitionLength)
          s.dec.cursor =
      readPartition s.chunk s.dec.paramWidth s.partitionLength s.dec.cursor := by
    rw [readPartition_eq]
    by_cases h : s.dec.paramWidth ≤ s.chunk.bitsLeft s.dec.cursor
    · rw [s.chunk.peek_eq_bits _ _ h, Reader.bind_of_ok (readBits_of_le h)]
      exact (Reader.bind_of_ok (f := fun r => partitionBody s.chunk _ r _) (readBits_of_le h)).symm
    · have hcut := readBits_of_lt (Nat.lt_of_not_le h)
      rw [Reader.bind_of_error hcut, Reader.bind_of_error hcut]
  unfold State.runPartition
  rw [← hr]
  rfl

/-- A step at a partition reads it. -/
theorem step_partition {s : State} (hp : s.dec.phase = .partition) : step s = .next s.runPartition := by
  rw [← State.partition_eq_runPartition]
  have hn : s.dec.phase ≠ .idle := by rw [hp]; decide
  have hf : s.fetchElement = decode s.dec.slot (s.chunk.peek s.dec.cursor s.dec.slot.bits) := by
    unfold State.fetchElement
    rw [hp]
  unfold DecodeCtx.slot at hf
  rw [hp] at hf
  dsimp only at hf
  unfold DecodeCtx.paramWidth
  by_cases h5 : s.dec.rice5 = true
  · have hlt := s.chunk.peek_lt s.dec.cursor 5
    rw [if_pos h5] at hf ⊢
    exact (step_of_fetch hn (hf.trans (decode_param5 _ hlt))).trans (exec_decodeParam5 s hlt)
  · have hlt := s.chunk.peek_lt s.dec.cursor 4
    rw [if_neg h5] at hf ⊢
    exact (step_of_fetch hn (hf.trans (decode_param4 _ hlt))).trans (exec_decodeParam4 s hlt)

theorem State.subframeDecoded_next {s : State} (h : s.dec.chan + 1 < s.dec.header.channels) (xs : List Int) (p : Nat) :
    s.subframeDecoded xs p =
      { s.writeChannel s.dec.chan xs with
        dec := { s.dec with phase := .subframe, cursor := p, chan := s.dec.chan + 1 } } := if_pos h

theorem State.subframeDecoded_last {s : State} (h : ¬s.dec.chan + 1 < s.dec.header.channels) (xs : List Int) (p : Nat) :
    s.subframeDecoded xs p =
      State.checkFooter { s.writeChannel s.dec.chan xs with dec := { s.dec with cursor := p } } := if_neg h

/-! What does not depend on the values carried from partition to partition. -/

/-- `s` at the cursor `p`, before partition `j` of a residual of partition order `o`, with the residuals `res` (R280). -/
def State.atPartition (s : State) (rice5 : Bool) (o j : Nat) (res : List Int) (p : Nat) : State :=
  { s with
    dec := { s.dec with phase := .partition, cursor := p, rice5 := rice5, partOrder := o, part := j, res := res } }

/-- What silencing leaves in the channel buffers depends on them only. -/
theorem State.silenceChannels_ch_congr {s t : State} (h : t.ch = s.ch) (c b n : Nat) :
    (t.silenceChannels c b n).ch = (s.silenceChannels c b n).ch := by
  induction n generalizing s t c with
  | zero => exact h
  | succ n ih =>
    rw [State.silenceChannels_succ, State.silenceChannels_succ]
    exact ih (by rw [State.writeChannel_ch, State.writeChannel_ch, h]) _

section
variable (s : State) (rice5 : Bool) (o j : Nat) (res : List Int)

theorem State.footerMismatch_atPartition (cause : Cause) :
    sameButPartitions (s.footerMismatch cause) ((s.atPartition rice5 o j res s.dec.cursor).footerMismatch cause) := by
  cases h : s.cfg.crc16Reject
  · rw [s.footerMismatch_warn cause h, (s.atPartition rice5 o j res s.dec.cursor).footerMismatch_warn cause h]
    rfl
  · rw [s.footerMismatch_reject cause h, (s.atPartition rice5 o j res s.dec.cursor).footerMismatch_reject cause h]
    rfl

theorem State.checkFooter_atPartition :
    sameButPartitions s.checkFooter (s.atPartition rice5 o j res s.dec.cursor).checkFooter := by
  have hmis := fun (c : Nat) (sum : BitVec 16) (b q : Nat) (cause : Cause) =>
    (s.footerRead c sum b q).footerMismatch_atPartition rice5 o j res cause
  unfold State.checkFooter
  rw [show (s.atPartition rice5 o j res s.dec.cursor).chunk = s.chunk from rfl]
  dsimp only [State.atPartition]
  cases h : readBits s.chunk 16 (alignToByte s.dec.cursor).2 with
  | error c => exact hmis _ _ _ _ _
  | ok x =>
    dsimp only
    split_ifs with hc
    · rfl
    · exact hmis _ _ _ _ _

/-- A subframe that decodes ends alike. -/
theorem State.subframeDecoded_atPartition (q : Nat) (xs : List Int) (p : Nat) :
    sameButPartitions (s.subframeDecoded xs p) ((s.atPartition rice5 o j res q).subframeDecoded xs p) := by
  by_cases h : s.dec.chan + 1 < s.dec.header.channels
  · rw [State.subframeDecoded_next h, State.subframeDecoded_next (s := s.atPartition rice5 o j res q) h]
    rfl
  · rw [State.subframeDecoded_last h, State.subframeDecoded_last (s := s.atPartition rice5 o j res q) h]
    exact State.checkFooter_atPartition { s.writeChannel s.dec.chan xs with dec := { s.dec with cursor := p } }
      rice5 o j res

/-- A failed subframe ends alike: nothing reads its cursor. -/
theorem State.subframeFailed_atPartition (q : Nat) (c : Cause) :
    sameButPartitions (s.subframeFailed c) ((s.atPartition rice5 o j res q).subframeFailed c) := by
  have hch := fun c b n =>
    State.silenceChannels_ch_congr (show (s.atPartition rice5 o j res q).ch = s.ch from rfl) c b n
  rw [s.subframeFailed_eq, State.subframeFailed_eq, hch]
  rfl

theorem State.runSubframe_atPartition (q : Nat) (r : Reader (List Int)) (p : Nat) :
    sameButPartitions (s.runSubframe r p) ((s.atPartition rice5 o j res q).runSubframe r p) := by
  unfold State.runSubframe
  cases r p with
  | error c => exact s.subframeFailed_atPartition rice5 o j res q c
  | ok x => exact s.subframeDecoded_atPartition rice5 o j res q x.1 x.2

end

/-! A residual and its partitions. -/

theorem State.subframeFailed_leavesPartitions (s : State) (c : Cause) :
    (s.subframeFailed c).dec.phase ≠ .partition := nofun

/-- The end of a subframe is not at a partition. -/
theorem State.runSubframe_leavesPartitions (s : State) (r : Reader (List Int)) (p : Nat) :
    (s.runSubframe r p).dec.phase ≠ .partition := by
  rcases s.runSubframe_cases r p with ⟨xs, p', -, h⟩ | ⟨c, -, h⟩ <;> rw [h]
  · by_cases hc : s.dec.chan + 1 < s.dec.header.channels
    · rw [State.subframeDecoded_next hc]
      nofun
    · rw [State.subframeDecoded_last hc]
      rcases State.checkFooter_phase { s.writeChannel s.dec.chan xs with dec := { s.dec with cursor := p' } } with
        hd | ⟨-, hd⟩ <;> rw [hd] <;> nofun
  · exact s.subframeFailed_leavesPartitions c

/-- A run of partitions stops where no partition stands. -/
theorem runPartitions_done {s : State} (h : s.dec.phase ≠ .partition) (n : Nat) : runPartitions n s = s := by
  cases n with
  | zero => rfl
  | succ n => exact if_neg h

theorem runPartitions_step {s : State} (h : s.dec.phase = .partition) (n : Nat) :
    runPartitions (n + 1) s = runPartitions n s.runPartition := by
  conv_lhs => unfold runPartitions
  rw [if_pos h, step_partition h]

theorem readPartitions_succ (ck : Chunk) (w b o k m j : Nat) :
    readPartitions ck w b o k (m + 1) j =
      (readPartition ck w (partitionSize b o k j) >>= fun xs =>
        readPartitions ck w b o k m (j + 1) >>= fun ys => pure (xs ++ ys)) := rfl

/-- What follows the partitions follows the ones after the first, whose values come first. -/
theorem readPartitions_bind_of_ok {α : Type} {ck : Chunk} {w b o k m j p q : Nat} {xs : List Int}
    (h : readPartition ck w (partitionSize b o k j) p = .ok (xs, q)) (f : List Int → Reader α) :
    (readPartitions ck w b o k (m + 1) j >>= f) p =
      (readPartitions ck w b o k m (j + 1) >>= fun ys => f (xs ++ ys)) q := by
  rw [readPartitions_succ, bind_assoc, Reader.bind_of_ok h]
  simp only [bind_assoc, pure_bind]

theorem State.runSubframe_congr {s : State} {r r' : Reader (List Int)} {p p' : Nat} (h : r p = r' p') :
    s.runSubframe r p = s.runSubframe r' p' := by
  unfold State.runSubframe
  rw [h]

theorem State.runPartition_error {s : State} {c : Cause}
    (h : readPartition s.chunk s.dec.paramWidth s.partitionLength s.dec.cursor = .error c) :
    s.runPartition = s.subframeFailed c := by
  unfold State.runPartition
  rw [h]

theorem State.runPartition_next {s : State} {xs : List Int} {q : Nat}
    (h : readPartition s.chunk s.dec.paramWidth s.partitionLength s.dec.cursor = .ok (xs, q))
    (hj : s.dec.part + 1 < 2 ^ s.dec.partOrder) :
    s.runPartition = { s with dec := { s.dec with cursor := q, part := s.dec.part + 1, res := s.dec.res ++ xs } } := by
  unfold State.runPartition
  rw [h]
  exact if_pos hj

theorem State.runPartition_last {s : State} {xs : List Int} {q : Nat}
    (h : readPartition s.chunk s.dec.paramWidth s.partitionLength s.dec.cursor = .ok (xs, q))
    (hj : ¬s.dec.part + 1 < 2 ^ s.dec.partOrder) :
    s.runPartition = s.runSubframe (finishPredicted s.dec.pred (s.dec.res ++ xs)) q := by
  unfold State.runPartition
  rw [h]
  exact if_neg hj

/-- What is read from partition `j` on, `m` partitions, `res` being the values before it: the rest of the subframe. -/
def State.fromPartition (s : State) (rice5 : Bool) (o m j : Nat) (res : List Int) : Reader (List Int) :=
  readPartitions s.chunk (if rice5 then 5 else 4) s.dec.header.blockSize o s.dec.pred.order m j >>= fun ys =>
    finishPredicted s.dec.pred (res ++ ys)

/-- The partitions from `j` on, stepped one by one, end where the rest of the residual read at once ends. -/
theorem runPartitions_sameButPartitions (s : State) (rice5 : Bool) {o m j : Nat} (hj : j + (m + 1) = 2 ^ o)
    (res : List Int) (p : Nat) :
    (runPartitions (m + 1) (s.atPartition rice5 o j res p)).dec.phase ≠ .partition ∧
      sameButPartitions (s.runSubframe (s.fromPartition rice5 o (m + 1) j res) p)
        (runPartitions (m + 1) (s.atPartition rice5 o j res p)) := by
  induction m using Nat.strong_induction_on generalizing j res p with
  | _ m ih =>
    rw [runPartitions_step rfl]
    cases hr : readPartition s.chunk (if rice5 then 5 else 4)
      (partitionSize s.dec.header.blockSize o s.dec.pred.order j) p with
    | error c =>
      have hfail : s.fromPartition rice5 o (m + 1) j res p = .error c :=
        Reader.bind_of_error (Reader.bind_of_error hr)
      have hphase := (s.atPartition rice5 o j res p).subframeFailed_leavesPartitions c
      rw [State.runPartition_error (s := s.atPartition rice5 o j res p) hr, runPartitions_done hphase,
        State.runSubframe_error hfail]
      exact ⟨hphase, s.subframeFailed_atPartition rice5 o j res p c⟩
    | ok x =>
      obtain ⟨xs, q⟩ := x
      have hrest : s.fromPartition rice5 o (m + 1) j res p = s.fromPartition rice5 o m (j + 1) (res ++ xs) q := by
        unfold State.fromPartition
        rw [readPartitions_bind_of_ok hr]
        simp only [List.append_assoc]
      rw [State.runSubframe_congr hrest]
      cases m with
      | zero =>
        have hlast : s.fromPartition rice5 o 0 (j + 1) (res ++ xs) q = finishPredicted s.dec.pred (res ++ xs) q := by
          unfold State.fromPartition
          exact congrArg (fun ys => finishPredicted s.dec.pred ys q) (List.append_nil _)
        rw [State.runPartition_last (s := s.atPartition rice5 o j res p) hr (Nat.not_lt.2 (Nat.le_of_eq hj.symm)),
          State.runSubframe_congr hlast]
        exact ⟨State.runSubframe_leavesPartitions _ _ _, s.runSubframe_atPartition rice5 o j res p _ q⟩
      | succ m =>
        have hlt : j + 1 < 2 ^ o := by omega
        rw [State.runPartition_next (s := s.atPartition rice5 o j res p) hr hlt]
        exact ih m (Nat.lt_succ_self m) (j := j + 1) (by omega) (res ++ xs) q

/-! The residual that holds the partitions. -/

/-- A step at a residual with a legal method reads it with the method's parameter width (R141, R281). -/
theorem step_residual {s : State} (hp : s.dec.phase = .residual) (hin : 2 ≤ s.chunk.bitsLeft s.dec.cursor)
    (hm : s.chunk.bits s.dec.cursor 2 < 2) :
    step s = .next (s.residual (if s.chunk.bits s.dec.cursor 2 == 1 then 5 else 4)) := by
  have hslot : s.dec.slot = .method := by unfold DecodeCtx.slot; rw [hp]
  have hf : s.fetchElement = .ok (decodeMethod (s.chunk.bits s.dec.cursor 2)) := by
    rw [State.fetchElement_inside (by rw [hp]; decide) (by rw [hslot]; exact hin), hslot]
    exact decode_method _ (s.chunk.bits_lt _ 2)
  rw [step_of_fetch (by rw [hp]; decide) hf]
  generalize s.chunk.bits s.dec.cursor 2 = method at hm
  interval_cases method <;> rfl

/-- A residual with a legal partition order is its partitions and the rest of the subframe (R280). -/
theorem State.residual_eq {s : State} (rice5 : Bool) (hin : 6 ≤ s.chunk.bitsLeft s.dec.cursor)
    (ho : validPartitionOrder (s.chunk.bits (s.dec.cursor + 2) 4) s.dec.header.blockSize s.dec.pred.order = true) :
    s.residual (if rice5 then 5 else 4) =
      s.runSubframe (s.fromPartition rice5 (s.chunk.bits (s.dec.cursor + 2) 4)
        (2 ^ s.chunk.bits (s.dec.cursor + 2) 4) 0 []) (s.dec.cursor + 6) := by
  have hin2 : 4 ≤ s.chunk.bitsLeft (s.dec.cursor + 2) := by unfold Chunk.bitsLeft at *; omega
  unfold State.residual
  refine State.runSubframe_congr ?_
  rw [Reader.bind_of_ok (readBits_of_le (by omega))]
  unfold residualAfterMethod readPartitionOrder
  simp only [bind_assoc, pure_bind]
  rw [Reader.bind_of_ok (readBits_of_le hin2), Reader.bind_of_ok (gate_pass ho _ _)]
  rfl

/-- Settles O32: a header by its channel assignment, a residual by an induction over its partitions. -/
theorem nestedElementsAgree : Obligations.NestedElementsAgree := by
  refine fun s => ⟨fun blocking codes q hd p h16 hc hr => exec_frameHeader_eq_step_assignment h16 hc hr,
    fun hp hin hm ho => ?_⟩
  have hpos : 0 < 2 ^ s.chunk.bits (s.dec.cursor + 2) 4 := by positivity
  obtain ⟨m, hmo⟩ : ∃ m, 0 + (m + 1) = 2 ^ s.chunk.bits (s.dec.cursor + 2) 4 :=
    ⟨2 ^ s.chunk.bits (s.dec.cursor + 2) 4 - 1, by omega⟩
  have hstep := step_residual hp (by omega) hm
  rw [State.residual_eq _ hin ho, ← hmo, Nat.zero_add] at hstep
  exact ⟨m + 1, _, hstep,
    runPartitions_sameButPartitions s (s.chunk.bits s.dec.cursor 2 == 1) hmo [] (s.dec.cursor + 6)⟩

end Sys2Proof.Machine

/-! Unary codes that fail, and the wasted-bits count (R203, R312). -/

namespace Sys2Proof.Machine

/-- At the cap, one more zero (R203). -/
theorem unaryLoop_capped {ck : Chunk} {left q p : Nat} (hl : 0 < left) (hz : ck.bit p = 0) (hq : ck.maxUnary ≤ q) :
    unaryLoop ck left q p = .error .unaryCap := by
  obtain ⟨l, rfl⟩ : ∃ l, left = l + 1 := ⟨left - 1, by omega⟩
  have h1 : ck.bit p ≠ 1 := by omega
  unfold unaryLoop
  rw [if_neg h1, if_pos (by omega)]

/-- One zero more than MAX_UNARY_VALUE: after MAX_UNARY_VALUE zeros the loop stands at the cap (R203). -/
theorem readUnary_capped {ck : Chunk} {p : Nat} (hlen : ck.maxUnary + 1 ≤ ck.bitsLeft p)
    (hz : ∀ j, j < ck.maxUnary + 1 → ck.bit (p + j) = 0) : readUnary ck p = .error .unaryCap := by
  unfold readUnary
  rw [unaryLoop_zeros ck _ ck.maxUnary 0 p (by omega) (fun j hj => hz j (by omega)) (by omega)]
  exact unaryLoop_capped (by omega) (hz _ (by omega)) (by omega)

/-- Zeros to the end of the chunk: the loop runs out of bits before it reaches the cap (R203). -/
theorem readUnary_underrun {ck : Chunk} {p : Nat} (hcap : ck.bitsLeft p ≤ ck.maxUnary)
    (hz : ∀ j, j < ck.bitsLeft p → ck.bit (p + j) = 0) : readUnary ck p = .error .underrun := by
  unfold readUnary
  rw [unaryLoop_zeros ck _ (ck.bitsLeft p) 0 p (by omega) hz (by omega), Nat.sub_self]
  rfl

theorem readWastedCount_false (ck : Chunk) (p : Nat) : readWastedCount ck false p = .ok (0, p) := rfl

/-- With the flag the count is the unary value plus 1 (R312). -/
theorem readWastedCount_of_ok {ck : Chunk} {p u q : Nat} (h : readUnary ck p = .ok (u, q)) :
    readWastedCount ck true p = .ok (u + 1, q) :=
  Reader.bind_of_ok h

theorem readWastedCount_of_error {ck : Chunk} {p : Nat} {c : Cause} (h : readUnary ck p = .error c) :
    readWastedCount ck true p = .error c :=
  Reader.bind_of_error h

/-- Settles O44: how the unary code ends, and with the flag the wasted-bits count ends alike. -/
theorem wastedBitsCount : Obligations.WastedBitsCount := by
  refine ⟨fun _ => rfl, fun ck p u => ⟨readWastedCount_false ck p, ?one, ?cap, ?cut⟩⟩
  case one =>
    intro hcap hlen hz h1
    have h := readUnary_run ck p u hcap hlen hz h1
    exact ⟨h, readWastedCount_of_ok h⟩
  case cap =>
    intro hlen hz
    have h := readUnary_capped hlen hz
    exact ⟨h, readWastedCount_of_error h⟩
  case cut =>
    intro hcap hz
    have h := readUnary_underrun hcap hz
    exact ⟨h, readWastedCount_of_error h⟩

end Sys2Proof.Machine

/-! Appending its CRC to any data gives CRC 0 (R230, R231, R235). -/

namespace Sys2Proof.Machine

/-- The CRC-8 of data and its CRC byte: the register the data leaves absorbs its own value (R230, R235). -/
theorem crc8_append_crc8 (d : List Byte) : crc8 (d ++ [crc8 d]) = 0 := by
  rw [crc8_append, List.foldl_cons, List.foldl_nil, crc8Byte_self]

/-- The CRC-16 of data and its two CRC bytes: the register absorbs its own bytes, high byte first (R231, R235). -/
theorem crc16_append_crc16 (d : List Byte) :
    crc16 (d ++ [(crc16 d).extractLsb' 8 8, (crc16 d).extractLsb' 0 8]) = 0 := by
  rw [crc16_append, List.foldl_cons, List.foldl_cons, List.foldl_nil, crc16Byte_self]

/-- The published CRC-8 check value (R230). -/
theorem crc8_digits : crc8 [0x31, 0x32, 0x33, 0x34, 0x35, 0x36, 0x37, 0x38, 0x39] = 0xF4 := by decide +kernel

/-- The published CRC-16 check value (R231). -/
theorem crc16_digits : crc16 [0x31, 0x32, 0x33, 0x34, 0x35, 0x36, 0x37, 0x38, 0x39] = 0xFEE8 := by decide +kernel

/-- Settles O55: the register that any data leaves is taken to 0 by its own bytes; the check values are computed. -/
theorem crcResidueZero : Obligations.CrcResidueZero :=
  ⟨crc8_append_crc8, crc16_append_crc16, crc8_digits, crc16_digits⟩

end Sys2Proof.Machine

/-! The residual: its method and partition order, the count and range of its values, and its partitions (R140, R141,
R258, R280 to R284). -/

namespace Sys2Proof.Machine

/-! The partition order. -/

theorem residualAfterMethod_eq (ck : Chunk) (w b k : Nat) :
    residualAfterMethod ck w b k =
      (readBits ck 4 >>= fun o => gate (validPartitionOrder o b k) .partitionOrder >>= fun _ =>
        readPartitions ck w b o k (2 ^ o) 0) := by
  unfold residualAfterMethod readPartitionOrder
  simp only [bind_assoc, pure_bind]

theorem residualAfterMethod_cut {ck : Chunk} {p : Nat} (h : ck.bitsLeft p < 4) (w b k : Nat) :
    residualAfterMethod ck w b k p = .error .underrun := by
  rw [residualAfterMethod_eq]
  exact Reader.bind_of_error (readBits_of_lt h)

/-- A partition order that does not divide the block size, or leaves partition 0 no value, is refused (R281). -/
theorem residualAfterMethod_illegal {ck : Chunk} {b k p : Nat} (hin : 4 ≤ ck.bitsLeft p)
    (h : validPartitionOrder (ck.bits p 4) b k = false) (w : Nat) :
    residualAfterMethod ck w b k p = .error .partitionOrder := by
  rw [residualAfterMethod_eq, Reader.bind_of_ok (readBits_of_le hin)]
  exact Reader.bind_of_error (gate_fail h _ _)

/-- A legal partition order is followed by its partitions (R280). -/
theorem residualAfterMethod_legal {ck : Chunk} {b k p : Nat} (hin : 4 ≤ ck.bitsLeft p)
    (h : validPartitionOrder (ck.bits p 4) b k = true) (w : Nat) :
    residualAfterMethod ck w b k p =
      readPartitions ck w b (ck.bits p 4) k (2 ^ ck.bits p 4) 0 (p + 4) := by
  rw [residualAfterMethod_eq, Reader.bind_of_ok (readBits_of_le hin), Reader.bind_of_ok (gate_pass h _ _)]

/-- A partition order that is read has 4 bits, so that R281 bounds it by the block size and the predictor order only. -/
theorem validPartitionOrder_bits (ck : Chunk) (p b k : Nat) :
    validPartitionOrder (ck.bits p 4) b k = true ↔
      b % 2 ^ ck.bits p 4 = 0 ∧ k < b / 2 ^ ck.bits p 4 := by
  have hlt := ck.bits_lt p 4
  rw [validPartitionOrder_iff, and_assoc, and_iff_right (by omega)]

/-! The rest of the subframe after a residual. -/

/-- A residual whose prediction and restoration succeed finishes the subframe, one whose samples leave their range
fails it (R310, R331, R340). -/
theorem State.finishPredicted_ends (s : State) (res : List Int) (p : Nat) {o : Host.Outcome State Fault Refusal}
    (ho : o = .next (s.runSubframe (finishPredicted s.dec.pred res) p)) :
    (∀ xs, finishPredicted s.dec.pred res p = .ok (xs, p) → o = .next (s.subframeDecoded xs p)) ∧
      ∀ e, finishPredicted s.dec.pred res p = .error e → o = .next (s.subframeFailed .sampleRange) := by
  subst ho
  refine ⟨fun xs h => by rw [State.runSubframe_ok h], fun e h => ?_⟩
  rw [State.runSubframe_error h, finishPredicted_error h]

/-! The methods. -/

/-- After its method the residual is read with the method's parameter width, then the subframe is finished (R280). -/
theorem State.residual_afterMethod {s : State} (hin : 2 ≤ s.chunk.bitsLeft s.dec.cursor) (w : Nat) :
    s.residual w =
      s.runSubframe (residualAfterMethod s.chunk w s.dec.header.blockSize s.dec.pred.order >>=
        finishPredicted s.dec.pred) (s.dec.cursor + 2) :=
  State.runSubframe_congr (Reader.bind_of_ok (readBits_of_le hin))

theorem State.residual_error {s : State} {w : Nat} {c : Cause} (hin : 2 ≤ s.chunk.bitsLeft s.dec.cursor)
    (h : residualAfterMethod s.chunk w s.dec.header.blockSize s.dec.pred.order (s.dec.cursor + 2) = .error c) :
    s.residual w = s.subframeFailed c := by
  rw [State.residual_afterMethod hin]
  exact State.runSubframe_error (Reader.bind_of_error h)

theorem State.residual_ok {s : State} {w p : Nat} {res : List Int} (hin : 2 ≤ s.chunk.bitsLeft s.dec.cursor)
    (h : residualAfterMethod s.chunk w s.dec.header.blockSize s.dec.pred.order (s.dec.cursor + 2) = .ok (res, p)) :
    s.residual w = s.runSubframe (finishPredicted s.dec.pred res) p := by
  rw [State.residual_afterMethod hin]
  exact State.runSubframe_congr (Reader.bind_of_ok h)

theorem exec_resReserved {s : State} (hin : 2 ≤ s.chunk.bitsLeft s.dec.cursor) (x : BitVec 1) :
    exec (.resReserved x) s = .next (s.subframeFailed .reservedMethod) :=
  congrArg Host.Outcome.next (State.runSubframe_error (Reader.bind_of_ok (readBits_of_le hin)))

/-- Settles O48: the two methods are one residual, which its partition order cuts, fails or hands on to its
partitions. -/
theorem residualMethodsRead : Obligations.ResidualMethodsRead := by
  refine fun s hin => ⟨fun i w hi => ?_, exec_resReserved hin⟩
  have hexec : exec i s = .next (s.residual w) := by
    simp only [List.mem_cons, Prod.mk.injEq, List.not_mem_nil, or_false] at hi
    rcases hi with ⟨rfl, rfl⟩ | ⟨rfl, rfl⟩ <;> rfl
  rw [hexec]
  have hleft : s.chunk.bitsLeft (s.dec.cursor + 2) = s.chunk.bitsLeft s.dec.cursor - 2 := Nat.sub_add_eq ..
  refine ⟨fun hcut => ?cut, fun h6 hdiv hlt => ?legal, fun h6 hbad => ?illegal⟩
  case cut => rw [State.residual_error hin (residualAfterMethod_cut (by omega) ..)]
  case legal =>
    have hread := residualAfterMethod_legal (by omega) ((validPartitionOrder_bits ..).2 ⟨hdiv, hlt⟩) w
    refine ⟨fun e he => by rw [State.residual_error hin (hread.trans he)], fun res p hres => ?_⟩
    exact s.finishPredicted_ends res p (by rw [State.residual_ok hin (hread.trans hres)])
  case illegal =>
    have hvalid : ¬validPartitionOrder (s.chunk.bits (s.dec.cursor + 2) 4) s.dec.header.blockSize
        s.dec.pred.order = true := by
      rw [validPartitionOrder_bits]
      omega
    rw [State.residual_error hin (residualAfterMethod_illegal (by omega) (Bool.eq_false_of_not_eq_true hvalid) w)]

/-! The count and the range. -/

/-- A residual that is read to its end has a 2-bit method and parameters of at most 5 bits (R141, R280). -/
theorem decodeResidual_ok {ck : Chunk} {b k p p' : Nat} {res : List Int}
    (h : decodeResidual ck b k p = .ok (res, p')) :
    2 ≤ ck.bitsLeft p ∧ ∃ w ≤ 5, residualAfterMethod ck w b k (p + 2) = .ok (res, p') := by
  obtain ⟨m, q, hm, hrest⟩ := Reader.bind_ok.1 h
  obtain ⟨hin, -, rfl⟩ := readBits_ok.1 hm
  split_ifs at hrest
  · exact ⟨hin, 4, by decide, hrest⟩
  · exact ⟨hin, 5, by decide, hrest⟩
  · cases hrest

theorem residualAfterMethod_range {ck : Chunk} {w b k p p' : Nat} {res : List Int} (hw : w ≤ 5)
    (h : residualAfterMethod ck w b k p = .ok (res, p')) : ∀ v ∈ res, -2147483648 < v ∧ v ≤ 2147483647 := by
  obtain ⟨o, q, -, hparts⟩ := Reader.bind_ok.1 h
  exact partitions_range ck w b o k _ _ hw _ _ _ hparts

/-- Settles O49: after the method, the partitions hold the values and stay in the chunk. -/
theorem residualCountAndRange : Obligations.ResidualCountAndRange := by
  intro ck b k p p' res _ h
  obtain ⟨hin, w, hw, hrest⟩ := decodeResidual_ok h
  obtain ⟨hmoved, hinside⟩ := staysIn_residualAfterMethod ck w b k _ _ _ hrest
  unfold Chunk.bitsLeft at hin
  exact ⟨decodeResidual_length h, by omega, hinside (by omega), residualAfterMethod_range hw hrest⟩

/-! The partition instructions. -/

theorem State.partitionDecoded_next {s : State} (h : s.dec.part + 1 < 2 ^ s.dec.partOrder) (xs : List Int) (p : Nat) :
    s.partitionDecoded xs p =
      { s with dec := { s.dec with cursor := p, part := s.dec.part + 1, res := s.dec.res ++ xs } } := if_pos h

theorem State.partitionDecoded_last {s : State} (h : 2 ^ s.dec.partOrder ≤ s.dec.part + 1) (xs : List Int) (p : Nat) :
    s.partitionDecoded xs p = s.runSubframe (finishPredicted s.dec.pred (s.dec.res ++ xs)) p :=
  if_neg (Nat.not_lt.2 h)

theorem State.partition_ok {s : State} {w p : Nat} {body : Nat → Reader (List Int)} {xs : List Int}
    (hin : w ≤ s.chunk.bitsLeft s.dec.cursor) (h : body s.partitionLength (s.dec.cursor + w) = .ok (xs, p)) :
    s.partition w body = s.partitionDecoded xs p := by
  unfold State.partitionLength at h
  unfold State.partition
  dsimp only
  rw [Reader.bind_of_ok (readBits_of_le hin), h]

theorem State.partition_error {s : State} {w : Nat} {body : Nat → Reader (List Int)} {c : Cause}
    (hin : w ≤ s.chunk.bitsLeft s.dec.cursor) (h : body s.partitionLength (s.dec.cursor + w) = .error c) :
    s.partition w body = s.subframeFailed c := by
  unfold State.partitionLength at h
  unfold State.partition
  dsimp only
  rw [Reader.bind_of_ok (readBits_of_le hin), h]

/-- Settles O50: each of the four instructions is a partition whose body reads as many values as it is asked for. -/
theorem partitionsAppended : Obligations.PartitionsAppended := by
  rintro s _ rfl i w body hi hin
  obtain ⟨f, hexec, hbody, hlength⟩ : ∃ f : Nat → Reader (List Int), exec i s = .next (s.partition w f) ∧
      f s.partitionLength = body ∧ ∀ n p q xs, f n p = .ok (xs, q) → xs.length = n := by
    rcases hi with ⟨k, rfl, rfl, rfl⟩ | ⟨k, rfl, rfl, rfl⟩ | ⟨rfl, rfl, rfl⟩ | ⟨rfl, rfl, rfl⟩
    · exact ⟨fun n => ricePartition s.chunk n k.toNat, rfl, rfl, fun _ _ _ _ => ricePartition_length⟩
    · exact ⟨fun n => ricePartition s.chunk n k.toNat, rfl, rfl, fun _ _ _ _ => ricePartition_length⟩
    · exact ⟨escapePartition s.chunk, rfl, rfl, fun _ _ _ _ => escapePartition_length⟩
    · exact ⟨escapePartition s.chunk, rfl, rfl, fun _ _ _ _ => escapePartition_length⟩
  subst hbody
  rw [hexec]
  refine ⟨fun xs p hread => ⟨hlength _ _ _ _ hread, ?_⟩, fun e he => by rw [State.partition_error hin he]⟩
  rw [State.partition_ok hin hread]
  exact ⟨fun hnext => by rw [State.partitionDecoded_next hnext],
    fun hlast => s.finishPredicted_ends _ p (by rw [State.partitionDecoded_last hlast])⟩

end Sys2Proof.Machine

/-! The subframes: their bodies, their failures, what they store and what they leave alone (R310 to R342, R505). -/

namespace Sys2Proof.Machine

/-! From the header byte and the wasted bits to the body (R310 to R314). -/

/-- The wasted-bits field with a count below the bit depth and a legal effective depth (R260, R261, R312). -/
theorem readWasted_of_depth {ck : Chunk} {flag side : Bool} {n w p q : Nat}
    (h : readWastedCount ck flag p = .ok (w, q)) (hw : w < n) (he : n - w + side.toNat ≤ 33) :
    readWasted ck flag n side p = .ok ((w, n - w + side.toNat), q) := by
  have hdepth : validEffectiveDepth (n - w + side.toNat) = true := (validEffectiveDepth_iff _).2 ⟨by omega, he⟩
  unfold readWasted
  rw [Reader.bind_of_ok h, Reader.bind_of_ok (gate_pass ((validWasted_iff w n).2 hw) _ _),
    Reader.bind_of_ok (gate_pass hdepth _ _), Reader.pure_run]

/-- A subframe with a legal order and effective depth is its body, read after the wasted bits (R310). -/
theorem State.subframe_eq_body {s : State} {kind : SubKind} {order w p : Nat} {wasted : Bool}
    (h8 : 8 ≤ s.chunk.bitsLeft s.dec.cursor) (ho : validSubframeOrder kind order s.dec.header.blockSize = true)
    (h : readWastedCount s.chunk wasted (s.dec.cursor + 8) = .ok (w, p)) (hw : w < s.dec.header.bps)
    (he : s.effectiveDepth w ≤ 33) :
    s.subframe kind order wasted =
      s.runSubframe (subframeBody s.chunk kind order s.dec.header.blockSize w (s.effectiveDepth w)) p := by
  refine State.runSubframe_congr ?_
  rw [subframeOf_run h8 ho, Reader.bind_of_ok (readWasted_of_depth h hw he)]
  rfl

theorem State.subframeStarts.depth {s : State} {wasted : Bool} {w p : Nat} (h : s.subframeStarts wasted w p) :
    1 ≤ s.effectiveDepth w ∧ s.effectiveDepth w ≤ 33 := by
  obtain ⟨-, -, hw, hbps⟩ := h
  have hside := Bool.toNat_le (isSide s.dec.header.assign s.dec.chan)
  unfold State.effectiveDepth
  omega

/-- Where the subframe starts, it is its body (R130, R312). -/
theorem State.subframeStarts.subframe {s : State} {wasted : Bool} {w p : Nat} (h : s.subframeStarts wasted w p)
    {kind : SubKind} {order : Nat} (ho : validSubframeOrder kind order s.dec.header.blockSize = true) :
    s.subframe kind order wasted =
      s.runSubframe (subframeBody s.chunk kind order s.dec.header.blockSize w (s.effectiveDepth w)) p :=
  State.runSubframe_congr (State.subframe_body h ho)

/-- Every sample of an effective depth of 1 to 33 bits that is read is an int32 (R313, R314). -/
theorem readSample_int32 {ck : Chunk} {e : Nat} (h1 : 1 ≤ e) (h33 : e ≤ 33) (p q : Nat) (v : Int)
    (h : readSample ck e p = .ok (v, q)) : fitsSigned v 32 = true := by
  rcases readSample_fits h1 h with hfit | hdeep
  · exact hfit
  · omega

theorem State.subframeStarts.samples_int32 {s : State} {wasted : Bool} {w p : Nat}
    (h : s.subframeStarts wasted w p) {n q r : Nat} {xs : List Int}
    (hxs : readMany (readSample s.chunk (s.effectiveDepth w)) n q = .ok (xs, r)) :
    ∀ v ∈ xs, fitsSigned v 32 = true := readMany_all (readSample_int32 h.depth.1 h.depth.2) hxs

/-! Samples that are stored as read, but for the wasted bits (R320, R322, R340). -/

/-- Where every restored sample is an int32, the read decodes to them. -/
theorem restored_of_fits {r : Reader (List Int)} {w p q : Nat} {xs : List Int} (h : r p = .ok (xs, q))
    (hfit : ∀ v ∈ xs, fitsSigned (v * 2 ^ w) 32 = true) :
    (r >>= fun xs => orFail (restoreWasted w xs) .sampleRange) p = .ok (xs.map (· * 2 ^ w), q) := by
  rw [Reader.bind_of_ok h, orFail_some (restoreWasted_run hfit)]

/-- Where a restored sample is no int32, the read fails. -/
theorem restored_of_leaves {r : Reader (List Int)} {w p q : Nat} {xs : List Int} (h : r p = .ok (xs, q))
    (hx : ∀ v ∈ xs, fitsSigned v 32 = true) (hout : ∃ v ∈ xs, fitsSigned (v * 2 ^ w) 32 = false) :
    (r >>= fun xs => orFail (restoreWasted w xs) .sampleRange) p = .error .sampleRange := by
  rw [Reader.bind_of_ok h, orFail_none (restoreWasted_none_of_fits hx hout)]

theorem decodeConstant_of_ok {ck : Chunk} {e p q : Nat} {v : Int} (h : readSample ck e p = .ok (v, q)) (b : Nat) :
    decodeConstant ck b e p = .ok (List.replicate b v, q) := Reader.bind_of_ok h

/-- Settles O39: the copies of the sample are restored, or fail, together. -/
theorem constantSubframe : Obligations.ConstantSubframe := by
  intro s wasted w p1 hs
  have hexec : exec (.sfConstant wasted) s = .next (s.runSubframe _ p1) :=
    congrArg Host.Outcome.next (hs.subframe (kind := .constant) (order := 0) rfl)
  rw [hexec]
  refine ⟨fun e he => ?cut, fun v p2 hv => ⟨fun hfit => ?fits, fun hout hB => ?leaves⟩⟩
  case cut => exact congrArg _ (State.runSubframe_error (Reader.bind_of_error (Reader.bind_of_error he)))
  case fits =>
    have hbody := restored_of_fits (w := w) (decodeConstant_of_ok hv s.dec.header.blockSize) fun u hu => by
      rwa [List.eq_of_mem_replicate hu]
    rw [List.map_replicate] at hbody
    exact congrArg _ (State.runSubframe_ok hbody)
  case leaves =>
    refine congrArg _ (State.runSubframe_error (restored_of_leaves (decodeConstant_of_ok hv _) (fun u hu => ?_)
      ⟨v, List.mem_replicate.2 ⟨by omega, rfl⟩, hout⟩))
    rw [List.eq_of_mem_replicate hu]
    exact readSample_int32 hs.depth.1 hs.depth.2 _ _ _ hv

/-- Settles O40: the samples are read one after the other, then restored. -/
theorem verbatimSubframe : Obligations.VerbatimSubframe := by
  intro s wasted w p1 hs
  have hexec : exec (.sfVerbatim wasted) s = .next (s.runSubframe _ p1) :=
    congrArg Host.Outcome.next (hs.subframe (kind := .verbatim) (order := 0) rfl)
  rw [hexec]
  refine ⟨fun e he => ?cut, fun xs p2 hxs => ⟨fun hout => ?leaves, fun hfit => ?fits⟩⟩
  case cut => exact congrArg _ (State.runSubframe_error (Reader.bind_of_error he))
  case leaves =>
    exact congrArg _ (State.runSubframe_error (restored_of_leaves hxs (hs.samples_int32 hxs) hout))
  case fits =>
    obtain ⟨hend, hfields⟩ := readSamples_fields hxs
    exact ⟨readMany_length hxs, hend, hfields, congrArg _ (State.runSubframe_ok (restored_of_fits hxs hfit))⟩

/-! Predicted subframes (R324 to R337). -/

/-- From its residual on, a predicted subframe ends as its samples say, where the predictor is the one stated. -/
theorem State.decodePredicted_ends {s : State} {pr : Predictor} {predict : (Nat → Int) → Nat → Int} {p : Nat}
    (hlen : pr.warmup.length = pr.order) (hk : pr.order < s.dec.header.blockSize)
    (hdepth : pr.depth = s.effectiveDepth pr.wasted) (hwarm : ∀ v ∈ pr.warmup, fitsSigned v 32 = true)
    (hpred : ∀ x n, pr.order ≤ n → pr.predict ((List.range n).map x).reverse = predict x n) :
    predictedEnds (.next (s.runSubframe (decodePredicted s.chunk s.dec.header.blockSize pr) p)) s pr.order pr.wasted p
      pr.warmup predict := by
  unfold predictedEnds
  rw [← hdepth]
  refine ⟨fun e he => ?residual, fun res q hres x => ⟨fun hx => ?samples, fun m hx => ?leaves⟩⟩
  case residual => exact congrArg _ (State.runSubframe_error (decodePredicted_error he))
  case samples =>
    exact congrArg _ (State.runSubframe_ok (decodePredicted_run hlen hk rfl hres hx fun n hn _ => hpred x n hn))
  case leaves =>
    exact congrArg _ (State.runSubframe_error
      (decodePredicted_leaves hlen hk rfl hwarm hres hx fun n hn _ => hpred x n hn))

/-- A FIXED order of at most 4 below the block size is legal (R256). -/
theorem validSubframeOrder_fixed {k b : Nat} (hk : k ≤ 4) (h : k < b) : validSubframeOrder .fixed k b = true :=
  (validFixedOrder_iff k b).2 ⟨hk, h⟩

/-- After its warm-up samples, a FIXED subframe is the predicted subframe of its order (R324). -/
theorem subframeBody_fixed {ck : Chunk} {k w e p q : Nat} {warm : List Int}
    (h : readMany (readSample ck e) k p = .ok (warm, q)) (b : Nat) :
    subframeBody ck .fixed k b w e p = decodePredicted ck b ⟨.fixed, k, w, e, warm, [], 0⟩ q :=
  Reader.bind_of_ok (fixedPredictor_run h)

/-- Where the order's polynomial is the stated predictor, the instruction is a FIXED subframe of that order. -/
theorem fixedSubframe_of_predict {i : Bool → Instr} {k : Nat} {predict : (Nat → Int) → Nat → Int} (hk : k ≤ 4)
    (hi : ∀ wasted s, exec (i wasted) s = .next (s.subframe .fixed k wasted))
    (hpred : ∀ x n, k ≤ n → fixedPredict k ((List.range n).map x).reverse = predict x n) :
    fixedSubframe i k predict := by
  intro s wasted w p1 hs hkb
  rw [hi, hs.subframe (validSubframeOrder_fixed hk hkb)]
  refine ⟨fun e he => ?warmup, fun warm p2 hwarm => ?body⟩
  case warmup => exact congrArg _ (State.runSubframe_error (Reader.bind_of_error (Reader.bind_of_error he)))
  case body =>
    rw [State.runSubframe_congr (subframeBody_fixed hwarm _)]
    exact State.decodePredicted_ends (pr := ⟨.fixed, k, w, s.effectiveDepth w, warm, [], 0⟩)
      (readMany_length hwarm) hkb rfl (hs.samples_int32 hwarm) hpred

/-- The history counted back from sample `n`. -/
theorem history_back (x : Nat → Int) {n : Nat} (j : Nat) (h : j + 1 ≤ n) :
    (((List.range n).map x).reverse).getD j 0 = x (n - (j + 1)) := by
  rw [history_getD x n j h, Nat.sub_sub, Nat.add_comm 1 j]

/-- Settles O41: each polynomial of R325 to R329 sees the samples just before. -/
theorem fixedSubframes : Obligations.FixedSubframes := by
  refine ⟨fixedSubframe_of_predict (by decide) (fun _ _ => rfl) fun x n hn => rfl,
    fixedSubframe_of_predict (by decide) (fun _ _ => rfl) fun x n hn => ?order1,
    fixedSubframe_of_predict (by decide) (fun _ _ => rfl) fun x n hn => ?order2,
    fixedSubframe_of_predict (by decide) (fun _ _ => rfl) fun x n hn => ?order3,
    fixedSubframe_of_predict (by decide) (fun _ _ => rfl) fun x n hn => ?order4⟩
  all_goals simp only [fixedPredict]
  case order1 => rw [history_back x 0 (by omega)]
  case order2 => rw [history_back x 0 (by omega), history_back x 1 (by omega)]
  case order3 => rw [history_back x 0 (by omega), history_back x 1 (by omega), history_back x 2 (by omega)]
  case order4 =>
    rw [history_back x 0 (by omega), history_back x 1 (by omega), history_back x 2 (by omega),
      history_back x 3 (by omega)]

/-- An LPC order below the block size is legal: its field has 5 bits (R131, R255). -/
theorem validSubframeOrder_lpc {p : BitVec 5} {b : Nat} (h : p.toNat + 1 < b) :
    validSubframeOrder .lpc (p.toNat + 1) b = true := (validLpcOrder_iff _ b).2 ⟨by omega, h⟩

/-- After its parameters, an LPC subframe is the predicted subframe they give (R335). -/
theorem subframeBody_lpc {ck : Chunk} {k w e p q r : Nat} {warm coefs : List Int}
    (h : readMany (readSample ck e) k p = .ok (warm, q)) (h9 : 9 ≤ ck.bitsLeft q) (hprec : ck.bits q 4 ≠ 15)
    (hshift : ck.bits (q + 4) 5 < 16)
    (hcoefs : readMany (readBitsSigned ck (ck.bits q 4 + 1)) k (q + 9) = .ok (coefs, r)) (b : Nat) :
    subframeBody ck .lpc k b w e p = decodePredicted ck b ⟨.lpc, k, w, e, warm, coefs, ck.bits (q + 4) 5⟩ r :=
  Reader.bind_of_ok (lpcPredictor_run h h9 hprec hshift hcoefs)

/-- Settles O42: the predictor that is read predicts the sum over its coefficients. -/
theorem lpcSubframe : Obligations.LpcSubframe := by
  intro s p wasted w p1 hs hpb
  have hexec : exec (.sfLpc p wasted) s = .next (s.runSubframe _ p1) :=
    congrArg Host.Outcome.next (hs.subframe (validSubframeOrder_lpc hpb))
  rw [hexec]
  refine ⟨fun e he => ?warmup, fun p2 p3 warm coefs hwarm h9 hprec hshift hcoefs => ?body⟩
  case warmup => exact congrArg _ (State.runSubframe_error (Reader.bind_of_error (Reader.bind_of_error he)))
  case body =>
    rw [State.runSubframe_congr (subframeBody_lpc hwarm h9 hprec hshift hcoefs _)]
    have hlen := readMany_length hcoefs
    refine State.decodePredicted_ends
      (pr := ⟨.lpc, p.toNat + 1, w, s.effectiveDepth w, warm, coefs, s.chunk.bits (p2 + 4) 5⟩)
      (readMany_length hwarm) hpb rfl (hs.samples_int32 hwarm) fun x n hn => ?_
    rw [← hlen]
    exact lpcPredict_run coefs _ x n (hlen.trans_le hn)

/-! Subframes that fail (R310 to R314, R335). -/

theorem State.reservedSubframe_inside {s : State} (h : 7 ≤ s.chunk.bitsLeft s.dec.cursor) :
    s.reservedSubframe = s.subframeFailed .reservedType :=
  State.runSubframe_error (Reader.bind_of_ok (readBits_of_le h))

theorem State.reservedSubframe_cut {s : State} (h : s.chunk.bitsLeft s.dec.cursor < 7) :
    s.reservedSubframe = s.subframeFailed .underrun := State.runSubframe_error (readBits_bind_cut h)

/-- The five reserved types are one instruction (R131, R311). -/
theorem exec_reservedType {s : State} {i : Instr} {x : BitVec 1} {x2 : BitVec 2} {x4 : BitVec 4} {wasted : Bool}
    (hi : i = .sfReservedType23 x wasted ∨ i = .sfReservedType47 x2 wasted ∨ i = .sfReservedType13 wasted ∨
      i = .sfReservedType1415 x wasted ∨ i = .sfReservedType1631 x4 wasted) :
    exec i s = .next s.reservedSubframe := by
  rcases hi with rfl | rfl | rfl | rfl | rfl <;> rfl

/-- An illegal order fails once pad and type bits are read, before the wasted-bits flag (R311). -/
theorem State.subframe_illegal_order {s : State} {kind : SubKind} {order : Nat}
    (ho : validSubframeOrder kind order s.dec.header.blockSize = false) (h7 : 7 ≤ s.chunk.bitsLeft s.dec.cursor)
    (wasted : Bool) : s.subframe kind order wasted = s.subframeFailed .order := by
  refine State.runSubframe_error ?_
  unfold subframeOf
  rw [Reader.bind_of_ok (readBits_of_le h7)]
  exact Reader.bind_of_error (gate_fail ho _ _)

/-- The five FIXED instructions by their order (R131). -/
theorem exec_fixed {s : State} {i : Instr} {k : Nat} {wasted : Bool}
    (hi : (i, k) ∈ [(Instr.sfFixed0 wasted, 0), (.sfFixed1 wasted, 1), (.sfFixed2 wasted, 2), (.sfFixed3 wasted, 3),
      (.sfFixed4 wasted, 4)]) : k ≤ 4 ∧ exec i s = .next (s.subframe .fixed k wasted) := by
  simp only [List.mem_cons, Prod.mk.injEq, List.not_mem_nil, or_false] at hi
  rcases hi with ⟨rfl, rfl⟩ | ⟨rfl, rfl⟩ | ⟨rfl, rfl⟩ | ⟨rfl, rfl⟩ | ⟨rfl, rfl⟩ <;> exact ⟨by decide, rfl⟩

theorem readMany_one_error {α : Type} {r : Reader α} {p : Nat} {c : Cause} (h : readMany r 1 p = .error c) :
    r p = .error c := by
  rcases Reader.bind_error.1 h with hr | ⟨x, q, -, hrest⟩
  · exact hr
  · cases hrest

/-- A legal form of subframe is a subframe of legal kind and order, which fails when its samples do (R310, R320, R322,
R324, R335). -/
theorem subframeForm_exec {s : State} {i : Instr} {wasted : Bool} {m : Nat} (hform : subframeForm s i wasted m) :
    ∃ kind order, exec i s = .next (s.subframe kind order wasted) ∧
      validSubframeOrder kind order s.dec.header.blockSize = true ∧
      ∀ w e p c, readMany (readSample s.chunk e) m p = .error c →
        subframeBody s.chunk kind order s.dec.header.blockSize w e p = .error c := by
  rcases hform with ⟨rfl, rfl⟩ | ⟨rfl, rfl⟩ | ⟨hmb, hfixed | ⟨p, rfl, rfl⟩⟩
  · exact ⟨.constant, 0, rfl, rfl, fun w e p c h =>
      Reader.bind_of_error (Reader.bind_of_error (readMany_one_error h))⟩
  · exact ⟨.verbatim, 0, rfl, rfl, fun w e p c h => Reader.bind_of_error h⟩
  · obtain ⟨hk, hexec⟩ := exec_fixed (s := s) hfixed
    exact ⟨.fixed, m, hexec, validSubframeOrder_fixed hk hmb, fun w e p c h =>
      Reader.bind_of_error (Reader.bind_of_error h)⟩
  · exact ⟨.lpc, p.toNat + 1, rfl, validSubframeOrder_lpc hmb, fun w e p c h =>
      Reader.bind_of_error (Reader.bind_of_error h)⟩

/-! The parameters of an LPC subframe that fail, after its warm-up samples (R335). -/

theorem sext5_negative {f : Nat} (h16 : 16 ≤ f) (h32 : f < 32) : sext 5 f < 0 := by
  have htop : f / 2 ^ (5 - 1) % 2 = 1 := by omega
  unfold sext
  rw [if_pos htop]
  push_cast
  omega

/-- What an LPC subframe of order `k` reads after a legal precision field `prec`: the coefficients and the shift. -/
def lpcShiftAndCoefs (ck : Chunk) (k prec : Nat) : Reader (List Int × Nat) := do
  let f ← readBits ck 5
  gate (validShift (sext 5 f)) .lpcShift
  let coefs ← readMany (readBitsSigned ck (prec + 1)) k
  return (coefs, (sext 5 f).toNat)

theorem lpcPredictor_eq (ck : Chunk) (k w e : Nat) :
    lpcPredictor ck k w e =
      (readMany (readSample ck e) k >>= fun warm => readBits ck 4 >>= fun prec =>
        gate (validPrecision prec) .lpcPrecision >>= fun _ => lpcShiftAndCoefs ck k prec >>= fun c =>
          pure ⟨.lpc, k, w, e, warm, c.1, c.2⟩) := by
  simp only [lpcPredictor, lpcShiftAndCoefs, bind_assoc, pure_bind]

theorem lpcShiftAndCoefs_shift_cut {ck : Chunk} {p : Nat} (h : ck.bitsLeft p < 5) (k prec : Nat) :
    lpcShiftAndCoefs ck k prec p = .error .underrun := readBits_bind_cut h

theorem lpcShiftAndCoefs_shift_negative {ck : Chunk} {p : Nat} (h5 : 5 ≤ ck.bitsLeft p)
    (hshift : 16 ≤ ck.bits p 5) (k prec : Nat) : lpcShiftAndCoefs ck k prec p = .error .lpcShift := by
  have hneg := sext5_negative hshift (ck.bits_lt p 5)
  have hgate : validShift (sext 5 (ck.bits p 5)) = false := by
    rw [← Bool.not_eq_true, validShift_iff]
    omega
  unfold lpcShiftAndCoefs
  rw [Reader.bind_of_ok (readBits_of_le h5)]
  exact Reader.bind_of_error (gate_fail hgate _ _)

theorem lpcShiftAndCoefs_coefs_cut {ck : Chunk} {k prec p : Nat} (h5 : 5 ≤ ck.bitsLeft p)
    (hshift : ck.bits p 5 < 16) (hcut : ck.bitsLeft (p + 5) < (prec + 1) * k) :
    lpcShiftAndCoefs ck k prec p = .error .underrun := by
  unfold lpcShiftAndCoefs
  rw [Reader.bind_of_ok (readBits_of_le h5), sext5_nonneg hshift,
    Reader.bind_of_ok (gate_pass ((validShift_iff _).2 (by omega)) _ _)]
  exact Reader.bind_of_error (readMany_cut hcut)

section
variable {ck : Chunk} {k w e p q : Nat} {warm : List Int} (hwarm : readMany (readSample ck e) k p = .ok (warm, q))
include hwarm

theorem lpcPredictor_precision_cut (h : ck.bitsLeft q < 4) : lpcPredictor ck k w e p = .error .underrun := by
  rw [lpcPredictor_eq, Reader.bind_of_ok hwarm]
  exact readBits_bind_cut h

theorem lpcPredictor_precision_illegal (h4 : 4 ≤ ck.bitsLeft q) (hprec : ck.bits q 4 = 15) :
    lpcPredictor ck k w e p = .error .lpcPrecision := by
  rw [lpcPredictor_eq, Reader.bind_of_ok hwarm, Reader.bind_of_ok (readBits_of_le h4), hprec]
  exact Reader.bind_of_error (gate_fail rfl _ _)

/-- After a legal precision, the shift and the coefficients decide. -/
theorem lpcPredictor_precision_legal (h4 : 4 ≤ ck.bitsLeft q) (hprec : ck.bits q 4 ≠ 15) {c : Cause}
    (h : lpcShiftAndCoefs ck k (ck.bits q 4) (q + 4) = .error c) : lpcPredictor ck k w e p = .error c := by
  have hgate : validPrecision (ck.bits q 4) = true := bne_iff_ne.2 hprec
  rw [lpcPredictor_eq, Reader.bind_of_ok hwarm, Reader.bind_of_ok (readBits_of_le h4),
    Reader.bind_of_ok (gate_pass hgate _ _)]
  exact Reader.bind_of_error h

end

/-- The header byte, the wasted bits and the samples of a legal form of subframe that fail it (R201, R311 to R314). -/
theorem subframeForm_rejected {s : State} {i : Instr} {wasted : Bool} {m : Nat} (hform : subframeForm s i wasted m) :
    (s.chunk.bitsLeft s.dec.cursor < 8 → exec i s = .next (s.subframeFailed .underrun)) ∧
      (8 ≤ s.chunk.bitsLeft s.dec.cursor →
        (∀ e, readWastedCount s.chunk wasted (s.dec.cursor + 8) = .error e → exec i s = .next (s.subframeFailed e)) ∧
        ∀ w p, readWastedCount s.chunk wasted (s.dec.cursor + 8) = .ok (w, p) →
          (s.dec.header.bps ≤ w → exec i s = .next (s.subframeFailed .wastedBits)) ∧
          (w < s.dec.header.bps → s.effectiveDepth w ≤ 33 → ∀ c,
            readMany (readSample s.chunk (s.effectiveDepth w)) m p = .error c →
            exec i s = .next (s.subframeFailed c))) := by
  obtain ⟨kind, order, hexec, ho, hbody⟩ := subframeForm_exec hform
  rw [hexec]
  refine ⟨fun hcut => ?byte, fun h8 => ⟨fun e he => ?field, fun w p hwp =>
    ⟨fun hw => ?count, fun hw he c hc => ?samples⟩⟩⟩
  case byte => exact congrArg _ (State.runSubframe_error (subframeOf_cut hcut ho))
  case field => exact congrArg _ (State.runSubframe_error (subframeOf_wasted_error h8 ho he))
  case count => exact congrArg _ (State.runSubframe_error (subframeOf_wasted_bits h8 ho hwp hw))
  case samples =>
    rw [State.subframe_eq_body h8 ho hwp hw he]
    exact congrArg _ (State.runSubframe_error (hbody _ _ _ _ hc))

/-- Settles O43: every form fails as its header byte, its wasted bits and its samples do, SF_LPC also as its
parameters do. -/
theorem illegalSubframesRejected : Obligations.IllegalSubframesRejected := by
  refine ⟨fun s => ⟨fun i x x2 x4 wasted hi h7 => ?reserved, fun x h1 => ?pad, fun i k wasted hi hk h7 => ?fixedOrder,
    fun p wasted hp h7 => ?lpcOrder, fun i wasted m hform => ?form, fun i x x2 x4 wasted hi h7 => ?reservedCut⟩,
    fun s p wasted w p1 p2 warm hs hpb hwarm => ?lpc⟩
  case reserved => rw [exec_reservedType hi, State.reservedSubframe_inside h7]
  case reservedCut => rw [exec_reservedType hi, State.reservedSubframe_cut h7]
  case pad => exact congrArg _ (State.runSubframe_error (Reader.bind_of_ok (readBits_of_le h1)))
  case fixedOrder =>
    have ho : validSubframeOrder .fixed k s.dec.header.blockSize = false := by
      rw [← Bool.not_eq_true]
      exact fun h => absurd ((validFixedOrder_iff _ _).1 h).2 (Nat.not_lt.2 hk)
    rw [(exec_fixed hi).2, State.subframe_illegal_order ho h7]
  case lpcOrder =>
    have ho : validSubframeOrder .lpc (p.toNat + 1) s.dec.header.blockSize = false := by
      rw [← Bool.not_eq_true]
      exact fun h => absurd ((validLpcOrder_iff _ _).1 h).2 (Nat.not_lt.2 hp)
    exact congrArg _ (State.subframe_illegal_order ho h7 wasted)
  case form =>
    obtain ⟨hbyte, hrest⟩ := subframeForm_rejected hform
    refine ⟨hbyte, fun h8 => ?_⟩
    obtain ⟨hfield, hcounted⟩ := hrest h8
    refine ⟨hfield, fun w p hwp => ?_⟩
    obtain ⟨hcount, hsamples⟩ := hcounted w p hwp
    refine ⟨hcount, fun hw he hcut => hsamples hw (by omega) _ (readSamples_cut he hcut),
      fun hw he j hj hin hok => ?_⟩
    rw [he] at hsamples
    have hfail := fun c hc => hsamples hw (le_refl 33) c (readSamples_33_error hj hin hok hc)
    have hleft : s.chunk.bitsLeft (p + 33 * j) = s.chunk.bitsLeft p - 33 * j := Nat.sub_add_eq ..
    exact ⟨fun hcut => hfail _ (readSample_33_cut (by omega)), fun hin hout =>
      hfail _ ((readSample_33 (by omega)).trans (if_neg (by rw [hout]; decide)))⟩
  case lpc =>
    have hfail : ∀ {c}, lpcPredictor s.chunk (p.toNat + 1) w (s.effectiveDepth w) p1 = .error c →
        exec (.sfLpc p wasted) s = .next (s.subframeFailed c) := fun h =>
      congrArg Host.Outcome.next ((hs.subframe (validSubframeOrder_lpc hpb)).trans
        (State.runSubframe_error (Reader.bind_of_error h)))
    have hleft : s.chunk.bitsLeft (p2 + 4) = s.chunk.bitsLeft p2 - 4 := Nat.sub_add_eq ..
    refine ⟨fun h4 h15 => hfail (lpcPredictor_precision_illegal hwarm h4 h15), fun h9 h15 h16 => ?negative, ?cut,
      fun h9 h15 h16 hcut => ?coefs⟩
    case negative =>
      exact hfail (lpcPredictor_precision_legal hwarm (by omega) h15
        (lpcShiftAndCoefs_shift_negative (by omega) h16 ..))
    case cut =>
      rintro (h4 | ⟨h4, h15, h9⟩)
      · exact hfail (lpcPredictor_precision_cut hwarm h4)
      · exact hfail (lpcPredictor_precision_legal hwarm h4 h15 (lpcShiftAndCoefs_shift_cut (by omega) ..))
    case coefs =>
      exact hfail (lpcPredictor_precision_legal hwarm (by omega) h15
        (lpcShiftAndCoefs_coefs_cut (by omega) h16 hcut))

/-! What a subframe stores, and what it leaves alone (R26, R310, R342, R505). -/

/-- A sample after a subframe decoded (R26, R310). -/
theorem State.sample_subframeDecoded {s : State} {xs : List Int} (hc : s.dec.chan < s.ch.length)
    (hx : ∀ v ∈ xs, fitsSigned v 32 = true) (p c i : Nat) :
    (s.subframeDecoded xs p).sample c i = if c = s.dec.chan ∧ i < xs.length then xs.getD i 0 else s.sample c i := by
  rw [State.sample_of_ch (s.subframeDecoded_ch xs p), State.sample_writeChannel s _ xs c i hc]
  by_cases h : c = s.dec.chan ∧ i < xs.length
  · rw [if_pos h, if_pos h, List.getD_eq_getElem _ _ h.2, wrap32_toInt _ (hx _ (List.getElem_mem h.2))]
  · rw [if_neg h, if_neg h]

/-- Settles O45: the write of the channel by the samples after it, then the next subframe or the footer. -/
theorem subframeSamplesStored : Obligations.SubframeSamplesStored := by
  intro s xs p hrows hchan hx
  have hsample := State.sample_subframeDecoded (hrows ▸ hchan) hx p
  refine ⟨fun i hi => ?_, fun i hi => ?_, fun c i hc => ?_, fun hnext => ?next, fun hlast => ?last⟩
  · rw [hsample, if_pos ⟨rfl, hi⟩]
  · rw [hsample, if_neg (by omega)]
  · rw [hsample, if_neg (by omega)]
  case next =>
    rw [State.subframeDecoded_ch, State.subframeDecoded_next hnext]
    rfl
  case last =>
    rw [State.subframeDecoded_ch, State.subframeDecoded_last (by omega)]
    rfl

/-- Every element of a subframe is a read that ends the subframe, or a partition (R310, R280). -/
theorem exec_subframeElement {i : Instr} {s t : State} (h : exec i s = .next t)
    (hi : i.slot = .subframe ∨ i.slot = .method ∨ i.slot = .param4 ∨ i.slot = .param5) :
    (∃ r p, t = s.runSubframe r p) ∨ ∃ w body, t = s.partition w body := by
  cases i with
  | sfConstant | sfVerbatim | sfFixed0 | sfFixed1 | sfFixed2 | sfFixed3 | sfFixed4 | sfLpc | sfReservedType23
  | sfReservedType47 | sfReservedType13 | sfReservedType1415 | sfReservedType1631 | sfPadBitSet | resRice4
  | resRice5 | resReserved =>
    cases h; exact .inl ⟨_, _, rfl⟩
  | rice4Escape | rice5Escape | rice4Partition | rice5Partition => cases h; exact .inr ⟨_, _, rfl⟩
  | init | decode | flush | reset | seek | setStreaminfo | setSeektable | checkMd5 | illegalCommand | frameFixed
  | frameVariable | frameReservedBit | chIndependent | chLeftSide | chRightSide | chMidSide | chReserved11
  | chReserved1215 => exact absurd hi (by simp [Instr.slot])

/-- Settles O60: both kinds of element keep the stream and the earlier channels. -/
theorem subframeElementsFrame : Obligations.SubframeElementsFrame := by
  intro i s t h hi
  obtain ⟨hkeeps, hearlier⟩ : keepsStream s t ∧ keepsEarlier s t := by
    rcases exec_subframeElement h hi with ⟨r, p, rfl⟩ | ⟨w, body, rfl⟩
    · exact ⟨s.runSubframe_keeps r p, s.runSubframe_earlier r p⟩
    · exact ⟨s.partition_keeps w body, s.partition_earlier w body⟩
  obtain ⟨hdelivered, hinputs, hreports, hoffset, hhdr, hrec, hok, hcrc8, hsync, hend⟩ := hkeeps
  exact ⟨hdelivered, hinputs, hreports, hoffset, hearlier, hhdr, hrec, hok, hcrc8, hsync, hend⟩

end Sys2Proof.Machine

/-! The channel decorrelator: the stereo modes and the delivery that ends the DECODE (R360 to R366, R508, R509, R513). -/

namespace Sys2Proof.Machine

/-! MidSide (R364). -/

/-- MidSide with its shifts written as divisions (R364). -/
theorem midSide_eq (mid side : Int) :
    midSide mid side = ((2 * mid + side % 2 + side) / 2, (2 * mid + side % 2 - side) / 2) := rfl

/-- Sum and difference have one parity, so the bit that mid lost is side's lowest (R364). -/
theorem mid_side_sum (l r : Int) : 2 * ((l + r) / 2) + (l - r) % 2 = l + r := by omega

/-- Settles O54: MidSide restores the sum l + r, and half of sum plus or minus difference is l or r. -/
theorem midSideInverts : Obligations.MidSideInverts := by
  refine ⟨fun l r => ?_, fun mid side => ?_⟩
  · rw [midSide_eq, mid_side_sum]
    exact Prod.ext (show (l + r + (l - r)) / 2 = l by omega) (show (l + r - (l - r)) / 2 = r by omega)
  · rw [midSide_eq]
    dsimp only
    omega

/-! The end of a DECODE that delivers. -/

/-- What a delivery writes, reports and leaves alone, whatever was done to the channel buffers before it. -/
def endsDelivered (s t : State) : Prop :=
  frameDelivered s.dec.header.blockSize s.dec.header.channels s.dec.header.rate s.dec.header.bps s t ∧
    deliveryReported s.dec.failed s.dec.warn s t ∧ sameInputs s t ∧ sameReports s t ∧ t.hdr = s.hdr ∧
    t.frameOffset = s.frameOffset ∧ t.frameBytes = s.frameBytes ∧ sameEvents s t

/-- A delivery stores no sample (R381). -/
theorem State.finishFrame_ch (s : State) : s.finishFrame.ch = s.ch := by rw [s.finishFrame_eq]

theorem State.finishFrame_endsDelivered (s : State) : endsDelivered s s.finishFrame := by
  refine ⟨s.finishFrame_delivers, s.finishFrame_reports, s.finishFrame_keepsOwned.1, ?reports, ?_, ?_, ?_,
    s.finishFrame_sameEvents⟩
  case reports =>
    have hmd5 : s.finishFrame.status.md5Result = s.status.md5Result := by rw [s.finishFrame_events.1]
    rw [sameReports, hmd5, s.finishFrame_eq]
    exact ⟨rfl, rfl, rfl, rfl⟩
  all_goals rw [s.finishFrame_eq]

/-- The stereo transformation is no part of what a delivery is compared with: it changes the channel buffers only. -/
theorem State.stereo_finishFrame_endsDelivered (s : State) (f : Int → Int → Int × Int) (b : Nat) :
    endsDelivered s (s.stereo f b).finishFrame :=
  (s.stereo f b).finishFrame_endsDelivered

/-- An instruction that transforms the first B samples by `f` and finishes the frame delivers it so (R360, R366). -/
theorem stereoDelivers_of_exec {i : Instr} {f : Int → Int → Int × Int}
    (hexec : ∀ s : State, s.dec.phase = .decorrelate →
      exec i s = .next (s.stereo f s.dec.header.blockSize).finishFrame) : stereoDelivers i f := by
  intro s hphase hrows
  have hsample : ∀ c j, (s.stereo f s.dec.header.blockSize).finishFrame.sample c j =
      (s.stereo f s.dec.header.blockSize).sample c j := State.sample_of_ch (State.finishFrame_ch _)
  refine ⟨_, hexec s hphase, State.finishFrame_dec _, fun j hj => ⟨?left, ?right⟩, fun c j hcj => ?other,
    s.stereo_finishFrame_endsDelivered ..⟩
  case left =>
    rw [hsample, State.sample_stereo _ _ _ _ _ (by omega), if_pos ⟨rfl, hj⟩]
    rfl
  case right =>
    rw [hsample, State.sample_stereo _ _ _ _ _ (by omega), if_neg (by omega), if_pos ⟨rfl, hj⟩]
    rfl
  case other =>
    rw [hsample, State.sample_stereo _ _ _ _ _ (by omega), if_neg (by omega), if_neg (by omega)]

/-- Settles O52: each stereo instruction by its transformation, the independent one by the delivery alone. -/
theorem assignmentsDeliver : Obligations.AssignmentsDeliver := by
  refine ⟨⟨stereoDelivers_of_exec (f := leftSide) ?_, stereoDelivers_of_exec (f := rightSide) ?_,
    stereoDelivers_of_exec (f := midSide) ?_⟩, fun s c hphase => ?independent⟩
  case independent =>
    exact ⟨_, congrArg Host.Outcome.next (if_pos hphase), s.finishFrame_dec, s.finishFrame_ch, s.finishFrame_endsDelivered⟩
  all_goals exact fun s hphase => congrArg Host.Outcome.next (if_pos hphase)

end Sys2Proof.Machine

/-! The sample reconstructor: ToPcm16 as a shift, by multiplication or by a division rounding down, and a clamp to int16
(R11, R380, R383). -/

namespace Sys2Proof.Machine

/-! The clamp (R11). -/

theorem clamp_bounds {lo hi : Int} (v : Int) (h : lo ≤ hi) : lo ≤ clamp v lo hi ∧ clamp v lo hi ≤ hi :=
  ⟨le_min (le_max_right v lo) h, min_le_right _ hi⟩

theorem clamp_of_mem {v lo hi : Int} (h : lo ≤ v ∧ v ≤ hi) : clamp v lo hi = v := by
  rw [clamp, max_eq_left h.1, min_eq_left h.2]

theorem clamp_of_ge {v lo hi : Int} (h : hi ≤ v) : clamp v lo hi = hi :=
  min_eq_right (h.trans (le_max_left v lo))

theorem clamp_of_le {v lo hi : Int} (hlo : lo ≤ hi) (h : v ≤ lo) : clamp v lo hi = lo := by
  rw [clamp, max_eq_right h, min_eq_left hlo]

/-! The shift (R380). At 16 bits both forms below are the sample itself. -/

theorem toPcm16_of_le {n : Nat} (x : Int) (h : n ≤ 16) :
    toPcm16 x n = clamp (x * 2 ^ (16 - n)) (-32768) 32767 := by
  rw [toPcm16_eq]
  rcases h.eq_or_lt with rfl | hlt
  · simp
  · rw [if_neg hlt.ne, if_pos hlt]
    norm_cast

theorem toPcm16_of_ge {n : Nat} (x : Int) (h : 16 ≤ n) :
    toPcm16 x n = clamp (x / 2 ^ (n - 16)) (-32768) 32767 := by
  rw [toPcm16_eq]
  rcases h.eq_or_lt with rfl | hlt
  · simp
  · rw [if_neg hlt.ne', if_neg hlt.not_gt, asr]
    norm_cast

/-! A sample of the depth is an int16 after the shift (R383): the bound 2^(n-1) is shifted to 2^15. -/

theorem fitsSigned_shiftLeft {x : Int} {n : Nat} (h1 : 1 ≤ n) (h16 : n ≤ 16) (hx : fitsSigned x n = true) :
    -32768 ≤ x * 2 ^ (16 - n) ∧ x * 2 ^ (16 - n) ≤ 32767 := by
  have hscale : (2 : Int) ^ (n - 1) * 2 ^ (16 - n) = 32768 := by
    rw [← pow_add, show n - 1 + (16 - n) = 15 by omega]
    norm_num
  have hpos : (0 : Int) < 2 ^ (16 - n) := by positivity
  rw [fitsSigned_iff] at hx
  push_cast at hx
  obtain ⟨hlo, hhi⟩ := hx
  constructor
  · calc (-32768 : Int) = -2 ^ (n - 1) * 2 ^ (16 - n) := by rw [neg_mul, hscale]
      _ ≤ x * 2 ^ (16 - n) := mul_le_mul_of_nonneg_right hlo hpos.le
  · refine Int.le_of_lt_add_one (?_ : _ < (32768 : Int))
    rw [← hscale]
    exact mul_lt_mul_of_pos_right (by omega) hpos

theorem fitsSigned_shiftRight {x : Int} {n : Nat} (h16 : 16 ≤ n) (hx : fitsSigned x n = true) :
    -32768 ≤ x / 2 ^ (n - 16) ∧ x / 2 ^ (n - 16) ≤ 32767 := by
  have hscale : (2 : Int) ^ (n - 1) = 32768 * 2 ^ (n - 16) := by
    rw [show n - 1 = 15 + (n - 16) by omega, pow_add]
    norm_num
  have hpos : (0 : Int) < 2 ^ (n - 16) := by positivity
  rw [fitsSigned_iff] at hx
  push_cast at hx
  obtain ⟨hlo, hhi⟩ := hx
  exact ⟨(Int.le_ediv_iff_mul_le hpos).2 (by omega),
    Int.le_of_lt_add_one (Int.ediv_lt_of_lt_mul hpos (by omega))⟩

/-- Settles O53: the output is the clamp of the shifted sample, and the shift takes a sample of the depth to an int16. -/
theorem pcmConversion : Obligations.PcmConversion := by
  refine ⟨fun x n _ _ => ?int16, fun x n h4 h16 hx => ?left, fun x n h16 _ hx => ?right, fun x n _ h16 h => ?leftAbove,
    fun x n _ h16 h => ?leftBelow, fun x n h16 _ h => ?rightAbove, fun x n h16 _ h => ?rightBelow⟩
  case int16 => exact toPcm16_eq x n ▸ clamp_bounds _ (by decide)
  case left => rw [toPcm16_of_le x h16, clamp_of_mem (fitsSigned_shiftLeft (by omega) h16 hx)]
  case right => rw [toPcm16_of_ge x h16.le, clamp_of_mem (fitsSigned_shiftRight h16.le hx)]
  case leftAbove => rw [toPcm16_of_le x h16.le, clamp_of_ge (by omega)]
  case leftBelow => rw [toPcm16_of_le x h16.le, clamp_of_le (by decide) h]
  case rightAbove => rw [toPcm16_of_ge x h16, clamp_of_ge (by omega)]
  case rightBelow => rw [toPcm16_of_ge x h16, clamp_of_le (by decide) h]

end Sys2Proof.Machine

/-! The frame parser's elements: which check of a header fails it, where the search turns then, the footer's policy, and
what the elements of a header leave alone (R400 to R430). -/

namespace Sys2Proof.Machine

/-! A sequence of checks. -/

/-- `k` after the checks, unless one of them fails: the first one that does decides the cause (R400). -/
def afterChecks {α : Type} : List (Bool × Cause) → Except Cause α → Except Cause α
  | [], k => k
  | (ok, e) :: rest, k => if ok then afterChecks rest k else .error e

theorem afterChecks_cons {α : Type} (ok : Bool) (e : Cause) (rest : List (Bool × Cause)) (k : Except Cause α) :
    afterChecks ((ok, e) :: rest) k = if ok then afterChecks rest k else .error e := rfl

theorem afterChecks_append {α : Type} (l₁ l₂ : List (Bool × Cause)) (k : Except Cause α) :
    afterChecks (l₁ ++ l₂) k = afterChecks l₁ (afterChecks l₂ k) := by
  induction l₁ with
  | nil => rfl
  | cons c l₁ ih => rw [List.cons_append, afterChecks_cons, afterChecks_cons, ih]

theorem afterChecks_pass {α : Type} {l : List (Bool × Cause)} (h : ∀ c ∈ l, c.1 = true) (k : Except Cause α) :
    afterChecks l k = k := by
  induction l with
  | nil => rfl
  | cons c l ih =>
    rw [afterChecks_cons, if_pos (h c List.mem_cons_self), ih fun c hc => h c (List.mem_cons_of_mem _ hc)]

theorem afterChecks_fail {α : Type} {passed later : List (Bool × Cause)} {e : Cause}
    (h : ∀ c ∈ passed, c.1 = true) (k : Except Cause α) :
    afterChecks (passed ++ (false, e) :: later) k = .error e := by
  rw [afterChecks_append, afterChecks_pass h]
  rfl

theorem gate_bind_run {α : Type} (ok : Bool) (e : Cause) (f : Unit → Reader α) (p : Nat) :
    (gate ok e >>= f) p = afterChecks [(ok, e)] (f () p) := by
  cases ok <;> rfl

/-- The field of `w` bits at bit `m` of the header at `c` and its check are two checks: the chunk holds the header up to
bit `n`, where the field ends, and the field is legal. -/
theorem headerField_run {α : Type} {ck : Chunk} {c : Nat} (m w n : Nat) (hn : m + w = n) (hw : 0 < w) {e : Cause}
    (ok : Nat → Bool) {f : Nat → Reader α} :
    (readHeaderBits ck w >>= fun v => gate (ok v) e >>= fun _ => f v) (c + m) =
      afterChecks [(decide (n ≤ ck.bitsLeft c), .truncated), (ok (ck.bits (c + m) w), e)]
        (f (ck.bits (c + m) w) (c + n)) := by
  subst hn
  by_cases h : w ≤ ck.bitsLeft (c + m)
  · have hn : m + w ≤ ck.bitsLeft c := by unfold Chunk.bitsLeft at *; omega
    rw [Reader.bind_of_ok (readHeaderBits_of_le h), gate_bind_run, Nat.add_assoc, afterChecks_cons _ .truncated,
      if_pos (decide_eq_true hn)]
  · have hn : ¬ m + w ≤ ck.bitsLeft c := by unfold Chunk.bitsLeft at *; omega
    rw [headerField_cut (Nat.lt_of_not_le h), afterChecks_cons, decide_eq_false hn]
    rfl

/-! The three parts of a header: the coded fields, the numbers, and the CRC-8 with the checks after it (R400). -/

/-- The checks of coded fields in a header that has `left` bits: the chunk holds each field, and it is legal. -/
def fieldChecks (left : Nat) (fields : List (Nat × Bool × Cause)) : List (Bool × Cause) :=
  fields.flatMap fun f => [(decide (f.1 ≤ left), .truncated), f.2]

theorem fieldChecks_pass {left : Nat} {fields : List (Nat × Bool × Cause)}
    (h : ∀ f ∈ fields, f.1 ≤ left ∧ f.2.1 = true) : ∀ c ∈ fieldChecks left fields, c.1 = true := by
  intro c hc
  obtain ⟨f, hf, hc⟩ := List.mem_flatMap.1 hc
  obtain ⟨hin, hlegal⟩ := h f hf
  rcases List.mem_pair.1 hc with rfl | rfl
  · exact decide_eq_true hin
  · exact hlegal

theorem fieldChecks_append (left : Nat) (passed later : List (Nat × Bool × Cause)) (n : Nat) (legal : Bool)
    (e : Cause) :
    fieldChecks left (passed ++ (n, legal, e) :: later) =
      fieldChecks left passed ++ (decide (n ≤ left), .truncated) :: (legal, e) :: fieldChecks left later :=
  List.flatMap_append

/-- After fields that pass, one that the chunk does not hold. -/
theorem afterChecks_fieldCut {α : Type} {left n : Nat} {passed later : List (Nat × Bool × Cause)} {legal : Bool}
    {e : Cause} (h : ∀ f ∈ passed, f.1 ≤ left ∧ f.2.1 = true) (hcut : left < n) (k : Except Cause α) :
    afterChecks (fieldChecks left (passed ++ (n, legal, e) :: later)) k = .error .truncated := by
  rw [fieldChecks_append, decide_eq_false (Nat.not_le.2 hcut)]
  exact afterChecks_fail (fieldChecks_pass h) k

/-- After fields that pass, one that the chunk holds and that is illegal. -/
theorem afterChecks_fieldIllegal {α : Type} {left n : Nat} {passed later : List (Nat × Bool × Cause)} {e : Cause}
    (h : ∀ f ∈ passed, f.1 ≤ left ∧ f.2.1 = true) (hin : n ≤ left) (k : Except Cause α) :
    afterChecks (fieldChecks left (passed ++ (n, false, e) :: later)) k = .error e := by
  rw [fieldChecks_append, afterChecks_append, afterChecks_pass (fieldChecks_pass h), afterChecks_cons,
    if_pos (decide_eq_true hin)]
  rfl

/-- The header whose coded fields and numbers are these, with the CRC-8 byte at `p`. -/
def State.headerRead (s : State) (blocking : Bool) (num b raw p : Nat) : FrameHeader :=
  let field := fun n w => s.chunk.bits (s.dec.cursor + n) w
  { blocking := blocking
    bsCode := field 16 4
    srCode := field 20 4
    assign := BitVec.ofNat 4 (field 24 4)
    blockSize := b
    rate := if raw = 0 then s.si.rate.toNat else raw
    channels := channelCount (BitVec.ofNat 4 (field 24 4))
    bps := (tableBitDepth (field 28 3)).getD s.si.bps.toNat
    number := num
    crc8 := s.chunk.bits p 8 }

theorem State.headerRead_channels (s : State) (blocking : Bool) (num b raw p : Nat) :
    (s.headerRead blocking num b raw p).channels =
      if s.chunk.bits (s.dec.cursor + 24) 4 ≤ 7 then s.chunk.bits (s.dec.cursor + 24) 4 + 1 else 2 := by
  show channelCount _ = _
  rw [channelCount, BitVec.toNat_ofNat, Nat.mod_eq_of_lt (s.chunk.bits_lt _ 4)]

/-- The header from its CRC-8 byte on. -/
def headerFromCrc (s : State) (blocking : Bool) (num b raw : Nat) : Reader FrameHeader := do
  let h ← byteOffset
  let cRead ← readHeaderBits s.chunk 8
  gate (cRead == (crc8 (s.chunk.slice s.dec.frameStart (h - s.dec.frameStart))).toNat) .crc8
  let c ← checkChannels s (BitVec.ofNat 4 (s.chunk.bits (s.dec.cursor + 24) 4))
  let rate ← checkRate s raw
  let n ← checkBitDepth s (s.chunk.bits (s.dec.cursor + 28) 3)
  checkBlockSize s b
  return { blocking := blocking, bsCode := s.chunk.bits (s.dec.cursor + 16) 4,
           srCode := s.chunk.bits (s.dec.cursor + 20) 4,
           assign := BitVec.ofNat 4 (s.chunk.bits (s.dec.cursor + 24) 4), blockSize := b, rate := rate,
           channels := c, bps := n, number := num, crc8 := cRead }

/-- The header from its coded number on. -/
def headerFromNumber (s : State) (blocking : Bool) : Reader FrameHeader := do
  let num ← readCodedNumber s.chunk blocking
  let b ← resolveBlockSize s.chunk (s.chunk.bits (s.dec.cursor + 16) 4)
  let raw ← resolveRateField s.chunk (s.chunk.bits (s.dec.cursor + 20) 4)
  headerFromCrc s blocking num b raw

/-- A header after its first 16 bits is its coded fields' checks, then the rest (R400). -/
theorem headerAfterSync_eq (s : State) (blocking : Bool) :
    headerAfterSync s s.dec.frameStart blocking (s.dec.cursor + 16) =
      afterChecks (fieldChecks (s.chunk.bitsLeft s.dec.cursor) (codedHeaderFields s))
        (headerFromNumber s blocking (s.dec.cursor + 32)) := by
  have hassign : ∀ v, decide (v < 11) = decide (v ≤ 10) := fun v => decide_eq_decide.2 Nat.lt_succ_iff
  unfold headerAfterSync headerCodes headerAfterAssignment
  simp only [bind_assoc, pure_bind]
  rw [headerField_run 16 4 20 rfl (by decide) (· != 0), headerField_run 20 4 24 rfl (by decide) (· != 15),
    headerField_run 24 4 28 rfl (by decide) (fun v => decide (v < 11)),
    headerField_run 28 3 31 rfl (by decide) (· != 3), headerField_run 31 1 32 rfl (by decide) (· == 0)]
  simp only [← afterChecks_append, hassign]
  rfl

/-- The checks after the fields are the model's gates (R232, R270, R409 to R412). -/
theorem checksAfterFields_gates (s : State) (blocking : Bool) (num b raw p : Nat) :
    checksAfterFields s b raw p =
      let hd := s.headerRead blocking num b raw p
      [(hd.crc8 == (crc8 (s.chunk.slice s.dec.frameStart (p / 8 - s.dec.frameStart))).toNat, .crc8),
        (validChannelCount s.params hd.channels, .channelMismatch),
        (hd.channels == s.si.channels.toNat, .channelMismatch), (validSampleRate s.params hd.rate, .rate),
        (validBitDepth hd.bps && hd.bps != 0, .bps), (hd.bps == s.si.bps.toNat, .bpsMismatch),
        (validBlockSize s.params b (allowSmall s b), .blockSize)] := by
  have hcount := s.headerRead_channels blocking num b raw p
  have hchan : validChannelCount s.params (s.headerRead blocking num b raw p).channels =
      decide ((s.headerRead blocking num b raw p).channels ≤ s.params.maxChannels) := by
    rw [Bool.eq_iff_iff, validChannelCount_iff, decide_eq_true_eq, hcount]
    split_ifs <;> omega
  have hrate : validSampleRate s.params (s.headerRead blocking num b raw p).rate =
      decide ((s.headerRead blocking num b raw p).rate ≤ s.params.maxSampleRate) := by
    rw [Bool.eq_iff_iff, validSampleRate_iff, decide_eq_true_eq]
  have hbps : ∀ n : Nat, (validBitDepth n && n != 0) = decide (4 ≤ n ∧ n ≤ 32) := fun n => by
    rw [Bool.eq_iff_iff, Bool.and_eq_true, validBitDepth_iff, bne_iff_ne, decide_eq_true_eq]
    omega
  have hblock : validBlockSize s.params b (allowSmall s b) =
      decide (1 ≤ b ∧ b ≤ s.params.maxBlockSize ∧
        (16 ≤ b ∨ s.si.total = 0 ∨ s.pos.toNat + b = s.si.total.toNat)) := by
    rw [Bool.eq_iff_iff, validBlockSize_iff, decide_eq_true_eq, ← allowSmall_iff]
    cases allowSmall s b
    · simp only [Bool.false_eq_true, if_false, or_false]
      omega
    · simp only [if_true, or_true, and_true]
  dsimp only
  rw [hchan, hrate, hbps, hblock, hcount]
  rfl

/-- From a CRC-8 byte inside the chunk on, a header is its last checks (R400). -/
theorem headerFromCrc_run {s : State} {p : Nat} (h : 8 ≤ s.chunk.bitsLeft p) (blocking : Bool) (num b raw : Nat) :
    headerFromCrc s blocking num b raw p =
      afterChecks (checksAfterFields s b raw p) (.ok (s.headerRead blocking num b raw p, p + 8)) := by
  have hbyte : byteOffset p = .ok (p / 8, p) := rfl
  unfold headerFromCrc checkChannels checkRate checkBitDepth checkBlockSize
  rw [checksAfterFields_gates s blocking num, Reader.bind_of_ok hbyte, Reader.bind_of_ok (readHeaderBits_of_le h)]
  simp only [bind_assoc, pure_bind, gate_bind_run, ← afterChecks_append]
  rfl

theorem headerFromCrc_cut {s : State} {p : Nat} (h : s.chunk.bitsLeft p < 8) (blocking : Bool) (num b raw : Nat) :
    headerFromCrc s blocking num b raw p = .error .truncated := by
  have hbyte : byteOffset p = .ok (p / 8, p) := rfl
  unfold headerFromCrc
  rw [Reader.bind_of_ok hbyte]
  exact headerField_cut h

/-! A header is accepted, or fails with its first failing check. -/

theorem headerFailsWith_of_error {s : State} {blocking : Bool} {e : Cause} (hin : 16 ≤ s.chunk.bitsLeft s.dec.cursor)
    (h : headerAfterSync s s.dec.frameStart blocking (s.dec.cursor + 16) = .error e) :
    headerFailsWith s blocking e := by
  unfold headerFailsWith
  rw [exec_frameHeader, State.frameHeader_inside hin, State.runHeader_error h]

theorem exec_frameReservedBit {s : State} (hin : 16 ≤ s.chunk.bitsLeft s.dec.cursor) (blocking : Bool) :
    exec (.frameReservedBit blocking) s = .next (s.headerFailed .reservedBit) :=
  congrArg _ (if_neg (Nat.not_lt.2 hin))

/-- Settles O36: the header is its coded fields' checks, its numbers, and the checks after them, each failing it in
turn. -/
theorem frameHeaderRejected : Obligations.FrameHeaderRejected := by
  intro s blocking hin
  refine ⟨exec_frameReservedBit hin blocking,
    fun e he => ⟨headerFailsWith_of_error hin he, failsOnly_headerAfterSync _ _ _ _ _ he⟩,
    fun passed bits legal e later hfields hpass => ⟨fun hcut => ?cut, fun hheld hlegal => ?illegal⟩, fun hpass => ?_⟩
  case cut =>
    refine headerFailsWith_of_error hin ?_
    rw [headerAfterSync_eq, hfields, afterChecks_fieldCut hpass hcut]
  case illegal =>
    subst hlegal
    refine headerFailsWith_of_error hin ?_
    rw [headerAfterSync_eq, hfields, afterChecks_fieldIllegal hpass hheld]
  have hfail : ∀ e, headerFromNumber s blocking (s.dec.cursor + 32) = .error e → headerFailsWith s blocking e :=
    fun e he => headerFailsWith_of_error hin (by rw [headerAfterSync_eq, afterChecks_pass (fieldChecks_pass hpass), he])
  unfold headerFromNumber at hfail
  refine ⟨fun e he => hfail e (Reader.bind_of_error (readCodedNumber_bad he)), fun num p1 hnum => ?_⟩
  rw [Reader.bind_of_ok hnum] at hfail
  refine ⟨fun e he => hfail e (Reader.bind_of_error (resolveBlockSize_bad he)), fun b p2 hb => ?_⟩
  rw [Reader.bind_of_ok hb] at hfail
  refine ⟨fun he => hfail _ (Reader.bind_of_error (resolveRateField_bad he)), fun raw p3 hraw => ?_⟩
  rw [Reader.bind_of_ok hraw] at hfail
  refine ⟨fun hcut => hfail _ (headerFromCrc_cut hcut ..), fun hcrc passed ok e later hchecks hpassed hok => hfail e ?_⟩
  subst hok
  rw [headerFromCrc_run hcrc, hchecks, afterChecks_fail hpassed]

/-- Settles O33: every check passes, so the header read is accepted. -/
theorem frameHeaderAccepted : Obligations.FrameHeaderAccepted := by
  intro s blocking num b raw p1 p2 p3 hin hbs hsr hca hss hres hnum hb hraw hcrcIn hcrc hchan hdepth hmaxChan hbps4
    hbps32 hrate hb1 hbMax hbSmall
  have hbps : (tableBitDepth (s.chunk.bits (s.dec.cursor + 28) 3)).getD s.si.bps.toNat = s.si.bps.toNat := by
    rcases hdepth with h | h <;> rw [h] <;> rfl
  have hfields : ∀ f ∈ codedHeaderFields s, f.1 ≤ s.chunk.bitsLeft s.dec.cursor ∧ f.2.1 = true := by
    have hheld : ∀ n, n ≤ 32 → n ≤ s.chunk.bitsLeft s.dec.cursor := fun n hn => hn.trans hin
    simp [codedHeaderFields, hheld, hbs, hsr, hca, hss, hres]
  have hchecks : ∀ c ∈ checksAfterFields s b raw p3, c.1 = true := by
    simpa [checksAfterFields, hcrc, ← hchan, hmaxChan, hrate, hbps, hbps4, hbps32, hb1, hbMax] using hbSmall
  have hread : headerAfterSync s s.dec.frameStart blocking (s.dec.cursor + 16) =
      .ok (s.headerRead blocking num b raw p3, p3 + 8) := by
    rw [headerAfterSync_eq, afterChecks_pass (fieldChecks_pass hfields), headerFromNumber, Reader.bind_of_ok hnum,
      Reader.bind_of_ok hb, Reader.bind_of_ok hraw, headerFromCrc_run hcrcIn, afterChecks_pass hchecks]
  have hcount : (s.headerRead blocking num b raw p3).channels = s.si.channels.toNat := by
    rw [State.headerRead_channels, hchan]
  refine ⟨s.acceptHeader (s.headerRead blocking num b raw p3) (p3 + 8), ?exec, rfl, ?hdr, rfl, rfl, rfl, rfl, rfl,
    hcount, hbps, rfl, rfl, ?cnt⟩
  case exec => rw [exec_frameHeader, State.frameHeader_inside (by omega), State.runHeader_ok hread]
  case hdr =>
    have hc : BitVec.ofNat 4 (s.headerRead blocking num b raw p3).channels = s.si.channels := by
      rw [hcount, BitVec.ofNat_toNat, BitVec.setWidth_eq]
    have hn : BitVec.ofNat 6 (s.headerRead blocking num b raw p3).bps = s.si.bps := by
      rw [show (s.headerRead blocking num b raw p3).bps = _ from hbps, BitVec.ofNat_toNat, BitVec.setWidth_eq]
    rw [← hc, ← hn]
    rfl
  case cnt => rw [State.acceptHeader_eq]

/-! The search after a failed header (R420, R422). -/

/-- The mask of a 14-bit sync code drops the two low bits of its second byte (R420). -/
theorem syncByte_iff : ∀ b : Byte, (b &&& 0xFC) = 0xF8 ↔ b.toNat / 4 = 0x3E := by decide +kernel

theorem Chunk.isSync_iff (ck : Chunk) (o : Nat) :
    ck.isSync o = true ↔ ck.byte o = 0xFF ∧ (ck.byte (o + 1)).toNat / 4 = 0x3E := by
  rw [Chunk.isSync, Bool.and_eq_true, beq_iff_eq, beq_iff_eq, syncByte_iff]

theorem State.noted_firstErr (s : State) (e : Cause) :
    (s.noted e).dec.firstErr = if s.dec.frameStart = 0 then e else s.dec.firstErr := by rw [s.noted_frame]

theorem State.noted_sameCounts (s : State) (e : Cause) : sameCounts s (s.noted e) := by
  rw [s.noted_frame]
  exact ⟨rfl, rfl, rfl, rfl, rfl⟩

/-- The next candidate is the only one that the search can turn to. -/
theorem State.headerFailed_next {s : State} {o : Nat} (e : Cause) (hlt : s.dec.frameStart < o)
    (hle : o ≤ s.lastCandidate) (hsync : s.chunk.isSync o = true)
    (hfirst : ∀ o', s.dec.frameStart < o' → o' < o → s.chunk.isSync o' = false) :
    s.headerFailed e = (s.noted e).atCandidate o := by
  rcases s.headerFailed_cases e with ⟨o', hlt', -, hsync', hfirst', h⟩ | ⟨hnone, -⟩
  · obtain hne | rfl | hne := Nat.lt_trichotomy o' o
    · rw [hfirst o' hlt' hne] at hsync'; cases hsync'
    · exact h
    · rw [hfirst' o hlt hne] at hsync; cases hsync
  · rw [hnone o hlt hle] at hsync; cases hsync

theorem State.headerFailed_none {s : State} (e : Cause)
    (hnone : ∀ o, s.dec.frameStart < o → o ≤ s.lastCandidate → s.chunk.isSync o = false) :
    s.headerFailed e = (s.noted e).noFrame := by
  rcases s.headerFailed_cases e with ⟨o, hlt, hle, hsync, -, -⟩ | ⟨-, h⟩
  · rw [hnone o hlt hle] at hsync; cases hsync
  · exact h

theorem State.headerFailed_crc8Err (s : State) (e : Cause) :
    (s.headerFailed e).cnt.crc8Err = s.cnt.crc8Err + if s.dec.frameStart = 0 ∧ e = .crc8 then 1 else 0 := by
  rcases s.headerFailed_cases e with ⟨o, -, -, -, -, h⟩ | ⟨-, h⟩
  · rw [h, State.atCandidate_cnt, s.noted_frame]
  · rw [h, State.noFrame_eq, State.decodeFailed_cnt, s.noted_frame]

theorem State.noFrame_err (s : State) :
    s.noFrame.err =
      if s.dec.firstErr = .noSync then ⟨.syncLost, 0, 0, false⟩
      else ⟨.headerInvalid, s.dec.firstErr.number, 0, false⟩ := by
  unfold State.noFrame
  split_ifs <;> rfl

/-- Settles O35: the next sync code is the candidate the search finds, and without one the search fails the DECODE. -/
theorem failedHeaderTurnsToNextCandidate : Obligations.FailedHeaderTurnsToNextCandidate := by
  intro s e
  refine ⟨s.headerFailed_crc8Err e, fun o hlt hle hsync hfirst => ?next, fun hnone => ?none, s.chunk.isSync_iff⟩
  case next =>
    rw [State.headerFailed_next e hlt hle hsync hfirst, s.noted_frame]
    exact ⟨rfl, rfl, rfl, rfl, rfl, rfl, rfl, rfl⟩
  case none =>
    have hfailed := State.headerFailed_none e hnone
    have hkeeps : nothingDelivered s (s.headerFailed e) := (s.headerFailed_keeps e).1
    rw [hfailed] at hkeeps ⊢
    refine ⟨?_, (s.noted_sameCounts e).failureCounted (s.noted e).noFrame_failureCounted, hkeeps, ?_, ?_⟩
    · rw [State.noFrame_eq, State.decodeFailed_dec]
    · rw [State.noFrame_eq, State.decodeFailed_out]
      rfl
    · rw [State.noFrame_err, s.noted_firstErr]

/-! The footer (R430). -/

/-- The registers of a footer that does not match are those of the footer read, and the event is shown and counted,
whatever the policy. -/
theorem State.footerMismatch_shown {s t : State} {cause : Cause} (h : t = s.footerMismatch cause) :
    t.frameBytes = s.frameBytes ∧ t.hdr = s.hdr ∧ t.status.crc16Mismatch = true ∧
      t.cnt.crc16Err = s.cnt.crc16Err + 1 := by
  subst h
  unfold State.footerMismatch
  dsimp only
  split_ifs <;> exact ⟨rfl, rfl, rfl, rfl⟩

/-- A footer that differs is a mismatch with the 16 bits read, one that the chunk does not hold is missing. -/
theorem State.checkFooter_bad {s : State} {cause : Cause}
    (h : 16 ≤ s.chunk.bitsLeft (8 * s.footerByte) ∧ s.chunk.bits (8 * s.footerByte) 16 ≠ s.footerSum.toNat ∧
        cause = .footerMismatch ∨
      s.chunk.bitsLeft (8 * s.footerByte) < 16 ∧ cause = .missingFooter) :
    ∃ p, s.checkFooter =
      (s.footerRead (if cause = .missingFooter then 0 else s.chunk.bits (8 * s.footerByte) 16) s.footerSum
        (if cause = .missingFooter then 0 else s.footerByte + 2 - s.dec.frameStart) p).footerMismatch cause := by
  rcases h with ⟨hin, hne, rfl⟩ | ⟨hcut, rfl⟩
  · rcases s.checkFooter_cases with ⟨-, heq, -⟩ | ⟨-, -, h⟩ | ⟨hcut, -⟩
    · exact absurd heq hne
    · exact ⟨_, h⟩
    · exact absurd hin (Nat.not_le.2 hcut)
  · rcases s.checkFooter_cases with ⟨hin, -⟩ | ⟨hin, -⟩ | ⟨-, h⟩
    · exact absurd hin (Nat.not_le.2 hcut)
    · exact absurd hin (Nat.not_le.2 hcut)
    · exact ⟨_, h⟩

/-- Settles O47: a matching footer by how its check ends, a mismatch by what it shows and by the policy. -/
theorem footerChecked : Obligations.FooterChecked := by
  intro s f sum hf hsum
  obtain rfl : f = s.footerByte := hf
  obtain rfl : sum = s.footerSum := hsum
  refine ⟨fun hin heq => ?equal, fun cause hbad => ?mismatch⟩
  case equal =>
    rcases s.checkFooter_cases with ⟨-, -, h⟩ | ⟨-, hne, -⟩ | ⟨hcut, -⟩
    · rw [h, State.footerRead, heq, BitVec.ofNat_toNat, BitVec.setWidth_eq]
    · exact absurd heq hne
    · exact absurd hin (Nat.not_le.2 hcut)
  case mismatch =>
    obtain ⟨hdelivered, hinputs, -⟩ := s.checkFooter_keeps
    obtain ⟨p, h⟩ := State.checkFooter_bad hbad
    obtain ⟨hbytes, hhdr, hshown, hcount⟩ := State.footerMismatch_shown h
    refine ⟨hbytes.trans ?_, hhdr.trans ?_, hshown, hcount, hdelivered, s.checkFooter_ch, hinputs,
      fun hreject => ?_, fun hwarn => ?_⟩
    · rw [State.footerRead_frameBytes]
      split_ifs <;> rfl
    · rw [State.footerRead_hdr]
      split_ifs <;> rfl
    · rw [h.trans (State.footerMismatch_reject _ _ hreject)]
      exact ⟨rfl, ⟨rfl, rfl, rfl, rfl, rfl⟩, rfl, rfl⟩
    · rw [h.trans (State.footerMismatch_warn _ _ hwarn)]
      exact ⟨rfl, rfl, rfl, rfl, rfl, rfl⟩

/-! The frame of the elements of a header. -/

/-- Every element of a header reads it, or a part of it, to its end, or fails it (R400). -/
theorem exec_headerElement_keeps {i : Instr} {s t : State} (h : exec i s = .next t)
    (hi : i.slot = .frame ∨ i.slot = .assignment ∧ s.dec.phase ≠ .decorrelate ∨ i = .chReserved11 ∨
      ∃ x, i = .chReserved1215 x) : keepsHeader s t := by
  cases i with
  | frameFixed | frameVariable => cases h; exact s.frameHeader_keeps _
  | frameReservedBit =>
    cases h
    split_ifs <;> exact s.headerFailed_keeps _
  | chReserved11 | chReserved1215 => cases h; exact s.reservedAssignment_keeps
  | chIndependent | chLeftSide | chRightSide | chMidSide =>
    have hp : s.dec.phase ≠ .decorrelate := by simpa [Instr.slot] using hi
    cases h
    rw [if_neg hp]
    exact s.headerAssignment_keeps _
  | init | decode | flush | reset | seek | setStreaminfo | setSeektable | checkMd5 | illegalCommand | sfConstant
  | sfVerbatim | sfFixed0 | sfFixed1 | sfFixed2 | sfFixed3 | sfFixed4 | sfLpc | sfReservedType23 | sfReservedType47
  | sfReservedType13 | sfReservedType1415 | sfReservedType1631 | sfPadBitSet | resRice4 | resRice5 | resReserved
  | rice4Escape | rice5Escape | rice4Partition | rice5Partition => exact absurd hi (by simp [Instr.slot])

/-- Settles O59: what every element of a header keeps. -/
theorem headerElementsFrame : Obligations.HeaderElementsFrame := fun _ _ _ h hi => exec_headerElement_keeps h hi

end Sys2Proof.Machine

/-! The seek lookup, and the commands that load the metadata bodies: SET_STREAMINFO and SET_SEEKTABLE (R450 to R470). -/

namespace Sys2Proof.Machine

/-! The scan of the seek table (R470). -/

/-- The scan takes point `p` in place of its best point so far: `p` is usable, and its sample is above that of the
best point. -/
def SeekPoint.beats (p : SeekPoint) (T : DWord) (best : Option SeekPoint) : Prop :=
  p.sample ≠ 0xFFFFFFFFFFFFFFFF ∧ p.sample.toNat ≤ T.toNat ∧ ∀ b ∈ best, b.sample.toNat < p.sample.toNat

theorem seekScan_nil (T : DWord) (best : Option SeekPoint) : seekScan T best [] = best := by unfold seekScan; rfl

theorem SeekPoint.placeholder_eq_false_iff (p : SeekPoint) : p.placeholder = false ↔ p.sample ≠ 0xFFFFFFFFFFFFFFFF :=
  beq_eq_false_iff_ne

theorem seekScan_cons_of_beats {T : DWord} {best : Option SeekPoint} {p : SeekPoint} (h : p.beats T best)
    (l : List SeekPoint) : seekScan T best (p :: l) = seekScan T (some p) l := by
  obtain ⟨hplace, hle, hbest⟩ := h
  rw [← p.placeholder_eq_false_iff] at hplace
  cases best with
  | none => simp [seekScan, hplace, hle]
  | some b => simp [seekScan, hplace, hle, hbest b rfl]

theorem seekScan_cons_of_not_beats {T : DWord} {best : Option SeekPoint} {p : SeekPoint} (h : ¬p.beats T best)
    (l : List SeekPoint) : seekScan T best (p :: l) = seekScan T best l := by
  rw [SeekPoint.beats, ← p.placeholder_eq_false_iff] at h
  cases best with
  | none => exact if_neg fun htake => h (by simpa using htake)
  | some b => exact if_neg fun htake => h (by simpa [and_assoc] using htake)

theorem seekScan_append (T : DWord) (best : Option SeekPoint) (l₁ l₂ : List SeekPoint) :
    seekScan T best (l₁ ++ l₂) = seekScan T (seekScan T best l₁) l₂ := by
  induction l₁ generalizing best with
  | nil => rw [List.nil_append, seekScan_nil]
  | cons p l ih =>
    rw [List.cons_append]
    by_cases hp : p.beats T best
    · rw [seekScan_cons_of_beats hp, seekScan_cons_of_beats hp, ih]
    · rw [seekScan_cons_of_not_beats hp, seekScan_cons_of_not_beats hp, ih]

/-- A best point that no later point beats is the result. -/
theorem seekScan_unbeaten {T : DWord} {best : Option SeekPoint} {l : List SeekPoint}
    (h : ∀ p ∈ l, ¬p.beats T best) : seekScan T best l = best := by
  induction l with
  | nil => exact seekScan_nil T best
  | cons p l ih =>
    rw [List.forall_mem_cons] at h
    rw [seekScan_cons_of_not_beats h.1, ih h.2]

/-- What the scan finds is the best point it began with or a usable point of the table. -/
theorem seekScan_found {T : DWord} {best : Option SeekPoint} {l : List SeekPoint} {b : SeekPoint}
    (h : seekScan T best l = some b) :
    best = some b ∨ b ∈ l ∧ b.sample ≠ 0xFFFFFFFFFFFFFFFF ∧ b.sample.toNat ≤ T.toNat := by
  induction l generalizing best with
  | nil => rw [seekScan_nil] at h; exact .inl h
  | cons p l ih =>
    by_cases hp : p.beats T best
    · rw [seekScan_cons_of_beats hp] at h
      rcases ih h with hb | ⟨hmem, husable⟩
      · obtain rfl := Option.some.inj hb
        exact .inr ⟨List.mem_cons_self, hp.1, hp.2.1⟩
      · exact .inr ⟨List.mem_cons_of_mem _ hmem, husable⟩
    · rw [seekScan_cons_of_not_beats hp] at h
      exact (ih h).imp_right fun ⟨hmem, husable⟩ => ⟨List.mem_cons_of_mem _ hmem, husable⟩

theorem seekLookup_of_none {st : List SeekPoint} {T : DWord} (h : seekScan T none st = none) :
    seekLookup st T = (0, 0) := by
  rw [seekLookup, h]

theorem seekLookup_of_some {st : List SeekPoint} {T : DWord} {p : SeekPoint} (h : seekScan T none st = some p) :
    seekLookup st T = (p.sample, p.offset) := by
  rw [seekLookup, h]

/-- Settles O21: the point beats whatever the scan found before it, and no point after it beats it. -/
theorem seekLookupFindsNearest : Obligations.SeekLookupFindsNearest := by
  intro st T
  refine ⟨fun hnone => seekLookup_of_none (seekScan_unbeaten fun p hp ⟨hplace, hle, _⟩ => ?none), ?found⟩
  case none => exact (hnone p hp).elim hplace (Nat.not_lt.2 hle)
  case found =>
    rintro l₁ p l₂ rfl hplace hle hbefore hafter
    have hbeats : p.beats T (seekScan T none l₁) := ⟨hplace, hle, fun b hb => by
      obtain hb | ⟨hmem, hplace', hle'⟩ := seekScan_found hb
      · cases hb
      · exact hbefore b hmem hplace' hle'⟩
    have hunbeaten : ∀ q ∈ l₂, ¬q.beats T (some p) := fun q hq ⟨hplace', hle', hlt⟩ =>
      Nat.not_lt.2 (hafter q hq hplace' hle') (hlt p rfl)
    apply seekLookup_of_some
    rw [seekScan_append, seekScan_cons_of_beats hbeats, seekScan_unbeaten hunbeaten]

/-! The fields of SI_BUF (R150, R450). -/

theorem exec_setStreaminfo_uninitialized {s : State} (h : s.dstate = .uninitialized) :
    exec .setStreaminfo s = .next ({ s with si := parseStreamInfo s, siValid := true } : State).complete :=
  congrArg Host.Outcome.next (if_pos h)

theorem exec_setStreaminfo_refused {s : State} (h : s.dstate ≠ .uninitialized) :
    exec .setStreaminfo s = .next (s.refuse .illegalState 0x06) :=
  congrArg Host.Outcome.next (if_neg h)

theorem State.siField_lt (s : State) (off n : Nat) : s.siField off n < 2 ^ n := Nat.mod_lt _ (by positivity)

theorem State.toNat_siField (s : State) (off n : Nat) :
    (BitVec.ofNat n (s.siField off n)).toNat = s.siField off n := by
  rw [BitVec.toNat_ofNat, Nat.mod_eq_of_lt (s.siField_lt off n)]

/-- A count kept as its value less 1 fits a register one bit wider. -/
theorem State.toNat_siField_add_one (s : State) (off n : Nat) :
    (BitVec.ofNat (n + 1) (s.siField off n + 1)).toNat = s.siField off n + 1 := by
  have h := s.siField_lt off n
  rw [BitVec.toNat_ofNat, Nat.mod_eq_of_lt]
  rw [pow_succ]
  omega

theorem State.siField_two_bytes (s : State) {o : Nat} (h : o + 2 ≤ 34) :
    s.siField (8 * o) 16 = (s.siByte o).toNat * 2 ^ 8 + (s.siByte (o + 1)).toNat := by
  have hbytes : s.siField (8 * o) 16 = beValue [s.siByte o, s.siByte (o + 1)] := s.siField_bytes o 2 h
  simpa [beValue_cons, beValue_nil] using hbytes

theorem State.siField_three_bytes (s : State) {o : Nat} (h : o + 3 ≤ 34) :
    s.siField (8 * o) 24 =
      (s.siByte o).toNat * 2 ^ 16 + (s.siByte (o + 1)).toNat * 2 ^ 8 + (s.siByte (o + 2)).toNat := by
  have hbytes : s.siField (8 * o) 24 = beValue [s.siByte o, s.siByte (o + 1), s.siByte (o + 2)] :=
    s.siField_bytes o 3 h
  simpa [beValue_cons, beValue_nil, Nat.add_assoc] using hbytes

/-! The packed fields, each inside the whole bytes that hold it. -/

/-- The rate is the first 20 of the 24 bits of bytes 10 to 12. -/
theorem State.siField_rate (s : State) :
    s.siField 80 20 = (s.siByte 10).toNat * 2 ^ 12 + (s.siByte 11).toNat * 2 ^ 4 + (s.siByte 12).toNat / 16 := by
  have hinside : s.siField 80 20 = s.siField 80 24 / 2 ^ 4 % 2 ^ 20 :=
    s.siField_inside 80 24 0 20 (by decide) (by decide)
  have hbytes : s.siField 80 24 =
      (s.siByte 10).toNat * 2 ^ 16 + (s.siByte 11).toNat * 2 ^ 8 + (s.siByte 12).toNat :=
    s.siField_three_bytes (o := 10) (by decide)
  have h10 := (s.siByte 10).isLt
  have h11 := (s.siByte 11).isLt
  have h12 := (s.siByte 12).isLt
  omega

/-- The channel count less 1 is bits 4 to 6 of bytes 12 and 13, all of byte 12. -/
theorem State.siField_channels (s : State) : s.siField 100 3 = (s.siByte 12).toNat / 2 % 8 := by
  have hinside : s.siField 100 3 = s.siField 96 16 / 2 ^ 9 % 2 ^ 3 :=
    s.siField_inside 96 16 4 3 (by decide) (by decide)
  have hbytes : s.siField 96 16 = (s.siByte 12).toNat * 2 ^ 8 + (s.siByte 13).toNat :=
    s.siField_two_bytes (o := 12) (by decide)
  have h13 := (s.siByte 13).isLt
  omega

/-- The bits per sample less 1 are bits 7 to 11 of bytes 12 and 13. -/
theorem State.siField_bps (s : State) :
    s.siField 103 5 = (s.siByte 12).toNat % 2 * 16 + (s.siByte 13).toNat / 16 := by
  have hinside : s.siField 103 5 = s.siField 96 16 / 2 ^ 4 % 2 ^ 5 :=
    s.siField_inside 96 16 7 5 (by decide) (by decide)
  have hbytes : s.siField 96 16 = (s.siByte 12).toNat * 2 ^ 8 + (s.siByte 13).toNat :=
    s.siField_two_bytes (o := 12) (by decide)
  have h13 := (s.siByte 13).isLt
  omega

/-- The total is the last 36 of the 40 bits of bytes 13 to 17. -/
theorem State.siField_total (s : State) :
    s.siField 108 36 =
      (s.siByte 13).toNat % 16 * 2 ^ 32 + (s.siByte 14).toNat * 2 ^ 24 + (s.siByte 15).toNat * 2 ^ 16 +
        (s.siByte 16).toNat * 2 ^ 8 + (s.siByte 17).toNat := by
  have hinside : s.siField 108 36 = s.siField 104 40 / 2 ^ 0 % 2 ^ 36 :=
    s.siField_inside 104 40 4 36 (by decide) (by decide)
  have hbytes : s.siField 104 40 = beValue [s.siByte 13, s.siByte 14, s.siByte 15, s.siByte 16, s.siByte 17] :=
    s.siField_bytes 13 5 (by decide)
  simp only [beValue_cons, beValue_nil, List.length_cons, List.length_nil] at hbytes
  have h14 := (s.siByte 14).isLt
  have h15 := (s.siByte 15).isLt
  have h16 := (s.siByte 16).isLt
  have h17 := (s.siByte 17).isLt
  omega

/-- Settles O22: the body's whole bytes and packed fields, one by one. -/
theorem setStreaminfoCommand : Obligations.SetStreaminfoCommand := by
  intro s
  refine ⟨fun hd => ⟨parseStreamInfo s, exec_setStreaminfo_uninitialized hd, ?_, ?_, ?_, ?_, ?_, ?_, ?_, ?_, rfl⟩,
    exec_setStreaminfo_refused⟩
  · exact (s.toNat_siField 0 16).trans (s.siField_two_bytes (o := 0) (by decide))
  · exact (s.toNat_siField 16 16).trans (s.siField_two_bytes (o := 2) (by decide))
  · exact (s.toNat_siField 32 24).trans (s.siField_three_bytes (o := 4) (by decide))
  · exact (s.toNat_siField 56 24).trans (s.siField_three_bytes (o := 7) (by decide))
  · exact (s.toNat_siField 80 20).trans s.siField_rate
  · exact (s.toNat_siField_add_one 100 3).trans (congrArg (· + 1) s.siField_channels)
  · exact (s.toNat_siField_add_one 103 5).trans (congrArg (· + 1) s.siField_bps)
  · exact (s.toNat_siField 108 36).trans s.siField_total

/-! The records of ST_BUF (R151, R460, R461). -/

/-- The records that SET_SEEKTABLE loads (R461). -/
def State.seekRecords (s : State) : List SeekPoint := (List.range s.stCount.toNat).map (parseSeekPoint s)

theorem State.seekRecords_length (s : State) : s.seekRecords.length = s.stCount.toNat := by simp [State.seekRecords]

theorem State.seekRecords_getElem? {s : State} {i : Nat} {p : SeekPoint} (h : s.seekRecords[i]? = some p) :
    p = parseSeekPoint s i := by
  obtain ⟨hi, hp⟩ := List.getElem?_eq_some_iff.1 h
  simpa [State.seekRecords] using hp.symm

/-- ST_COUNT is refused when the table exceeds SEEK_CAP or its body exceeds MAX_METADATA_LEN (R460). -/
theorem seektableTooLarge_iff (s : State) :
    (s.params.seekCap < s.stCount.toNat || !validMetadataLength s.params (18 * s.stCount.toNat)) = true ↔
      s.params.seekCap < s.stCount.toNat ∨ s.params.maxMetadataLen < 18 * s.stCount.toNat := by
  rw [Bool.or_eq_true, decide_eq_true_eq, Bool.not_eq_true', ← Bool.not_eq_true, validMetadataLength_iff, Nat.not_le]

theorem exec_setSeektable_accepted {s : State} (hd : s.dstate = .uninitialized ∨ s.dstate = .initialized)
    (hcap : s.stCount.toNat ≤ s.params.seekCap) (hlen : 18 * s.stCount.toNat ≤ s.params.maxMetadataLen) :
    exec .setSeektable s = .next ({ s with st := s.seekRecords } : State).complete :=
  congrArg Host.Outcome.next <| (if_pos hd).trans <| if_neg fun h =>
    ((seektableTooLarge_iff s).1 h).elim (Nat.not_lt.2 hcap) (Nat.not_lt.2 hlen)

theorem exec_setSeektable_tooLarge {s : State} (hd : s.dstate = .uninitialized ∨ s.dstate = .initialized)
    (h : s.params.seekCap < s.stCount.toNat ∨ s.params.maxMetadataLen < 18 * s.stCount.toNat) :
    exec .setSeektable s = .next (s.refuse .seektableInvalid 80) :=
  congrArg Host.Outcome.next <| (if_pos hd).trans <| if_pos ((seektableTooLarge_iff s).2 h)

theorem exec_setSeektable_refused {s : State} (hd : ¬(s.dstate = .uninitialized ∨ s.dstate = .initialized)) :
    exec .setSeektable s = .next (s.refuse .illegalState 0x07) :=
  congrArg Host.Outcome.next (if_neg hd)

/-- A register of `8 n` bits holds any big-endian value of `n` bytes. -/
theorem State.toNat_stBytes (s : State) (i n : Nat) :
    (BitVec.ofNat (8 * n) (beValue (s.stBytes i n))).toNat = beValue (s.stBytes i n) := by
  have h := beValue_lt (s.stBytes i n)
  rw [s.stBytes_length, show 256 = 2 ^ 8 from rfl, ← pow_mul] at h
  rw [BitVec.toNat_ofNat, Nat.mod_eq_of_lt h]

/-- Settles O23: a record of the table is the record parsed at its index, and its fields are the values of its bytes. -/
theorem setSeektableCommand : Obligations.SetSeektableCommand := by
  intro s
  refine ⟨fun hd => ⟨fun hcap hlen => ⟨s.seekRecords, exec_setSeektable_accepted hd hcap hlen, s.seekRecords_length,
    fun i p hp => ?record⟩, exec_setSeektable_tooLarge hd⟩, fun hu hi => exec_setSeektable_refused (not_or.2 ⟨hu, hi⟩)⟩
  case record =>
    obtain rfl := State.seekRecords_getElem? hp
    exact ⟨s.toNat_stBytes (18 * i) 8, s.toNat_stBytes (18 * i + 8) 8, s.toNat_stBytes (18 * i + 16) 2⟩

end Sys2Proof.Machine

/-! No step stops (R575, R576), and a DECODE as the run of its elements (R120, R420, R500). -/

namespace Sys2Proof.Machine

theorem exec_completes (i : Instr) (s : State) : ∃ t, exec i s = .next t := by
  cases i <;> exact ⟨_, rfl⟩

theorem step_completes (s : State) : ∃ t, step s = .next t := by
  unfold step
  split_ifs
  · split
    · exact ⟨_, rfl⟩
    · exact ⟨_, rfl⟩
    · split_ifs
      · exact exec_completes _ _
      · exact ⟨_, rfl⟩
  · split
    · exact exec_completes _ _
    · exact ⟨_, rfl⟩

/-- Settles O7: every instruction answers a next state, and a step is an instruction, a host access or nothing. -/
theorem everyInstructionCompletes : Obligations.EveryInstructionCompletes := ⟨exec_completes, step_completes⟩

/-- A run of elements goes from `s` to `t`. -/
def runsTo (s t : State) : Prop := ∃ n, runElements n s = t

theorem runsTo.refl (s : State) : runsTo s s := ⟨0, rfl⟩

theorem runsTo.trans {s t u : State} (h1 : runsTo s t) (h2 : runsTo t u) : runsTo s u := by
  obtain ⟨a, ha⟩ := h1
  obtain ⟨b, hb⟩ := h2
  exact ⟨a + b, runElements_trans ha hb step_completes⟩

theorem runsTo_step {s t : State} (hp : s.dec.phase ≠ .idle) (h : step s = .next t) : runsTo s t :=
  ⟨1, runElements_next hp h 0⟩

/-- A candidate header is one element: the whole parse of R400. -/
theorem runsTo_header {s : State} (hp : s.dec.phase = .header) :
    runsTo s (s.runHeader (parseFrameHeader s s.dec.frameStart) s.dec.cursor) :=
  runsTo_step (by rw [hp]; decide) (step_header hp)

/-- The block turns to the first sync code among the `n` offsets from `o` up, or gives up (R420). -/
def State.turnToSync (s : State) (n o : Nat) : State :=
  match s.chunk.findSync n o with
  | some r => s.atCandidate r
  | none => s.noFrame

theorem State.turnToSync_here {s : State} {o : Nat} (h : s.chunk.isSync o = true) (n : Nat) :
    s.turnToSync (n + 1) o = s.atCandidate o := by
  unfold State.turnToSync Chunk.findSync
  rw [if_pos h]

theorem State.turnToSync_later {s : State} {o : Nat} (h : ¬s.chunk.isSync o = true) (n : Nat) :
    s.turnToSync (n + 1) o = s.turnToSync n (o + 1) := by
  unfold State.turnToSync
  conv_lhs => unfold Chunk.findSync
  rw [if_neg h]

/-- The cursor of a candidate that failed is forgotten where the search turns next. -/
theorem State.turnToSync_atCandidate (s : State) (r n o : Nat) :
    (s.atCandidate r).turnToSync n o = s.turnToSync n o := by
  unfold State.turnToSync
  rw [show (s.atCandidate r).chunk = s.chunk from rfl]
  cases s.chunk.findSync n o with
  | some o' => rfl
  | none => rw [State.noFrame_eq, State.noFrame_eq]; rfl

/-- A header that fails turns the block to the next sync code (R420). -/
theorem State.headerFailed_turns (s : State) (e : Cause) :
    s.headerFailed e = (s.noted e).turnToSync (s.lastCandidate - s.dec.frameStart) (s.dec.frameStart + 1) := by
  unfold State.headerFailed State.turnToSync
  rw [show (s.noted e).chunk = s.chunk by rw [s.noted_frame]; rfl]
  rfl

/-- A candidate past offset 0 that fails leaves nothing behind. -/
theorem State.headerFailed_later {s : State} {o : Nat} (h : 1 ≤ o) (e : Cause) :
    (s.atCandidate o).headerFailed e = s.turnToSync (s.lastCandidate - o) (o + 1) := by
  have hnoted : (s.atCandidate o).noted e = s.atCandidate o := if_neg (Nat.ne_of_gt h)
  rw [State.headerFailed_turns, hnoted]
  exact s.turnToSync_atCandidate o _ _

/-- The scan of R420 is the run of the candidates' headers: at a sync code the header parses or fails, past another
offset the block never stops. -/
theorem runsTo_scanFrom (s : State) (n o : Nat) (ho : 1 ≤ o) (hn : o + n = s.lastCandidate + 1) :
    runsTo (s.turnToSync n o) (s.scanFrom n o) := by
  induction n generalizing o with
  | zero => exact runsTo.refl _
  | succ n ih =>
    have hrest := ih (o + 1) (by omega) (by omega)
    conv => arg 2; unfold State.scanFrom
    split_ifs with hs
    · rw [State.turnToSync_here hs]
      refine (runsTo_header rfl).trans ?_
      show runsTo ((s.atCandidate o).runHeader (parseFrameHeader s o) (8 * o)) _
      cases hp : parseFrameHeader s o (8 * o) with
      | ok x =>
        rw [State.runHeader_ok hp]
        exact runsTo.refl _
      | error e =>
        rw [State.runHeader_error hp, State.headerFailed_later ho, show s.lastCandidate - o = n by omega]
        exact hrest
    · rw [State.turnToSync_later hs]
      exact hrest

/-- The frame search of R420 is the run of the candidates' headers from offset 0 on. -/
theorem runsTo_findFrame (s : State) : runsTo (s.atCandidate 0) s.findFrame := by
  refine (runsTo_header rfl).trans ?_
  show runsTo ((s.atCandidate 0).runHeader (parseFrameHeader s 0) 0) _
  unfold State.findFrame
  cases hp : parseFrameHeader s 0 0 with
  | ok x =>
    rw [State.runHeader_ok hp]
    exact runsTo.refl _
  | error e =>
    rw [State.runHeader_error hp, State.headerFailed_turns]
    exact runsTo_scanFrom ((s.atCandidate 0).noteFirstError e) s.lastCandidate 1 (le_refl _) (Nat.add_comm _ _)

/-- The subframes of R500 are the run of the elements at them. -/
theorem runsTo_decodeChannels (s : State) (n : Nat) : runsTo s (s.decodeChannels n) := by
  induction n generalizing s with
  | zero => exact runsTo.refl _
  | succ n ih =>
    unfold State.decodeChannels
    split_ifs with hp
    · exact (runsTo_step (by rw [hp]; decide) (step_subframe hp)).trans (ih _)
    · exact runsTo.refl _

/-- The decorrelation and the delivery are the element at the channel assignment (R360, R500). -/
theorem runsTo_deliverDecoded {s : State} (h : s.dec.phase = .decorrelate → s.dec.header.assign.toNat ≤ 10) :
    runsTo s s.deliverDecoded := by
  unfold State.deliverDecoded
  split_ifs with hp
  · exact runsTo_step (by rw [hp]; decide) (step_decorrelate hp (h hp))
  · exact runsTo.refl _

/-- The subframes leave a legal channel assignment, or no header (R124, R400). -/
theorem State.decodeChannels_assign (s : State) :
    (s.findFrame.decodeChannels s.findFrame.dec.header.channels).dec.header.assign.toNat ≤ 10 := by
  have hunset : DecodeCtx.unset.header.assign.toNat ≤ 10 := by decide
  rcases s.findFrame_phase with h | ⟨hp, hc, hch, ha⟩
  · rw [h]
    show s.findFrame.dec.header.assign.toNat ≤ 10
    rwa [h]
  · rcases s.findFrame.decodeChannels_phase s.findFrame.dec.header.channels hp (by omega) (by omega) with
      h | ⟨h, -⟩ <;> rw [h]
    · exact hunset
    · exact ha

theorem runsTo_decodeChunk (s : State) : runsTo s.beginDecode s.decodeChunk :=
  (runsTo_findFrame s.beginDecode).trans <| (runsTo_decodeChannels _ _).trans <|
    runsTo_deliverDecoded fun _ => s.beginDecode.decodeChannels_assign

/-- A DECODE that passes its pre-checks decodes the chunk (R492, R500). -/
theorem exec_decode_starts {s : State} (h : s.decodeStarts) : exec .decode s = .next s.decodeChunk := by
  obtain ⟨hd, hl⟩ := h
  refine congrArg Host.Outcome.next ?_
  rw [if_pos hd, if_neg (Nat.not_lt.2 hl)]

/-- Settles O30: the search, the subframes and the delivery each run as the elements that stand at them. -/
theorem decodeIsItsElements : Obligations.DecodeIsItsElements := by
  intro s hs
  obtain ⟨n, hn⟩ := runsTo_decodeChunk s
  refine ⟨n, ?_, ?_⟩
  · rw [hn]
    exact exec_decode_starts hs
  · rw [hn]
    exact s.decodeChunk_dec

end Sys2Proof.Machine

/-! How a DECODE ends (R420, R430, R500, R505, R507, R513): where its search stops, where its subframes stop, and what
its registers then show. -/

namespace Sys2Proof.Machine

/-! The search. -/

/-- A DECODE from `s` after its parse at offset 0 (R420). -/
def State.searchBegun (s : State) : State :=
  match s.firstHeaderCause with
  | none => s.beginDecode
  | some e => s.beginDecode.noteFirstError e

/-- A DECODE from `s` at the first subframe, at the cursor `p`, of the frame `hd` that it found at byte offset `o`. -/
def State.atFrame (s : State) (o : Nat) (hd : FrameHeader) (p : Nat) : State :=
  (s.searchBegun.atCandidate o).acceptHeader hd p

theorem State.firstHeaderCause_ok {s : State} {x : FrameHeader × Nat} (h : parseFrameHeader s 0 0 = .ok x) :
    s.firstHeaderCause = none := by
  unfold State.firstHeaderCause
  rw [h]

theorem State.firstHeaderCause_error {s : State} {e : Cause} (h : parseFrameHeader s 0 0 = .error e) :
    s.firstHeaderCause = some e := by
  unfold State.firstHeaderCause
  rw [h]

/-- There is only one first header that parses (R420). -/
theorem State.frameFoundAt.unique {s : State} {o o' p p' : Nat} {hd hd' : FrameHeader} (h : s.frameFoundAt o hd p)
    (h' : s.frameFoundAt o' hd' p') : o' = o ∧ hd' = hd ∧ p' = p := by
  obtain ⟨hc, hparse, hfirst⟩ := h
  obtain ⟨hc', hparse', hfirst'⟩ := h'
  obtain hlt | rfl | hlt := Nat.lt_trichotomy o' o
  · obtain ⟨e, he⟩ := hfirst o' hlt hc'
    rw [hparse'] at he
    cases he
  · rw [hparse] at hparse'
    cases hparse'
    exact ⟨rfl, rfl, rfl⟩
  · obtain ⟨e, he⟩ := hfirst' o hlt hc
    rw [hparse] at he
    cases he

/-- A frame that is found is no failure of every candidate. -/
theorem State.frameFoundAt.not_all_fail {s : State} {o p : Nat} {hd : FrameHeader} (h : s.frameFoundAt o hd p) :
    ¬∀ o, s.candidate o → s.headerFailsAt o := by
  obtain ⟨hc, hparse, -⟩ := h
  intro hfail
  obtain ⟨e, he⟩ := hfail o hc
  rw [hparse] at he
  cases he

/-- The search stops at the first candidate that parses, or without a frame (R420). -/
theorem State.beginDecode_findFrame (s : State) :
    (∃ o hd p, s.frameFoundAt o hd p ∧ s.beginDecode.findFrame = s.atFrame o hd p) ∨
      (∀ o, s.candidate o → s.headerFailsAt o) ∧
        ∃ e, parseFrameHeader s 0 0 = .error e ∧
          s.beginDecode.findFrame = (s.beginDecode.noteFirstError e).noFrame := by
  rcases s.beginDecode.findFrame_cases with
    ⟨hd, p, hparse, h⟩ | ⟨e, he, ⟨o, hd, p, -, -, hfound, -, h⟩ | ⟨hfail, h⟩⟩
  · refine .inl ⟨0, hd, p, ⟨.inl rfl, hparse, fun o ho => absurd ho (Nat.not_lt_zero o)⟩, ?_⟩
    rw [h, State.atFrame, State.searchBegun, State.firstHeaderCause_ok (s := s) hparse]
  · refine .inl ⟨o, hd, p, hfound, ?_⟩
    rw [h, State.atFrame, State.searchBegun, State.firstHeaderCause_error (s := s) he]
    rfl
  · exact .inr ⟨hfail, e, he, h⟩

theorem State.findFrame_found {s : State} {o p : Nat} {hd : FrameHeader} (h : s.frameFoundAt o hd p) :
    s.beginDecode.findFrame = s.atFrame o hd p := by
  rcases s.beginDecode_findFrame with ⟨o', hd', p', h', hfind⟩ | ⟨hfail, -⟩
  · obtain ⟨rfl, rfl, rfl⟩ := h.unique h'
    exact hfind
  · exact absurd hfail h.not_all_fail

theorem State.findFrame_none {s : State} (h : ∀ o, s.candidate o → s.headerFailsAt o) :
    ∃ e, parseFrameHeader s 0 0 = .error e ∧
      s.beginDecode.findFrame = (s.beginDecode.noteFirstError e).noFrame := by
  rcases s.beginDecode_findFrame with ⟨o, hd, p, hfound, -⟩ | ⟨-, hnone⟩
  · exact absurd h hfound.not_all_fail
  · exact hnone

/-- A failed parse at offset 0 is noted, and counted where its CRC-8 is what failed (R45, R420). -/
theorem State.searchBegun_eq (s : State) :
    s.searchBegun =
      { s.beginDecode with
        cnt := { s.cnt with crc8Err := s.cnt.crc8Err + if s.firstHeaderCause = some .crc8 then 1 else 0 }
        dec := s.searchBegun.dec } := by
  unfold State.searchBegun State.noteFirstError
  cases s.firstHeaderCause with
  | none => simp [State.beginDecode]
  | some e => by_cases he : e = .crc8 <;> simp [State.beginDecode, he]

/-- The search has written the status bits, the counters of its events and the registers of the header (R416, R420). -/
theorem State.atFrame_eq (s : State) (o : Nat) (hd : FrameHeader) (p : Nat) :
    s.atFrame o hd p =
      { s with
        status := { s.status with crc16Mismatch := false, silenced := false, recovered := o != 0 }
        cnt :=
          { s.cnt with
            syncRecovered := s.cnt.syncRecovered + if (o != 0) = true then 1 else 0
            crc8Err := s.cnt.crc8Err + if s.firstHeaderCause = some .crc8 then 1 else 0 }
        frameOffset := BitVec.ofNat 32 o
        hdr := (s.atFrame o hd p).hdr
        dec := (s.atFrame o hd p).dec } := by
  conv_lhs => rw [State.atFrame, State.acceptHeader_eq, s.searchBegun_eq]
  cases o <;> rfl

theorem State.atFrame_hdr (s : State) (o : Nat) (hd : FrameHeader) (p : Nat) :
    (s.atFrame o hd p).hdr =
      ⟨BitVec.ofNat 16 hd.blockSize, BitVec.ofNat 20 hd.rate, hd.assign, BitVec.ofNat 4 hd.channels,
        BitVec.ofNat 6 hd.bps, BitVec.ofNat 36 hd.number, hd.blocking, BitVec.ofNat 8 hd.crc8, 0, 0⟩ := rfl

/-- The block stands at the first subframe of the frame, with no failure behind it. -/
theorem State.atFrame_dec (s : State) (o : Nat) (hd : FrameHeader) (p : Nat) :
    (s.atFrame o hd p).dec =
      { DecodeCtx.unset with
        phase := .subframe, cursor := p, frameStart := o, firstErr := s.firstHeaderCause.getD .noSync,
        header := hd } := by
  unfold State.atFrame State.searchBegun
  cases s.firstHeaderCause <;> rfl

/-- What the gates of an accepted header say of its sizes (R122, R124, R409, R411, R412). -/
structure State.admits (s : State) (hd : FrameHeader) : Prop where
  block : 1 ≤ hd.blockSize ∧ hd.blockSize < 2 ^ 16
  channels : 1 ≤ hd.channels ∧ hd.channels ≤ 8
  assigned : hd.channels = channelCount hd.assign
  siChannels : hd.channels = s.si.channels.toNat
  bps : hd.bps = s.si.bps.toNat

theorem State.admits_of_parse {s : State} {o p q : Nat} {hd : FrameHeader}
    (h : parseFrameHeader s o p = .ok (hd, q)) : s.admits hd := by
  obtain ⟨-, blocking, h⟩ := parseFrameHeader_ok h
  obtain ⟨-, -, -, h⟩ := headerAfterSync_ok h
  obtain ⟨-, -, -, -, -, hassign, -, -, hmin, -, -, hc, hsc, hbps, -, -, -, -, hb, -⟩ := headerAfterAssignment_ok h
  have hblock := hb (s.chunk.bits_lt _ 4)
  have hpos : 1 ≤ hd.channels := by rw [hc]; unfold channelCount; split_ifs <;> omega
  exact ⟨⟨hmin, by omega⟩, ⟨hpos, hc ▸ channelCount_le _⟩, hassign ▸ hc, hsc, hbps⟩

/-- An accepted header fits the registers that show it (R47). -/
theorem headerShown.sizes {s t : State} {o : Nat} {hd : FrameHeader} (h : headerShown o hd t) (ha : s.admits hd) :
    t.hdr.blockSize.toNat = hd.blockSize ∧ t.hdr.count = s.si.channels ∧ t.hdr.count.toNat = hd.channels ∧
      t.hdr.bps = s.si.bps ∧ t.hdr.bps.toNat = hd.bps ∧ BitVec.ofNat 20 t.hdr.rate.toNat = BitVec.ofNat 20 hd.rate := by
  have hc : BitVec.ofNat 4 hd.channels = s.si.channels := by rw [ha.siChannels, BitVec.ofNat_toNat, BitVec.setWidth_eq]
  have hn : BitVec.ofNat 6 hd.bps = s.si.bps := by rw [ha.bps, BitVec.ofNat_toNat, BitVec.setWidth_eq]
  rw [h.2]
  refine ⟨?_, hc, ?_, hn, ?_, ?_⟩
  · rw [BitVec.toNat_ofNat, Nat.mod_eq_of_lt ha.block.2]
  · rw [hc, ha.siChannels]
  · rw [hn, ha.bps]
  · rw [BitVec.ofNat_toNat, BitVec.setWidth_eq]

/-- A candidate offset past the first is shown as one, in 32 bits (R44, R422). -/
theorem State.candidate_shown {s : State} {o : Nat} (h : s.candidate o) : (BitVec.ofNat 32 o != 0) = (o != 0) := by
  have hlt : o < 2 ^ 32 := by
    have := s.inLen.isLt
    rcases h with rfl | ⟨h, -⟩
    · decide
    · omega
  rw [Bool.eq_iff_iff, bne_iff_ne, bne_iff_ne, Ne, Ne, ← BitVec.toNat_inj, BitVec.toNat_ofNat, Nat.mod_eq_of_lt hlt]
  rfl

/-! The subframes. -/

/-- `s` at the subframe of channel `c`, at the cursor `p`, with the channel buffers `rows`. -/
def State.atSubframe (s : State) (rows : List (List Sample)) (c p : Nat) : State :=
  { s with ch := rows, dec := { s.dec with phase := .subframe, cursor := p, chan := c } }

theorem State.decodeChannels_past {s : State} (h : s.dec.phase ≠ .subframe) (n : Nat) : s.decodeChannels n = s := by
  cases n with
  | zero => rfl
  | succ n => exact if_neg h

theorem State.decodeChannels_succ {s : State} (h : s.dec.phase = .subframe) (n : Nat) :
    s.decodeChannels (n + 1) = s.decodeSubframe.decodeChannels n := if_pos h

theorem State.deliverDecoded_over {s : State} (h : s.dec.phase = .idle) : s.deliverDecoded = s :=
  if_neg (by rw [h]; decide)

/-- After a footer check there is no subframe to read (R430). -/
theorem State.checkFooter_past (s : State) : s.checkFooter.dec.phase ≠ .subframe := by
  rcases s.checkFooter_phase with h | ⟨-, h⟩ <;> rw [h] <;> decide

theorem State.subframeFailed_dec (s : State) (cause : Cause) :
    (s.subframeFailed cause).dec = { s.dec with phase := .decorrelate, failed := some (s.dec.chan, cause) } := by
  rw [State.subframeFailed_eq]

theorem State.atSubframe_self {s : State} (h : s.dec.phase = .subframe) :
    s.atSubframe s.ch s.dec.chan s.dec.cursor = s := by
  unfold State.atSubframe
  rw [← h]

/-- The subframes of the `n` channels that are left end in the footer check, or at the first one that fails (R500). -/
theorem State.decodeChannels_ends (s : State) (n : Nat) (hp : s.dec.phase = .subframe)
    (hc : s.dec.chan < s.dec.header.channels) (hn : s.dec.header.channels = s.dec.chan + n) :
    (∃ rows c q, readSubframes s.chunk s.dec.header n s.dec.chan s.dec.cursor = .ok q ∧
      s.decodeChannels n = (s.atSubframe rows c q).checkFooter) ∨
    ∃ rows c q e, readSubframes s.chunk s.dec.header n s.dec.chan s.dec.cursor = .error (c, e) ∧
      (c < s.dec.header.channels ∧ subframeCause e) ∧
      s.decodeChannels n = (s.atSubframe rows c q).subframeFailed e := by
  induction n generalizing s with
  | zero => omega
  | succ n ih =>
    rw [State.decodeChannels_succ hp]
    rcases s.decodeSubframe_cases with ⟨xs, q, hr, h⟩ | ⟨e, ⟨hr, he⟩, h⟩ <;> rw [h]
    · rw [readSubframes_ok hr]
      by_cases hnext : s.dec.chan + 1 < s.dec.header.channels
      · rw [State.subframeDecoded_next hnext]
        exact ih (s.atSubframe (s.writeChannel s.dec.chan xs).ch (s.dec.chan + 1) q) rfl hnext
          (show s.dec.header.channels = s.dec.chan + 1 + n by omega)
      · obtain rfl : n = 0 := by omega
        refine .inl ⟨(s.writeChannel s.dec.chan xs).ch, s.dec.chan, q, rfl, ?_⟩
        rw [State.subframeDecoded_last hnext, State.decodeChannels_past (State.checkFooter_past _), State.atSubframe,
          ← hp]
        rfl
    · rw [State.decodeChannels_past (by rw [State.subframeFailed_dec]; nofun)]
      exact .inr ⟨s.ch, s.dec.chan, s.dec.cursor, e, readSubframes_error hr, ⟨hc, he⟩,
        by rw [State.atSubframe_self hp]⟩

end Sys2Proof.Machine

namespace Sys2Proof.Machine

/-! The footer. -/

/-- What a footer check has read and computed, whatever it finds (R430). -/
def State.footerLooked (s : State) : State :=
  let cut := s.chunk.bitsLeft (8 * s.footerByte) < 16
  s.footerRead (if cut then 0 else s.chunk.bits (8 * s.footerByte) 16) s.footerSum
    (if cut then 0 else s.footerByte + 2 - s.dec.frameStart) (if cut then 8 * s.footerByte else 8 * s.footerByte + 16)

/-- The footer check goes on to the delivery, or ends as its trouble says (R33, R430). -/
theorem State.checkFooter_trouble (s : State) :
    s.checkFooter =
      match footerTrouble s.chunk s.dec.frameStart s.dec.cursor with
      | none => { s.footerLooked with dec := { s.footerLooked.dec with phase := .decorrelate } }
      | some cause => s.footerLooked.footerMismatch cause := by
  rw [footerTrouble_footer]
  unfold State.footerLooked
  rcases s.checkFooter_cases with ⟨hin, heq, h⟩ | ⟨hin, hne, h⟩ | ⟨hcut, h⟩ <;> rw [h]
  · simp only [if_neg (Nat.not_lt.2 hin), if_pos heq]
    rfl
  · simp only [if_neg (Nat.not_lt.2 hin), if_neg hne]
  · simp only [if_pos hcut]

theorem State.checkFooter_matches {s : State} (h : footerTrouble s.chunk s.dec.frameStart s.dec.cursor = none) :
    s.checkFooter = { s.footerLooked with dec := { s.footerLooked.dec with phase := .decorrelate } } := by
  rw [s.checkFooter_trouble, h]

theorem State.checkFooter_differs {s : State} {cause : Cause}
    (h : footerTrouble s.chunk s.dec.frameStart s.dec.cursor = some cause) :
    s.checkFooter = s.footerLooked.footerMismatch cause := by
  rw [s.checkFooter_trouble, h]

/-! A DECODE past its header. -/

/-- What holds of `v` in a DECODE from `s` past the header `hd` found at byte offset `o`, and as long as no frame is
delivered: nothing is stored, and the header and its events are shown (R416, R420, R507). -/
structure State.pastHeader (s : State) (o : Nat) (hd : FrameHeader) (v : State) : Prop where
  stored : nothingDelivered s v
  inputs : sameInputs s v
  counts : v.dec.phase ≠ .idle → sameCounts s v
  shown : headerShown o hd v
  recovered : v.status.recovered = (o != 0)
  synced : v.cnt.syncRecovered = s.cnt.syncRecovered + if v.status.recovered then 1 else 0
  crc8 : v.cnt.crc8Err = s.cnt.crc8Err + if s.firstHeaderCause = some .crc8 then 1 else 0

/-- The footer and the failing subframe of a DECODE from `s` are still to come. -/
def noTroubleYet (s v : State) : Prop :=
  v.status.crc16Mismatch = false ∧ v.status.silenced = false ∧ v.cnt.crc16Err = s.cnt.crc16Err ∧
    v.cnt.subframeErr = s.cnt.subframeErr

theorem State.atSubframe_pastHeader (s : State) (o : Nat) (hd : FrameHeader) (p : Nat) (rows : List (List Sample))
    (c q : Nat) : s.pastHeader o hd ((s.atFrame o hd p).atSubframe rows c q) := by
  have hhdr := s.atFrame_hdr o hd p
  rw [s.atFrame_eq]
  exact ⟨⟨rfl, rfl, rfl, rfl⟩, sameInputs_refl s, fun _ => ⟨rfl, rfl, rfl, rfl, rfl⟩, ⟨rfl, hhdr⟩, rfl, rfl, rfl⟩

theorem State.atSubframe_noTrouble (s : State) (o : Nat) (hd : FrameHeader) (p : Nat) (rows : List (List Sample))
    (c q : Nat) : noTroubleYet s ((s.atFrame o hd p).atSubframe rows c q) := by
  rw [s.atFrame_eq]
  exact ⟨rfl, rfl, rfl, rfl⟩

theorem State.atFrame_chunk (s : State) (o : Nat) (hd : FrameHeader) (p : Nat) :
    (s.atFrame o hd p).chunk = s.chunk := by
  rw [s.atFrame_eq]
  rfl

theorem State.atSubframe_dec (s : State) (o : Nat) (hd : FrameHeader) (p : Nat) (rows : List (List Sample))
    (c q : Nat) :
    ((s.atFrame o hd p).atSubframe rows c q).dec =
      { DecodeCtx.unset with
        phase := .subframe, cursor := q, frameStart := o, firstErr := s.firstHeaderCause.getD .noSync, header := hd,
        chan := c } := by
  unfold State.atSubframe
  rw [s.atFrame_dec]

/-- A footer check and a failed subframe keep the header shown. -/
theorem State.pastHeader.keeps {s v w : State} {o : Nat} {hd : FrameHeader} (h : s.pastHeader o hd v)
    (hk : keepsStream v w) (hv : v.dec.phase ≠ .idle) : s.pastHeader o hd w := by
  have hcounts := hk.sameCounts
  obtain ⟨⟨hpos, hts, hmd5, hmem⟩, hin, -, hoff, hhdr, hrec, -, hcrc8, hsync, -⟩ := hk
  obtain ⟨kpos, kts, kmd5, kmem⟩ := h.stored
  have hw : w.hdr = { v.hdr with crc16Read := w.hdr.crc16Read, crc16Computed := w.hdr.crc16Computed } :=
    congrArg (fun r : HeaderRegs =>
      { r with crc16Read := w.hdr.crc16Read, crc16Computed := w.hdr.crc16Computed }) hhdr
  refine ⟨⟨hpos.trans kpos, hts.trans kts, hmd5.trans kmd5, hmem.trans kmem⟩, h.inputs.trans hin, fun hn =>
    (h.counts hv).trans (hcounts hn), ⟨hoff.trans h.shown.1, ?_⟩, hrec.trans h.recovered, ?_, hcrc8.trans h.crc8⟩
  · rw [h.shown.2] at hw
    exact hw
  · rw [hsync, hrec, h.synced]

/-- The counter of an event that did not happen (R45). -/
theorem countedEvent_absent {x y : Word} {b : Bool} (h : x = y) (hb : b = false) : x = y + if b then 1 else 0 := by
  rw [h, hb]
  exact (BitVec.add_zero y).symm

/-- The counter of an event that happened (R45). -/
theorem countedEvent_present {x y : Word} {b : Bool} (h : x = y + 1) (hb : b = true) : x = y + if b then 1 else 0 := by
  rw [h, hb]
  rfl

/-- Once the footer or a failing subframe has been counted, all events are (R34, R45). -/
theorem State.pastHeader.events {s v : State} {o : Nat} {hd : FrameHeader} (h : s.pastHeader o hd v)
    (hcrc16 : v.cnt.crc16Err = s.cnt.crc16Err + if v.status.crc16Mismatch then 1 else 0)
    (hsub : v.cnt.subframeErr = s.cnt.subframeErr + if v.status.silenced then 1 else 0) : eventsCounted s v :=
  ⟨h.synced, h.crc8, hcrc16, hsub⟩

theorem sameEvents.eventsCounted {s v t : State} (h : sameEvents v t) (hv : eventsCounted s v) : eventsCounted s t := by
  obtain ⟨h1, h2, h3, h4, h5, h6, h7⟩ := h
  unfold Machine.eventsCounted at hv ⊢
  rwa [h1, h2, h3, h4, h5, h6, h7]

/-- What a delivery is compared with may be the state before the DECODE: nothing has been stored in between. -/
theorem frameDelivered.of_stored {b c r n : Nat} {s v t : State} (h : frameDelivered b c r n v t)
    (hs : nothingDelivered s v) (hcfg : v.cfg = s.cfg) : frameDelivered b c r n s t := by
  obtain ⟨hpos, -, hmd5, hmem⟩ := hs
  unfold frameDelivered sameBytesBut at h ⊢
  rwa [hpos, hmd5, hmem, hcfg] at h

/-- The decorrelation is no part of what a delivery is compared with: it changes the channel buffers only (R360). -/
theorem State.deliverDecoded_endsDelivered {v : State} (hp : v.dec.phase = .decorrelate) :
    endsDelivered v v.deliverDecoded := by
  unfold State.deliverDecoded
  rw [if_pos hp, v.decorrelate_frame]
  exact State.finishFrame_endsDelivered { v with ch := (v.decorrelate v.dec.header.assign v.dec.header.blockSize).ch }

/-! The outcomes, by what the chunk holds (R505, R513). -/

/-- The frame `hd` found at byte offset `o` is delivered, with the channel that failed or the CRC-16 warning. -/
structure deliveredOutcome (s : State) (o : Nat) (hd : FrameHeader) (failed : Option (Nat × Cause))
    (warn : Option Cause) (t : State) : Prop where
  delivered : headerFrameDelivered s t
  shown : headerShown o hd t
  reported : deliveryReported failed warn s t
  silenced : t.status.silenced = failed.isSome
  mismatch : t.status.crc16Mismatch = warn.isSome
  events : eventsCounted s t

/-- The frame `hd` found at byte offset `o` is rejected for its footer. -/
structure rejectedOutcome (s : State) (o : Nat) (hd : FrameHeader) (cause : Cause) (t : State) : Prop where
  stored : nothingDelivered s t
  out : t.out = ⟨0, 0, 0, 0⟩
  failure : failureCounted s t
  shown : headerShown o hd t
  recovered : t.status.recovered = (t.frameOffset != 0)
  silenced : t.status.silenced = false
  mismatch : t.status.crc16Mismatch = true
  err : t.err = ⟨.crc16Mismatch, cause.number, 0, false⟩
  events : eventsCounted s t

/-- No frame is found, the header at offset 0 failing with `cause`. -/
structure noFrameOutcome (s : State) (cause : Cause) (t : State) : Prop where
  stored : nothingDelivered s t
  out : t.out = ⟨0, 0, 0, 0⟩
  failure : failureCounted s t
  registers : headerRegisters t = headerRegisters s
  rows : t.ch = s.ch
  recovered : t.status.recovered = false
  silenced : t.status.silenced = false
  mismatch : t.status.crc16Mismatch = false
  err : t.err = if cause = .noSync then ⟨.syncLost, 0, 0, false⟩ else ⟨.headerInvalid, cause.number, 0, false⟩
  events : eventsCounted s t

/-- The registers of a footer check after a last subframe that ends at `q`, in a frame that starts at byte `o`: a footer
that the chunk does not hold is shown as 0 (R44, R47, R430). -/
def footerShown (ck : Chunk) (o q : Nat) (t : State) : Prop :=
  let f := (q + 7) / 8
  let cut := ck.bitsLeft (8 * f) < 16
  t.frameBytes = BitVec.ofNat 32 (if cut then 0 else f + 2 - o) ∧
    t.hdr.crc16Read = BitVec.ofNat 16 (if cut then 0 else ck.bits (8 * f) 16) ∧
    t.hdr.crc16Computed = crc16 (ck.slice o (f - o))

theorem State.footerLooked_shown (s : State) :
    footerShown s.chunk s.dec.frameStart s.dec.cursor s.footerLooked := ⟨rfl, rfl, rfl⟩

theorem headerRegisters_eq {s t : State} :
    headerRegisters t = headerRegisters s ↔
      t.hdr = s.hdr ∧ t.frameOffset = s.frameOffset ∧ t.frameBytes = s.frameBytes := by
  simp only [headerRegisters, Prod.mk.injEq]

theorem footerShown.of_registers {ck : Chunk} {o q : Nat} {v t : State} (h : footerShown ck o q v)
    (hr : headerRegisters t = headerRegisters v) : footerShown ck o q t := by
  obtain ⟨hhdr, -, hbytes⟩ := headerRegisters_eq.1 hr
  unfold footerShown at h ⊢
  rwa [hhdr, hbytes]

theorem sameCounts.reported {failed : Option (Nat × Cause)} {warn : Option Cause} {s v t : State}
    (h : sameCounts s v) (hr : deliveryReported failed warn v t) : deliveryReported failed warn s t := by
  unfold deliveryReported at hr ⊢
  split at hr
  · exact ⟨h.successCounted hr.1, hr.2⟩
  · exact ⟨h.successCounted hr.1, hr.2⟩
  · exact ⟨h.failureCounted hr.1, hr.2⟩

/-- The delivery of the frame at hand, which the last-header registers show (R47, R508 to R511). -/
theorem State.pastHeader.delivers {s v : State} {o : Nat} {hd : FrameHeader} {failed : Option (Nat × Cause)}
    {warn : Option Cause} (h : s.pastHeader o hd v) (ha : s.admits hd) (hc : s.candidate o)
    (hp : v.dec.phase = .decorrelate) (hh : v.dec.header = hd)
    (hfail : v.dec.failed = failed ∧ v.status.silenced = failed.isSome)
    (hwarn : v.dec.warn = warn ∧ v.status.crc16Mismatch = warn.isSome) (hev : eventsCounted s v) :
    deliveredOutcome s o hd failed warn v.deliverDecoded ∧ headerRegisters v.deliverDecoded = headerRegisters v := by
  obtain ⟨hdel, hrep, -, -, hhdr, hoff, hbytes, hsame⟩ := State.deliverDecoded_endsDelivered hp
  have hshown : headerShown o hd v.deliverDecoded := ⟨hoff.trans h.shown.1, by rw [hhdr]; exact h.shown.2⟩
  obtain ⟨hb, hcount, hcn, hbps, hn, hr⟩ := hshown.sizes ha
  obtain ⟨-, -, -, hcfg, -⟩ := h.inputs
  have hcounts := h.counts (by rw [hp]; decide)
  have hev' := hsame.eventsCounted hev
  obtain ⟨hcrc', hsil', hrec, -⟩ := hsame
  have hframe := hdel.of_stored h.stored hcfg
  rw [hh] at hframe
  rw [hfail.1, hwarn.1] at hrep
  refine ⟨⟨⟨?_, hb ▸ ha.block.1, hcount, hbps, ?_⟩, hshown, hcounts.reported hrep, hsil'.trans hfail.2,
    hcrc'.trans hwarn.2, hev'⟩, ?_⟩
  · unfold frameDelivered at hframe ⊢
    rwa [hb, hcn, hn, hr]
  · rw [hrec, h.recovered, hshown.1, State.candidate_shown hc]
  · exact headerRegisters_eq.2 ⟨hhdr, hoff, hbytes⟩

theorem State.decodeChunk_eq {s : State} {o p : Nat} {hd : FrameHeader} (h : s.frameFoundAt o hd p) :
    s.decodeChunk = ((s.atFrame o hd p).decodeChannels hd.channels).deliverDecoded := by
  unfold State.decodeChunk
  dsimp only
  rw [State.findFrame_found h, s.atFrame_dec]

/-- The subframes of a frame that is found end in the footer check, or at the first one that fails (R500). -/
theorem State.decodeChannels_found {s : State} {o p : Nat} {hd : FrameHeader} (h : s.frameFoundAt o hd p) :
    (∃ rows c q, readSubframes s.chunk hd hd.channels 0 p = .ok q ∧
      (s.atFrame o hd p).decodeChannels hd.channels = ((s.atFrame o hd p).atSubframe rows c q).checkFooter) ∨
    ∃ rows c q e, readSubframes s.chunk hd hd.channels 0 p = .error (c, e) ∧ (c < hd.channels ∧ subframeCause e) ∧
      (s.atFrame o hd p).decodeChannels hd.channels = ((s.atFrame o hd p).atSubframe rows c q).subframeFailed e := by
  have hpos := (State.admits_of_parse h.2.1).channels.1
  have hends := (s.atFrame o hd p).decodeChannels_ends hd.channels (by rw [s.atFrame_dec])
    (by rw [s.atFrame_dec]; exact hpos) (by rw [s.atFrame_dec]; exact (Nat.zero_add _).symm)
  rwa [s.atFrame_chunk, s.atFrame_dec] at hends

theorem State.decodeChannels_read {s : State} {o p q : Nat} {hd : FrameHeader} (h : s.frameFoundAt o hd p)
    (hr : readSubframes s.chunk hd hd.channels 0 p = .ok q) :
    ∃ rows c, (s.atFrame o hd p).decodeChannels hd.channels =
      ((s.atFrame o hd p).atSubframe rows c q).checkFooter := by
  rcases State.decodeChannels_found h with ⟨rows, c, q', hr', he⟩ | ⟨rows, c, q', e, hr', -, he⟩ <;>
    rw [hr] at hr' <;> cases hr'
  exact ⟨rows, c, he⟩

theorem State.decodeChannels_failed {s : State} {o p c : Nat} {hd : FrameHeader} {e : Cause}
    (h : s.frameFoundAt o hd p) (hr : readSubframes s.chunk hd hd.channels 0 p = .error (c, e)) :
    (c < hd.channels ∧ subframeCause e) ∧ ∃ rows q, (s.atFrame o hd p).decodeChannels hd.channels =
      ((s.atFrame o hd p).atSubframe rows c q).subframeFailed e := by
  rcases State.decodeChannels_found h with ⟨rows, c', q, hr', he⟩ | ⟨rows, c', q, e', hr', hce, he⟩ <;>
    rw [hr] at hr' <;> cases hr'
  exact ⟨hce, rows, q, he⟩

/-- A frame whose subframes all decode is delivered, or rejected for its footer (R33, R430, R513). -/
theorem State.decodeChunk_read {s : State} {o p q : Nat} {hd : FrameHeader} (hfound : s.frameFoundAt o hd p)
    (hr : readSubframes s.chunk hd hd.channels 0 p = .ok q) :
    footerShown s.chunk o q s.decodeChunk ∧
      match footerTrouble s.chunk o q with
      | none => deliveredOutcome s o hd none none s.decodeChunk
      | some cause =>
        if s.cfg.crc16Reject then rejectedOutcome s o hd cause s.decodeChunk
        else deliveredOutcome s o hd none (some cause) s.decodeChunk := by
  have hadm := State.admits_of_parse hfound.2.1
  obtain ⟨rows, c, hends⟩ := State.decodeChannels_read hfound hr
  rw [State.decodeChunk_eq hfound, hends]
  have hpast := s.atSubframe_pastHeader o hd p rows c q
  obtain ⟨hcrc, hsil, hcrc16, hsub⟩ := s.atSubframe_noTrouble o hd p rows c q
  have hdec := s.atSubframe_dec o hd p rows c q
  have hchunk : ((s.atFrame o hd p).atSubframe rows c q).chunk = s.chunk := s.atFrame_chunk o hd p
  generalize (s.atFrame o hd p).atSubframe rows c q = v at *
  have hcfg : v.cfg.crc16Reject = s.cfg.crc16Reject := by
    obtain ⟨-, -, -, hcfg, -⟩ := hpast.inputs
    rw [hcfg]
  have hactive : v.dec.phase ≠ .idle := by rw [hdec]; nofun
  have hhead : v.dec.header = hd := by rw [hdec]
  have hfail : v.dec.failed = none := by rw [hdec]; rfl
  have hwarn : v.dec.warn = none := by rw [hdec]; rfl
  have hkept := hpast.keeps v.checkFooter_keeps hactive
  have hsub' := countedEvent_absent hsub hsil
  have hlooked := v.footerLooked_shown
  rw [hchunk, show v.dec.frameStart = o by rw [hdec], show v.dec.cursor = q by rw [hdec]] at hlooked
  have htrouble : footerTrouble v.chunk v.dec.frameStart v.dec.cursor = footerTrouble s.chunk o q := by
    rw [hchunk, hdec]
  cases hw : footerTrouble s.chunk o q with
  | none =>
    rw [State.checkFooter_matches (htrouble.trans hw)] at hkept ⊢
    obtain ⟨hout, hregs⟩ := hkept.delivers hadm hfound.1 rfl hhead ⟨hfail, hsil⟩ ⟨hwarn, hcrc⟩
      (hkept.events (countedEvent_absent hcrc16 hcrc) hsub')
    exact ⟨hlooked.of_registers hregs, hout⟩
  | some w =>
    have hcounted : v.cnt.crc16Err + 1 = s.cnt.crc16Err + 1 := by rw [hcrc16]
    rw [State.checkFooter_differs (htrouble.trans hw)] at hkept ⊢
    dsimp only
    split_ifs with hpol
    · rw [v.footerLooked.footerMismatch_reject w (hcfg.trans hpol)] at hkept ⊢
      rw [State.deliverDecoded_over rfl]
      exact ⟨hlooked.of_registers rfl, hkept.stored, rfl,
        (hpast.counts hactive).failureCounted ⟨rfl, rfl, rfl, rfl, rfl⟩, hkept.shown,
        by rw [hkept.recovered, hkept.shown.1, State.candidate_shown hfound.1], hsil, rfl, rfl,
        hkept.events (countedEvent_present hcounted rfl) hsub'⟩
    · rw [v.footerLooked.footerMismatch_warn w (hcfg.trans (Bool.eq_false_iff.2 hpol))] at hkept ⊢
      obtain ⟨hout, hregs⟩ := hkept.delivers hadm hfound.1 rfl hhead ⟨hfail, hsil⟩ ⟨rfl, rfl⟩
        (hkept.events (countedEvent_present hcounted rfl) hsub')
      exact ⟨hlooked.of_registers hregs, hout⟩

/-- A frame with a subframe that fails is delivered, silenced from there on and the footer unread (R505, R513). -/
theorem State.decodeChunk_failed {s : State} {o p c : Nat} {hd : FrameHeader} {e : Cause}
    (hfound : s.frameFoundAt o hd p) (hr : readSubframes s.chunk hd hd.channels 0 p = .error (c, e)) :
    (c < hd.channels ∧ subframeCause e) ∧ deliveredOutcome s o hd (some (c, e)) none s.decodeChunk ∧
      s.decodeChunk.frameBytes = 0 ∧ s.decodeChunk.hdr.crc16Read = 0 ∧ s.decodeChunk.hdr.crc16Computed = 0 := by
  obtain ⟨hce, rows, q, hends⟩ := State.decodeChannels_failed hfound hr
  rw [State.decodeChunk_eq hfound, hends]
  have hpast := s.atSubframe_pastHeader o hd p rows c q
  obtain ⟨hcrc, -, hcrc16, hsub⟩ := s.atSubframe_noTrouble o hd p rows c q
  have hdec := s.atSubframe_dec o hd p rows c q
  generalize (s.atFrame o hd p).atSubframe rows c q = v at *
  have hkept := hpast.keeps (v.subframeFailed_keeps e) (by rw [hdec]; nofun)
  have hhead : v.dec.header = hd := by rw [hdec]
  have hchan : some (v.dec.chan, e) = some (c, e) := by rw [hdec]
  have hwarn : v.dec.warn = none := by rw [hdec]; rfl
  have hcounted : v.cnt.subframeErr + 1 = s.cnt.subframeErr + 1 := by rw [hsub]
  rw [State.subframeFailed_eq] at hkept ⊢
  obtain ⟨hout, hregs⟩ := hkept.delivers (State.admits_of_parse hfound.2.1) hfound.1 rfl hhead ⟨hchan, rfl⟩
    ⟨hwarn, hcrc⟩ (hkept.events (countedEvent_absent hcrc16 hcrc) (countedEvent_present hcounted rfl))
  obtain ⟨hhdr, -, hbytes⟩ := headerRegisters_eq.1 hregs
  exact ⟨hce, hout, hbytes, by rw [hhdr], by rw [hhdr]⟩

/-- A DECODE that finds no frame fails, with the failure of offset 0 (R420, R513). -/
theorem State.decodeChunk_noFrame {s : State} (hfail : ∀ o, s.candidate o → s.headerFailsAt o) :
    ∃ e, s.firstHeaderCause = some e ∧ (e = .noSync ∨ headerCause e) ∧ noFrameOutcome s e s.decodeChunk := by
  obtain ⟨e, he, hfind⟩ := State.findFrame_none hfail
  have hfirst := State.firstHeaderCause_error he
  refine ⟨e, hfirst, parseFrameHeader_error he, ?_⟩
  have hidle : (s.beginDecode.noteFirstError e).noFrame.dec = .unset := by rw [State.noFrame_eq]; rfl
  have hover : s.decodeChunk = (s.beginDecode.noteFirstError e).noFrame := by
    unfold State.decodeChunk
    dsimp only
    rw [hfind, State.decodeChannels_past (by rw [hidle]; decide), State.deliverDecoded_over (by rw [hidle]; rfl)]
  have hcnt : (s.beginDecode.noteFirstError e).cnt =
      { s.cnt with crc8Err := s.cnt.crc8Err + if s.firstHeaderCause = some .crc8 then 1 else 0 } := by
    have hbegun : s.searchBegun = s.beginDecode.noteFirstError e := by
      unfold State.searchBegun
      rw [hfirst]
    rw [← hbegun]
    exact congrArg State.cnt s.searchBegun_eq
  have herr := (s.beginDecode.noteFirstError e).noFrame_err
  rw [hover]
  rw [State.noFrame_eq] at herr ⊢
  refine ⟨⟨rfl, rfl, rfl, rfl⟩, rfl, ⟨?fail, ?ok, rfl, rfl, rfl⟩, rfl, rfl, rfl, rfl, rfl, herr,
    ?sync, ?crc8, ?crc16, ?sub⟩
  case fail | ok | crc8 => rw [State.decodeFailed_cnt, hcnt]
  case sync | crc16 | sub =>
    rw [State.decodeFailed_cnt, hcnt]
    exact countedEvent_absent rfl rfl

theorem deliveredOutcome.succeeded {s t : State} {o p q : Nat} {hd : FrameHeader} {warn : Option Cause}
    (h : deliveredOutcome s o hd none warn t) (hfound : s.frameFoundAt o hd p)
    (hr : readSubframes s.chunk hd hd.channels 0 p = .ok q) (hfoot : footerTrouble s.chunk o q = warn)
    (hpol : warn.isSome → s.cfg.crc16Reject = false) : decodeSucceeded s t := by
  have hrep := h.reported
  cases warn with
  | none =>
    exact ⟨h.delivered, hrep.1, h.silenced, o, hd, p, q, hfound, h.shown, hr, .inl ⟨hfoot, h.mismatch, hrep.2⟩⟩
  | some w =>
    exact ⟨h.delivered, hrep.1, h.silenced, o, hd, p, q, hfound, h.shown, hr,
      .inr ⟨w, hfoot, h.mismatch, hpol rfl, hrep.2⟩⟩

/-- Settles O28: the search finds no frame, or a frame whose subframes all decode, and whose footer is then checked, or
a frame with a first subframe that fails. -/
theorem decodeOutcomes : Obligations.DecodeOutcomes := by
  intro s hs _
  suffices h : eventsCounted s s.decodeChunk ∧
      (decodeSucceeded s s.decodeChunk ∨ decodePartial s s.decodeChunk ∨ decodeFailedWhole s s.decodeChunk) from
    ⟨s.decodeChunk, exec_decode_starts hs, s.decodeChunk_dec, h⟩
  rcases s.beginDecode_findFrame with ⟨o, hd, p, hfound, -⟩ | ⟨hfail, -⟩
  · cases hr : readSubframes s.chunk hd hd.channels 0 p with
    | error x =>
      obtain ⟨hce, h, hbytes, hread, hcalc⟩ := State.decodeChunk_failed hfound hr
      obtain ⟨-, -, hcount, -⟩ := h.shown.sizes (State.admits_of_parse hfound.2.1)
      exact ⟨h.events, .inr (.inl ⟨h.delivered, h.reported.1, h.silenced, h.mismatch, hbytes, hread, hcalc, o, hd, p,
        x.1, x.2, hfound, h.shown, hr, hcount ▸ hce.1, hce.2.1, hce.2.2, h.reported.2⟩)⟩
    | ok q =>
      obtain ⟨-, h⟩ := State.decodeChunk_read hfound hr
      cases hfoot : footerTrouble s.chunk o q with
      | none =>
        rw [hfoot] at h
        exact ⟨h.events, .inl (h.succeeded hfound hr hfoot nofun)⟩
      | some w =>
        rw [hfoot] at h
        dsimp only at h
        split_ifs at h with hpol
        · exact ⟨h.events, .inr (.inr ⟨h.stored, h.out, h.failure, h.silenced,
            .inr ⟨h.mismatch, hpol, h.recovered, o, hd, p, q, w, hfound, h.shown, hr, hfoot, h.err⟩⟩)⟩
        · exact ⟨h.events, .inl (h.succeeded hfound hr hfoot fun _ => Bool.eq_false_iff.2 hpol)⟩
  · obtain ⟨e, hfirst, he, h⟩ := State.decodeChunk_noFrame hfail
    refine ⟨h.events, .inr (.inr ⟨h.stored, h.out, h.failure, h.silenced, .inl ⟨hfail, h.mismatch, h.recovered,
      h.registers, ?_⟩⟩)⟩
    have herr := h.err
    rcases he with rfl | he
    · exact .inl ⟨hfirst, herr⟩
    · refine .inr ⟨e, he.1, he.2, hfirst, herr.trans (if_neg ?_)⟩
      rintro rfl
      exact absurd he.1 (by decide)

end Sys2Proof.Machine

/-! What a DECODE reads (R91, R515): two chunks that agree on their bytes below IN_LEN are read alike, by every
reader. -/

namespace Sys2Proof.Machine

/-- The chunks have one length and the same bytes below it, and are read with the same cap. -/
structure Chunk.agrees (ck ck' : Chunk) : Prop where
  len : ck'.len = ck.len
  maxUnary : ck'.maxUnary = ck.maxUnary
  byte : ∀ i, i < ck.len → ck'.byte i = ck.byte i

/-! Bits. -/

namespace Chunk.agrees

variable {ck ck' : Chunk} (h : ck.agrees ck')
include h

theorem bitsLeft (p : Nat) : ck'.bitsLeft p = ck.bitsLeft p := by
  unfold Chunk.bitsLeft
  rw [h.len]

theorem bit {p : Nat} (hp : p < 8 * ck.len) : ck'.bit p = ck.bit p := by
  unfold Chunk.bit
  rw [h.byte _ (by omega)]

theorem bits {p n : Nat} (hn : n ≤ ck.bitsLeft p) : ck'.bits p n = ck.bits p n := by
  unfold Chunk.bitsLeft at hn
  induction n with
  | zero => rfl
  | succ n ih => rw [Chunk.bits_succ, Chunk.bits_succ, ih (by omega), h.bit (by omega)]

theorem slice {o n : Nat} (hn : n = 0 ∨ o + n ≤ ck.len) : ck'.slice o n = ck.slice o n := by
  unfold Chunk.slice
  refine List.map_congr_left fun i hi => h.byte _ ?_
  have := List.mem_range.1 hi
  omega

theorem isSync {o : Nat} (ho : o + 1 < ck.len) : ck'.isSync o = ck.isSync o := by
  unfold Chunk.isSync
  rw [h.byte o (by omega), h.byte (o + 1) ho]

/-! Reads. -/

theorem readBits (n : Nat) : readBits ck' n = readBits ck n := by
  funext p
  unfold Machine.readBits
  rw [h.bitsLeft]
  split_ifs with hn
  · rfl
  · rw [h.bits (Nat.le_of_not_lt hn)]

theorem readHeaderBits (n : Nat) : readHeaderBits ck' n = readHeaderBits ck n := by
  funext p
  unfold Machine.readHeaderBits
  rw [h.bitsLeft]
  split_ifs with hn
  · rfl
  · rw [h.bits (Nat.le_of_not_lt hn)]

theorem unaryLoop (left q : Nat) {p : Nat} (hp : left = ck.bitsLeft p) :
    unaryLoop ck' left q p = unaryLoop ck left q p := by
  induction left generalizing q p with
  | zero => rfl
  | succ left ih =>
    unfold Chunk.bitsLeft at hp ih
    unfold Machine.unaryLoop
    rw [h.bit (by omega), h.maxUnary, ih (q + 1) (by omega)]

theorem readUnary : readUnary ck' = readUnary ck := by
  funext p
  unfold Machine.readUnary
  rw [h.bitsLeft, h.unaryLoop _ _ rfl]

theorem readBitsSigned (n : Nat) : readBitsSigned ck' n = readBitsSigned ck n := by
  unfold Machine.readBitsSigned
  rw [h.readBits]

theorem readSample (e : Nat) : readSample ck' e = readSample ck e := by
  unfold Machine.readSample
  simp only [h.readBits, h.readBitsSigned]

/-! Subframes. -/

theorem readRice (k : Nat) : readRice ck' k = readRice ck k := by
  unfold Machine.readRice readRemainder
  rw [h.readUnary, h.readBits]

theorem readRaw (w : Nat) : readRaw ck' w = readRaw ck w := by
  unfold Machine.readRaw readRawField
  rw [h.readBitsSigned]

theorem readPartition (w n : Nat) : readPartition ck' w n = readPartition ck w n := by
  unfold Machine.readPartition escapePartition ricePartition
  simp only [h.readBits, h.readRaw, h.readRice]

theorem readPartitions (w b o k m j : Nat) : readPartitions ck' w b o k m j = readPartitions ck w b o k m j := by
  induction m generalizing j with
  | zero => rfl
  | succ m ih =>
    unfold Machine.readPartitions
    simp only [h.readPartition, ih]

theorem decodeResidual (b k : Nat) : decodeResidual ck' b k = decodeResidual ck b k := by
  unfold Machine.decodeResidual residualAfterMethod readPartitionOrder
  simp only [h.readBits, h.readPartitions]

theorem readSubframeHeader (b n : Nat) (side : Bool) :
    readSubframeHeader ck' b n side = readSubframeHeader ck b n side := by
  unfold Machine.readSubframeHeader readWasted readWastedCount
  simp only [h.readBits, h.readUnary]

theorem subframeBody (kind : SubKind) (order b w e : Nat) :
    subframeBody ck' kind order b w e = subframeBody ck kind order b w e := by
  unfold Machine.subframeBody decodeConstant decodeVerbatim fixedPredictor lpcPredictor decodePredicted
  simp only [h.readBits, h.readBitsSigned, h.readSample, h.decodeResidual]

theorem decodeSubframeAt (b n : Nat) (side : Bool) : decodeSubframeAt ck' b n side = decodeSubframeAt ck b n side := by
  unfold Machine.decodeSubframeAt
  simp only [h.readSubframeHeader, h.subframeBody]

theorem readSubframes (hd : FrameHeader) (n c p : Nat) : readSubframes ck' hd n c p = readSubframes ck hd n c p := by
  induction n generalizing c p with
  | zero => rfl
  | succ n ih =>
    unfold Machine.readSubframes
    simp only [h.decodeSubframeAt, ih]

/-! Headers. -/

theorem readContinuation (n v : Nat) : readContinuation ck' n v = readContinuation ck n v := by
  induction n generalizing v with
  | zero => rfl
  | succ n ih =>
    unfold Machine.readContinuation
    simp only [h.readHeaderBits, ih]

theorem readCodedNumber (blocking : Bool) : readCodedNumber ck' blocking = readCodedNumber ck blocking := by
  unfold Machine.readCodedNumber
  simp only [h.readHeaderBits, h.readContinuation]

theorem resolveBlockSize (bs : Nat) : resolveBlockSize ck' bs = resolveBlockSize ck bs := by
  unfold Machine.resolveBlockSize
  simp only [h.readHeaderBits]

theorem resolveRateField (sr : Nat) : resolveRateField ck' sr = resolveRateField ck sr := by
  unfold Machine.resolveRateField
  simp only [h.readHeaderBits]

theorem headerCodes : headerCodes ck' = headerCodes ck := by
  unfold Machine.headerCodes
  simp only [h.readHeaderBits]

end Chunk.agrees

end Sys2Proof.Machine

/-! Two DECODEs of one chunk (R515): they find the same frame, read the same subframes and check the same footer. -/

namespace Sys2Proof.Machine

/-- The states agree on everything that the outcome of a DECODE depends on. -/
structure State.sameSource (s u : State) : Prop where
  byte : ∀ i, i < s.inLen.toNat → u.inByte i = s.inByte i
  inLen : u.inLen = s.inLen
  si : u.si = s.si
  pos : u.pos = s.pos
  cfg : u.cfg = s.cfg
  params : u.params = s.params
  dstate : u.dstate = s.dstate
  consec : u.consec = s.consec
  md5 : u.md5 = s.md5

/-- Two sequences of reads run alike when their first reads do and what follows does. -/
theorem Reader.bind_congr_at {α β : Type} {r r' : Reader α} {f f' : α → Reader β} {p : Nat} (hr : r' p = r p)
    (hf : ∀ x q, r p = .ok (x, q) → f' x q = f x q) : (r' >>= f') p = (r >>= f) p := by
  cases h : r p with
  | error c => rw [Reader.bind_of_error h, Reader.bind_of_error (hr.trans h)]
  | ok x => rw [Reader.bind_of_ok h, Reader.bind_of_ok (hr.trans h), hf _ _ h]

namespace State.sameSource

variable {s u : State} (h : s.sameSource u)
include h

theorem chunk : s.chunk.agrees u.chunk :=
  ⟨by unfold State.chunk; rw [h.inLen], by unfold State.chunk; rw [h.params], h.byte⟩

/-! The header. -/

/-- The checks against STREAMINFO (R409 to R412). -/
theorem checks (ca : BitVec 4) (raw ss b : Nat) :
    checkChannels u ca = checkChannels s ca ∧ checkRate u raw = checkRate s raw ∧
      checkBitDepth u ss = checkBitDepth s ss ∧ checkBlockSize u b = checkBlockSize s b := by
  unfold checkChannels checkRate checkBitDepth checkBlockSize allowSmall
  rw [h.params, h.si, h.pos]
  exact ⟨rfl, rfl, rfl, rfl⟩

/-- The CRC-8 is over bytes before the CRC-8 byte, which has been read (R232, R400). -/
theorem headerAfterAssignment (o : Nat) (blocking : Bool) (bs sr : Nat) (ca : BitVec 4) :
    headerAfterAssignment u o blocking bs sr ca = headerAfterAssignment s o blocking bs sr ca := by
  funext p
  unfold Machine.headerAfterAssignment
  simp only [h.chunk.readHeaderBits, h.chunk.readCodedNumber, h.chunk.resolveBlockSize, h.chunk.resolveRateField]
  refine Reader.bind_congr_at rfl fun ss _ _ => Reader.bind_congr_at rfl fun _ _ _ => Reader.bind_congr_at rfl
    fun r _ _ => Reader.bind_congr_at rfl fun _ _ _ => Reader.bind_congr_at rfl fun number _ _ =>
    Reader.bind_congr_at rfl fun b _ _ => Reader.bind_congr_at rfl fun raw q _ => Reader.bind_congr_at rfl
    fun f q' hf => Reader.bind_congr_at rfl fun cRead _ hread => ?_
  have hf' : (Except.ok (q / 8, q) : Except Cause (Nat × Nat)) = .ok (f, q') := hf
  cases hf'
  obtain ⟨hleft, -, -⟩ := readHeaderBits_ok.1 hread
  unfold Chunk.bitsLeft at hleft
  obtain ⟨hchannels, hrate, -, -⟩ := h.checks ca raw ss b
  have hdepth := (h.checks ca raw ss b).2.2.1
  have hsize := (h.checks ca raw ss b).2.2.2
  simp only [h.chunk.slice (o := o) (n := q / 8 - o) (by omega), hchannels, hrate, hdepth, hsize]

theorem headerAfterSync (o : Nat) (blocking : Bool) : headerAfterSync u o blocking = headerAfterSync s o blocking := by
  unfold Machine.headerAfterSync
  simp only [h.chunk.headerCodes, h.chunk.readHeaderBits, h.headerAfterAssignment]

theorem parseFrameHeader (o : Nat) : parseFrameHeader u o = parseFrameHeader s o := by
  funext p
  unfold Machine.parseFrameHeader
  simp only [h.chunk.bitsLeft, h.chunk.readBits, h.headerAfterSync]

/-! The search (R420). -/

theorem firstHeaderCause : u.firstHeaderCause = s.firstHeaderCause := by
  unfold State.firstHeaderCause
  rw [h.parseFrameHeader]

theorem headerFailsAt (o : Nat) : u.headerFailsAt o ↔ s.headerFailsAt o := by
  unfold State.headerFailsAt
  rw [h.parseFrameHeader]

/-- A candidate's sync code lies in the chunk. -/
theorem candidate (o : Nat) : u.candidate o ↔ s.candidate o := by
  unfold State.candidate
  rw [h.params, h.inLen]
  by_cases ho : o = 0
  · exact iff_of_true (.inl ho) (.inl ho)
  · refine or_congr_right (and_congr_right fun hle => ?_)
    rw [h.chunk.isSync]
    show o + 1 < s.inLen.toNat
    omega

theorem frameFoundAt {o p : Nat} {hd : FrameHeader} (hf : s.frameFoundAt o hd p) : u.frameFoundAt o hd p := by
  obtain ⟨hc, hparse, hfirst⟩ := hf
  refine ⟨(h.candidate o).2 hc, by rw [h.parseFrameHeader]; exact hparse, fun o' hlt hc' => ?_⟩
  exact (h.headerFailsAt o').2 (hfirst o' hlt ((h.candidate o').1 hc'))

theorem allFail (hf : ∀ o, s.candidate o → s.headerFailsAt o) (o : Nat) (hc : u.candidate o) : u.headerFailsAt o :=
  (h.headerFailsAt o).2 (hf o ((h.candidate o).1 hc))

end State.sameSource

/-! The footer. -/

theorem staysIn_readSample (ck : Chunk) (e : Nat) : Reader.staysIn ck (readSample ck e) := by
  unfold readSample
  split_ifs
  · exact Reader.staysIn_bind (Reader.staysIn_readBits ck _) fun _ =>
      Reader.staysIn_bind (Reader.staysIn_readBits ck _) fun _ => Reader.staysIn_orFail ck _ _
  · exact staysIn_readBitsSigned ck e

theorem staysIn_decodePredicted (ck : Chunk) (b : Nat) (pr : Predictor) :
    Reader.staysIn ck (decodePredicted ck b pr) := by
  refine Reader.staysIn_bind (Reader.staysIn_bind (Reader.staysIn_readBits ck _) fun method => ?_) fun _ =>
    Reader.staysIn_bind (Reader.staysIn_orFail ck _ _) fun _ => Reader.staysIn_orFail ck _ _
  split_ifs
  · exact staysIn_residualAfterMethod ck _ _ _
  · exact staysIn_residualAfterMethod ck _ _ _
  · exact Reader.staysIn_failWith ck _

theorem staysIn_subframeBody (ck : Chunk) (kind : SubKind) (order b w e : Nat) :
    Reader.staysIn ck (subframeBody ck kind order b w e) := by
  have hwarm : ∀ n, Reader.staysIn ck (readMany (readSample ck e) n) :=
    Reader.staysIn_readMany (staysIn_readSample ck e)
  cases kind with
  | constant =>
    exact Reader.staysIn_bind (Reader.staysIn_bind (staysIn_readSample ck e) fun _ => Reader.staysIn_pure ck _)
      fun _ => Reader.staysIn_orFail ck _ _
  | verbatim => exact Reader.staysIn_bind (hwarm b) fun _ => Reader.staysIn_orFail ck _ _
  | fixed =>
    exact Reader.staysIn_bind (Reader.staysIn_bind (hwarm order) fun _ => Reader.staysIn_pure ck _)
      fun _ => staysIn_decodePredicted ck b _
  | lpc =>
    refine Reader.staysIn_bind (Reader.staysIn_bind (hwarm order) fun _ => ?_) fun _ => staysIn_decodePredicted ck b _
    exact Reader.staysIn_bind (Reader.staysIn_readBits ck _) fun _ =>
      Reader.staysIn_bind (Reader.staysIn_gate ck _ _) fun _ =>
      Reader.staysIn_bind (Reader.staysIn_readBits ck _) fun _ =>
      Reader.staysIn_bind (Reader.staysIn_gate ck _ _) fun _ =>
      Reader.staysIn_bind (Reader.staysIn_readMany (staysIn_readBitsSigned ck _) _) fun _ => Reader.staysIn_pure ck _

theorem staysIn_readSubframeHeader (ck : Chunk) (b n : Nat) (side : Bool) :
    Reader.staysIn ck (readSubframeHeader ck b n side) := by
  have hwasted : ∀ flag, Reader.staysIn ck (readWasted ck flag n side) := by
    intro flag
    refine Reader.staysIn_bind ?_ fun _ => Reader.staysIn_bind (Reader.staysIn_gate ck _ _) fun _ =>
      Reader.staysIn_bind (Reader.staysIn_gate ck _ _) fun _ => Reader.staysIn_pure ck _
    unfold readWastedCount
    split_ifs
    · exact Reader.staysIn_bind (Reader.staysIn_readUnary ck) fun _ => Reader.staysIn_pure ck _
    · exact Reader.staysIn_pure ck _
  exact Reader.staysIn_bind (Reader.staysIn_readBits ck _) fun _ => Reader.staysIn_bind (Reader.staysIn_gate ck _ _)
    fun _ => Reader.staysIn_bind (Reader.staysIn_readBits ck _) fun _ => Reader.staysIn_bind
    (Reader.staysIn_orFail ck _ _) fun _ => Reader.staysIn_bind (Reader.staysIn_gate ck _ _) fun _ =>
    Reader.staysIn_bind (Reader.staysIn_readBits ck _) fun _ => Reader.staysIn_bind (hwasted _) fun _ =>
    Reader.staysIn_pure ck _

/-- A subframe that decodes ends inside the chunk. -/
theorem staysIn_decodeSubframeAt (ck : Chunk) (b n : Nat) (side : Bool) :
    Reader.staysIn ck (decodeSubframeAt ck b n side) :=
  Reader.staysIn_bind (staysIn_readSubframeHeader ck b n side) fun _ => staysIn_subframeBody ck _ _ _ _ _

theorem readSubframes_inside {ck : Chunk} {hd : FrameHeader} {n c p q : Nat}
    (h : readSubframes ck hd n c p = .ok q) (hp : p ≤ 8 * ck.len) : q ≤ 8 * ck.len := by
  induction n generalizing c p with
  | zero => exact Except.ok.inj h ▸ hp
  | succ n ih =>
    cases hr : decodeSubframeAt ck hd.blockSize hd.bps (isSide hd.assign c) p with
    | error e =>
      rw [readSubframes_error hr] at h
      cases h
    | ok x =>
      rw [readSubframes_ok hr] at h
      exact ih h ((staysIn_decodeSubframeAt ck _ _ _ _ _ _ hr).2 hp)

/-- The header of a frame that is found ends inside the chunk. -/
theorem State.frameFoundAt.inside {s : State} {o p : Nat} {hd : FrameHeader} (h : s.frameFoundAt o hd p) :
    p ≤ 8 * s.chunk.len := by
  obtain ⟨h16, blocking, hsync⟩ := parseFrameHeader_ok h.2.1
  obtain ⟨hleft, -, -, hrest⟩ := headerAfterSync_ok hsync
  obtain ⟨-, hin, -⟩ := headerAfterAssignment_ok hrest
  unfold Chunk.bitsLeft at hleft
  exact hin (by omega)

/-- The CRC-16 is over bytes of the chunk, and so are the 16 bits it is compared with (R430). -/
theorem Chunk.agrees.footer {ck ck' : Chunk} (h : ck.agrees ck') (o : Nat) {q : Nat} (hq : q ≤ 8 * ck.len) :
    footerTrouble ck' o q = footerTrouble ck o q ∧ ∀ t, footerShown ck' o q t → footerShown ck o q t := by
  have hslice : ck'.slice o ((q + 7) / 8 - o) = ck.slice o ((q + 7) / 8 - o) := h.slice (by omega)
  unfold footerTrouble footerShown
  dsimp only
  rw [h.bitsLeft, hslice]
  by_cases hcut : ck.bitsLeft (8 * ((q + 7) / 8)) < 16
  · rw [if_pos hcut, if_pos hcut, if_pos hcut, if_pos hcut, if_pos hcut]
    exact ⟨rfl, fun _ => id⟩
  · rw [h.bits (Nat.le_of_not_lt hcut)]
    exact ⟨rfl, fun _ => id⟩

end Sys2Proof.Machine

/-! The commands but DECODE, and power-on (R490, R492, R500, R505, R520 to R545, R610). -/

namespace Sys2Proof.Machine

/-! INIT (R520). -/

/-- An INIT with STREAMINFO loaded is refused for the cause its checks find. -/
theorem exec_init_fails {s : State} {c : Cause} (hd : s.dstate = .uninitialized) (hv : s.siValid = true)
    (hc : checkStreamInfo s.params s.si = some c) : exec .init s = .next (s.refuse .streaminfoInvalid c.number) := by
  refine congrArg Host.Outcome.next ?_
  rw [if_pos hd, if_pos hv, hc]

theorem exec_init_passes {s : State} (hd : s.dstate = .uninitialized) (hv : s.siValid = true)
    (hc : checkStreamInfo s.params s.si = none) :
    exec .init s = .next ({ s.clearStream 0 with dstate := .initialized } : State).complete := by
  refine congrArg Host.Outcome.next ?_
  rw [if_pos hd, if_pos hv, hc]

/-- A stream that begins at sample 0 does not taint the MD5 (R532). -/
theorem State.clearStream_zero (s : State) :
    s.clearStream 0 =
      { s with
        ch := clearedChannels
        pos := 0
        outTs := 0
        out := .empty
        consec := 0
        status :=
          { s.status with crc16Mismatch := false, silenced := false, recovered := false, md5Result := .noResult }
        md5 := .cleared } := by
  unfold State.clearStream
  rw [show ((0 : DWord) != 0) = false by decide]
  rfl

/-- INIT's checks over numerals, in the order of R520 (R250 to R253). -/
theorem checkStreamInfo_eq (p : Config.Params) (si : StreamInfo) :
    checkStreamInfo p si =
      if si.rate = 0 ∨ p.maxSampleRate < si.rate.toNat then some .siRate
      else if si.channels.toNat < 1 ∨ p.maxChannels < si.channels.toNat then some .siChannels
      else if si.bps.toNat < 4 ∨ 32 < si.bps.toNat then some .siBps
      else if si.minBlock.toNat < 16 ∨ p.maxBlockSize < si.minBlock.toNat then some .siMinBlock
      else if si.maxBlock.toNat < si.minBlock.toNat then some .siBlockOrder
      else none := by
  have hrate : si.rate = 0 ↔ si.rate.toNat = 0 := by rw [← BitVec.toNat_inj]; rfl
  unfold checkStreamInfo
  refine if_congr ?_ rfl (if_congr ?_ rfl (if_congr ?_ rfl (if_congr ?_ rfl rfl)))
  all_goals
    simp only [Bool.or_eq_true, decide_eq_true_eq, Bool.not_eq_true', ← Bool.not_eq_true, validSampleRate_iff,
      validChannelCount_iff, validBitDepth_iff, validBlockSize_iff, hrate]
  · omega
  · omega
  · omega
  · rw [if_neg (by decide)]
    omega

/-- Settles O17: INIT's conditions in the order of R520. -/
theorem initCommand : Obligations.InitCommand := by
  intro s
  refine ⟨fun hd => congrArg Host.Outcome.next (if_neg hd), fun hd hv => ?unloaded, fun hd hv =>
    ⟨fun h => ?rate, fun h0 h1 h => ?channels, fun h0 h1 h2 h3 h => ?bps, fun h0 h1 h2 h3 h4 h5 =>
      ⟨fun h => ?minBlock, fun h6 h7 h => ?order, fun h6 h7 h8 => ?accepted⟩⟩⟩
  case unloaded =>
    refine congrArg Host.Outcome.next ((if_pos hd).trans (if_neg ?_))
    rw [hv]
    decide
  case accepted =>
    rw [exec_init_passes hd hv (by rw [checkStreamInfo_eq, if_neg (not_or.2 ⟨h0, Nat.not_lt.2 h1⟩), if_neg (by omega),
      if_neg (by omega), if_neg (by omega), if_neg (by omega)]), State.clearStream_zero]
    rfl
  case rate => exact exec_init_fails (c := .siRate) hd hv (by rw [checkStreamInfo_eq, if_pos h])
  case channels =>
    exact exec_init_fails (c := .siChannels) hd hv (by
      rw [checkStreamInfo_eq, if_neg (not_or.2 ⟨h0, Nat.not_lt.2 h1⟩), if_pos h])
  case bps =>
    exact exec_init_fails (c := .siBps) hd hv (by
      rw [checkStreamInfo_eq, if_neg (not_or.2 ⟨h0, Nat.not_lt.2 h1⟩), if_neg (by omega), if_pos h])
  case minBlock =>
    exact exec_init_fails (c := .siMinBlock) hd hv (by
      rw [checkStreamInfo_eq, if_neg (not_or.2 ⟨h0, Nat.not_lt.2 h1⟩), if_neg (by omega), if_neg (by omega), if_pos h])
  case order =>
    exact exec_init_fails (c := .siBlockOrder) hd hv (by
      rw [checkStreamInfo_eq, if_neg (not_or.2 ⟨h0, Nat.not_lt.2 h1⟩), if_neg (by omega), if_neg (by omega),
        if_neg (by omega), if_pos h])

/-! FLUSH, RESET, SEEK, CHECK_MD5 (R525 to R545). -/

/-- Settles O18: by the two states FLUSH is accepted in. -/
theorem flushCommand : Obligations.FlushCommand := by
  intro s
  refine ⟨fun hd => congrArg Host.Outcome.next (if_pos hd), fun hi hd => congrArg Host.Outcome.next (if_neg ?_)⟩
  exact not_or.2 ⟨hi, hd⟩

/-- A cleared channel buffer reads 0 everywhere (R26, R532). -/
theorem State.sample_cleared {s : State} (h : s.ch = clearedChannels) (c i : Nat) : s.sample c i = 0 := by
  have hrow : clearedChannels.getD c [] = [] := by
    rw [show clearedChannels = List.replicate 8 [] from rfl, List.getD_eq_getElem?_getD, List.getElem?_replicate]
    split_ifs <;> rfl
  rw [State.sample_eq, h, hrow]
  rfl

/-- Settles O19: RESET has no condition, and the buffers it clears read 0. -/
theorem resetCommand : Obligations.ResetCommand := by
  refine fun s => ⟨congrArg Host.Outcome.next ?_, State.sample_cleared rfl⟩
  rw [s.clearStream_zero]
  rfl

/-- Settles O20: by the three states SEEK is accepted in. -/
theorem seekCommand : Obligations.SeekCommand := by
  intro s
  refine ⟨fun hd => congrArg Host.Outcome.next ((if_pos hd).trans ?accepted),
    fun hd => congrArg Host.Outcome.next (if_neg ?refused)⟩
  case accepted => rfl
  case refused => rcases hd with hd | hd <;> rw [hd] <;> decide

/-- When CHECK_MD5 compares (R545). -/
def State.md5Checkable (s : State) : Prop :=
  s.dstate = .endOfStream ∧ s.cfg.md5En = true ∧ s.md5.tainted = false ∧ s.si.md5 ≠ .zero

theorem exec_checkMd5_unmet {s : State} (h : ¬s.md5Checkable) :
    exec .checkMd5 s = .next (s.setMd5Result .notChecked).complete :=
  congrArg Host.Outcome.next (if_neg h)

theorem exec_checkMd5_compares {s : State} (h : s.md5Checkable) :
    exec .checkMd5 s = .next (({ s with md5Digest := md5Finalize s.md5 } : State).setMd5Result
      (if md5Finalize s.md5 = s.si.md5 then .matched else .mismatch)).complete :=
  congrArg Host.Outcome.next (if_pos h)

/-- Settles O24: the four conditions of a comparison, or one that fails. -/
theorem checkMd5Command : Obligations.CheckMd5Command := by
  refine fun s => ⟨fun h => exec_checkMd5_unmet ?unmet, fun hd hen ht hsig => ?compared⟩
  case compared =>
    rw [exec_checkMd5_compares ⟨hd, hen, ht, hsig⟩]
    generalize md5Finalize s.md5 = d
    rfl
  case unmet =>
    rintro ⟨hd, hen, ht, hsig⟩
    rcases h with h | h | h | h
    · exact h hd
    · rw [hen] at h; cases h
    · rw [ht] at h; cases h
    · exact hsig h

/-! Refusals (R490, R492, R561). -/

/-- Settles O27: DECODE by its two pre-checks. -/
theorem refusalsAndPreChecks : Obligations.RefusalsAndPreChecks := by
  refine ⟨fun s => ⟨fun hi hd => congrArg Host.Outcome.next (if_neg (not_or.2 ⟨hi, hd⟩)), fun hd hl => ?_,
    exec_decode_starts⟩, fun s code cause => ⟨rfl, rfl, rfl⟩⟩
  exact congrArg Host.Outcome.next ((if_pos hd).trans (if_pos hl))

/-! Power-on (R610). -/

/-- Settles O14: each register as it stands in the reset state, and the buffers through the host's window on them. -/
theorem powerOnValues : Obligations.PowerOnValues := by
  refine ⟨rfl, rfl, fun p => ⟨rfl, rfl, rfl, State.sample_cleared rfl, rfl, rfl, rfl, rfl, rfl, rfl, ?status, ?error,
    ?config, rfl, rfl, rfl, rfl, rfl, rfl, rfl, rfl, rfl, rfl, rfl, rfl, rfl, fun a ha => ?bytes⟩⟩
  case status => exact (by decide : State.reset.statusWord = 0)
  case error => exact (by decide : State.reset.errorWord = 0)
  case config =>
    show 0#30 ++ BitVec.ofBool p.crc16RejectReset ++ BitVec.ofBool false = _
    cases p.crc16RejectReset <;> decide
  case bytes =>
    unfold State.hostByte
    rw [if_pos (by rw [Bool.or_eq_true]; exact ha)]
    rfl

/-- Settles O15: nothing is written, no DECODE runs and no stream has started. -/
theorem powerOnInvariant : Obligations.PowerOnInvariant := fun p =>
  { idle := rfl
    memCanonical := rfl
    memBuffers := nofun
    consecBound := Nat.zero_le _
    consecError := iff_of_false (Nat.succ_ne_zero _).symm nofun
    consecStart := fun _ => rfl
    started := fun h => absurd rfl h
    parsed := nofun
    channels := clearedChannels_canonical p
    md5Pending := rfl
    seekTable := Nat.zero_le _ }

/-! A failed subframe (R505). -/

/-- A failed subframe silences the samples of its channel and of every later one (R505). -/
theorem State.sample_subframeFailed {s : State} (hrows : s.ch.length = 8) (hchannels : s.dec.header.channels ≤ 8)
    (cause : Cause) (c i : Nat) :
    (s.subframeFailed cause).sample c i =
      if s.dec.chan ≤ c ∧ c < s.dec.header.channels ∧ i < s.dec.header.blockSize then 0 else s.sample c i := by
  rw [State.sample_of_ch (s := s.silenceChannels s.dec.chan s.dec.header.blockSize
    (s.dec.header.channels - s.dec.chan)) (by rw [s.subframeFailed_eq]) c i]
  by_cases hc : s.dec.chan ≤ s.dec.header.channels
  · rw [State.sample_silenceChannels _ _ _ _ _ _ (by omega), Nat.add_sub_cancel' hc]
  · rw [Nat.sub_eq_zero_of_le (by omega), State.silenceChannels_zero, if_neg (by omega)]

/-- Settles O46: the samples by the silenced channels, the rest by the failure as one update. -/
theorem failedSubframeSilenced : Obligations.FailedSubframeSilenced := by
  intro s cause hrows hchannels
  have hsample := State.sample_subframeFailed hrows hchannels cause
  refine ⟨fun c i h1 h2 h3 => ?_, fun c i h => ?_, ?_⟩
  · rw [hsample, if_pos ⟨h1, h2, h3⟩]
  · rw [hsample, if_neg (by omega)]
  · rw [s.subframeFailed_eq]

end Sys2Proof.Machine

/-! The MD5 engine (R551 to R555): what absorbing counts and holds back, the compression round by round, the padding,
and the digests of the test vectors. -/

namespace Sys2Proof.Machine

/-! Absorbing (R551). -/

/-- Absorbing counts every byte modulo 2^64 and does not touch the taint. -/
theorem md5Absorb_frame (d : List Byte) {m : Md5State} (h : m.buf.length = m.len.toNat % 64) :
    (md5Absorb m d).len = m.len + BitVec.ofNat 64 d.length ∧ (md5Absorb m d).tainted = m.tainted := by
  induction d generalizing m with
  | nil => exact ⟨(BitVec.add_zero _).symm, rfl⟩
  | cons x d ih =>
    obtain ⟨hlen, hpend, htaint⟩ := md5AbsorbByte_frame m x h
    obtain ⟨ihlen, ihtaint⟩ := ih hpend
    rw [md5Absorb_cons]
    refine ⟨?_, ihtaint.trans htaint⟩
    rw [ihlen, hlen, List.length_cons, BitVec.add_assoc, Nat.add_comm, BitVec.ofNat_add]
    rfl

/-- Short of a block the bytes are only appended. -/
theorem md5Absorb_short (d : List Byte) {m : Md5State} (h : m.buf.length + d.length < 64) :
    md5Absorb m d = { m with buf := m.buf ++ d, len := m.len + BitVec.ofNat 64 d.length } := by
  induction d generalizing m with
  | nil => simp [md5Absorb_nil]
  | cons x d ih =>
    rw [List.length_cons] at h
    rw [md5Absorb_cons, md5AbsorbByte_append m x (by omega), ih (by simp; omega)]
    simp only [List.append_assoc, List.singleton_append, List.length_cons, BitVec.add_assoc]
    rw [Nat.add_comm d.length, BitVec.ofNat_add]
    rfl

/-- The bytes that fill a block have it compressed, and leave nothing pending. -/
theorem md5Absorb_block {m : Md5State} {d : List Byte} (hm : m.buf.length < 64) (h : m.buf.length + d.length = 64) :
    md5Absorb m d = { md5Compress m (m.buf ++ d) with buf := [], len := m.len + BitVec.ofNat 64 d.length } := by
  obtain rfl | ⟨e, x, rfl⟩ := d.eq_nil_or_concat'
  · simp at h; omega
  · rw [List.length_append, List.length_singleton] at h ⊢
    rw [md5Absorb_append, md5Absorb_short e (by omega), md5Absorb_cons, md5Absorb_nil,
      md5AbsorbByte_block _ _ (by simp; omega)]
    obtain ⟨-, -, htaint⟩ := md5Compress_frame m (m.buf ++ (e ++ [x]))
    simp only [List.append_assoc]
    rw [md5Compress_congr (m := m) (n := { m with
      buf := m.buf ++ (e ++ [x]), len := m.len + BitVec.ofNat 64 e.length + 1 }) rfl rfl rfl rfl]
    simp only [htaint]
    rw [BitVec.ofNat_add, ← BitVec.add_assoc]
    rfl

/-! The compression (R552). -/

/-- A word is its four lanes, the first the lowest (R95). -/
theorem wordOfLanes_toNat (b0 b1 b2 b3 : Byte) :
    (wordOfLanes b0 b1 b2 b3).toNat =
      b0.toNat + 2 ^ 8 * b1.toNat + 2 ^ 16 * b2.toNat + 2 ^ 24 * b3.toNat := by
  unfold wordOfLanes
  change @BitVec.toNat (8 + 8 + 8 + 8) _ = _
  simp only [toNat_append_add]
  omega

theorem md5Index_lt {i : Nat} : md5Index i < 16 := by
  unfold md5Index
  split_ifs <;> omega

/-- A message word is four bytes of the block, the first in the lowest lane (R552). -/
theorem md5Message_getD (x : List Byte) {g : Nat} (h : g < 16) :
    (md5Message x).getD g 0 =
      BitVec.ofNat 32 ((x.getD (4 * g + 0) 0).toNat + 2 ^ 8 * (x.getD (4 * g + 1) 0).toNat +
        2 ^ 16 * (x.getD (4 * g + 2) 0).toNat + 2 ^ 24 * (x.getD (4 * g + 3) 0).toNat) := by
  rw [← wordOfLanes_toNat, BitVec.ofNat_toNat, BitVec.setWidth_eq]
  unfold md5Message
  rw [List.getD_eq_getElem?_getD, List.getElem?_map, List.getElem?_range h]
  rfl

/-- The words of the 64 rounds of a compression, each round by the table of its quarter. -/
theorem md5Rounds_of_steps {x : List Byte} {v : Nat → Word × Word × Word × Word}
    (hv : ∀ i, v (i + 1) = md5Round (md5Message x) (v i) i) :
    md5Rounds x (fun i => (v i).1) (fun i => (v i).2.1) (fun i => (v i).2.2.1) fun i => (v i).2.2.2 := by
  intro i hi
  dsimp only
  rw [hv i]
  refine ⟨rfl, rfl, rfl, ?_⟩
  show _ + (_ + md5Mix i _ _ _ + _ + (md5Message x).getD (md5Index i) 0).rotateLeft (md5Rotation i) = _
  rw [md5Message_getD x md5Index_lt]
  have hrot : md5Rotation i = (if i < 16 then [7, 12, 17, 22] else if i < 32 then [5, 9, 14, 20]
      else if i < 48 then [4, 11, 16, 23] else [6, 10, 15, 21]).getD (i % 4) 0 := by
    unfold md5Rotation
    split_ifs <;> rfl
  rw [hrot]
  rfl

/-! The padding (R553). -/

/-- The 64-bit length as eight bytes, the low one first. -/
theorem leBytes_length_field (n : DWord) :
    leBytes 8 ((8 * n).toNat : Int) =
      (List.range 8).map fun j => BitVec.ofNat 8 (8 * n.toNat % 2 ^ 64 / 2 ^ (8 * j)) := by
  unfold leBytes
  refine List.map_congr_left fun j _ => ?_
  rw [← Int.natCast_ediv, BitVec.ofInt_natCast, BitVec.toNat_mul]
  rfl

/-- The 64-bit count of bytes keeps what is past the last block. -/
theorem md5Len_mod (n : DWord) (k : Nat) : (n + BitVec.ofNat 64 k).toNat % 64 = (n.toNat + k) % 64 := by
  rw [BitVec.toNat_add, BitVec.toNat_ofNat]
  omega

/-- A digest is the words after the padding, which ends a block. -/
theorem md5Finalize_padding {m : Md5State} (h : m.buf.length = m.len.toNat % 64) :
    ∃ (zeros : Nat) (t : Md5State),
      zeros < 64 ∧ (m.buf.length + 1 + zeros) % 64 = 56 ∧
        t = md5Absorb m ([0x80] ++ List.replicate zeros 0 ++
          (List.range 8).map fun j => BitVec.ofNat 8 (8 * m.len.toNat % 2 ^ 64 / 2 ^ (8 * j))) ∧
        t.buf = [] ∧ md5Finalize m = ⟨t.a, t.b, t.c, t.d⟩ := by
  obtain ⟨hlen, hpend, -⟩ := md5AbsorbByte_frame m 0x80 h
  have hone : (m.len + 1).toNat % 64 = (m.len.toNat + 1) % 64 := md5Len_mod m.len 1
  rw [hlen, hone] at hpend
  obtain ⟨hz, hpad⟩ := md5PadZeros_spec (md5AbsorbByte m 0x80).buf.length (by omega)
  have hsum : (m.buf.length + 1 + md5PadZeros (md5AbsorbByte m 0x80).buf.length) % 64 = 56 := by omega
  generalize hzeros : md5PadZeros (md5AbsorbByte m 0x80).buf.length = zeros at hz hpad hsum
  refine ⟨zeros, _, hz, hsum, rfl, ?block, ?digest⟩
  case block =>
    have hb := md5Absorb_pending (bytes := [0x80] ++ List.replicate zeros 0 ++
          (List.range 8).map fun j => BitVec.ofNat 8 (8 * m.len.toNat % 2 ^ 64 / 2 ^ (8 * j))) h
    rw [(md5Absorb_frame _ h).1, md5Len_mod, List.length_append, List.length_append, List.length_singleton,
      List.length_replicate, List.length_map, List.length_range] at hb
    exact List.eq_nil_of_length_eq_zero (by omega)
  case digest =>
    unfold md5Finalize
    dsimp only
    rw [hzeros, leBytes_length_field, md5Absorb_append, md5Absorb_append]
    rfl

/-! The digests (R555). -/

/-- Settles O56: absorbing by induction over the bytes, a compression round by round, the test vectors by
running them. -/
theorem md5PendingBytes : Obligations.Md5PendingBytes := by
  refine ⟨fun s b c n => ⟨md5FrameBytes_length s b c n, fun i ch k hi hc hk => ?_⟩, fun m d h => ?_,
    md5Absorb_append, fun m d => md5Absorb_block, fun m x => ?_, fun m => md5Finalize_padding,
    fun m d _ h => md5Absorb_short d h, ?_, ?_, ?_, ?_, ?_, ?_⟩
  · rw [md5FrameBytes_getD s b c n i ch k hi hc hk]
    push_cast
    rfl
  · obtain ⟨hlen, htaint⟩ := md5Absorb_frame d h
    exact ⟨hlen, md5Absorb_pending h, htaint⟩
  · obtain ⟨v, h0, hv, hc⟩ := md5Compress_rounds m x
    refine ⟨_, _, _, _, ?_, ?_, ?_, ?_, md5Rounds_of_steps hv, hc⟩ <;> rw [h0]
  all_goals decide +kernel

end Sys2Proof.Machine

/-! Two DECODEs of one chunk (R515): what they write. -/

namespace Sys2Proof.Machine

/-! The samples. -/

/-- The states stand at one point of a DECODE and agree on the first `b` samples of the first `c` channels. -/
structure State.alike (b c : Nat) (v w : State) : Prop where
  dec : w.dec = v.dec
  rows : v.ch.length = 8 ∧ w.ch.length = 8
  samples : ∀ d j, d < c → j < b → w.sample d j = v.sample d j

namespace State.alike

variable {b c : Nat} {v w : State}

theorem writeChannel (h : State.alike b c v w) (hc : c < 8) {xs : List Int} (hx : xs.length = b) (x : DecodeCtx) :
    State.alike b (c + 1) { v.writeChannel c xs with dec := x } { w.writeChannel c xs with dec := x } := by
  refine ⟨rfl, ⟨(v.writeChannel_length c xs).trans h.rows.1, (w.writeChannel_length c xs).trans h.rows.2⟩,
    fun d j hd hj => ?_⟩
  show (w.writeChannel c xs).sample d j = (v.writeChannel c xs).sample d j
  rw [v.sample_writeChannel c xs d j (h.rows.1.symm ▸ hc), w.sample_writeChannel c xs d j (h.rows.2.symm ▸ hc)]
  split_ifs with hw
  · rfl
  · exact h.samples d j (by omega) hj

/-- The footers of two chunks that agree are checked alike (R430). -/
theorem checkFooter (h : State.alike b c v w) (hck : v.chunk.agrees w.chunk) (hcfg : w.cfg = v.cfg)
    (hin : v.dec.cursor ≤ 8 * v.chunk.len) : State.alike b c v.checkFooter w.checkFooter := by
  refine ⟨?_, ?_, fun d j hd hj => ?_⟩
  · have hbyte : w.footerByte = v.footerByte := by unfold State.footerByte; rw [h.dec]
    have hlooked : w.footerLooked.dec = v.footerLooked.dec := by
      unfold State.footerLooked State.footerRead
      dsimp only
      rw [hck.bitsLeft, hbyte, h.dec]
    rw [w.checkFooter_trouble, v.checkFooter_trouble, h.dec, (hck.footer _ hin).1]
    cases footerTrouble v.chunk v.dec.frameStart v.dec.cursor with
    | none => exact congrArg (fun x : DecodeCtx => { x with phase := .decorrelate }) hlooked
    | some cause =>
      dsimp only
      cases hpol : v.cfg.crc16Reject with
      | true =>
        rw [w.footerLooked.footerMismatch_reject cause (hcfg ▸ hpol),
          v.footerLooked.footerMismatch_reject cause hpol, State.decodeFailed_dec, State.decodeFailed_dec]
      | false =>
        rw [w.footerLooked.footerMismatch_warn cause (hcfg ▸ hpol), v.footerLooked.footerMismatch_warn cause hpol]
        exact congrArg (fun x : DecodeCtx => { x with phase := .decorrelate, warn := some cause }) hlooked
  · rw [v.checkFooter_ch, w.checkFooter_ch]
    exact h.rows
  · rw [State.sample_of_ch v.checkFooter_ch, State.sample_of_ch w.checkFooter_ch]
    exact h.samples d j hd hj

/-- A subframe that fails leaves the channels before it, and 0 in those from it on (R505). -/
theorem subframeFailed (h : State.alike v.dec.header.blockSize v.dec.chan v w) (hc : v.dec.header.channels ≤ 8)
    (e : Cause) :
    State.alike v.dec.header.blockSize v.dec.header.channels (v.subframeFailed e) (w.subframeFailed e) := by
  refine ⟨by rw [State.subframeFailed_dec, State.subframeFailed_dec, h.dec], ?_, fun d j hd hj => ?_⟩
  · rw [v.subframeFailed_eq, w.subframeFailed_eq]
    exact ⟨(v.silenceChannels_length _ _ _).trans h.rows.1, (w.silenceChannels_length _ _ _).trans h.rows.2⟩
  · rw [State.sample_subframeFailed h.rows.1 hc, State.sample_subframeFailed h.rows.2 (h.dec ▸ hc), h.dec]
    split_ifs with hs
    · rfl
    · exact h.samples d j (by omega) hj

/-- The subframes of the `n` channels that are left store the same samples, and end at one point (R500). -/
theorem decodeChannels {v w : State} (h : State.alike v.dec.header.blockSize v.dec.chan v w)
    (hck : v.chunk.agrees w.chunk) (hcfg : w.cfg = v.cfg) (hin : v.dec.cursor ≤ 8 * v.chunk.len) (n : Nat)
    (hp : v.dec.phase = .subframe) (hc : v.dec.chan < v.dec.header.channels) (h8 : v.dec.header.channels ≤ 8)
    (hn : v.dec.header.channels = v.dec.chan + n) :
    State.alike v.dec.header.blockSize v.dec.header.channels (v.decodeChannels n) (w.decodeChannels n) := by
  induction n generalizing v w with
  | zero => omega
  | succ n ih =>
    have hread := hck.decodeSubframeAt v.dec.header.blockSize v.dec.header.bps (isSide v.dec.header.assign v.dec.chan)
    rw [State.decodeChannels_succ hp, State.decodeChannels_succ (h.dec ▸ hp)]
    rcases v.decodeSubframe_cases with ⟨xs, q, hr, hv⟩ | ⟨e, ⟨hr, -⟩, hv⟩
    · have hw : w.decodeSubframe = w.subframeDecoded xs q := by
        unfold State.decodeSubframe State.runSubframe
        dsimp only
        rw [h.dec, hread, hr]
      have hq := (staysIn_decodeSubframeAt _ _ _ _ _ _ _ hr).2 hin
      have hx := decodeSubframeAt_length hr
      rw [hv, hw]
      by_cases hnext : v.dec.chan + 1 < v.dec.header.channels
      · rw [State.subframeDecoded_next hnext, State.subframeDecoded_next (h.dec ▸ hnext), h.dec]
        exact ih (v := { v.writeChannel v.dec.chan xs with
            dec := { v.dec with phase := .subframe, cursor := q, chan := v.dec.chan + 1 } })
          (h.writeChannel (by omega) hx _) hck hcfg hq rfl hnext h8
          (show v.dec.header.channels = v.dec.chan + 1 + n by omega)
      · rw [State.subframeDecoded_last hnext, State.subframeDecoded_last (h.dec ▸ hnext), h.dec,
          State.decodeChannels_past (State.checkFooter_past _), State.decodeChannels_past (State.checkFooter_past _),
          show v.dec.header.channels = v.dec.chan + 1 by omega]
        exact (h.writeChannel (by omega) hx _).checkFooter hck hcfg hq
    · have hw : w.decodeSubframe = w.subframeFailed e := by
        unfold State.decodeSubframe State.runSubframe
        dsimp only
        rw [h.dec, hread, hr]
      rw [hv, hw, State.decodeChannels_past (by rw [State.subframeFailed_dec]; nofun),
        State.decodeChannels_past (by rw [State.subframeFailed_dec]; nofun)]
      exact h.subframeFailed h8 e

theorem stereo (h : State.alike b c v w) (hc : 2 ≤ c) (f : Int → Int → Int × Int) {d j : Nat} (hd : d < c)
    (hj : j < b) : (w.stereo f b).sample d j = (v.stereo f b).sample d j := by
  rw [w.sample_stereo f b d j (by rw [h.rows.2]; decide), v.sample_stereo f b d j (by rw [h.rows.1]; decide),
    h.samples 0 j (by omega) hj, h.samples 1 j (by omega) hj, h.samples d j hd hj]

/-- The channels are recombined alike (R360). -/
theorem decorrelate {a : BitVec 4} (h : State.alike b (channelCount a) v w) {d j : Nat} (hd : d < channelCount a)
    (hj : j < b) : (w.decorrelate a b).sample d j = (v.decorrelate a b).sample d j := by
  unfold State.decorrelate
  by_cases ha : a.toNat ≤ 7
  · rw [if_pos ha, if_pos ha]
    exact h.samples d j hd hj
  · have hc : 2 ≤ channelCount a := by unfold channelCount; rw [if_neg ha]
    rw [if_neg ha, if_neg ha]
    split_ifs
    · exact h.stereo hc leftSide hd hj
    · exact h.stereo hc rightSide hd hj
    · exact h.stereo hc midSide hd hj
    · exact h.samples d j hd hj

/-- A delivery keeps the samples that the decorrelation leaves (R360). -/
theorem deliverDecoded {hd : FrameHeader} (h : State.alike hd.blockSize hd.channels v w)
    (ha : hd.channels = channelCount hd.assign) (hv : v.dec = .unset ∨ v.dec.header = hd ∧ v.dec.phase = .decorrelate)
    {d j : Nat} (hdc : d < hd.channels) (hj : j < hd.blockSize) :
    w.deliverDecoded.sample d j = v.deliverDecoded.sample d j := by
  rcases hv with hv | ⟨hhead, hphase⟩
  · rw [State.deliverDecoded_over (s := v) (by rw [hv]; rfl),
      State.deliverDecoded_over (s := w) (by rw [h.dec, hv]; rfl)]
    exact h.samples d j hdc hj
  · unfold State.deliverDecoded
    rw [if_pos hphase, if_pos (h.dec ▸ hphase), State.sample_of_ch (State.finishFrame_ch _),
      State.sample_of_ch (State.finishFrame_ch _), h.dec, hhead]
    rw [ha] at h hdc
    exact h.decorrelate hdc hj

end State.alike

/-- The samples of a frame that is found do not depend on older ones (R26, R515). -/
theorem State.sameSource.samples {s u : State} (h : s.sameSource u) (hs : s.ch.length = 8) (hu : u.ch.length = 8)
    {o p : Nat} {hd : FrameHeader} (hfound : s.frameFoundAt o hd p) {c j : Nat} (hc : c < hd.channels)
    (hj : j < hd.blockSize) : u.decodeChunk.sample c j = s.decodeChunk.sample c j := by
  have ha := State.admits_of_parse hfound.2.1
  have hdec := s.atFrame_dec o hd p
  have hchunk := s.atFrame_chunk o hd p
  have hstart : State.alike hd.blockSize 0 (s.atFrame o hd p) (u.atFrame o hd p) :=
    ⟨by rw [u.atFrame_dec, hdec, h.firstHeaderCause], by rw [s.atFrame_eq, u.atFrame_eq]; exact ⟨hs, hu⟩, nofun⟩
  have hcfg : (u.atFrame o hd p).cfg = (s.atFrame o hd p).cfg := by rw [s.atFrame_eq, u.atFrame_eq]; exact h.cfg
  have hck : (s.atFrame o hd p).chunk.agrees (u.atFrame o hd p).chunk := by
    rw [hchunk, u.atFrame_chunk]
    exact h.chunk
  have hin := hfound.inside
  rw [State.decodeChunk_eq hfound, State.decodeChunk_eq (h.frameFoundAt hfound)]
  rw [← hchunk] at hin
  generalize s.atFrame o hd p = v at *
  obtain ⟨hphase, hcursor, hhead, hchan⟩ :
      v.dec.phase = .subframe ∧ v.dec.cursor = p ∧ v.dec.header = hd ∧ v.dec.chan = 0 := by
    rw [hdec]
    exact ⟨rfl, rfl, rfl, rfl⟩
  subst hhead hcursor
  have hpos : v.dec.chan < v.dec.header.channels := hchan ▸ ha.channels.1
  have hn : v.dec.header.channels = v.dec.chan + v.dec.header.channels := by rw [hchan, Nat.zero_add]
  exact ((hchan ▸ hstart).decodeChannels hck hcfg hin _ hphase hpos ha.channels.2 hn).deliverDecoded ha.assigned
    (v.decodeChannels_phase _ hphase hpos hn) hc hj

end Sys2Proof.Machine

namespace Sys2Proof.Machine

/-! The registers. -/

/-- Two counters that went up by the same amount (R45). -/
theorem sub_eq_of_eq_add {x y x' y' d : Word} (hx : x' = x + d) (hy : y' = y + d) : y' - y = x' - x := by
  rw [hx, hy, add_sub_cancel_left, add_sub_cancel_left]

theorem sub_eq_of_eq {x y x' y' : Word} (hx : x' = x) (hy : y' = y) : y' - y = x' - x := by
  rw [hx, hy, sub_self, sub_self]

/-- The DECODEs from `s` to `s'` and from `u` to `u'` count the same (R507). -/
def sameCounted (s u s' u' : State) : Prop :=
  u'.status.cmdOk = s'.status.cmdOk ∧ u'.consec = s'.consec ∧ u'.dstate = s'.dstate ∧
    u'.cnt.framesOk - u.cnt.framesOk = s'.cnt.framesOk - s.cnt.framesOk ∧
    u'.cnt.decodeFail - u.cnt.decodeFail = s'.cnt.decodeFail - s.cnt.decodeFail

/-- The footer registers of `s'` and `u'` are the same (R44, R47). -/
def sameFooter (s' u' : State) : Prop :=
  u'.frameBytes = s'.frameBytes ∧ u'.hdr.crc16Read = s'.hdr.crc16Read ∧ u'.hdr.crc16Computed = s'.hdr.crc16Computed

theorem footerShown.sameFooter {ck : Chunk} {o q : Nat} {s' u' : State} (hs : footerShown ck o q s')
    (hu : footerShown ck o q u') : sameFooter s' u' := by
  obtain ⟨h1, h2, h3⟩ := hs
  obtain ⟨k1, k2, k3⟩ := hu
  exact ⟨k1.trans h1.symm, k2.trans h2.symm, k3.trans h3.symm⟩

/-- The last-header registers that show one header and one footer are the same (R47). -/
theorem headerShown.registers {o : Nat} {hd : FrameHeader} {s' u' : State} (hs : headerShown o hd s')
    (hu : headerShown o hd u') (hf : sameFooter s' u') : headerRegisters u' = headerRegisters s' := by
  obtain ⟨hbytes, hread, hcalc⟩ := hf
  exact headerRegisters_eq.2 ⟨by rw [hu.2, hs.2, hread, hcalc], hu.1.trans hs.1.symm, hbytes⟩

/-- The events of two DECODEs that show the same are counted the same (R45). -/
theorem eventsCounted.same {s u s' u' : State} (hs : eventsCounted s s') (hu : eventsCounted u u')
    (hfirst : u.firstHeaderCause = s.firstHeaderCause) (hcrc : u'.status.crc16Mismatch = s'.status.crc16Mismatch)
    (hsil : u'.status.silenced = s'.status.silenced) (hrec : u'.status.recovered = s'.status.recovered) :
    u'.cnt.syncRecovered - u.cnt.syncRecovered = s'.cnt.syncRecovered - s.cnt.syncRecovered ∧
      u'.cnt.crc8Err - u.cnt.crc8Err = s'.cnt.crc8Err - s.cnt.crc8Err ∧
      u'.cnt.crc16Err - u.cnt.crc16Err = s'.cnt.crc16Err - s.cnt.crc16Err ∧
      u'.cnt.subframeErr - u.cnt.subframeErr = s'.cnt.subframeErr - s.cnt.subframeErr := by
  obtain ⟨h1, h2, h3, h4⟩ := hs
  obtain ⟨k1, k2, k3, k4⟩ := hu
  rw [hrec] at k1
  rw [hfirst] at k2
  rw [hcrc] at k3
  rw [hsil] at k4
  exact ⟨sub_eq_of_eq_add h1 k1, sub_eq_of_eq_add h2 k2, sub_eq_of_eq_add h3 k3, sub_eq_of_eq_add h4 k4⟩

/-- A delivery ends with no cause of a header (R507, R513). -/
theorem deliveryReported.code {failed : Option (Nat × Cause)} {warn : Option Cause} {s t : State}
    (h : deliveryReported failed warn s t) : ¬(t.err.code = .syncLost ∨ t.err.code = .headerInvalid) := by
  unfold deliveryReported at h
  split at h <;> simp [h.2]

/-- The answers of the DECODEs from `s` to `s'` and from `u` to `u'` are the same (R515). -/
structure sameAnswer (s u s' u' : State) : Prop where
  err : u'.err = s'.err
  counted : sameCounted s u s' u'
  mismatch : u'.status.crc16Mismatch = s'.status.crc16Mismatch
  silenced : u'.status.silenced = s'.status.silenced
  recovered : u'.status.recovered = s'.status.recovered
  out : u'.out = s'.out
  stream : u'.pos = s'.pos ∧ u'.md5 = s'.md5
  noHeader : s'.err.code = .syncLost ∨ s'.err.code = .headerInvalid →
    headerRegisters s' = headerRegisters s ∧ headerRegisters u' = headerRegisters u ∧ s'.ch = s.ch ∧ u'.ch = u.ch
  header : ¬(s'.err.code = .syncLost ∨ s'.err.code = .headerInvalid) → headerRegisters u' = headerRegisters s' ∧
    ∀ c j, c < s'.hdr.count.toNat → j < s'.hdr.blockSize.toNat → u'.sample c j = s'.sample c j
  delivered : s'.out.samples ≠ 0 → u'.outTs = s'.outTs ∧
    ∀ a, a < 2 * s'.out.samples.toNat * s'.out.channels.toNat → u'.outByte a = s'.outByte a
  undelivered : s'.out.samples = 0 → u'.outTs = u.outTs ∧ s'.outTs = s.outTs ∧ u'.mem = u.mem ∧ s'.mem = s.mem

/-- The bytes of a frame as the MD5 takes them depend on its samples only (R554). -/
theorem md5FrameBytes_congr {b c n : Nat} {s u : State}
    (h : ∀ d j, d < c → j < b → u.sample d j = s.sample d j) : md5FrameBytes u b c n = md5FrameBytes s b c n := by
  unfold md5FrameBytes
  refine List.flatMap_congr fun i hi => List.flatMap_congr fun d hd => ?_
  rw [h d i (List.mem_range.1 hd) (List.mem_range.1 hi)]

namespace State.sameSource

variable {s u s' u' : State} (h : s.sameSource u)
include h

theorem failureCounted (hs : failureCounted s s') (hu : failureCounted u u') : sameCounted s u s' u' := by
  obtain ⟨h1, h2, h3, h4, h5⟩ := hs
  obtain ⟨k1, k2, k3, k4, k5⟩ := hu
  rw [h.consec] at k3
  rw [h.consec, h.params, h.dstate] at k4
  exact ⟨k5.trans h5.symm, k3.trans h3.symm, k4.trans h4.symm, sub_eq_of_eq h2 k2, sub_eq_of_eq_add h1 k1⟩

theorem successCounted (hs : successCounted s s') (hu : successCounted u u') : sameCounted s u s' u' := by
  obtain ⟨h1, h2, h3, h4, h5⟩ := hs
  obtain ⟨k1, k2, k3, k4, k5⟩ := hu
  rw [h.dstate] at k4
  exact ⟨k5.trans h5.symm, k3.trans h3.symm, k4.trans h4.symm, sub_eq_of_eq_add h1 k1, sub_eq_of_eq h2 k2⟩

theorem deliveryReported {failed : Option (Nat × Cause)} {warn : Option Cause}
    (hs : deliveryReported failed warn s s') (hu : deliveryReported failed warn u u') :
    u'.err = s'.err ∧ sameCounted s u s' u' := by
  unfold Machine.deliveryReported at hs hu
  split at hs
  · exact ⟨hu.2.trans hs.2.symm, h.successCounted hs.1 hu.1⟩
  · exact ⟨hu.2.trans hs.2.symm, h.successCounted hs.1 hu.1⟩
  · exact ⟨hu.2.trans hs.2.symm, h.failureCounted hs.1 hu.1⟩

theorem nothingDelivered (hs : nothingDelivered s s') (hu : nothingDelivered u u') :
    (u'.pos = s'.pos ∧ u'.md5 = s'.md5) ∧
      (u'.outTs = u.outTs ∧ s'.outTs = s.outTs ∧ u'.mem = u.mem ∧ s'.mem = s.mem) := by
  obtain ⟨hpos, hts, hmd5, hmem⟩ := hs
  obtain ⟨kpos, kts, kmd5, kmem⟩ := hu
  exact ⟨⟨by rw [kpos, hpos, h.pos], by rw [kmd5, hmd5, h.md5]⟩, kts, hts, kmem, hmem⟩

/-- A frame with the same samples is delivered the same (R508 to R511). -/
theorem frameDelivered {b c r n : Nat} (hs : frameDelivered b c r n s s') (hu : frameDelivered b c r n u u')
    (hx : ∀ d j, d < c → j < b → u'.sample d j = s'.sample d j) :
    u'.out = s'.out ∧ (u'.pos = s'.pos ∧ u'.md5 = s'.md5) ∧ u'.outTs = s'.outTs ∧
      ∀ a, a < 2 * b * c → u'.outByte a = s'.outByte a := by
  obtain ⟨hbytes, -, hts, hpos, hout, hmd5⟩ := hs
  obtain ⟨kbytes, -, kts, kpos, kout, kmd5⟩ := hu
  rw [md5FrameBytes_congr hx, h.cfg, h.md5] at kmd5
  refine ⟨kout.trans hout.symm, ⟨by rw [kpos, hpos, h.pos], kmd5.trans hmd5.symm⟩, by rw [kts, hts, h.pos],
    fun a ha => ?_⟩
  have hm : a / 2 < c * b := by rw [Nat.mul_assoc, Nat.mul_comm b c] at ha; omega
  have hj : a / 2 % c < c := Nat.mod_lt _ (Nat.pos_of_lt_mul_right hm)
  have hi : a / 2 / c < b := Nat.div_lt_of_lt_mul hm
  obtain ⟨hlow, hhigh⟩ := hbytes _ _ hi hj
  obtain ⟨klow, khigh⟩ := kbytes _ _ hi hj
  rw [hx _ _ hj hi, Nat.div_add_mod'] at klow khigh
  rw [Nat.div_add_mod'] at hlow hhigh
  rcases Nat.mod_two_eq_zero_or_one a with h2 | h2
  · rw [show a = 2 * (a / 2) by omega, klow, hlow]
  · rw [show a = 2 * (a / 2) + 1 by omega, khigh, hhigh]

/-! The outcomes. -/

theorem deliveredOutcome {o : Nat} {hd : FrameHeader} {failed : Option (Nat × Cause)} {warn : Option Cause}
    (hs : deliveredOutcome s o hd failed warn s') (hu : deliveredOutcome u o hd failed warn u') (ha : s.admits hd)
    (hf : sameFooter s' u') (hx : ∀ c j, c < hd.channels → j < hd.blockSize → u'.sample c j = s'.sample c j) :
    sameAnswer s u s' u' := by
  obtain ⟨hframe, hpos, -, -, hrec⟩ := hs.delivered
  obtain ⟨kframe, -, -, -, krec⟩ := hu.delivered
  obtain ⟨hblock, -, hcount, -⟩ := hs.shown.sizes ha
  have hregs := hs.shown.registers hu.shown hf
  obtain ⟨hhdr, hoff, -⟩ := headerRegisters_eq.1 hregs
  rw [hhdr] at kframe
  rw [← hblock, ← hcount] at hx
  obtain ⟨herr, hcounted⟩ := h.deliveryReported hs.reported hu.reported
  obtain ⟨hout, hstream, hts, hbytes⟩ := h.frameDelivered hframe kframe hx
  have hshown : s'.out.samples = s'.hdr.blockSize ∧ s'.out.channels = s'.hdr.count := by
    obtain ⟨-, -, -, -, hout, -⟩ := hframe
    rw [hout]
    exact ⟨(BitVec.ofNat_toNat 16 _).trans (BitVec.setWidth_eq _),
      (BitVec.ofNat_toNat 4 _).trans (BitVec.setWidth_eq _)⟩
  rw [← hshown.1] at hbytes hpos
  rw [← hshown.2] at hbytes
  exact ⟨herr, hcounted, hu.mismatch.trans hs.mismatch.symm, hu.silenced.trans hs.silenced.symm,
    by rw [krec, hrec, hoff], hout, hstream, fun hcode => absurd hcode hs.reported.code, fun _ => ⟨hregs, hx⟩,
    fun _ => ⟨hts, hbytes⟩, fun h0 => absurd hpos (by rw [h0]; decide)⟩

theorem rejectedOutcome {o : Nat} {hd : FrameHeader} {cause : Cause} (hs : rejectedOutcome s o hd cause s')
    (hu : rejectedOutcome u o hd cause u') (ha : s.admits hd) (hf : sameFooter s' u')
    (hx : ∀ c j, c < hd.channels → j < hd.blockSize → u'.sample c j = s'.sample c j) : sameAnswer s u s' u' := by
  obtain ⟨hblock, -, hcount, -⟩ := hs.shown.sizes ha
  have hregs := hs.shown.registers hu.shown hf
  obtain ⟨-, hoff, -⟩ := headerRegisters_eq.1 hregs
  rw [← hblock, ← hcount] at hx
  obtain ⟨hstream, hkept⟩ := h.nothingDelivered hs.stored hu.stored
  exact ⟨hu.err.trans hs.err.symm, h.failureCounted hs.failure hu.failure, hu.mismatch.trans hs.mismatch.symm,
    hu.silenced.trans hs.silenced.symm, by rw [hu.recovered, hs.recovered, hoff], hu.out.trans hs.out.symm, hstream,
    fun hcode => absurd hcode (by simp [hs.err]), fun _ => ⟨hregs, hx⟩,
    fun h0 => absurd (congrArg _ hs.out) h0, fun _ => hkept⟩

theorem noFrameOutcome {e : Cause} (hs : noFrameOutcome s e s') (hu : noFrameOutcome u e u') :
    sameAnswer s u s' u' := by
  obtain ⟨hstream, hkept⟩ := h.nothingDelivered hs.stored hu.stored
  refine ⟨hu.err.trans hs.err.symm, h.failureCounted hs.failure hu.failure, hu.mismatch.trans hs.mismatch.symm,
    hu.silenced.trans hs.silenced.symm, hu.recovered.trans hs.recovered.symm, hu.out.trans hs.out.symm, hstream,
    fun _ => ⟨hs.registers, hu.registers, hs.rows, hu.rows⟩, fun hcode => absurd ?_ hcode,
    fun h0 => absurd (congrArg _ hs.out) h0, fun _ => hkept⟩
  rw [hs.err]
  split_ifs
  · exact .inl rfl
  · exact .inr rfl

theorem admits {hd : FrameHeader} (ha : s.admits hd) : u.admits hd :=
  ⟨ha.block, ha.channels, ha.assigned, h.si ▸ ha.siChannels, h.si ▸ ha.bps⟩

/-- Two DECODEs of one chunk find the same frame or none, and end alike at its first failing subframe or its footer. -/
theorem decodeChunk (hs : s.ch.length = 8) (hu : u.ch.length = 8) :
    sameAnswer s u s.decodeChunk u.decodeChunk := by
  rcases s.beginDecode_findFrame with ⟨o, hd, p, hfound, -⟩ | ⟨hfail, -⟩
  · have kfound := h.frameFoundAt hfound
    have ha := State.admits_of_parse hfound.2.1
    have hx : ∀ c j, c < hd.channels → j < hd.blockSize → u.decodeChunk.sample c j = s.decodeChunk.sample c j :=
      fun c j => h.samples hs hu hfound
    have hsub := h.chunk.readSubframes hd hd.channels 0 p
    cases hr : readSubframes s.chunk hd hd.channels 0 p with
    | error x =>
      obtain ⟨-, hs', hbytes, hread, hcalc⟩ := State.decodeChunk_failed hfound hr
      obtain ⟨-, hu', kbytes, kread, kcalc⟩ := State.decodeChunk_failed kfound (hsub.trans hr)
      exact h.deliveredOutcome hs' hu' ha
        ⟨kbytes.trans hbytes.symm, kread.trans hread.symm, kcalc.trans hcalc.symm⟩ hx
    | ok q =>
      obtain ⟨htrouble, hsame⟩ := h.chunk.footer o (readSubframes_inside hr hfound.inside)
      obtain ⟨hshown, hs'⟩ := State.decodeChunk_read hfound hr
      obtain ⟨kshown, hu'⟩ := State.decodeChunk_read kfound (hsub.trans hr)
      have hf := hshown.sameFooter (hsame _ kshown)
      rw [htrouble] at hu'
      cases hw : footerTrouble s.chunk o q with
      | none =>
        rw [hw] at hs' hu'
        exact h.deliveredOutcome hs' hu' ha hf hx
      | some w =>
        rw [hw] at hs' hu'
        dsimp only at hs' hu'
        rw [h.cfg] at hu'
        split_ifs at hs' hu'
        · exact h.rejectedOutcome hs' hu' ha hf hx
        · exact h.deliveredOutcome hs' hu' ha hf hx
  · obtain ⟨e, hfirst, -, hs'⟩ := State.decodeChunk_noFrame hfail
    obtain ⟨e', kfirst, -, hu'⟩ := State.decodeChunk_noFrame (h.allFail hfail)
    obtain rfl : e = e' := Option.some.inj (hfirst.symm.trans (h.firstHeaderCause.symm.trans kfirst))
    exact h.noFrameOutcome hs' hu'

end State.sameSource

/-- Settles O29: two DECODEs of one chunk read alike, store the same samples and so answer the same. -/
theorem decodeDependsOnlyOnItsInputs : Obligations.DecodeDependsOnlyOnItsInputs := by
  intro s u s' u' hstart hs hu hbyte hlen hsi hpos hcfg hparams hdstate hconsec hmd5 hes heu
  have h : s.sameSource u := ⟨hbyte, hlen, hsi, hpos, hcfg, hparams, hdstate, hconsec, hmd5⟩
  have kstart : u.decodeStarts := by unfold State.decodeStarts; rwa [hdstate, hlen, hparams]
  obtain rfl : s.decodeChunk = s' := Host.Outcome.next.inj ((exec_decode_starts hstart).symm.trans hes)
  obtain rfl : u.decodeChunk = u' := Host.Outcome.next.inj ((exec_decode_starts kstart).symm.trans heu)
  have hev : ∀ {v : State}, v.decodeStarts → v.ch.length = 8 → eventsCounted v v.decodeChunk := by
    intro v hv hrows
    obtain ⟨t, ht, -, hev, -⟩ := decodeOutcomes v hv hrows
    rw [exec_decode_starts hv] at ht
    exact Host.Outcome.next.inj ht ▸ hev
  have hans := h.decodeChunk hs hu
  obtain ⟨hok, hconsec', hdstate', hframes, hfails⟩ := hans.counted
  obtain ⟨hsync, hcrc8, hcrc16, hsub⟩ := (hev hstart hs).same (hev kstart hu) h.firstHeaderCause hans.mismatch
    hans.silenced hans.recovered
  exact ⟨hans.err, hok, hans.mismatch, hans.silenced, hans.recovered, hconsec', hdstate', hans.out, hans.stream.1,
    hans.stream.2, hframes, hfails, hsync, hcrc8, hcrc16, hsub, hans.noHeader,
    fun h1 h2 => hans.header (not_or.2 ⟨h1, h2⟩), hans.delivered, hans.undelivered⟩

end Sys2Proof.Machine
